-- ==== Sys2Proof/Word.lean ====
section
/-!
DEFINITION. The sizes of the block's registers, ring, stack and FIFOs, which are parameters of the model
(00_scope R8), and the word and index types that they give (00_scope R12, 10_state R25, R40, R43).
-/

namespace Sys2Proof

/-! ## The sizes (00_scope R8)

Each is the reference value, and a model of another size has another number here. `delta%` puts the
number itself into a type, so that a proof meets `BitVec 32` and not the name (log 37). -/

namespace Config

/-- `REG_BITS`: the width of every scalar, bank, address and ring register. -/
def regBits : Nat := 32

/-- `PC_BITS`: the width of PC and of a program address. -/
def pcBits : Nat := 32

/-- `FIFO_DEPTH`: the words that a FIFO holds. -/
def fifoDepth : Nat := 8

/-- `FIFO_DEPTH + 1`: how many fill counts a FIFO has. -/
def fifoFills : Nat := 9

/-- `PR_SIZE`: the entries of the parameter ring. -/
def prSize : Nat := 24

/-- `PCS_DEPTH`: the entries of the program-counter stack. -/
def pcsDepth : Nat := 4

/-- `PCS_DEPTH + 1`: how many values PCSP has. -/
def pcsLevels : Nat := 5

end Config

/-! ## Types -/

/-- A register, or a data word of RAM-A, RAM-B or external memory (00_scope R12). -/
abbrev Word := BitVec (delta% Config.regBits)

/-- A program address (10_state R40). -/
abbrev PcWord := BitVec (delta% Config.pcBits)

/-- A bundle or a FIFO entry (00_scope R12). -/
abbrev DWord := BitVec 64

/-- One byte of a memory as the model lists it. -/
abbrev Byte := BitVec 8

/-- A place in the parameter ring, which PRP and PWP hold (10_state R28). -/
abbrev PrIndex := Fin (delta% Config.prSize)

/-- A place in the program-counter stack (10_state R30). -/
abbrev PcsIndex := Fin (delta% Config.pcsDepth)

/-- A value of PCSP (10_state R30). -/
abbrev PcsPointer := Fin (delta% Config.pcsLevels)

/-- A place in a FIFO, which its cursors hold (10_state R33). -/
abbrev FifoIndex := Fin (delta% Config.fifoDepth)

/-- A fill count of a FIFO (10_state R33). -/
abbrev FifoFill := Fin (delta% Config.fifoFills)

end Sys2Proof
end

