-- ==== Sys2Proof/Config.lean ====
section
/-!
DEFINITION. What an implementation or a launch fixes (the parameters of 00_scope R8) and the free
values the spec leaves open (93_implementation_defined, treatment "any value").
-/

namespace Sys2Proof

/-- `LAZY_FLAGS` (00_scope R8, 40_bundle R165): what becomes of a defined flag that is not required. -/
inductive LazyFlags where
  /-- the source's rule: the flag keeps its old value -/
  | stale
  /-- the conservative setting: the old or the new value, a free draw -/
  | either
  deriving DecidableEq, Repr

/-- A run of addresses: `base`, …, `base + size - 1`. -/
structure AddrRange where
  base : Nat
  size : Nat
  deriving DecidableEq, Repr

/-- The address is in the run. -/
def AddrRange.has {n : Nat} (r : AddrRange) (a : BitVec n) : Bool :=
  decide (r.base ≤ a.toNat) && decide (a.toNat < r.base + r.size)

/-- What `FMUL_FN` answers: the product and the flags MN, MZ, MV, MU and MD (42_mul R232). -/
structure FmulResult where
  r : Word
  n : Bool
  z : Bool
  v : Bool
  u : Bool
  d : Bool
  deriving DecidableEq, Repr

/-- The transfer field of a bundle, with the form that reads it (30_encoding R121 to R125). -/
inductive TransferField where
  | xfer1 (t : BitVec 26)
  | xfer2 (t : BitVec 26)
  | xfer3 (t : BitVec 26)
  | dxfer1 (t : BitVec 26)
  | dxfer2 (t : BitVec 26)
  | xferi (t : BitVec 41)
  deriving DecidableEq, Repr

/-- One slot's field: `bits` as the tables of spec/30_encoding.md read it, and `info`, the sub-opcode
information of the slot's fault (60_exceptions R350): the launch's own field, for a control op its own opcode
value. -/
structure SlotField (α : Type) where
  bits : α
  info : Nat
  deriving DecidableEq, Repr

/-- The fields of a bundle, one for each slot it has: any slots may stand together. -/
structure WordFields where
  tr : Option (SlotField TransferField)
  alu : Option (SlotField (BitVec 19))
  mul : Option (SlotField (BitVec 16))
  ctl : Option (SlotField (BitVec 41))
  deriving DecidableEq, Repr

/-- The parameters of 00_scope R8 that a launch may set. No step of the core changes them. A
parameter that is a function on a finite domain is a list of the points where it differs from its
reference value, so that every such function can be given and State stays plain data (log 4). -/
structure Params where
  /-- `ENCODING` and with it `ILLEGAL_CLASS` (00_scope R8, D1, D2): the words whose fields are not the ones
  spec/30_encoding.md gives them, each with its fields, or with none where its class is the illegal one. -/
  encoding : List (DWord × Option WordFields)
  /-- `FMUL_FN` (42_mul R232, D32): the pairs of operands whose product or flags are not the reference
  ones. -/
  fmulTable : List ((Word × Word) × FmulResult)
  /-- `PROG_MAPPED` (20_memory R61, D43): the addresses below `PROG_WORDS` that have no backing. -/
  progHoles : List AddrRange
  /-- `MUL_FCONST`: the multiplier's constant table (30_encoding R116, D8). -/
  mulFconst : Vector Word 8
  /-- `CYCLES`: the bundles that cost more than 1, each with the cycles beyond the first (40_bundle R156,
  D23). -/
  extraCycles : List (DWord × Nat)
  /-- `BLOCK_MAX_BUNDLES`: the block-formation window (45_dispatch R320, D22). -/
  blockMax : Nat
  /-- `FRAG_SIZE` (00_scope R8, D25): the blocks whose fragment does not take their bundle count, each given
  by its start address and raw bundles. -/
  fragTable : List ((PcWord × List (Option DWord)) × Nat)
  /-- `CACHE_CAPACITY` beyond the least that 00_scope R8 allows (45_dispatch R326, D25). -/
  cacheSpare : Nat
  /-- `RAMA_WORDS` (00_scope R8, 10_state R43, D11). -/
  ramAWords : Nat
  /-- `RAMB_WORDS` (00_scope R8, 20_memory R70, D11). -/
  ramBWords : Nat
  /-- `EXT_ADMIT`, as the ranges of admitted external word addresses (20_memory R68, D12). -/
  extAdmit : List AddrRange
  /-- `LAZY_FLAGS` (D21). -/
  lazyFlags : LazyFlags
  /-- `ADD_SAT`: whether ADD saturates (41_alu R202, D29). -/
  addSat : Bool
  /-- `HALT_ADDR`: the address of the end-of-run idiom, when a launch names one (70_reset R392). -/
  haltAddr : Option PcWord
  deriving DecidableEq, Repr

/-- `EXT_ADMIT(a)` (20_memory R68). -/
def Params.admits (p : Params) (a : Word) : Bool :=
  p.extAdmit.any fun r => r.has a

/-- `CYCLES(bundle)`, at least 1 (00_scope R8, 40_bundle R156). -/
def Params.cycles (p : Params) (w : DWord) : Nat :=
  1 + (p.extraCycles.lookup w).getD 0

/-- The window of block formation (45_dispatch R320). DESIGN CHOICE (log 35): the spec gives
`BLOCK_MAX_BUNDLES` no lower bound, and 0, which a block's length never meets, is taken as 1. -/
def Params.window (p : Params) : Nat := max 1 p.blockMax

/-- `CACHE_CAPACITY`, in units of `FRAG_SIZE`, at least `BLOCK_MAX_BUNDLES + 1` as 00_scope R8 says. DESIGN
CHOICE (log 36): vector W9 of spec/95_test_vectors.md takes 5 beside the window 64, which R327 admits and
R8's bound does not; the model follows R8. -/
def Params.cacheCapacity (p : Params) : Nat := p.window + 1 + p.cacheSpare

/-- `PROG_MAPPED(a)` where `PROG_WORDS` is `words` (00_scope R8, 20_memory R61, D43). -/
def Params.mapped (p : Params) (words : Nat) (a : PcWord) : Bool :=
  decide (a.toNat < words) && !p.progHoles.any fun r => r.has a

namespace Config

/-- The internal window of bank A (20_memory R68). -/
def windowA : Nat := 0x400

/-- `ILLEGAL_CLASS` (00_scope R8, D2). -/
def illegalClass : BitVec 3 := 6

/-- The reference table of `MUL_FCONST` (92_eei_decisions D8): 0, 1, -1, 2, -2, 0.5, -0.5, 0.25. -/
def mulFconst : Vector Word 8 :=
  #v[0x00000000, 0x3F800000, 0xBF800000, 0x40000000, 0xC0000000, 0x3F000000, 0xBF000000, 0x3E800000]

/-- The reference values of 00_scope R8. DESIGN CHOICE (log 4, log 5) for the values the spec leaves
open: the smallest capacity that R8 allows, every external word admitted, no `HALT_ADDR`. -/
def reference : Params where
  encoding := []
  fmulTable := []
  progHoles := []
  mulFconst := mulFconst
  extraCycles := []
  blockMax := 64
  fragTable := []
  cacheSpare := 0
  ramAWords := 0x400
  ramBWords := 0x400
  extAdmit := [⟨0, 2 ^ 32⟩]
  lazyFlags := .stale
  addSat := false
  haltAddr := none

/-- FREE VALUE (log 7): the `n`-th `draw(UInt32)` of a run (00_scope R11). Nothing constrains it. -/
opaque freeWord : Nat → Word

/-- FREE VALUE (log 7): the `n`-th draw of a 64-bit word. Nothing constrains it. -/
opaque freeDWord : Nat → DWord

/-- FREE VALUE (log 7): the `n`-th `draw(Bool)` of a run (00_scope R11). Nothing constrains it. -/
opaque freeBit : Nat → Bool

/-- FREE VALUE (log 7): the `n`-th draw of a number below a bound; it is reduced modulo the bound. -/
opaque freeNat : Nat → Nat

end Config

end Sys2Proof
end

