-- ==== Sys2Proof/Syntax.lean ====
section
/-!
DEFINITION. The syntax: operand forms, the 26 sub-operations of spec/opcode_table.json as one
inductive `Instr`, and the bundle that carries up to four of them (30_encoding).
-/

namespace Sys2Proof

/-- How a PR access moves its pointer (10_state R29). -/
inductive PrMode where
  | plain
  | inc
  | dec
  | rst
  deriving DecidableEq, Repr

/-- A register of the four banks (10_state R21 to R24). -/
inductive BankReg where
  | aa (n : Fin 8)
  | ab (n : Fin 8)
  | ma (n : Fin 8)
  | mb (n : Fin 8)
  deriving DecidableEq, Repr

/-- The scalar control registers (10_state R35 to R39). -/
inductive Scalar where
  | eb
  | eo
  | sp
  | mod
  | pdr
  | ddr
  deriving DecidableEq, Repr

/-- The three FIFOs (10_state R33). -/
inductive FifoId where
  | fi
  | fo0
  | fo1
  deriving DecidableEq, Repr

/-- The 14 status flags (10_state R31). -/
inductive Flag where
  | az
  | an
  | av
  | au
  | ad
  | zc
  | il
  | nr
  | zd
  | mn
  | mz
  | mv
  | mu
  | md
  deriving DecidableEq, Repr

/-- ALU operand AI1 (30_encoding R112). -/
inductive AluSrc1 where
  | aa (n : Fin 8)
  | ab (n : Fin 8)
  deriving DecidableEq, Repr

/-- ALU operand AI2 (30_encoding R113). -/
inductive AluSrc2 where
  | aa (n : Fin 8)
  | ab (n : Fin 8)
  | pr (m : PrMode)
  | zero
  | one
  | minusOne
  | ma (n : Fin 8)
  deriving DecidableEq, Repr

/-- ALU destination AIO (30_encoding R114). -/
inductive AluDst where
  | aa (n : Fin 8)
  | ab (n : Fin 8)
  | pr (m : PrMode)
  | discard
  deriving DecidableEq, Repr

/-- MUL operand MI1 (30_encoding R115). -/
inductive MulSrc1 where
  | aa (n : Fin 8)
  | ma (n : Fin 8)
  deriving DecidableEq, Repr

/-- MUL operand MI2 (30_encoding R116). -/
inductive MulSrc2 where
  | ab (n : Fin 8)
  | mb (n : Fin 8)
  | pr (m : PrMode)
  | const (n : Fin 8)
  deriving DecidableEq, Repr

/-- MUL destination MIO (30_encoding R117). -/
inductive MulDst where
  | ma (n : Fin 8)
  | mb (n : Fin 8)
  | pr (m : PrMode)
  | discard
  deriving DecidableEq, Repr

/-- A transfer register, REG6 (30_encoding R120). -/
inductive Reg6 where
  | bank (r : BankReg)
  | ar (n : Fin 8)
  | pr (m : PrMode)
  | scalar (c : Scalar)
  | fi
  | fo0
  | fo1
  | prp
  | pwp
  deriving DecidableEq, Repr

/-- A data bank: A is RAM-A and the external window, B is RAM-B (20_memory R65, R73). -/
inductive MemBank where
  | a
  | b
  deriving DecidableEq, Repr

/-- The two addressing modes of XFER1 (30_encoding R121, 20_memory R66, R67). -/
inductive AddrMode where
  | postInc
  | disp12 (d : BitVec 12)
  deriving DecidableEq, Repr

/-- The direction of a double-transfer sub-move (30_encoding R123). -/
inductive Dir where
  | load
  | store
  deriving DecidableEq, Repr

/-- An enabled sub-move of a double transfer (30_encoding R123). -/
structure SubMove where
  dir : Dir
  reg : BankReg
  arx : Fin 8
  deriving DecidableEq, Repr

/-- The CLRF selector (44_control R292). -/
inductive ClrSel where
  | input
  | outputs
  | all
  deriving DecidableEq, Repr

/-- The sub-operations: one constructor per row of spec/opcode_table.json. -/
inductive Instr where
  | nopAlu
  | cif (src : AluSrc2) (dst : AluDst)
  | cfi (src : AluSrc2) (dst : AluDst)
  | add (s1 : AluSrc1) (s2 : AluSrc2) (dst : AluDst)
  | cmp (s1 : AluSrc1) (s2 : AluSrc2)
  | mnop
  | fmul (s1 : MulSrc1) (s2 : MulSrc2) (dst : MulDst)
  | mul (s1 : MulSrc1) (s2 : MulSrc2) (dst : MulDst)
  | tnop
  | mov (src dst : Reg6)
  | ld1 (reg : Reg6) (bank : MemBank) (mode : AddrMode) (arx : Fin 8)
  | st1 (reg : Reg6) (bank : MemBank) (mode : AddrMode) (arx : Fin 8)
  | ld2 (reg : Reg6) (bank : MemBank) (arx : Fin 8) (disp : BitVec 14)
  | st2 (reg : Reg6) (bank : MemBank) (arx : Fin 8) (disp : BitVec 14)
  | dx1 (a b : Option SubMove)
  | dx2
  | ldi (dst : Reg6) (imm : Word)
  | ldn (dst : Reg6) (imm : BitVec 20)
  | nopCtl
  | clrf (sel : ClrSel)
  | setm (imm : BitVec 16)
  | dbcc (cc : Flag) (disp : BitVec 16)
  | dbncc (cc : Flag) (disp : BitVec 16)
  | djmp (disp : BitVec 16)
  | dcall (disp : BitVec 16)
  | dret
  deriving DecidableEq, Repr

/-- The slot positions of a bundle (40_bundle R157). -/
inductive SlotKind where
  | tr
  | alu
  | mul
  | ctl
  deriving DecidableEq, Repr

/-- The slot that an op stands in (the "slot" of its row in spec/opcode_table.json). -/
def Instr.slot : Instr → SlotKind
  | .nopAlu | .cif .. | .cfi .. | .add .. | .cmp .. => .alu
  | .mnop | .fmul .. | .mul .. => .mul
  | .tnop | .mov .. | .ld1 .. | .st1 .. | .ld2 .. | .st2 .. | .dx1 .. | .dx2 | .ldi .. | .ldn .. => .tr
  | .nopCtl | .clrf .. | .setm .. | .dbcc .. | .dbncc .. | .djmp .. | .dcall .. | .dret => .ctl

/-- DBcc, DBNcc, DJMP, DCALL and DRET (40_bundle R151, `isxfer`). -/
def Instr.isTransfer : Instr → Bool
  | .dbcc .. | .dbncc .. | .djmp .. | .dcall .. | .dret => true
  | .nopAlu | .cif .. | .cfi .. | .add .. | .cmp .. | .mnop | .fmul .. | .mul .. => false
  | .tnop | .mov .. | .ld1 .. | .st1 .. | .ld2 .. | .st2 .. | .dx1 .. | .dx2 | .ldi .. | .ldn .. => false
  | .nopCtl | .clrf .. | .setm .. => false

/-- The seven legal format classes (30_encoding R102). -/
inductive FormatClass where
  | dualDxfer1
  | dualXfer1
  | dualDxfer2
  | dualXfer2
  | singleCtrl
  | singleXferi
  | dualXfer3
  deriving DecidableEq, Repr

/-- The fault kinds of 60_exceptions R350. -/
inductive FaultKind where
  | unimplementedBundle
  | unimplementedAlu
  | unimplementedMul
  | unimplementedTransfer
  | unimplementedControl
  | pcsOverflow
  | pcsUnderflow
  | unmappedCode
  deriving DecidableEq, Repr

/-- The fault codes of 60_exceptions R350. -/
def FaultKind.code : FaultKind → Nat
  | .unimplementedBundle => 1
  | .unimplementedAlu => 2
  | .unimplementedMul => 3
  | .unimplementedTransfer => 4
  | .unimplementedControl => 5
  | .pcsOverflow => 6
  | .pcsUnderflow => 7
  | .unmappedCode => 8

/-- What a slot decodes to (30_encoding R131): nothing, an op, or a fault kind with its
sub-opcode information. -/
inductive SlotDec where
  | absent
  | op (i : Instr)
  | bad (kind : FaultKind) (info : Nat)
  deriving DecidableEq, Repr

/-- Whether a slot is `Bad` (30_encoding R131). -/
def SlotDec.isBad : SlotDec → Bool
  | .bad .. => true
  | _ => false

/-- The op in a slot, if it holds one. -/
def SlotDec.instr? : SlotDec → Option Instr
  | .op i => some i
  | _ => none

/-- A decoded bundle of a legal class (30_encoding R131). -/
structure Bundle where
  cls : FormatClass
  tr : SlotDec
  alu : SlotDec
  mul : SlotDec
  ctl : SlotDec
  deriving DecidableEq, Repr

/-- The slot of a bundle at a position. -/
def Bundle.at (b : Bundle) : SlotKind → SlotDec
  | .tr => b.tr
  | .alu => b.alu
  | .mul => b.mul
  | .ctl => b.ctl

/-- The slots in performance order: transfer, ALU, MUL, control (40_bundle R158). -/
def Bundle.slots (b : Bundle) : List SlotDec := [b.tr, b.alu, b.mul, b.ctl]

/-- A decoded 64-bit word (30_encoding R131). -/
inductive Decoded where
  /-- `CLASS = ILLEGAL_CLASS`: `Bad(UnimplBundle)` -/
  | illegal
  | bundle (b : Bundle)
  deriving DecidableEq, Repr

/-- `HasBad(d)` (45_dispatch R320). -/
def Decoded.hasBad : Decoded → Bool
  | .illegal => true
  | .bundle b => b.slots.any SlotDec.isBad

end Sys2Proof
end

