-- ==== Sys2Proof/WellFormed.lean ====
section
/-!
DEFINITION. Which terms of the syntax some legal encoding gives (30_encoding R120 to R130): the
checks the decoder makes on a register's direction, on a zero displacement and on the slots a class has.
-/

namespace Sys2Proof

/-- A transfer may read the register (30_encoding R120): FO0 and FO1 may not be read. -/
def Reg6.readable : Reg6 → Bool
  | .fo0 | .fo1 => false
  | .bank _ | .ar _ | .pr _ | .scalar _ | .fi | .prp | .pwp => true

/-- A transfer may write the register (30_encoding R120): FI may not be written. -/
def Reg6.writable : Reg6 → Bool
  | .fi => false
  | .bank _ | .ar _ | .pr _ | .scalar _ | .fo0 | .fo1 | .prp | .pwp => true

/-- The op has a legal encoding (30_encoding R130). -/
def Instr.wf : Instr → Bool
  | .mov src dst => src.readable && dst.writable
  | .ld1 reg _ _ _ | .ld2 reg _ _ _ => reg.writable
  | .st1 reg _ _ _ | .st2 reg _ _ _ => reg.readable
  | .ldi dst _ | .ldn dst _ => dst.writable
  | .nopAlu | .cif .. | .cfi .. | .add .. | .cmp .. | .mnop | .fmul .. | .mul .. => true
  | .tnop | .dx1 .. | .dx2 => true
  | .nopCtl | .clrf .. | .setm .. | .dbcc .. | .dbncc .. | .djmp .. | .dcall .. | .dret => true

/-- The transfer ops that a format class encodes (30_encoding R102, R121 to R125). -/
def Instr.fitsTransferOf : FormatClass → Instr → Bool
  | .dualDxfer1, .dx1 .. => true
  | .dualXfer1, .tnop | .dualXfer1, .mov .. | .dualXfer1, .ld1 .. | .dualXfer1, .st1 .. => true
  | .dualDxfer2, .dx2 => true
  | .dualXfer2, .tnop | .dualXfer2, .mov .. | .dualXfer2, .ld2 .. | .dualXfer2, .st2 .. => true
  | .singleXferi, .ldi .. => true
  | .dualXfer3, .ldn .. => true
  | _, _ => false

/-- A slot holds a well-formed op of the given unit. -/
def SlotDec.holds (k : SlotKind) : SlotDec → Bool
  | .op i => i.slot == k && i.wf
  | .absent | .bad .. => false

/-- A slot holds a well-formed transfer op that the class encodes. -/
def SlotDec.holdsTransfer (c : FormatClass) : SlotDec → Bool
  | .op i => i.fitsTransferOf c && i.wf
  | .absent | .bad .. => false

/-- Exactly one of the unit slots of a single-layout bundle is filled (30_encoding R104). -/
def Bundle.oneUnit (b : Bundle) : Bool :=
  (b.alu.holds .alu && b.mul == .absent) || (b.alu == .absent && b.mul.holds .mul)

/-- The bundle is one that some word decodes to with no `Bad` slot (30_encoding R102 to R104). -/
def Bundle.wf (b : Bundle) : Bool :=
  match b.cls with
  | .dualDxfer1 | .dualXfer1 | .dualDxfer2 | .dualXfer2 | .dualXfer3 =>
    b.tr.holdsTransfer b.cls && b.alu.holds .alu && b.mul.holds .mul && b.ctl == .absent
  | .singleCtrl => b.tr == .absent && b.oneUnit && b.ctl.holds .ctl
  | .singleXferi => b.tr.holdsTransfer b.cls && b.oneUnit && b.ctl == .absent

end Sys2Proof
end

