-- ==== Sys2Proof/Decode.lean ====
section
/-!
DEFINITION. Decode, total on 64-bit words (30_encoding R131), and after it the encoder written from
the same tables. The encoding is the reference encoding of spec/30_encoding.md.
-/

namespace Sys2Proof

/-! ## Operand codes -/

/-- The register number in three bits. -/
def regIndex (b : BitVec 3) : Fin 8 := b.toFin

/-- The PR mode in the two low bits of a PR code (30_encoding R113, R120). -/
def PrMode.ofBits (b : BitVec 2) : PrMode :=
  if b = 0 then .plain else if b = 1 then .inc else if b = 2 then .dec else .rst

/-- The bank register of a number 0..31 (10_state R26). -/
def BankReg.ofBits (b : BitVec 5) : BankReg :=
  let n := regIndex (b.extractLsb' 0 3)
  if b < 0x08 then .aa n else if b < 0x10 then .ab n else if b < 0x18 then .ma n else .mb n

/-- AI1 (30_encoding R112). -/
def AluSrc1.ofBits (b : BitVec 4) : AluSrc1 :=
  let n := regIndex (b.extractLsb' 0 3)
  if b < 0x8 then .aa n else .ab n

/-- AI2 (30_encoding R113). -/
def AluSrc2.ofBits (b : BitVec 5) : Option AluSrc2 :=
  let n := regIndex (b.extractLsb' 0 3)
  if b < 0x08 then some (.aa n)
  else if b < 0x10 then some (.ab n)
  else if b < 0x14 then some (.pr (.ofBits (b.extractLsb' 0 2)))
  else if b = 0x14 then some .zero
  else if b = 0x15 then some .one
  else if b = 0x16 then some .minusOne
  else if b = 0x17 then none
  else some (.ma n)

/-- AIO (30_encoding R114). -/
def AluDst.ofBits (b : BitVec 5) : Option AluDst :=
  let n := regIndex (b.extractLsb' 0 3)
  if b < 0x08 then some (.aa n)
  else if b < 0x10 then some (.ab n)
  else if b < 0x14 then some (.pr (.ofBits (b.extractLsb' 0 2)))
  else if b = 0x1F then some .discard
  else none

/-- MI1 (30_encoding R115). -/
def MulSrc1.ofBits (b : BitVec 4) : MulSrc1 :=
  let n := regIndex (b.extractLsb' 0 3)
  if b < 0x8 then .aa n else .ma n

/-- MI2 (30_encoding R116). -/
def MulSrc2.ofBits (b : BitVec 5) : Option MulSrc2 :=
  let n := regIndex (b.extractLsb' 0 3)
  if b < 0x08 then some (.ab n)
  else if b < 0x10 then some (.mb n)
  else if b < 0x14 then some (.pr (.ofBits (b.extractLsb' 0 2)))
  else if b < 0x1C then some (.const (regIndex ((b - 0x14).extractLsb' 0 3)))
  else none

/-- MIO (30_encoding R117). -/
def MulDst.ofBits (b : BitVec 5) : Option MulDst :=
  let n := regIndex (b.extractLsb' 0 3)
  if b < 0x08 then some (.ma n)
  else if b < 0x10 then some (.mb n)
  else if b < 0x14 then some (.pr (.ofBits (b.extractLsb' 0 2)))
  else if b = 0x1F then some .discard
  else none

/-- REG6 (30_encoding R120). -/
def Reg6.ofBits (b : BitVec 6) : Option Reg6 :=
  if b < 0x20 then some (.bank (.ofBits (b.extractLsb' 0 5)))
  else if b < 0x28 then some (.ar (regIndex (b.extractLsb' 0 3)))
  else if b < 0x2C then some (.pr (.ofBits (b.extractLsb' 0 2)))
  else if b = 0x2C then some (.scalar .eb)
  else if b = 0x2D then some (.scalar .eo)
  else if b = 0x2E then some (.scalar .sp)
  else if b = 0x2F then some (.scalar .mod)
  else if b = 0x30 then some (.scalar .pdr)
  else if b = 0x31 then some (.scalar .ddr)
  else if b = 0x32 then some .fi
  else if b = 0x33 then some .fo0
  else if b = 0x34 then some .fo1
  else if b = 0x35 then some .prp
  else if b = 0x36 then some .pwp
  else none

/-- A REG6 code in a destination field: reserved codes and FI are refused (30_encoding R120). -/
def Reg6.dstOfBits (b : BitVec 6) : Option Reg6 := (Reg6.ofBits b).filter Reg6.writable

/-- A REG6 code in a source field: reserved codes, FO0 and FO1 are refused (30_encoding R120). -/
def Reg6.srcOfBits (b : BitVec 6) : Option Reg6 := (Reg6.ofBits b).filter Reg6.readable

/-- The condition code (30_encoding R126, 10_state R31). -/
def Flag.ofBits (b : BitVec 4) : Option Flag :=
  if b = 0 then some .az
  else if b = 1 then some .an
  else if b = 2 then some .av
  else if b = 3 then some .au
  else if b = 4 then some .ad
  else if b = 5 then some .zc
  else if b = 6 then some .il
  else if b = 7 then some .nr
  else if b = 8 then some .zd
  else if b = 9 then some .mn
  else if b = 10 then some .mz
  else if b = 11 then some .mv
  else if b = 12 then some .mu
  else if b = 13 then some .md
  else none

/-- BANK (30_encoding R121). -/
def MemBank.ofBit (b : BitVec 1) : MemBank := if b = 0 then .a else .b

/-! ## Slot fields -/

/-- An op, or the slot's fault with its field as the sub-opcode information (30_encoding R130). -/
def SlotDec.ofOption (k : FaultKind) (info : Nat) : Option Instr → SlotDec
  | some i => .op i
  | none => .bad k info

/-- The ALU field `A[18:0]` (30_encoding R105, R106, R118). -/
def decodeAluOp (a : BitVec 19) : Option Instr :=
  let s1 := AluSrc1.ofBits (a.extractLsb' 10 4)
  let s2 := AluSrc2.ofBits (a.extractLsb' 5 5)
  let d := AluDst.ofBits (a.extractLsb' 0 5)
  let op := a.extractLsb' 14 5
  if op = 0x07 then some .nopAlu
  else if op = 0x0D then s2.bind fun s => d.map fun t => .cif s t
  else if op = 0x0E then s2.bind fun s => d.map fun t => .cfi s t
  else if op = 0x10 then s2.bind fun s => d.map fun t => .add s1 s t
  else if op = 0x14 then s2.map fun s => .cmp s1 s
  else none

/-- The ALU slot (30_encoding R131). -/
def decodeAlu (a : BitVec 19) : SlotDec := .ofOption .unimplementedAlu a.toNat (decodeAluOp a)

/-- The MUL field `M[15:0]` (30_encoding R107, R108, R118). -/
def decodeMulOp (m : BitVec 16) : Option Instr :=
  let s1 := MulSrc1.ofBits (m.extractLsb' 10 4)
  let s2 := MulSrc2.ofBits (m.extractLsb' 5 5)
  let d := MulDst.ofBits (m.extractLsb' 0 5)
  let op := m.extractLsb' 14 2
  if op = 0 then some .mnop
  else if op = 1 then s2.bind fun s => d.map fun t => .fmul s1 s t
  else if op = 2 then s2.bind fun s => d.map fun t => .mul s1 s t
  else none

/-- The MUL slot (30_encoding R131). -/
def decodeMul (m : BitVec 16) : SlotDec := .ofOption .unimplementedMul m.toNat (decodeMulOp m)

/-- KIND 1 of XFER1 and XFER2: register to register (30_encoding R121). -/
def decodeMovOp (t : BitVec 26) : Option Instr :=
  if t.extractLsb' 0 12 = 0 then
    (Reg6.srcOfBits (t.extractLsb' 12 6)).bind fun s =>
      (Reg6.dstOfBits (t.extractLsb' 18 6)).map fun d => .mov s d
  else none

/-- The mode of an XFER1 load or store; DISP12 must be 0 when MODE = 0 (30_encoding R121). -/
def decodeMode1 (t : BitVec 26) : Option AddrMode :=
  if t.extractLsb' 15 1 ≠ 0 then none
  else if t.extractLsb' 16 1 = 1 then some (.disp12 (t.extractLsb' 0 12))
  else if t.extractLsb' 0 12 = 0 then some .postInc
  else none

/-- XFER1 (30_encoding R121). -/
def decodeXfer1Op (t : BitVec 26) : Option Instr :=
  let kind := t.extractLsb' 24 2
  let bank := MemBank.ofBit (t.extractLsb' 17 1)
  let arx := regIndex (t.extractLsb' 12 3)
  if kind = 0 then (if t.extractLsb' 0 24 = 0 then some .tnop else none)
  else if kind = 1 then decodeMovOp t
  else if kind = 2 then
    (Reg6.dstOfBits (t.extractLsb' 18 6)).bind fun r =>
      (decodeMode1 t).map fun m => .ld1 r bank m arx
  else
    (Reg6.srcOfBits (t.extractLsb' 18 6)).bind fun r =>
      (decodeMode1 t).map fun m => .st1 r bank m arx

/-- XFER2 (30_encoding R122). -/
def decodeXfer2Op (t : BitVec 26) : Option Instr :=
  let kind := t.extractLsb' 24 2
  let bank := MemBank.ofBit (t.extractLsb' 17 1)
  let arx := regIndex (t.extractLsb' 14 3)
  let disp := t.extractLsb' 0 14
  if kind = 0 then (if t.extractLsb' 0 24 = 0 then some .tnop else none)
  else if kind = 1 then decodeMovOp t
  else if kind = 2 then (Reg6.dstOfBits (t.extractLsb' 18 6)).map fun r => .ld2 r bank arx disp
  else (Reg6.srcOfBits (t.extractLsb' 18 6)).map fun r => .st2 r bank arx disp

/-- A 13-bit sub-move (30_encoding R123): outside, `none` is a refused encoding; inside, `none` is no
movement. -/
def decodeSubMove (s : BitVec 13) : Option (Option SubMove) :=
  if s.extractLsb' 12 1 = 0 then (if s.extractLsb' 0 12 = 0 then some none else none)
  else if s.extractLsb' 0 3 = 0 then
    some (some
      { dir := if s.extractLsb' 11 1 = 0 then .load else .store
        reg := .ofBits (s.extractLsb' 6 5)
        arx := regIndex (s.extractLsb' 3 3) })
  else none

/-- DXFER1 (30_encoding R123). -/
def decodeDxfer1Op (t : BitVec 26) : Option Instr :=
  (decodeSubMove (t.extractLsb' 13 13)).bind fun a =>
    (decodeSubMove (t.extractLsb' 0 13)).map fun b => .dx1 a b

/-- DXFER2: only the form with both sub-moves off is legal (30_encoding R123). -/
def decodeDxfer2Op (t : BitVec 26) : Option Instr := if t = 0 then some .dx2 else none

/-- XFERI (30_encoding R124). -/
def decodeXferiOp (t : BitVec 41) : Option Instr :=
  if t.extractLsb' 32 3 = 0 then
    (Reg6.dstOfBits (t.extractLsb' 35 6)).map fun d => .ldi d (t.extractLsb' 0 32)
  else none

/-- XFER3 (30_encoding R125). -/
def decodeXfer3Op (t : BitVec 26) : Option Instr :=
  (Reg6.dstOfBits (t.extractLsb' 20 6)).map fun d => .ldn d (t.extractLsb' 0 20)

/-- The transfer slot of a dual-layout class (30_encoding R131). -/
def decodeTransfer (op : BitVec 26 → Option Instr) (t : BitVec 26) : SlotDec :=
  .ofOption .unimplementedTransfer t.toNat (op t)

/-- The CLRF selector (30_encoding R129). -/
def ClrSel.ofBits (b : BitVec 16) : Option ClrSel :=
  if b = 1 then some .input else if b = 2 then some .outputs else if b = 3 then some .all else none

/-- The control field `TAIL[40:0]` of class 4 (30_encoding R127, R128). -/
def decodeCtrlOp (t : BitVec 41) : Option Instr :=
  let cop := t.extractLsb' 36 5
  let cc := t.extractLsb' 32 4
  let imm := t.extractLsb' 0 16
  if t.extractLsb' 16 16 ≠ 0 then none
  else if cop = 0x10 then (Flag.ofBits cc).map fun f => .dbcc f imm
  else if cop = 0x11 then (Flag.ofBits cc).map fun f => .dbncc f imm
  else if cc ≠ 0 then none
  else if cop = 0x00 then (if imm = 0 then some .nopCtl else none)
  else if cop = 0x03 then (ClrSel.ofBits imm).map .clrf
  else if cop = 0x08 then some (.setm imm)
  else if cop = 0x12 then some (.djmp imm)
  else if cop = 0x14 then some (.dcall imm)
  else if cop = 0x15 then (if imm = 0 then some .dret else none)
  else none

/-- The control slot; its fault carries the COP value (30_encoding R130). -/
def decodeCtrl (t : BitVec 41) : SlotDec :=
  .ofOption .unimplementedControl (t.extractLsb' 36 5).toNat (decodeCtrlOp t)

/-! ## Bundles -/

/-- The format class (30_encoding R101, R102). -/
def FormatClass.ofBits (b : BitVec 3) : Option FormatClass :=
  if b = Config.illegalClass then none
  else if b = 0 then some .dualDxfer1
  else if b = 1 then some .dualXfer1
  else if b = 2 then some .dualDxfer2
  else if b = 3 then some .dualXfer2
  else if b = 4 then some .singleCtrl
  else if b = 5 then some .singleXferi
  else some .dualXfer3

/-- The dual layout (30_encoding R103). -/
def decodeDual (c : FormatClass) (op : BitVec 26 → Option Instr) (w : DWord) : Bundle where
  cls := c
  tr := decodeTransfer op (w.extractLsb' 0 26)
  alu := decodeAlu (w.extractLsb' 42 19)
  mul := decodeMul (w.extractLsb' 26 16)
  ctl := .absent

/-- The ALU slot of the single layout (30_encoding R104). -/
def singleAlu (w : DWord) : SlotDec :=
  if w.extractLsb' 60 1 = 0 then decodeAlu (w.extractLsb' 41 19) else .absent

/-- The MUL slot of the single layout; `W[59:57]` must be 0 (30_encoding R104). -/
def singleMul (w : DWord) : SlotDec :=
  if w.extractLsb' 60 1 = 0 then .absent
  else if w.extractLsb' 57 3 = 0 then decodeMul (w.extractLsb' 41 16)
  else .bad .unimplementedMul (w.extractLsb' 41 16).toNat

/-- Decode on the words of a legal class (30_encoding R131). -/
def decodeClass (c : FormatClass) (w : DWord) : Bundle :=
  match c with
  | .dualDxfer1 => decodeDual c decodeDxfer1Op w
  | .dualXfer1 => decodeDual c decodeXfer1Op w
  | .dualDxfer2 => decodeDual c decodeDxfer2Op w
  | .dualXfer2 => decodeDual c decodeXfer2Op w
  | .dualXfer3 => decodeDual c decodeXfer3Op w
  | .singleCtrl =>
    { cls := c, tr := .absent, alu := singleAlu w, mul := singleMul w
      ctl := decodeCtrl (w.extractLsb' 0 41) }
  | .singleXferi =>
    { cls := c, alu := singleAlu w, mul := singleMul w, ctl := .absent
      tr := .ofOption .unimplementedTransfer (w.extractLsb' 0 41).toNat
        (decodeXferiOp (w.extractLsb' 0 41)) }

/-- Decode, total on every 64-bit word (30_encoding R131). -/
def decode (w : DWord) : Decoded :=
  match FormatClass.ofBits (w.extractLsb' 61 3) with
  | none => .illegal
  | some c => .bundle (decodeClass c w)

/-- The class that a transfer form stands in (30_encoding R102). -/
def TransferField.cls : TransferField → FormatClass
  | .xfer1 _ => .dualXfer1
  | .xfer2 _ => .dualXfer2
  | .xfer3 _ => .dualXfer3
  | .dxfer1 _ => .dualDxfer1
  | .dxfer2 _ => .dualDxfer2
  | .xferi _ => .singleXferi

/-- The op of a transfer field, by its form. -/
def TransferField.op? : TransferField → Option Instr
  | .xfer1 t => decodeXfer1Op t
  | .xfer2 t => decodeXfer2Op t
  | .xfer3 t => decodeXfer3Op t
  | .dxfer1 t => decodeDxfer1Op t
  | .dxfer2 t => decodeDxfer2Op t
  | .xferi t => decodeXferiOp t

/-- What a slot with a field decodes to: its op, or the slot's fault with the field's information. -/
def SlotField.slot {α : Type} (k : FaultKind) (op : α → Option Instr) : Option (SlotField α) → SlotDec
  | none => .absent
  | some f => .ofOption k f.info (op f.bits)

/-- The bundle that fields stand for. Its class is that of its transfer form, which no step reads. -/
def WordFields.bundle (f : WordFields) : Bundle where
  cls := (f.tr.map fun x => x.bits.cls).getD .singleCtrl
  tr := SlotField.slot .unimplementedTransfer TransferField.op? f.tr
  alu := SlotField.slot .unimplementedAlu decodeAluOp f.alu
  mul := SlotField.slot .unimplementedMul decodeMulOp f.mul
  ctl := SlotField.slot .unimplementedControl decodeCtrlOp f.ctl

/-- Decode under the launch's `ENCODING` (00_scope R8). -/
def Params.decodeWord (p : Params) (w : DWord) : Decoded :=
  match p.encoding.lookup w with
  | none => decode w
  | some none => .illegal
  | some (some f) => .bundle f.bundle

/-- The transfer field of a bundle, `T` or `TAIL` in the reference encoding, which the transfer fault
reports (60_exceptions R350). -/
def Params.transferInfo (p : Params) (w : DWord) : Nat :=
  match p.encoding.lookup w with
  | some (some f) => (f.tr.map SlotField.info).getD 0
  | none | some none =>
    if w.extractLsb' 61 3 = 4 ∨ w.extractLsb' 61 3 = 5 then (w.extractLsb' 0 41).toNat
    else (w.extractLsb' 0 26).toNat

/-! ## The instruction a word is read as

A bundle holds up to four instructions. DESIGN CHOICE (log 17): the one a word stands for is its
first op in performance order that does something; failing that, its ALU NOP, its TNOP, its
control NOP or its MNOP. -/

/-- The ops with no effect at all, which stand for an empty slot (30_encoding R103). -/
def Instr.isNop : Instr → Bool
  | .nopAlu | .mnop | .tnop | .nopCtl => true
  | .cif .. | .cfi .. | .add .. | .cmp .. | .fmul .. | .mul .. => false
  | .mov .. | .ld1 .. | .st1 .. | .ld2 .. | .st2 .. | .dx1 .. | .dx2 | .ldi .. | .ldn .. => false
  | .clrf .. | .setm .. | .dbcc .. | .dbncc .. | .djmp .. | .dcall .. | .dret => false

/-- A slot's op where it does something. -/
def SlotDec.active? (d : SlotDec) : Option Instr := d.instr?.filter fun i => !i.isNop

/-- The op a bundle stands for (log 17). -/
def Bundle.principal (b : Bundle) : Option Instr :=
  match b.slots.filterMap SlotDec.active? with
  | i :: _ => some i
  | [] => ([b.alu, b.tr, b.ctl, b.mul].filterMap SlotDec.instr?).head?

/-- The instruction the decoder reads from `w`, its low `nbits` bits given by the opcode table and
the bits above them 0. -/
def decodeTableWord (nbits w : Nat) : Option Instr :=
  match decode (BitVec.ofNat 64 (w % 2 ^ nbits)) with
  | .illegal => none
  | .bundle b => b.principal

/-! ## Encoding -/

/-- Three bits of a register number. -/
def regBits (n : Fin 8) : BitVec 3 := BitVec.ofFin n

/-- Two bits of a PR mode. -/
def PrMode.bits : PrMode → BitVec 2
  | .plain => 0
  | .inc => 1
  | .dec => 2
  | .rst => 3

/-- The number of a bank register (10_state R26). -/
def BankReg.bits : BankReg → BitVec 5
  | .aa n => 0b00#2 ++ regBits n
  | .ab n => 0b01#2 ++ regBits n
  | .ma n => 0b10#2 ++ regBits n
  | .mb n => 0b11#2 ++ regBits n

def AluSrc1.bits : AluSrc1 → BitVec 4
  | .aa n => 0#1 ++ regBits n
  | .ab n => 1#1 ++ regBits n

def AluSrc2.bits : AluSrc2 → BitVec 5
  | .aa n => 0b00#2 ++ regBits n
  | .ab n => 0b01#2 ++ regBits n
  | .pr m => 0b100#3 ++ m.bits
  | .zero => 0x14
  | .one => 0x15
  | .minusOne => 0x16
  | .ma n => 0b11#2 ++ regBits n

def AluDst.bits : AluDst → BitVec 5
  | .aa n => 0b00#2 ++ regBits n
  | .ab n => 0b01#2 ++ regBits n
  | .pr m => 0b100#3 ++ m.bits
  | .discard => 0x1F

def MulSrc1.bits : MulSrc1 → BitVec 4
  | .aa n => 0#1 ++ regBits n
  | .ma n => 1#1 ++ regBits n

def MulSrc2.bits : MulSrc2 → BitVec 5
  | .ab n => 0b00#2 ++ regBits n
  | .mb n => 0b01#2 ++ regBits n
  | .pr m => 0b100#3 ++ m.bits
  | .const n => 0x14 + (0b00#2 ++ regBits n)

def MulDst.bits : MulDst → BitVec 5
  | .ma n => 0b00#2 ++ regBits n
  | .mb n => 0b01#2 ++ regBits n
  | .pr m => 0b100#3 ++ m.bits
  | .discard => 0x1F

def Scalar.bits : Scalar → BitVec 6
  | .eb => 0x2C
  | .eo => 0x2D
  | .sp => 0x2E
  | .mod => 0x2F
  | .pdr => 0x30
  | .ddr => 0x31

def Reg6.bits : Reg6 → BitVec 6
  | .bank r => 0#1 ++ r.bits
  | .ar n => 0b100#3 ++ regBits n
  | .pr m => 0b1010#4 ++ m.bits
  | .scalar c => c.bits
  | .fi => 0x32
  | .fo0 => 0x33
  | .fo1 => 0x34
  | .prp => 0x35
  | .pwp => 0x36

/-- The flag's number (10_state R31). -/
def Flag.num : Flag → Fin 14
  | .az => 0
  | .an => 1
  | .av => 2
  | .au => 3
  | .ad => 4
  | .zc => 5
  | .il => 6
  | .nr => 7
  | .zd => 8
  | .mn => 9
  | .mz => 10
  | .mv => 11
  | .mu => 12
  | .md => 13

def Flag.bits (f : Flag) : BitVec 4 := BitVec.ofNat 4 f.num

def MemBank.bits : MemBank → BitVec 1
  | .a => 0
  | .b => 1

def Dir.bits : Dir → BitVec 1
  | .load => 0
  | .store => 1

/-- The ALU field of an ALU op (30_encoding R105, R106); an unused field is 0. -/
def Instr.aluField : Instr → BitVec 19
  | .cif s d => 0x0D#5 ++ 0#4 ++ s.bits ++ d.bits
  | .cfi s d => 0x0E#5 ++ 0#4 ++ s.bits ++ d.bits
  | .add s1 s2 d => 0x10#5 ++ s1.bits ++ s2.bits ++ d.bits
  | .cmp s1 s2 => 0x14#5 ++ s1.bits ++ s2.bits ++ 0#5
  | _ => 0x07#5 ++ 0#14

/-- The MUL field of a MUL op (30_encoding R107, R108). -/
def Instr.mulField : Instr → BitVec 16
  | .fmul s1 s2 d => 1#2 ++ s1.bits ++ s2.bits ++ d.bits
  | .mul s1 s2 d => 2#2 ++ s1.bits ++ s2.bits ++ d.bits
  | _ => 0#16

/-- The bits `T[16:0]` of an XFER1 load or store below BANK (30_encoding R121). -/
def AddrMode.field (x : Fin 8) : AddrMode → BitVec 17
  | .postInc => 0#1 ++ 0#1 ++ regBits x ++ 0#12
  | .disp12 d => 1#1 ++ 0#1 ++ regBits x ++ d

/-- A sub-move (30_encoding R123). -/
def subMoveField : Option SubMove → BitVec 13
  | none => 0#13
  | some m => 1#1 ++ m.dir.bits ++ m.reg.bits ++ regBits m.arx ++ 0#3

/-- The 26-bit transfer field of a dual-layout transfer op (30_encoding R121 to R123, R125). -/
def Instr.trField : Instr → BitVec 26
  | .mov s d => 1#2 ++ d.bits ++ s.bits ++ 0#12
  | .ld1 r k m x => 2#2 ++ r.bits ++ k.bits ++ m.field x
  | .st1 r k m x => 3#2 ++ r.bits ++ k.bits ++ m.field x
  | .ld2 r k x d => 2#2 ++ r.bits ++ k.bits ++ regBits x ++ d
  | .st2 r k x d => 3#2 ++ r.bits ++ k.bits ++ regBits x ++ d
  | .dx1 a b => subMoveField a ++ subMoveField b
  | .ldn d i => d.bits ++ i
  | _ => 0#26

/-- The 41-bit tail of an immediate transfer (30_encoding R124). -/
def Instr.xferiField : Instr → BitVec 41
  | .ldi d i => d.bits ++ 0#3 ++ i
  | _ => 0#41

def ClrSel.bits : ClrSel → BitVec 16
  | .input => 1
  | .outputs => 2
  | .all => 3

/-- COP of a control op (30_encoding R128). -/
def Instr.cop : Instr → BitVec 5
  | .clrf _ => 0x03
  | .setm _ => 0x08
  | .dbcc .. => 0x10
  | .dbncc .. => 0x11
  | .djmp _ => 0x12
  | .dcall _ => 0x14
  | .dret => 0x15
  | _ => 0x00

/-- The opcode value that the control fault of the op `i` reports: COP in the reference encoding, else the
launch's own (60_exceptions R350). -/
def Params.controlInfo (p : Params) (raw : Option DWord) (i : Instr) : Nat :=
  match raw.bind fun w => p.encoding.lookup w with
  | some (some f) => (f.ctl.map SlotField.info).getD i.cop.toNat
  | some none | none => i.cop.toNat

/-- CC of a control op (30_encoding R127). -/
def Instr.ccBits : Instr → BitVec 4
  | .dbcc f _ | .dbncc f _ => f.bits
  | _ => 0

/-- IMM16 of a control op (30_encoding R127). -/
def Instr.imm16 : Instr → BitVec 16
  | .clrf s => s.bits
  | .setm i | .dbcc _ i | .dbncc _ i | .djmp i | .dcall i => i
  | _ => 0

/-- The 41-bit tail of a control op (30_encoding R127). -/
def Instr.ctrlField (i : Instr) : BitVec 41 := i.cop ++ i.ccBits ++ 0#16 ++ i.imm16

/-- The class field (30_encoding R102). -/
def FormatClass.bits : FormatClass → BitVec 3
  | .dualDxfer1 => 0
  | .dualXfer1 => 1
  | .dualDxfer2 => 2
  | .dualXfer2 => 3
  | .singleCtrl => 4
  | .singleXferi => 5
  | .dualXfer3 => 7

/-- The op of a slot, a NOP where the slot holds none. -/
def SlotDec.instrOr (d : SlotDec) (nop : Instr) : Instr := d.instr?.getD nop

/-- `W[60:41]` of the single layout: U and the unit's field (30_encoding R104). -/
def Bundle.unitField (b : Bundle) : BitVec 20 :=
  match b.alu with
  | .op i => 0#1 ++ i.aluField
  | _ => 1#1 ++ 0#3 ++ (b.mul.instrOr .mnop).mulField

/-- The word of a well-formed bundle (30_encoding R103, R104). -/
def Bundle.encode (b : Bundle) : DWord :=
  match b.cls with
  | .singleCtrl => b.cls.bits ++ b.unitField ++ (b.ctl.instrOr .nopCtl).ctrlField
  | .singleXferi => b.cls.bits ++ b.unitField ++ (b.tr.instrOr .tnop).xferiField
  | .dualDxfer1 | .dualXfer1 | .dualDxfer2 | .dualXfer2 | .dualXfer3 =>
    b.cls.bits ++ (b.alu.instrOr .nopAlu).aluField ++ (b.mul.instrOr .mnop).mulField ++
      (b.tr.instrOr .tnop).trField

/-- The dual-layout bundle with a transfer, an ALU and a MUL op. -/
def Bundle.dual (c : FormatClass) (tr alu mul : Instr) : Bundle :=
  { cls := c, tr := .op tr, alu := .op alu, mul := .op mul, ctl := .absent }

/-- The bundle that carries one op alone, NOPs in its other slots. -/
def Instr.alone (i : Instr) : Bundle :=
  match i with
  | .nopAlu | .cif .. | .cfi .. | .add .. | .cmp .. => .dual .dualXfer1 .tnop i .mnop
  | .mnop | .fmul .. | .mul .. => .dual .dualXfer1 .tnop .nopAlu i
  | .tnop | .mov .. | .ld1 .. | .st1 .. => .dual .dualXfer1 i .nopAlu .mnop
  | .ld2 .. | .st2 .. => .dual .dualXfer2 i .nopAlu .mnop
  | .dx1 .. => .dual .dualDxfer1 i .nopAlu .mnop
  | .dx2 => .dual .dualDxfer2 i .nopAlu .mnop
  | .ldn .. => .dual .dualXfer3 i .nopAlu .mnop
  | .ldi .. => { cls := .singleXferi, tr := .op i, alu := .op .nopAlu, mul := .absent, ctl := .absent }
  | .nopCtl | .clrf .. | .setm .. | .dbcc .. | .dbncc .. | .djmp .. | .dcall .. | .dret =>
    { cls := .singleCtrl, tr := .absent, alu := .op .nopAlu, mul := .absent, ctl := .op i }

/-- The word of an op alone in its bundle. -/
def encode (i : Instr) : DWord := i.alone.encode

end Sys2Proof
end

