-- ==== Sys2Proof/Machine/State.lean ====
section
/-!
DEFINITION. The state of the block as plain data: the register file, flags, PR ring, PCS, FIFOs and
scalars of spec/10_state.md, the hidden state of R41, the memories, the parameters of the launch,
and what passes between the core, the host and the platform. `State.reset` is the machine after
processor reset (70_reset R380).
-/

namespace Sys2Proof.Machine

/-- A memory: (byte address, byte) pairs, addresses rising, no byte equal to what an unlisted address
reads as (log 1, log 2). -/
abbrev Memory := List Host.Cell

/-- One FIFO (10_state R33). -/
structure Fifo where
  data : Vector DWord (delta% Config.fifoDepth)
  rpos : FifoIndex
  wpos : FifoIndex
  num : FifoFill
  deriving DecidableEq, Repr

/-- The FIFO after reset (10_state R33). -/
def Fifo.empty : Fifo := { data := Vector.replicate _ 0, rpos := 0, wpos := 0, num := 0 }

/-- `DSTATE` (45_dispatch R328). -/
inductive DState where
  | idle
  | run
  | miss
  | flush
  | fault
  deriving DecidableEq, Repr

/-- The exit signals (45_dispatch R335). -/
inductive Signal where
  | outOfCycles
  | missingCode
  | unmappedCode
  | cacheResetRequested
  deriving DecidableEq, Repr

/-- The numeric values of the exit signals (45_dispatch R335). -/
def Signal.code : Signal → Nat
  | .outOfCycles => 0
  | .missingCode => 1
  | .unmappedCode => 2
  | .cacheResetRequested => 3

/-- `FAULTREC` (60_exceptions R350, R352). `raw` is none where there is no bundle to report, `info` is
none where the kind has no sub-opcode information (R351). -/
structure FaultRec where
  kind : FaultKind
  code : Nat
  pc : PcWord
  raw : Option DWord
  info : Option Nat
  deriving DecidableEq, Repr

/-- A branch target in a bundle record (40_bundle R155). -/
inductive Target where
  | noTarget
  | static (a : PcWord)
  | dynamic
  deriving DecidableEq, Repr

/-- The analyzer's bundle record (40_bundle R151). `raw` is none exactly when the bundle is unmapped,
and `dec` is then `illegal`, which nothing reads (log 30). -/
structure Record where
  raw : Option DWord
  addr : PcWord
  unmapped : Bool
  dec : Decoded
  cycles : Nat
  rd : BitVec 32
  wr : BitVec 32
  fuse : BitVec 14
  fdef : BitVec 14
  freq : BitVec 14
  isxfer : Bool
  target : Target
  delay : Option Nat
  indelay : Bool
  term : Bool
  deriving DecidableEq, Repr

/-- A block: its bundle records in order (45_dispatch R320). -/
abbrev Block := List Record

/-- `CUR`: the block being executed and the index of its next bundle (45_dispatch R330). -/
structure Cur where
  blk : Block
  idx : Nat
  deriving DecidableEq, Repr

/-- `BRPEND`: a pending control transfer (44_control R290). -/
structure BrPend where
  taken : Bool
  target : PcWord
  deriving DecidableEq, Repr

/-- An entry of `SCRATCH`: a bank write waiting for the bundle's end (40_bundle R160), with the slot
that made it. -/
structure Pending where
  slot : SlotKind
  reg : BankReg
  val : Word
  deriving DecidableEq, Repr

/-- What passes over the external-memory port (20_memory R77, R78). -/
inductive ExtEvent where
  /-- the core read word `addr` and the platform answered `val` -/
  | read (addr val : Word)
  /-- the core wrote `val` to word `addr` -/
  | write (addr val : Word)
  /-- a bundle that could write word `addr` faulted: the word is unspecified (40_bundle R170) -/
  | unspecified (addr : Word)
  deriving DecidableEq, Repr

/-- The registers the host can name (60_exceptions R372): those of spec/10_state.md, hidden state apart. -/
inductive RegName where
  | bank (r : BankReg)
  | ar (n : Fin 8)
  | pr (i : PrIndex)
  | prp
  | pwp
  | pcs (i : PcsIndex)
  | pcsp
  | flag (f : Flag)
  | fifoData (q : FifoId) (i : FifoIndex)
  | fifoRpos (q : FifoId)
  | fifoWpos (q : FifoId)
  | fifoNum (q : FifoId)
  | scalar (c : Scalar)
  | pc
  deriving DecidableEq, Repr

/-- What the host and the platform can do (45_dispatch R340, R341; 20_memory R62, R77). -/
inductive HostAction where
  | reset
  | run (budget : Nat)
  | pushFi (v : DWord)
  | popFo0
  | popFo1
  | readReg (n : RegName)
  | writeReg (n : RegName) (v : Nat)
  | invalidate
  /-- the platform makes one answer to an external read ready -/
  | extAnswer (v : Word)
  /-- the host loads one bundle of program memory -/
  | loadProg (a : PcWord) (w : DWord)
  /-- the host sets which program addresses are backed: those below `words` outside the holes -/
  | setProgMapped (words : Nat) (holes : List AddrRange)
  /-- the host loads one word of RAM-A or RAM-B -/
  | loadRam (bank : MemBank) (a : Word) (v : Word)
  deriving DecidableEq, Repr

/-- Whose turn it is (log 8): 70_reset R394 allows any number of host steps between core steps. -/
inductive Turn where
  | core
  | host (a : HostAction)
  deriving DecidableEq, Repr

/-- What the host last got back (45_dispatch R336 and the last column of R340). -/
inductive Reply where
  | nothing
  | value (v : Nat)
  | outOfCycles (pc : PcWord)
  | fault (r : FaultRec)
  deriving DecidableEq, Repr

/-- Why the machine stops (Outcome.fault). The spec's own faults are no such stop: they are next states
with `DSTATE = FAULT` (60_exceptions R352). -/
inductive Fault where
  /-- Raised by a bank-B access at or above `RAMB_WORDS`: the core is stuck (20_memory R70). Safe: the
  spec gives no step either. -/
  | ramBOutOfRange (ea : Word)
  /-- Raised by a bank-A access that is routed to RAM-A at or above `RAMA_WORDS`, which only a launch with a
  RAM-A below 0x400 words has: RAM-A has no such word (20_memory R68, 10_state R43). DEDUCED (log 11). Safe:
  the spec names no word that it could reach. -/
  | ramAOutOfRange (ea : Word)
  /-- Raised by an external access that `EXT_ADMIT` refuses: the core is stuck (20_memory R68). Safe: the
  spec gives no step either. -/
  | extNotAdmitted (a : Word)
  /-- Raised by a core turn while `DSTATE = FAULT`: no core step is enabled (60_exceptions R352). Safe. -/
  | haltedInFault
  /-- Raised by a core turn whose `CUR` points outside its block, which no run reaches. Safe. -/
  | noRecord
  deriving DecidableEq, Repr

/-- What the model does not admit (Outcome.refused). -/
inductive Refusal where
  /-- Raised by an arm of `exec` that has no meaning yet. Safe: the machine stops. -/
  | notModelled (mnemonic : String)
  /-- Raised by a host move that 45_dispatch R340 does not admit in this state: it "has no move"
  (20_memory R77; 93 H1 to H3 "refuse: no move"). Safe. -/
  | hostMove
  /-- Raised by `Run` after program memory changed under cached translations (duty `PROG_STABLE`,
  45_dispatch R341, 93 H1). Safe. -/
  | progStable
  /-- Raised by `Run` where some block does not fit an empty cache (duty `CAPACITY`, 45_dispatch R327,
  93 H4). Safe. -/
  | capacity
  deriving DecidableEq, Repr

/-- The state of the machine (10_state R43, R41; 20_memory R60, R61; 00_scope R8). -/
structure State where
  /-- AA, AB, MA and MB in the numbering of 10_state R26 -/
  regs : Vector Word 32
  ar : Vector Word 8
  pr : Vector Word (delta% Config.prSize)
  prp : PrIndex
  pwp : PrIndex
  pcs : Vector PcWord (delta% Config.pcsDepth)
  pcsp : PcsPointer
  flags : Vector Bool 14
  fi : Fifo
  fo0 : Fifo
  fo1 : Fifo
  eb : Word
  eo : Word
  sp : Word
  mod : Word
  pdr : Word
  ddr : Word
  pc : PcWord
  ramA : Memory
  ramB : Memory
  cache : List (PcWord × Block)
  cacheUsed : Nat
  dstate : DState
  icount : Int
  faultRec : Option FaultRec
  scratch : List Pending
  cur : Option Cur
  brpend : Option BrPend
  /-- the flag half of the snapshot `pre` of 40_bundle R168 -/
  preFlags : Vector Bool 14
  /-- program memory, a parameter of the step in the spec (20_memory R61; log 3) -/
  prog : Memory
  /-- `PROG_WORDS` (00_scope R8; log 3) -/
  progWords : Nat
  /-- program memory changed while translations were cached (45_dispatch R341; log 21) -/
  progDirty : Bool
  /-- the parameters of 00_scope R8 (log 4) -/
  cfg : Params
  /-- the platform's answers that are ready for external reads (20_memory R77; log 6) -/
  extIn : List Word
  /-- the core's external accesses as events, oldest first (20_memory R77, R78; log 6) -/
  extLog : List ExtEvent
  /-- how many free values were drawn (log 7) -/
  draws : Nat
  /-- whose turn comes next; after the list's end it is always the core's (log 8) -/
  schedule : List Turn
  /-- what the host last got back (log 24) -/
  reply : Reply
  /-- the last exit signal the core raised (45_dispatch R335; log 24) -/
  signal : Option Signal
  deriving DecidableEq, Repr

/-- The machine after processor reset with nothing placed in its memories (70_reset R380 to R383).
The memories, the parameters and the model's own fields have the values of log 2 to log 8. -/
def State.reset : State where
  regs := Vector.replicate 32 0
  ar := Vector.replicate 8 0
  pr := Vector.replicate _ 0
  prp := 0
  pwp := 0
  pcs := Vector.replicate _ 0
  pcsp := 0
  flags := Vector.replicate 14 false
  fi := Fifo.empty
  fo0 := Fifo.empty
  fo1 := Fifo.empty
  eb := 0
  eo := 0
  sp := 0
  mod := 0
  pdr := 0
  ddr := 0
  pc := 0
  ramA := []
  ramB := []
  cache := []
  cacheUsed := 0
  dstate := .idle
  icount := 0
  faultRec := none
  scratch := []
  cur := none
  brpend := none
  preFlags := Vector.replicate 14 false
  prog := []
  progWords := 0
  progDirty := false
  cfg := Config.reference
  extIn := []
  extLog := []
  draws := 0
  schedule := []
  reply := .nothing
  signal := none

end Sys2Proof.Machine
end

