-- ==== Sys2Proof/Machine/Ops.lean ====
section
/-!
DEFINITION. The named operations over memory and registers: bytes and words of a memory, the banks,
the PR ring, the PCS, the FIFOs, routing of data accesses, external accesses, free draws, and the one
operation that takes a fault.
-/

namespace Sys2Proof.Machine

/-! ## Memories (20_memory R60, R63, R71) -/

/-- What an address reads as when nothing is listed there (log 2). DESIGN CHOICE, unsafe. -/
def unlistedByte : Byte := 0

/-- The byte at an address. -/
def Memory.readByte : Memory → Nat → Byte
  | [], _ => unlistedByte
  | (k, b) :: m, a => if k = a then b else Memory.readByte m a

/-- Lists a byte, unless it is what an unlisted address reads as. -/
def Memory.cons (a : Nat) (v : Byte) (m : Memory) : Memory :=
  if v = unlistedByte then m else (a, v) :: m

/-- Writes the byte at an address and keeps the canonical form. -/
def Memory.writeByte : Memory → Nat → Byte → Memory
  | [], a, v => Memory.cons a v []
  | (k, b) :: m, a, v =>
    if a < k then Memory.cons a v ((k, b) :: m)
    else if a = k then Memory.cons a v m
    else (k, b) :: Memory.writeByte m a v

/-- Every address of the list is at least `lo`, addresses rise, and no unlisted value is listed. -/
def Memory.wfFrom : Nat → Memory → Bool
  | _, [] => true
  | lo, (k, b) :: m => decide (lo ≤ k) && decide (b ≠ unlistedByte) && Memory.wfFrom (k + 1) m

/-- The canonical form of a memory (log 1). -/
def Memory.wf (m : Memory) : Bool := Memory.wfFrom 0 m

/-- The 32-bit word `a` of a RAM: bytes `4a` to `4a + 3`, low byte first (log 1). -/
def Memory.readWord (m : Memory) (a : Nat) : Word :=
  m.readByte (4 * a + 3) ++ m.readByte (4 * a + 2) ++ m.readByte (4 * a + 1) ++ m.readByte (4 * a)

/-- Writes the 32-bit word `a` of a RAM. -/
def Memory.writeWord (m : Memory) (a : Nat) (v : Word) : Memory :=
  (((m.writeByte (4 * a) (v.extractLsb' 0 8)).writeByte (4 * a + 1) (v.extractLsb' 8 8)).writeByte
    (4 * a + 2) (v.extractLsb' 16 8)).writeByte (4 * a + 3) (v.extractLsb' 24 8)

/-- The bundle at program address `a`: the words `2a` (low half) and `2a + 1` (log 1). -/
def Memory.readDWord (m : Memory) (a : Nat) : DWord :=
  m.readWord (2 * a + 1) ++ m.readWord (2 * a)

/-- Writes the bundle at program address `a`. -/
def Memory.writeDWord (m : Memory) (a : Nat) (v : DWord) : Memory :=
  (m.writeWord (2 * a) (v.extractLsb' 0 32)).writeWord (2 * a + 1) (v.extractLsb' 32 32)

/-! ## Free draws (00_scope R11, log 7) -/

/-- A free value has been used. -/
def State.drew (s : State) : State := { s with draws := s.draws + 1 }

/-- The next `draw(UInt32)`. -/
def State.freeWord (s : State) : Word := Config.freeWord s.draws

/-- The next `draw(Bool)`. -/
def State.freeBit (s : State) : Bool := Config.freeBit s.draws

/-! ## The banks (10_state R21 to R26) -/

/-- The number of a bank register (10_state R26). -/
def BankReg.num : BankReg → Fin 32
  | .aa n => ⟨n.val, by omega⟩
  | .ab n => ⟨8 + n.val, by omega⟩
  | .ma n => ⟨16 + n.val, by omega⟩
  | .mb n => ⟨24 + n.val, by omega⟩

/-- The value a bank register held before the bundle (40_bundle R159): bank writes wait in `SCRATCH`
until the bundle's end, so this is the bank itself. -/
def State.getReg (s : State) (r : BankReg) : Word := s.regs[BankReg.num r]

/-- Writes a bank register directly. -/
def State.setReg (s : State) (r : BankReg) (v : Word) : State :=
  { s with regs := s.regs.set (BankReg.num r) v }

/-- A bank write of an op: it waits in `SCRATCH` for the bundle's end (40_bundle R160, second form). -/
def State.bufferReg (s : State) (k : SlotKind) (r : BankReg) (v : Word) : State :=
  { s with scratch := s.scratch ++ [⟨k, r, v⟩] }

/-! ## Address registers and scalars (10_state R27, R35 to R39) -/

def State.setAr (s : State) (x : Fin 8) (v : Word) : State := { s with ar := s.ar.set x v }

/-- The value of a scalar control register. -/
def State.getScalar (s : State) : Scalar → Word
  | .eb => s.eb
  | .eo => s.eo
  | .sp => s.sp
  | .mod => s.mod
  | .pdr => s.pdr
  | .ddr => s.ddr

/-- Writes a scalar control register. -/
def State.setScalar (s : State) (c : Scalar) (v : Word) : State :=
  match c with
  | .eb => { s with eb := v }
  | .eo => { s with eo := v }
  | .sp => { s with sp := v }
  | .mod => { s with mod := v }
  | .pdr => { s with pdr := v }
  | .ddr => { s with ddr := v }

/-! ## The PR ring (10_state R28, R29) -/

/-- `Move(p, mode)` (10_state R29). -/
def PrMode.move (p : PrIndex) : PrMode → PrIndex
  | .plain => p
  | .inc => p + 1
  | .dec => p - 1
  | .rst => 0

/-- The value `PRRead` yields (10_state R29). -/
def State.prVal (s : State) : Word := s.pr[s.prp]

/-- The pointer move of `PRRead(mode)` (10_state R29). -/
def State.afterPrRead (s : State) (m : PrMode) : State := { s with prp := PrMode.move s.prp m }

/-- `PRWrite(mode, v)` (10_state R29). -/
def State.prWrite (s : State) (m : PrMode) (v : Word) : State :=
  { s with pr := s.pr.set s.pwp v, pwp := PrMode.move s.pwp m }

/-! ## The PC stack (10_state R30) -/

/-- Below capacity, an index of the PCS. -/
def pcsIndex (p : PcsPointer) : PcsIndex := Fin.ofNat _ p.val

/-- `PCSPush(v)` where the stack is not full (10_state R30). -/
def State.pcsPush (s : State) (v : PcWord) : State :=
  { s with pcs := s.pcs.set (pcsIndex s.pcsp) v, pcsp := s.pcsp + 1 }

/-- The entry `PCSPop()` returns where `PCSP > 0` (10_state R30). -/
def State.pcsTop (s : State) : PcWord := s.pcs[pcsIndex (s.pcsp - 1)]

/-- The pointer move of `PCSPop()` where `PCSP > 0` (10_state R30). -/
def State.afterPcsPop (s : State) : State := { s with pcsp := s.pcsp - 1 }

/-! ## The FIFOs (10_state R33, R34) -/

/-- `FifoPush` where the FIFO is not full (10_state R34). -/
def Fifo.push (q : Fifo) (v : DWord) : Fifo :=
  { data := q.data.set q.wpos v, rpos := q.rpos, wpos := q.wpos + 1, num := q.num + 1 }

/-- The word `FifoPop` returns (10_state R34). -/
def Fifo.front (q : Fifo) : DWord := q.data[q.rpos]

/-- The cursor moves of `FifoPop` where `num > 0` (10_state R34). -/
def Fifo.pop (q : Fifo) : Fifo :=
  { data := q.data, rpos := q.rpos + 1, wpos := q.wpos, num := q.num - 1 }

/-- `FifoClear` (10_state R34): the data words stay. -/
def Fifo.clear (q : Fifo) : Fifo := { data := q.data, rpos := 0, wpos := 0, num := 0 }

/-- The invariant of 10_state R34: `num = (wpos - rpos) mod 8`, but for a full FIFO. -/
def Fifo.coherent (q : Fifo) : Bool :=
  q.num.val == (q.wpos - q.rpos).val || (q.num.val == (delta% Config.fifoDepth) && q.wpos == q.rpos)

/-- A FIFO by name. -/
def State.getFifo (s : State) : FifoId → Fifo
  | .fi => s.fi
  | .fo0 => s.fo0
  | .fo1 => s.fo1

/-- Replaces a FIFO by name. -/
def State.setFifo (s : State) (q : FifoId) (f : Fifo) : State :=
  match q with
  | .fi => { s with fi := f }
  | .fo0 => { s with fo0 := f }
  | .fo1 => { s with fo1 := f }

/-! ## Flags (10_state R31) -/

def State.getFlag (s : State) (f : Flag) : Bool := s.flags[f.num]

def State.setFlag (s : State) (f : Flag) (v : Bool) : State :=
  { s with flags := s.flags.set f.num v }

/-- The one-element bit set of a flag (40_bundle R153). -/
def Flag.bit (f : Flag) : BitVec 14 := BitVec.twoPow 14 f.num.val

/-! ## The bundle under way (45_dispatch R330, 40_bundle R151) -/

/-- The record that `CUR` points at. -/
def State.current (s : State) : Option Record := s.cur.bind fun c => c.blk[c.idx]?

/-- `f in b[k].freq` for the bundle under way (40_bundle R164). -/
def State.required (s : State) (f : Flag) : Bool :=
  match s.current with
  | some b => b.freq.getLsbD f.num.val
  | none => false

/-- The bundle under way is a delay slot (40_bundle R151). -/
def State.inDelay (s : State) : Bool :=
  match s.current with
  | some b => b.indelay
  | none => false

/-- The raw bundle under way, if it has program backing. -/
def State.currentRaw (s : State) : Option DWord := s.current.bind Record.raw

/-! ## Data accesses (20_memory R66 to R72, 43_transfer R251) -/

/-- Where a data access goes. -/
inductive Place where
  | ramA (a : Word)
  | ramB (a : Word)
  | ext (a : Word)
  deriving DecidableEq, Repr

/-- `EA_disp(x, disp, N)`: the register plus the sign-extended displacement (20_memory R67). -/
def State.ea {n : Nat} (s : State) (x : Fin 8) (d : BitVec n) : Word :=
  s.ar[x] + d.signExtend (delta% Config.regBits)

/-- The register move of `EA_postinc(x)` (20_memory R66). -/
def State.arInc (s : State) (x : Fin 8) : State := s.setAr x (s.ar[x] + 1)

/-- The external word behind a bank-A address (20_memory R68). -/
def State.extAddr (s : State) (ea : Word) : Word := (s.eb &&& 0xFFFFFC00) ||| (ea &&& 0x000003FF)

/-- `MemLoc` (43_transfer R251): `RouteA` (20_memory R68) or bank B (20_memory R70). -/
def State.memLoc (s : State) (bank : MemBank) (ea : Word) : Except Fault Place :=
  match bank with
  | .a =>
    if ea.toNat < Config.windowA then
      if ea.toNat < s.cfg.ramAWords then .ok (.ramA ea) else .error (.ramAOutOfRange ea)
    else if s.cfg.admits (s.extAddr ea) then .ok (.ext (s.extAddr ea))
    else .error (.extNotAdmitted (s.extAddr ea))
  | .b => if ea.toNat < s.cfg.ramBWords then .ok (.ramB ea) else .error (.ramBOutOfRange ea)

/-- The platform's answer to the next external read: the first one it has ready, else a free value
(20_memory R71, R77; log 6). -/
def State.extVal (s : State) : Word :=
  match s.extIn with
  | v :: _ => v
  | [] => s.freeWord

/-- `EO <- draw(UInt32)` (20_memory R69). -/
def State.drawEo (s : State) : State := { s with eo := s.freeWord, draws := s.draws + 1 }

/-- An external read: the answer is used, the event recorded, and `EO` drawn (20_memory R69, R77). -/
def State.afterExtRead (s : State) (a : Word) : State :=
  ({ s with extIn := s.extIn.tail, extLog := s.extLog ++ [.read a s.extVal],
            draws := s.draws + 1 } : State).drawEo

/-- An external write: the event is recorded and `EO` drawn (20_memory R69, R77). -/
def State.afterExtWrite (s : State) (a v : Word) : State :=
  ({ s with extLog := s.extLog ++ [.write a v] } : State).drawEo

/-- `MemRead`'s value (20_memory R71). -/
def State.placeVal (s : State) : Place → Word
  | .ramA a => s.ramA.readWord a.toNat
  | .ramB a => s.ramB.readWord a.toNat
  | .ext _ => s.extVal

/-- `Load`'s effect beside its value (43_transfer R251). -/
def State.afterLoad (s : State) : Place → State
  | .ramA _ => s
  | .ramB _ => s
  | .ext a => s.afterExtRead a

/-- `Store` at a place (43_transfer R251). -/
def State.store (s : State) (v : Word) : Place → State
  | .ramA a => { s with ramA := s.ramA.writeWord a.toNat v }
  | .ramB a => { s with ramB := s.ramB.writeWord a.toNat v }
  | .ext a => s.afterExtWrite a v

/-! ## Taking a fault (60_exceptions R352)

There is no return from a fault (R356): only the host's `Reset` leaves `DSTATE = FAULT`. -/

/-- The record a fault in the bundle under way makes (60_exceptions R350, R351). -/
def State.faultInfo (s : State) (k : FaultKind) (info : Option Nat) : FaultRec :=
  { kind := k, code := k.code, pc := s.pc, raw := s.currentRaw, info := info }

/-- The signal a fault raises, if it has one (45_dispatch R335). -/
def faultSignal (k : FaultKind) (old : Option Signal) : Option Signal :=
  match k with
  | .unmappedCode => some .unmappedCode
  | .unimplementedBundle | .unimplementedAlu | .unimplementedMul | .unimplementedTransfer => old
  | .unimplementedControl | .pcsOverflow | .pcsUnderflow => old

/-- `Fault(f)` (60_exceptions R352) in the bundle at `PC`: the record is kept and given to the host,
the pending transfer, `CUR` and `SCRATCH` are dropped, and the core is in FAULT. `PC` already is the
faulting bundle's address. -/
def State.takeFault (s : State) (k : FaultKind) (info : Option Nat) : State :=
  { s with
    faultRec := some (s.faultInfo k info)
    brpend := none
    cur := none
    scratch := []
    dstate := .fault
    reply := .fault (s.faultInfo k info)
    signal := faultSignal k s.signal }

end Sys2Proof.Machine
end

