-- ==== Sys2Proof/Machine/Float.lean ====
section
/-!
DEFINITION. The floating-point primitives of 00_scope R15 and the conversions and multiply built on
them (41_alu R204, R205; 42_mul R232): everything is computed exactly in Nat and Int and narrowed at
the end.
-/

namespace Sys2Proof.Machine

/-- The two rounding modes of 00_scope R15. -/
inductive RoundMode where
  | nearestEven
  | towardZero
  deriving DecidableEq, Repr

/-- The biased exponent `v[30:23]`. -/
def f32Exp (v : Word) : Nat := (v.extractLsb' 23 8).toNat

/-- The fraction `v[22:0]`. -/
def f32Frac (v : Word) : Nat := (v.extractLsb' 0 23).toNat

/-- `IsNaN` (00_scope R15). -/
def f32IsNaN (v : Word) : Bool := f32Exp v == 255 && f32Frac v != 0

def f32IsInf (v : Word) : Bool := f32Exp v == 255 && f32Frac v == 0

def f32IsFinite (v : Word) : Bool := f32Exp v != 255

/-- +0 or -0. -/
def f32IsZero (v : Word) : Bool := f32Exp v == 0 && f32Frac v == 0

def f32IsSubnormal (v : Word) : Bool := f32Exp v == 0 && f32Frac v != 0

/-- The magnitude of a finite pattern is `f32Mant v * 2 ^ (f32Scale v - 149)` (00_scope R15). -/
def f32Mant (v : Word) : Nat := if f32Exp v = 0 then f32Frac v else 2 ^ 23 + f32Frac v

/-- See `f32Mant`. -/
def f32Scale (v : Word) : Nat := f32Exp v - 1

/-- `m / 2 ^ sh` rounded to an integer (00_scope R15). -/
def roundShift (rm : RoundMode) (m sh : Nat) : Nat :=
  let q := m / 2 ^ sh
  let rem := m % 2 ^ sh
  match rm with
  | .towardZero => q
  | .nearestEven => if 2 ^ sh < 2 * rem ∨ (2 * rem = 2 ^ sh ∧ q % 2 = 1) then q + 1 else q

/-- The magnitude bits of the binary32 value nearest to `m * 2 ^ (x - 298)` in the mode, `m` positive
(00_scope R15). The exponent of the last place kept, plus 298, is `q`: it leaves 24 significant bits
and is never below that of a subnormal. A carry out of the significand moves into the exponent field
by itself. -/
def roundMagnitude (rm : RoundMode) (m x : Nat) : Nat :=
  let q := max (Nat.log2 m + x - 23) 149
  let sig := if x ≤ q then roundShift rm m (q - x) else m * 2 ^ (x - q)
  let bits := (q - 149) * 2 ^ 23 + sig
  if bits < 0x7F800000 then bits
  else match rm with
    | .nearestEven => 0x7F800000
    | .towardZero => 0x7F7FFFFF

/-- A sign and magnitude bits as a binary32 pattern. -/
def f32Pack (neg : Bool) (bits : Nat) : Word := (if neg then 0x80000000 else 0) ||| BitVec.ofNat 32 bits

/-- `RoundToBinary32(i, rm)` (00_scope R15, 41_alu R204). -/
def roundToBinary32 (rm : RoundMode) (i : Int) : Word :=
  if i = 0 then 0 else f32Pack (decide (i < 0)) (roundMagnitude rm i.natAbs 298)

/-- `RoundToInteger(value(v), rm)` of a finite pattern (00_scope R15). -/
def roundToInteger (rm : RoundMode) (v : Word) : Int :=
  let n := if 149 ≤ f32Scale v then f32Mant v * 2 ^ (f32Scale v - 149)
    else roundShift rm (f32Mant v) (149 - f32Scale v)
  if v.msb then -(n : Int) else n

/-- `clamp(i, lo, hi)` (00_scope R10). -/
def clampInt (i lo hi : Int) : Int := min (max i lo) hi

/-- The 24-bit saturating domain `[0xFF800000, 0x007FFFFF]` (41_alu R205, 42_mul R233). -/
def sat24 (i : Int) : Int := clampInt i (-2 ^ 23) (2 ^ 23 - 1)

/-- The result of CFI and whether it was clamped (41_alu R205). The result of a NaN is the free value
given. -/
def cfiResult (rm : RoundMode) (free v : Word) : Word × Bool :=
  if f32IsNaN v then (free, true)
  else if f32IsInf v then (BitVec.ofInt 32 (if v.msb then -2 ^ 23 else 2 ^ 23 - 1), true)
  else
    let i := roundToInteger rm v
    (BitVec.ofInt 32 (sat24 i), decide (sat24 i ≠ i))

/-- Some NaN, as free as the word it is made of: every NaN pattern is the NaN of itself (42_mul R232). -/
def someNaN (free : Word) : Word :=
  if f32Frac free = 0 then free ||| 0x7FC00000 else free ||| 0x7F800000

/-- The product is a NaN (IEEE 754): a NaN input, or infinity times zero. -/
def fmulIsNaN (a b : Word) : Bool :=
  f32IsNaN a || f32IsNaN b || (f32IsInf a && f32IsZero b) || (f32IsZero a && f32IsInf b)

/-- The product pattern where it is no NaN: sign by exclusive or, nearest-even, subnormals kept
(42_mul R232). -/
def fmulProduct (a b : Word) : Word :=
  let neg := a.msb != b.msb
  if f32IsInf a || f32IsInf b then f32Pack neg 0x7F800000
  else if f32IsZero a || f32IsZero b then f32Pack neg 0
  else f32Pack neg (roundMagnitude .nearestEven (f32Mant a * f32Mant b) (f32Scale a + f32Scale b))

/-- `FMUL_FN` at its reference value (42_mul R232): `freeW` and `freeN` are the draws for a NaN result
and its MN. -/
def fmulFn (freeW : Word) (freeN : Bool) (a b : Word) : FmulResult :=
  let den := f32IsSubnormal a || f32IsSubnormal b
  if fmulIsNaN a b then { r := someNaN freeW, n := freeN, z := false, v := false, u := false, d := den }
  else
    let r := fmulProduct a b
    { r := r
      n := r.msb
      z := f32IsZero r
      v := f32IsInf r && f32IsFinite a && f32IsFinite b
      u := !f32IsZero a && !f32IsZero b && (f32IsSubnormal r || f32IsZero r)
      d := den }

/-- `FMUL_FN` of the launch: its own value where it names one, else the reference value (42_mul R232). -/
def fmulOf (p : Params) (freeW : Word) (freeN : Bool) (a b : Word) : FmulResult :=
  (p.fmulTable.lookup (a, b)).getD (fmulFn freeW freeN a b)

end Sys2Proof.Machine
end

