-- ==== Sys2Proof/Machine/Operands.lean ====
section
/-!
DEFINITION. Every operand form: ALU operands (41_alu R200), MUL operands (42_mul R230), transfer
registers (43_transfer R250), and the FIFO demand of an op (43_transfer R252). Each source has a value
and, apart, what reading it does to the state.
-/

namespace Sys2Proof.Machine

/-! ## ALU operands (41_alu R200) -/

/-- `ReadA1` (41_alu R200): the pre-bundle value. -/
def State.aluSrc1 (s : State) : AluSrc1 → Word
  | .aa n => s.getReg (.aa n)
  | .ab n => s.getReg (.ab n)

/-- The value `ReadA2` returns (41_alu R200). -/
def State.aluSrc2 (s : State) : AluSrc2 → Word
  | .aa n => s.getReg (.aa n)
  | .ab n => s.getReg (.ab n)
  | .pr _ => s.prVal
  | .zero => 0
  | .one => 1
  | .minusOne => 0xFFFFFFFF
  | .ma n => s.getReg (.ma n)

/-- What `ReadA2` does beside returning its value: a PR read moves PRP (41_alu R200). -/
def State.afterAluSrc2 (s : State) : AluSrc2 → State
  | .pr m => s.afterPrRead m
  | .aa _ | .ab _ | .zero | .one | .minusOne | .ma _ => s

/-- `WriteAIO` (41_alu R200). -/
def State.aluWrite (s : State) (v : Word) : AluDst → State
  | .aa n => s.bufferReg .alu (.aa n) v
  | .ab n => s.bufferReg .alu (.ab n) v
  | .pr m => s.prWrite m v
  | .discard => s

/-! ## MUL operands (42_mul R230) -/

/-- `ReadM1` (42_mul R230). -/
def State.mulSrc1 (s : State) : MulSrc1 → Word
  | .aa n => s.getReg (.aa n)
  | .ma n => s.getReg (.ma n)

/-- The value `ReadM2` returns (42_mul R230). -/
def State.mulSrc2 (s : State) : MulSrc2 → Word
  | .ab n => s.getReg (.ab n)
  | .mb n => s.getReg (.mb n)
  | .pr _ => s.prVal
  | .const n => s.cfg.mulFconst[n]

/-- What `ReadM2` does beside returning its value (42_mul R230). -/
def State.afterMulSrc2 (s : State) : MulSrc2 → State
  | .pr m => s.afterPrRead m
  | .ab _ | .mb _ | .const _ => s

/-- `WriteMIO` (42_mul R230). -/
def State.mulWrite (s : State) (v : Word) : MulDst → State
  | .ma n => s.bufferReg .mul (.ma n) v
  | .mb n => s.bufferReg .mul (.mb n) v
  | .pr m => s.prWrite m v
  | .discard => s

/-! ## Transfer registers (43_transfer R250, 30_encoding R120) -/

/-- The value `ReadReg` returns; FO0 and FO1 are refused before it is asked for. -/
def State.regVal (s : State) : Reg6 → Word
  | .bank r => s.getReg r
  | .ar n => s.ar[n]
  | .pr _ => s.prVal
  | .scalar c => s.getScalar c
  | .fi => s.fi.front.extractLsb' 0 (delta% Config.regBits)
  | .fo0 | .fo1 => 0
  | .prp => BitVec.ofNat _ s.prp.val
  | .pwp => BitVec.ofNat _ s.pwp.val

/-- What `ReadReg` does beside returning its value: PR moves PRP, FI is popped. -/
def State.afterRegRead (s : State) : Reg6 → State
  | .pr m => s.afterPrRead m
  | .fi => { s with fi := s.fi.pop }
  | .bank _ | .ar _ | .scalar _ | .fo0 | .fo1 | .prp | .pwp => s

/-- `WriteReg` goes through: a pointer takes values below `PR_SIZE` only, and FI is no destination. -/
def regAccepts (r : Reg6) (v : Word) : Bool :=
  match r with
  | .prp | .pwp => decide (v.toNat < (delta% Config.prSize))
  | .fi => false
  | .bank _ | .ar _ | .pr _ | .scalar _ | .fo0 | .fo1 => true

/-- A PR pointer from a transferred value below `PR_SIZE`. -/
def prPointer (v : Word) : PrIndex := Fin.ofNat _ v.toNat

/-- `WriteReg` where `regAccepts` holds (43_transfer R250). -/
def State.afterRegWrite (s : State) (v : Word) : Reg6 → State
  | .bank r => s.bufferReg .tr r v
  | .ar n => s.setAr n v
  | .pr m => s.prWrite m v
  | .scalar c => s.setScalar c v
  | .fi => s
  | .fo0 => { s with fo0 := s.fo0.push (v.setWidth 64) }
  | .fo1 => { s with fo1 := s.fo1.push (v.setWidth 64) }
  | .prp => { s with prp := prPointer v }
  | .pwp => { s with pwp := prPointer v }

/-! ## The addressing modes of XFER1 (43_transfer R251, R255) -/

/-- The effective address of an XFER1 load or store (20_memory R66, R67). -/
def State.ea1 (s : State) (x : Fin 8) : AddrMode → Word
  | .postInc => s.ar[x]
  | .disp12 d => s.ea x d

/-- What forming it does: post-increment moves the register (20_memory R66). -/
def State.afterEa1 (s : State) (x : Fin 8) : AddrMode → State
  | .postInc => s.arInc x
  | .disp12 _ => s

/-! ## FIFO demand (43_transfer R252) -/

/-- The register an op reads by `ReadReg`, if it does. -/
def Instr.regRead : Instr → Option Reg6
  | .mov src _ => some src
  | .st1 reg _ _ _ | .st2 reg _ _ _ => some reg
  | .ld1 .. | .ld2 .. | .ldi .. | .ldn .. | .tnop | .dx1 .. | .dx2 => none
  | .nopAlu | .cif .. | .cfi .. | .add .. | .cmp .. | .mnop | .fmul .. | .mul .. => none
  | .nopCtl | .clrf .. | .setm .. | .dbcc .. | .dbncc .. | .djmp .. | .dcall .. | .dret => none

/-- The register an op writes by `WriteReg`, if it does. -/
def Instr.regWritten : Instr → Option Reg6
  | .mov _ dst => some dst
  | .ld1 reg _ _ _ | .ld2 reg _ _ _ => some reg
  | .ldi dst _ | .ldn dst _ => some dst
  | .st1 .. | .st2 .. | .tnop | .dx1 .. | .dx2 => none
  | .nopAlu | .cif .. | .cfi .. | .add .. | .cmp .. | .mnop | .fmul .. | .mul .. => none
  | .nopCtl | .clrf .. | .setm .. | .dbcc .. | .dbncc .. | .djmp .. | .dcall .. | .dret => none

/-- `FifoShortfall` for one op (43_transfer R252, 20_memory R76): it would pop an empty FI or push a
full FO0 or FO1. -/
def State.fifoShort (s : State) (i : Instr) : Bool :=
  (Instr.regRead i == some .fi && s.fi.num.val == 0) ||
    (Instr.regWritten i == some .fo0 && s.fo0.num.val == (delta% Config.fifoDepth)) ||
    (Instr.regWritten i == some .fo1 && s.fo1.num.val == (delta% Config.fifoDepth))

end Sys2Proof.Machine
end

