-- ==== Sys2Proof/Machine/Flags.lean ====
section
/-!
DEFINITION. Every flag computation (41_alu R202 to R205, 42_mul R232, R233), the flags each op defines
(30_encoding R106, R108), and the lazy-flag rule through which a flag is written (40_bundle R165).
-/

namespace Sys2Proof.Machine

/-- `F.f <- v` (40_bundle R165). -/
def State.putFlag (s : State) (f : Flag) (v : Bool) : State :=
  if s.required f then s.setFlag f v
  else match s.cfg.lazyFlags with
    | .stale => s
    | .either => (s.setFlag f (if s.freeBit then v else s.getFlag f)).drew

/-- Several flag writes, in order. -/
def State.putFlags (s : State) : List (Flag × Bool) → State
  | [] => s
  | (f, v) :: fs => (s.putFlag f v).putFlags fs

/-- A result and the flags that go with it. -/
structure Result where
  val : Word
  flags : List (Flag × Bool)
  deriving DecidableEq, Repr

/-- ADD (41_alu R202). -/
def addResult (sat : Bool) (a b : Word) : Result :=
  let i := a.toInt + b.toInt
  let r := if sat then BitVec.ofInt 32 (clampInt i (-2 ^ 31) (2 ^ 31 - 1)) else a + b
  let ovf := if sat then decide (i ≠ r.toInt) else a.msb == b.msb && r.msb != a.msb
  { val := r, flags := [(.an, r.msb), (.az, r == 0), (.av, ovf)] }

/-- CMP's flags (41_alu R203); `au` and `ad` are the draws for AU and AD. -/
def cmpFlags (a b : Word) (au ad : Bool) : List (Flag × Bool) :=
  let d := a - b
  [(.an, d.msb), (.az, a == b), (.av, a.msb != b.msb && d.msb != a.msb), (.au, au), (.ad, ad)]

/-- CIF (41_alu R204). -/
def cifResult (rm : RoundMode) (a : Word) : Result :=
  let r := roundToBinary32 rm a.toInt
  { val := r, flags := [(.an, r.msb), (.az, a.toInt == 0)] }

/-- CFI (41_alu R205); `free` is the draw for a NaN. -/
def cfiFlagged (rm : RoundMode) (free a : Word) : Result :=
  let r := (cfiResult rm free a).1
  { val := r, flags := [(.av, (cfiResult rm free a).2), (.an, r.msb), (.az, r == 0)] }

/-- FMUL (42_mul R232). -/
def fmulResult (p : Params) (freeW : Word) (freeN : Bool) (a b : Word) : Result :=
  let f := fmulOf p freeW freeN a b
  { val := f.r, flags := [(.mn, f.n), (.mz, f.z), (.mv, f.v), (.mu, f.u), (.md, f.d)] }

/-- MUL (42_mul R233). -/
def mulResult (a b : Word) : Result :=
  let p := a.toInt * b.toInt
  let r := BitVec.ofInt 32 (sat24 p)
  { val := r, flags := [(.mv, decide (sat24 p ≠ p)), (.mn, r.msb), (.mz, r == 0)] }

/-- The rounding mode that MOD bit 7 selects (10_state R38). -/
def State.roundMode (s : State) : RoundMode :=
  if s.mod.getLsbD 7 then .nearestEven else .towardZero

/-- The flags an op defines (30_encoding R106, R108). -/
def Instr.flagsDefined : Instr → List Flag
  | .cif .. => [.an, .az]
  | .cfi .. | .add .. => [.an, .az, .av]
  | .cmp .. => [.an, .az, .av, .au, .ad]
  | .fmul .. => [.mn, .mz, .mv, .mu, .md]
  | .mul .. => [.mn, .mz, .mv]
  | .nopAlu | .mnop => []
  | .tnop | .mov .. | .ld1 .. | .st1 .. | .ld2 .. | .st2 .. | .dx1 .. | .dx2 | .ldi .. | .ldn .. => []
  | .nopCtl | .clrf .. | .setm .. | .dbcc .. | .dbncc .. | .djmp .. | .dcall .. | .dret => []

/-- An op that defines the flag could write it in this bundle (40_bundle R165). -/
def State.flagWritable (s : State) (f : Flag) : Bool :=
  s.required f || s.cfg.lazyFlags == .either

/-- `Cond(cc)` (44_control R290): the flag before the bundle (40_bundle R163). -/
def State.cond (s : State) (f : Flag) : Bool := s.preFlags[f.num]

end Sys2Proof.Machine
end

