-- ==== Sys2Proof/Machine/Analyze.lean ====
section
/-!
DEFINITION. The front-end analyzer: the bundle record with its register and flag sets (40_bundle R150
to R156), the required flags (R164), and block formation (45_dispatch R320, R321). All of it is a
function of program memory, the parameters and the start address alone (40_bundle R171).
-/

namespace Sys2Proof.Machine

/-! ## Register and flag sets (40_bundle R152, R153) -/

/-- The one-element bit set of a bank register (10_state R26). -/
def BankReg.bit (r : BankReg) : BitVec 32 := BitVec.twoPow 32 (BankReg.num r).val

def AluSrc1.reg : AluSrc1 → BankReg
  | .aa n => .aa n
  | .ab n => .ab n

def AluSrc2.reg? : AluSrc2 → Option BankReg
  | .aa n => some (.aa n)
  | .ab n => some (.ab n)
  | .ma n => some (.ma n)
  | .pr _ | .zero | .one | .minusOne => none

def AluDst.reg? : AluDst → Option BankReg
  | .aa n => some (.aa n)
  | .ab n => some (.ab n)
  | .pr _ | .discard => none

def MulSrc1.reg : MulSrc1 → BankReg
  | .aa n => .aa n
  | .ma n => .ma n

def MulSrc2.reg? : MulSrc2 → Option BankReg
  | .ab n => some (.ab n)
  | .mb n => some (.mb n)
  | .pr _ | .const _ => none

def MulDst.reg? : MulDst → Option BankReg
  | .ma n => some (.ma n)
  | .mb n => some (.mb n)
  | .pr _ | .discard => none

def Reg6.reg? : Reg6 → Option BankReg
  | .bank r => some r
  | .ar _ | .pr _ | .scalar _ | .fi | .fo0 | .fo1 | .prp | .pwp => none

/-- The register of a sub-move in one direction. -/
def subMoveReg? (d : Dir) : Option SubMove → Option BankReg
  | some m => if m.dir = d then some m.reg else none
  | none => none

/-- The bank registers an op reads through the fields it uses (40_bundle R152, 30_encoding R118). -/
def Instr.banksRead : Instr → List BankReg
  | .cif s _ | .cfi s _ => (AluSrc2.reg? s).toList
  | .add s1 s2 _ | .cmp s1 s2 => AluSrc1.reg s1 :: (AluSrc2.reg? s2).toList
  | .fmul s1 s2 _ | .mul s1 s2 _ => MulSrc1.reg s1 :: (MulSrc2.reg? s2).toList
  | .mov src _ => (Reg6.reg? src).toList
  | .st1 r _ _ _ | .st2 r _ _ _ => (Reg6.reg? r).toList
  | .dx1 a b => (subMoveReg? .store a).toList ++ (subMoveReg? .store b).toList
  | .nopAlu | .mnop | .tnop | .ld1 .. | .ld2 .. | .dx2 | .ldi .. | .ldn .. => []
  | .nopCtl | .clrf .. | .setm .. | .dbcc .. | .dbncc .. | .djmp .. | .dcall .. | .dret => []

/-- The bank registers an op writes (40_bundle R152). -/
def Instr.banksWritten : Instr → List BankReg
  | .cif _ d | .cfi _ d | .add _ _ d => (AluDst.reg? d).toList
  | .fmul _ _ d | .mul _ _ d => (MulDst.reg? d).toList
  | .mov _ dst | .ldi dst _ | .ldn dst _ => (Reg6.reg? dst).toList
  | .ld1 r _ _ _ | .ld2 r _ _ _ => (Reg6.reg? r).toList
  | .dx1 a b => (subMoveReg? .load a).toList ++ (subMoveReg? .load b).toList
  | .nopAlu | .cmp .. | .mnop | .tnop | .st1 .. | .st2 .. | .dx2 => []
  | .nopCtl | .clrf .. | .setm .. | .dbcc .. | .dbncc .. | .djmp .. | .dcall .. | .dret => []

/-- The flags an op reads: those of a conditional branch (40_bundle R153). -/
def Instr.flagsUsed : Instr → List Flag
  | .dbcc f _ | .dbncc f _ => [f]
  | .nopAlu | .cif .. | .cfi .. | .add .. | .cmp .. | .mnop | .fmul .. | .mul .. => []
  | .tnop | .mov .. | .ld1 .. | .st1 .. | .ld2 .. | .st2 .. | .dx1 .. | .dx2 | .ldi .. | .ldn .. => []
  | .nopCtl | .clrf .. | .setm .. | .djmp .. | .dcall .. | .dret => []

/-- The bit set of a list of bank registers. -/
def bankSet (l : List BankReg) : BitVec 32 := l.foldr (fun r acc => BankReg.bit r ||| acc) 0

/-- The bit set of a list of flags. -/
def flagSet (l : List Flag) : BitVec 14 := l.foldr (fun f acc => Flag.bit f ||| acc) 0

/-- The target that a control op records at address `a` (40_bundle R155). -/
def Instr.targetAt (a : PcWord) : Instr → Target
  | .dbcc _ d | .dbncc _ d | .djmp d | .dcall d => .static (a + d.signExtend (delta% Config.pcBits))
  | .dret => .dynamic
  | .nopAlu | .cif .. | .cfi .. | .add .. | .cmp .. | .mnop | .fmul .. | .mul .. => .noTarget
  | .tnop | .mov .. | .ld1 .. | .st1 .. | .ld2 .. | .st2 .. | .dx1 .. | .dx2 | .ldi .. | .ldn .. => .noTarget
  | .nopCtl | .clrf .. | .setm .. => .noTarget

/-- The decoded ops of a word; a `Bad` slot contributes nothing (40_bundle R154). -/
def decodedOps : Decoded → List Instr
  | .illegal => []
  | .bundle b => b.slots.filterMap SlotDec.instr?

/-- The control op of a word, if it has one. -/
def controlOp : Decoded → Option Instr
  | .illegal => none
  | .bundle b => b.ctl.instr?

/-! ## Bundle records (40_bundle R151) -/

/-- The record of a mapped bundle, its block-wide fields not filled yet (40_bundle R151 to R156). -/
def mappedRecord (p : Params) (a : PcWord) (w : DWord) : Record :=
  let d := p.decodeWord w
  { raw := some w
    addr := a
    unmapped := false
    dec := d
    cycles := p.cycles w
    rd := bankSet ((decodedOps d).flatMap Instr.banksRead)
    wr := bankSet ((decodedOps d).flatMap Instr.banksWritten)
    fuse := flagSet ((decodedOps d).flatMap Instr.flagsUsed)
    fdef := flagSet ((decodedOps d).flatMap Instr.flagsDefined)
    freq := 0
    isxfer := ((controlOp d).map Instr.isTransfer).getD false
    target := ((controlOp d).map (Instr.targetAt a)).getD .noTarget
    delay := none
    indelay := false
    term := false }

/-- The record of an unmapped bundle (40_bundle R151; its cost is R156's). -/
def unmappedRecord (a : PcWord) : Record :=
  { raw := none, addr := a, unmapped := true, dec := .illegal, cycles := 1, rd := 0, wr := 0, fuse := 0,
    fdef := 0, freq := 0, isxfer := false, target := .noTarget, delay := none, indelay := false,
    term := false }

/-- `Record(a)` (45_dispatch R320). -/
def recordAt (p : Params) (prog : Memory) (words : Nat) (a : PcWord) : Record :=
  if p.mapped words a then mappedRecord p a (prog.readDWord a.toNat) else unmappedRecord a

/-- A record that ends its block because its bundle cannot execute (45_dispatch R320, R321). -/
def Record.cannotExecute (r : Record) : Bool := r.unmapped || r.dec.hasBad

/-! ## Block formation (45_dispatch R320) -/

/-- What record `r`, at index `k` of its block, and the record `d` after it in memory add to the block
before the rest of the window (45_dispatch R320). -/
def joinRecord (r d : Record) (k : Nat) (rest : Block) : Block :=
  if r.cannotExecute then [r]
  else if r.isxfer then [{ r with delay := some (k + 1) }, { d with indelay := true }]
  else r :: rest

/-- The loop of `Analyze` from address `a`: `k` records stand before it, and the last argument says how
many may follow the next one in the window. -/
def collect (p : Params) (prog : Memory) (words : Nat) (a : PcWord) (k : Nat) : Nat → Block
  | 0 => joinRecord (recordAt p prog words a) (recordAt p prog words (a + 1)) k []
  | n + 1 =>
    joinRecord (recordAt p prog words a) (recordAt p prog words (a + 1)) k
      (collect p prog words (a + 1) (k + 1) n)

/-- The flags that the records of a list read. -/
def flagsReadBy (blk : Block) : BitVec 14 := blk.foldr (fun r acc => r.fuse ||| acc) 0

/-- Fills every `freq` (40_bundle R164). -/
def fillFreq : Block → Block
  | [] => []
  | r :: rs =>
    { r with freq := if r.indelay then r.fdef else r.fdef &&& flagsReadBy rs } :: fillFreq rs

/-- Marks the last record as the terminator (45_dispatch R321). -/
def markTerm : Block → Block
  | [] => []
  | [r] => [{ r with term := true }]
  | r :: q :: rs => r :: markTerm (q :: rs)

/-- `Analyze(a0)` (45_dispatch R320). -/
def analyze (p : Params) (prog : Memory) (words : Nat) (a0 : PcWord) : Block :=
  fillFreq (markTerm (collect p prog words a0 0 (p.window - 1)))

/-- What tells the blocks of a launch apart: the start address and the raw bundles, since a block is a
function of them (40_bundle R171). -/
def blockKey (blk : Block) : PcWord × List (Option DWord) :=
  ((blk.head?.map Record.addr).getD 0, blk.map Record.raw)

/-- `FRAG_SIZE(blk)` (00_scope R8): its bundle count, unless the launch names another size. -/
def fragSize (p : Params) (blk : Block) : Nat := (p.fragTable.lookup (blockKey blk)).getD blk.length

/-- The declared cost of a block (45_dispatch R333). -/
def blockCycles (blk : Block) : Nat := (blk.map Record.cycles).sum

end Sys2Proof.Machine
end

