-- ==== Sys2Proof/Machine/Writes.lean ====
section
/-!
DEFINITION. The locations an op can write, and what a fault leaves in them: "every location it could
write has an unspecified value (any value)" (40_bundle R170). A location keeps to its range and a FIFO
to its invariant (log 12).
-/

namespace Sys2Proof.Machine

/-- A location a bundle can write. -/
inductive Loc where
  | bank (r : BankReg)
  | flag (f : Flag)
  | prEntry (i : PrIndex)
  | prp
  | pwp
  | ar (n : Fin 8)
  | scalar (c : Scalar)
  /-- the data word a push writes -/
  | fifoEntry (q : FifoId) (i : FifoIndex)
  /-- the read cursor and fill count, which a pop writes -/
  | fifoHead (q : FifoId)
  /-- the write cursor and fill count, which a push writes -/
  | fifoTail (q : FifoId)
  /-- both cursors and the fill count, which a clear writes -/
  | fifoCursors (q : FifoId)
  | ramA (a : Word)
  | ramB (a : Word)
  | ext (a : Word)
  | pcs (i : PcsIndex)
  | pcsp
  deriving DecidableEq, Repr

/-! ## What each operand form writes -/

/-- A PR read writes PRP unless it is plain (10_state R29). -/
def prReadLocs : PrMode → List Loc
  | .plain => []
  | .inc | .dec | .rst => [.prp]

/-- A PR write writes the entry at PWP, and PWP unless it is plain (10_state R29). -/
def State.prWriteLocs (s : State) : PrMode → List Loc
  | .plain => [.prEntry s.pwp]
  | .inc | .dec | .rst => [.prEntry s.pwp, .pwp]

def aluSrc2Locs : AluSrc2 → List Loc
  | .pr m => prReadLocs m
  | .aa _ | .ab _ | .zero | .one | .minusOne | .ma _ => []

def State.aluDstLocs (s : State) : AluDst → List Loc
  | .aa n => [.bank (.aa n)]
  | .ab n => [.bank (.ab n)]
  | .pr m => s.prWriteLocs m
  | .discard => []

def mulSrc2Locs : MulSrc2 → List Loc
  | .pr m => prReadLocs m
  | .ab _ | .mb _ | .const _ => []

def State.mulDstLocs (s : State) : MulDst → List Loc
  | .ma n => [.bank (.ma n)]
  | .mb n => [.bank (.mb n)]
  | .pr m => s.prWriteLocs m
  | .discard => []

def regReadLocs : Reg6 → List Loc
  | .pr m => prReadLocs m
  | .fi => [.fifoHead .fi]
  | .bank _ | .ar _ | .scalar _ | .fo0 | .fo1 | .prp | .pwp => []

def State.regWriteLocs (s : State) : Reg6 → List Loc
  | .bank r => [.bank r]
  | .ar n => [.ar n]
  | .pr m => s.prWriteLocs m
  | .scalar c => [.scalar c]
  | .fi => []
  | .fo0 => [.fifoEntry .fo0 s.fo0.wpos, .fifoTail .fo0]
  | .fo1 => [.fifoEntry .fo1 s.fo1.wpos, .fifoTail .fo1]
  | .prp => [.prp]
  | .pwp => [.pwp]

/-- A load through the window writes EO (20_memory R69). -/
def loadLocs : Place → List Loc
  | .ramA _ | .ramB _ => []
  | .ext _ => [.scalar .eo]

def storeLocs : Place → List Loc
  | .ramA a => [.ramA a]
  | .ramB a => [.ramB a]
  | .ext a => [.ext a, .scalar .eo]

/-- The locations of a place, if the address has one. -/
def State.placeLocs (s : State) (bank : MemBank) (ea : Word) (f : Place → List Loc) : List Loc :=
  match s.memLoc bank ea with
  | .ok p => f p
  | .error _ => []

/-- Post-increment writes the address register (20_memory R66). -/
def mode1Locs (x : Fin 8) : AddrMode → List Loc
  | .postInc => [.ar x]
  | .disp12 _ => []

/-- One sub-move of a double transfer (43_transfer R259). -/
def State.subMoveLocs (s : State) (bank : MemBank) : Option SubMove → List Loc
  | none => []
  | some m =>
    .ar m.arx ::
      (match m.dir with
        | .load => .bank m.reg :: s.placeLocs bank s.ar[m.arx] loadLocs
        | .store => s.placeLocs bank s.ar[m.arx] storeLocs)

/-- The address-register move of a sub-move (43_transfer R259). -/
def State.afterSubMoveEa (s : State) : Option SubMove → State
  | none => s
  | some m => s.arInc m.arx

/-- The flag locations of an op (40_bundle R165). -/
def State.flagLocs (s : State) (i : Instr) : List Loc :=
  ((Instr.flagsDefined i).filter s.flagWritable).map .flag

/-- Every location the op can write when it executes in `s` (40_bundle R170). -/
def Instr.writes (i : Instr) (s : State) : List Loc :=
  match i with
  | .nopAlu | .mnop | .tnop | .dx2 | .nopCtl => []
  | .cif src d | .cfi src d => aluSrc2Locs src ++ s.aluDstLocs d ++ s.flagLocs i
  | .add _ s2 d => aluSrc2Locs s2 ++ s.aluDstLocs d ++ s.flagLocs i
  | .cmp _ s2 => aluSrc2Locs s2 ++ s.flagLocs i
  | .fmul _ s2 d | .mul _ s2 d => mulSrc2Locs s2 ++ s.mulDstLocs d ++ s.flagLocs i
  | .mov src dst => regReadLocs src ++ s.regWriteLocs dst
  | .ld1 r k m x => mode1Locs x m ++ s.placeLocs k (s.ea1 x m) loadLocs ++ s.regWriteLocs r
  | .st1 r k m x => regReadLocs r ++ mode1Locs x m ++ s.placeLocs k (s.ea1 x m) storeLocs
  | .ld2 r k x d => s.placeLocs k (s.ea x d) loadLocs ++ s.regWriteLocs r
  | .st2 r k x d => regReadLocs r ++ s.placeLocs k (s.ea x d) storeLocs
  | .dx1 a b => s.subMoveLocs .a a ++ (s.afterSubMoveEa a).subMoveLocs .b b
  | .ldi dst _ | .ldn dst _ => s.regWriteLocs dst
  | .clrf .input => [.fifoCursors .fi]
  | .clrf .outputs => [.fifoCursors .fo0, .fifoCursors .fo1]
  | .clrf .all => [.fifoCursors .fi, .fifoCursors .fo0, .fifoCursors .fo1]
  | .setm _ => [.scalar .mod]
  | .dbcc .. | .dbncc .. | .djmp .. => []
  | .dcall _ => [.pcs (pcsIndex s.pcsp), .pcsp]
  | .dret => [.pcsp]

/-! ## Any value in a location (40_bundle R170) -/

/-- A free fill count. -/
def State.freeFill (s : State) : FifoFill := Fin.ofNat _ (Config.freeNat s.draws)

/-- A cursor `n` places after `p`. -/
def cursorAfter (p : FifoIndex) (n : FifoFill) : FifoIndex := p + Fin.ofNat _ n.val

/-- A cursor `n` places before `p`. -/
def cursorBefore (p : FifoIndex) (n : FifoFill) : FifoIndex := p - Fin.ofNat _ n.val

/-- Any value in one location: a free draw, in the location's range. -/
def State.havoc (s : State) (l : Loc) : State :=
  let t := match l with
    | .bank r => s.setReg r s.freeWord
    | .flag f => s.setFlag f s.freeBit
    | .prEntry i => { s with pr := s.pr.set i s.freeWord }
    | .prp => { s with prp := Fin.ofNat _ (Config.freeNat s.draws) }
    | .pwp => { s with pwp := Fin.ofNat _ (Config.freeNat s.draws) }
    | .ar n => s.setAr n s.freeWord
    | .scalar c => s.setScalar c s.freeWord
    | .fifoEntry q i =>
      s.setFifo q { s.getFifo q with data := (s.getFifo q).data.set i (Config.freeDWord s.draws) }
    | .fifoHead q =>
      s.setFifo q { s.getFifo q with
        num := s.freeFill, rpos := cursorBefore (s.getFifo q).wpos s.freeFill }
    | .fifoTail q =>
      s.setFifo q { s.getFifo q with
        num := s.freeFill, wpos := cursorAfter (s.getFifo q).rpos s.freeFill }
    | .fifoCursors q =>
      let r : FifoIndex := Fin.ofNat _ (Config.freeNat (s.draws + 1))
      { s.setFifo q { s.getFifo q with
          num := s.freeFill, rpos := r, wpos := cursorAfter r s.freeFill } with draws := s.draws + 1 }
    | .ramA a => { s with ramA := s.ramA.writeWord a.toNat s.freeWord }
    | .ramB a => { s with ramB := s.ramB.writeWord a.toNat s.freeWord }
    | .ext a => { s with extLog := s.extLog ++ [ExtEvent.unspecified a] }
    | .pcs i => { s with pcs := s.pcs.set i (s.freeWord.setWidth _) }
    | .pcsp => { s with pcsp := Fin.ofNat _ (Config.freeNat s.draws) }
  t.drew

/-- Any value in each location of a list. -/
def State.havocAll (s : State) (ls : List Loc) : State := ls.foldl State.havoc s

/-- An op raises its unit's fault after it has begun: the fault is taken, and the locations the op
could write, as they were when it began in `s0`, hold any value (40_bundle R170, 60_exceptions R352). -/
def State.raiseOp (u : State) (i : Instr) (s0 : State) (k : FaultKind) (info : Option Nat) : State :=
  (u.takeFault k info).havocAll (Instr.writes i s0)

end Sys2Proof.Machine
end

