-- ==== Sys2Proof/Machine/Alu.lean ====
section
/-!
DEFINITION. The ALU instructions (spec/41_alu.md). A binary op reads AI1, then AI2, computes, then
writes AIO (R200), and its flag writes go through the lazy-flag rule (40_bundle R165).
-/

namespace Sys2Proof.Machine

/-- The end of an ALU op: the destination write and the flag writes (41_alu R200). -/
def State.aluFinish (s : State) (r : Result) (d : AluDst) : State :=
  (s.aluWrite r.val d).putFlags r.flags

/-- NOP (ALU), 41_alu R201. -/
def execNopAlu (s : State) : Host.Outcome State Fault Refusal := .next s

/-- ADD, 41_alu R202. -/
def execAdd (s1 : AluSrc1) (s2 : AluSrc2) (dst : AluDst) (s : State) :
    Host.Outcome State Fault Refusal :=
  .next ((s.afterAluSrc2 s2).aluFinish (addResult s.cfg.addSat (s.aluSrc1 s1) (s.aluSrc2 s2)) dst)

/-- CMP, 41_alu R203: AU and AD are free draws. -/
def execCmp (s1 : AluSrc1) (s2 : AluSrc2) (s : State) : Host.Outcome State Fault Refusal :=
  let t := s.afterAluSrc2 s2
  .next (t.drew.drew.putFlags
    (cmpFlags (s.aluSrc1 s1) (s.aluSrc2 s2) (Config.freeBit t.draws) (Config.freeBit (t.draws + 1))))

/-- CIF, 41_alu R204: MOD is read at execution. -/
def execCif (src : AluSrc2) (dst : AluDst) (s : State) : Host.Outcome State Fault Refusal :=
  .next ((s.afterAluSrc2 src).aluFinish (cifResult s.roundMode (s.aluSrc2 src)) dst)

/-- CFI, 41_alu R205: the result of a NaN is a free draw. -/
def execCfi (src : AluSrc2) (dst : AluDst) (s : State) : Host.Outcome State Fault Refusal :=
  let t := s.afterAluSrc2 src
  .next (t.drew.aluFinish (cfiFlagged s.roundMode t.freeWord (s.aluSrc2 src)) dst)

end Sys2Proof.Machine
end

