-- ==== Sys2Proof/Machine/Control.lean ====
section
/-!
DEFINITION. The control instructions (spec/44_control.md). A control transfer does its work at its own
bundle and leaves `BRPEND` for the end of its delay slot (R290).
-/

namespace Sys2Proof.Machine

/-- `Target(imm16)` (44_control R290). -/
def State.branchTarget (s : State) (d : BitVec 16) : PcWord :=
  s.pc + d.signExtend (delta% Config.pcBits)

/-- `SetPending(taken, t)` (44_control R290). -/
def State.setPending (s : State) (taken : Bool) (t : PcWord) : State :=
  { s with brpend := some ⟨taken, t⟩ }

/-- A control transfer in a delay slot takes the Unimplemented-control fault before anything changes
(40_bundle R168); elsewhere the transfer does its work. -/
def State.unlessDelay (s : State) (i : Instr) (t : State) : Host.Outcome State Fault Refusal :=
  .next (if s.inDelay then s.takeFault .unimplementedControl (some (s.cfg.controlInfo s.currentRaw i)) else t)

/-- NOP (control), 44_control R291. -/
def execNopCtl (s : State) : Host.Outcome State Fault Refusal := .next s

/-- CLRF, 44_control R292. -/
def execClrf (sel : ClrSel) (s : State) : Host.Outcome State Fault Refusal :=
  match sel with
  | .input => .next { s with fi := s.fi.clear }
  | .outputs => .next { s with fo0 := s.fo0.clear, fo1 := s.fo1.clear }
  | .all => .next { s with fi := s.fi.clear, fo0 := s.fo0.clear, fo1 := s.fo1.clear }

/-- SETM, 44_control R293. -/
def execSetm (imm : BitVec 16) (s : State) : Host.Outcome State Fault Refusal :=
  .next { s with mod := imm.setWidth _ }

/-- DBcc, 44_control R294. -/
def execDbcc (cc : Flag) (disp : BitVec 16) (s : State) : Host.Outcome State Fault Refusal :=
  s.unlessDelay (.dbcc cc disp) (s.setPending (s.cond cc) (s.branchTarget disp))

/-- DBNcc, 44_control R295. -/
def execDbncc (cc : Flag) (disp : BitVec 16) (s : State) : Host.Outcome State Fault Refusal :=
  s.unlessDelay (.dbncc cc disp) (s.setPending (!s.cond cc) (s.branchTarget disp))

/-- DJMP, 44_control R296. -/
def execDjmp (disp : BitVec 16) (s : State) : Host.Outcome State Fault Refusal :=
  s.unlessDelay (.djmp disp) (s.setPending true (s.branchTarget disp))

/-- DCALL, 44_control R297: the return address is the bundle after the delay slot. -/
def execDcall (disp : BitVec 16) (s : State) : Host.Outcome State Fault Refusal :=
  s.unlessDelay (.dcall disp) <|
    if s.pcsp.val = (delta% Config.pcsDepth) then s.takeFault .pcsOverflow none
    else (s.pcsPush (s.pc + 2)).setPending true (s.branchTarget disp)

/-- DRET, 44_control R298. -/
def execDret (s : State) : Host.Outcome State Fault Refusal :=
  s.unlessDelay .dret <|
    if s.pcsp = 0 then s.takeFault .pcsUnderflow none
    else s.afterPcsPop.setPending true s.pcsTop

end Sys2Proof.Machine
end

