-- ==== Sys2Proof/Machine/Mul.lean ====
section
/-!
DEFINITION. The MUL instructions (spec/42_mul.md): MI1, then MI2, the computation, then MIO (R230).
-/

namespace Sys2Proof.Machine

/-- The end of a MUL op: the destination write and the flag writes (42_mul R230). -/
def State.mulFinish (s : State) (r : Result) (d : MulDst) : State :=
  (s.mulWrite r.val d).putFlags r.flags

/-- MNOP, 42_mul R231. -/
def execMnop (s : State) : Host.Outcome State Fault Refusal := .next s

/-- FMUL, 42_mul R232: the payload, sign and MN of a NaN result are free draws. -/
def execFmul (s1 : MulSrc1) (s2 : MulSrc2) (dst : MulDst) (s : State) :
    Host.Outcome State Fault Refusal :=
  let t := s.afterMulSrc2 s2
  .next (t.drew.drew.mulFinish
    (fmulResult s.cfg t.freeWord (Config.freeBit (t.draws + 1)) (s.mulSrc1 s1) (s.mulSrc2 s2)) dst)

/-- MUL, 42_mul R233. -/
def execMul (s1 : MulSrc1) (s2 : MulSrc2) (dst : MulDst) (s : State) :
    Host.Outcome State Fault Refusal :=
  .next ((s.afterMulSrc2 s2).mulFinish (mulResult (s.mulSrc1 s1) (s.mulSrc2 s2)) dst)

end Sys2Proof.Machine
end

