-- ==== Sys2Proof/Machine/Transfer.lean ====
section
/-!
DEFINITION. The transfer instructions (spec/43_transfer.md). An op that a FIFO cannot serve yet holds:
nothing changes (20_memory R76). An op that `WriteReg` refuses takes the Unimplemented-transfer fault.
-/

namespace Sys2Proof.Machine

/-- The transfer field of the bundle under way (log 4). -/
def State.currentTransferField (s : State) : Option Nat :=
  s.currentRaw.map s.cfg.transferInfo

/-- The Unimplemented-transfer fault of an op that began in `s0` and got as far as `u`. -/
def State.raiseTransfer (u : State) (i : Instr) (s0 : State) : Host.Outcome State Fault Refusal :=
  .next (u.raiseOp i s0 .unimplementedTransfer u.currentTransferField)

/-- `WriteReg(r, v)` at the end of an op (43_transfer R250). -/
def State.finishReg (u : State) (i : Instr) (s0 : State) (r : Reg6) (v : Word) :
    Host.Outcome State Fault Refusal :=
  if regAccepts r v then .next (u.afterRegWrite v r) else u.raiseTransfer i s0

/-- The hold of 20_memory R76, and otherwise the op. -/
def State.unlessShort (s : State) (i : Instr) (k : Host.Outcome State Fault Refusal) :
    Host.Outcome State Fault Refusal :=
  if s.fifoShort i then .next s else k

/-- `v <- Load(bank, ea); WriteReg(reg, v)` in the state `t` that forming the address left
(43_transfer R251, R255). -/
def State.loadReg (t : State) (i : Instr) (s0 : State) (bank : MemBank) (ea : Word) (reg : Reg6) :
    Host.Outcome State Fault Refusal :=
  match t.memLoc bank ea with
  | .error f => .fault f
  | .ok p => (t.afterLoad p).finishReg i s0 reg (t.placeVal p)

/-- `Store(bank, ea, v)` (43_transfer R251). -/
def State.storeAt (t : State) (bank : MemBank) (ea v : Word) : Host.Outcome State Fault Refusal :=
  match t.memLoc bank ea with
  | .error f => .fault f
  | .ok p => .next (t.store v p)

/-- TNOP, 43_transfer R253. -/
def execTnop (s : State) : Host.Outcome State Fault Refusal := .next s

/-- MOV, 43_transfer R254. -/
def execMov (src dst : Reg6) (s : State) : Host.Outcome State Fault Refusal :=
  s.unlessShort (.mov src dst) <|
    if src.readable then
      (s.afterRegRead src).finishReg (.mov src dst) s dst (s.regVal src)
    else s.raiseTransfer (.mov src dst) s

/-- LD.1, 43_transfer R255. -/
def execLd1 (reg : Reg6) (bank : MemBank) (mode : AddrMode) (arx : Fin 8) (s : State) :
    Host.Outcome State Fault Refusal :=
  s.unlessShort (.ld1 reg bank mode arx) <|
    (s.afterEa1 arx mode).loadReg (.ld1 reg bank mode arx) s bank (s.ea1 arx mode) reg

/-- ST.1, 43_transfer R256: the source is read before the address is formed. -/
def execSt1 (reg : Reg6) (bank : MemBank) (mode : AddrMode) (arx : Fin 8) (s : State) :
    Host.Outcome State Fault Refusal :=
  s.unlessShort (.st1 reg bank mode arx) <|
    if reg.readable then
      ((s.afterRegRead reg).afterEa1 arx mode).storeAt bank ((s.afterRegRead reg).ea1 arx mode)
        (s.regVal reg)
    else s.raiseTransfer (.st1 reg bank mode arx) s

/-- LD.2, 43_transfer R257. -/
def execLd2 (reg : Reg6) (bank : MemBank) (arx : Fin 8) (disp : BitVec 14) (s : State) :
    Host.Outcome State Fault Refusal :=
  s.unlessShort (.ld2 reg bank arx disp) <|
    s.loadReg (.ld2 reg bank arx disp) s bank (s.ea arx disp) reg

/-- ST.2, 43_transfer R258. -/
def execSt2 (reg : Reg6) (bank : MemBank) (arx : Fin 8) (disp : BitVec 14) (s : State) :
    Host.Outcome State Fault Refusal :=
  s.unlessShort (.st2 reg bank arx disp) <|
    if reg.readable then
      (s.afterRegRead reg).storeAt bank ((s.afterRegRead reg).ea arx disp) (s.regVal reg)
    else s.raiseTransfer (.st2 reg bank arx disp) s

/-! ## The double transfer (43_transfer R259) -/

/-- `ReadBankSeq(r)`: the pre-bundle value, or what sub-move A loaded into `r` in this bundle
(40_bundle R159). -/
def State.readBankSeq (s : State) (loaded : Option (BankReg × Word)) (r : BankReg) : Word :=
  match loaded with
  | some (q, v) => if q = r then v else s.getReg r
  | none => s.getReg r

/-- One sub-move: the state after it and what it loaded, or the stop of a stuck access. -/
def State.subMove (s : State) (bank : MemBank) (loaded : Option (BankReg × Word)) :
    Option SubMove → Except Fault (State × Option (BankReg × Word))
  | none => .ok (s, none)
  | some m =>
    let t := s.arInc m.arx
    match t.memLoc bank s.ar[m.arx] with
    | .error f => .error f
    | .ok p =>
      match m.dir with
      | .load => .ok ((t.afterLoad p).bufferReg .tr m.reg (t.placeVal p), some (m.reg, t.placeVal p))
      | .store => .ok (t.store (t.readBankSeq loaded m.reg) p, none)

/-- DX.1, 43_transfer R259: sub-move A on bank A, then sub-move B on bank B. -/
def execDx1 (a b : Option SubMove) (s : State) : Host.Outcome State Fault Refusal :=
  match s.subMove .a none a with
  | .error f => .fault f
  | .ok (t, loaded) =>
    match t.subMove .b loaded b with
    | .error f => .fault f
    | .ok (u, _) => .next u

/-- DX.2, 43_transfer R260: the only legal form has both sub-moves off and does nothing. -/
def execDx2 (s : State) : Host.Outcome State Fault Refusal := .next s

/-! ## Immediate transfers -/

/-- LDI, 43_transfer R261. -/
def execLdi (dst : Reg6) (imm : Word) (s : State) : Host.Outcome State Fault Refusal :=
  s.unlessShort (.ldi dst imm) <| s.finishReg (.ldi dst imm) s dst imm

/-- LDN, 43_transfer R262: the immediate is sign-extended. -/
def execLdn (dst : Reg6) (imm : BitVec 20) (s : State) : Host.Outcome State Fault Refusal :=
  s.unlessShort (.ldn dst imm) <| s.finishReg (.ldn dst imm) s dst (imm.signExtend _)

end Sys2Proof.Machine
end

