-- ==== Sys2Proof/Machine/Dispatch.lean ====
section
/-!
DEFINITION. The meaning of each sub-operation, one arm per row of spec/opcode_table.json.
-/

namespace Sys2Proof.Machine

def exec (i : Instr) (s : State) : Host.Outcome State Fault Refusal :=
  match i with
  | .nopAlu => Sys2Proof.Machine.execNopAlu s
  | .cif src dst => Sys2Proof.Machine.execCif src dst s
  | .cfi src dst => Sys2Proof.Machine.execCfi src dst s
  | .add s1 s2 dst => Sys2Proof.Machine.execAdd s1 s2 dst s
  | .cmp s1 s2 => Sys2Proof.Machine.execCmp s1 s2 s
  | .mnop => Sys2Proof.Machine.execMnop s
  | .fmul s1 s2 dst => Sys2Proof.Machine.execFmul s1 s2 dst s
  | .mul s1 s2 dst => Sys2Proof.Machine.execMul s1 s2 dst s
  | .tnop => Sys2Proof.Machine.execTnop s
  | .mov src dst => Sys2Proof.Machine.execMov src dst s
  | .ld1 reg bank mode arx => Sys2Proof.Machine.execLd1 reg bank mode arx s
  | .st1 reg bank mode arx => Sys2Proof.Machine.execSt1 reg bank mode arx s
  | .ld2 reg bank arx disp => Sys2Proof.Machine.execLd2 reg bank arx disp s
  | .st2 reg bank arx disp => Sys2Proof.Machine.execSt2 reg bank arx disp s
  | .dx1 a b => Sys2Proof.Machine.execDx1 a b s
  | .dx2 => Sys2Proof.Machine.execDx2 s
  | .ldi dst imm => Sys2Proof.Machine.execLdi dst imm s
  | .ldn dst imm => Sys2Proof.Machine.execLdn dst imm s
  | .nopCtl => Sys2Proof.Machine.execNopCtl s
  | .clrf sel => Sys2Proof.Machine.execClrf sel s
  | .setm imm => Sys2Proof.Machine.execSetm imm s
  | .dbcc cc disp => Sys2Proof.Machine.execDbcc cc disp s
  | .dbncc cc disp => Sys2Proof.Machine.execDbncc cc disp s
  | .djmp disp => Sys2Proof.Machine.execDjmp disp s
  | .dcall disp => Sys2Proof.Machine.execDcall disp s
  | .dret => Sys2Proof.Machine.execDret s

end Sys2Proof.Machine
end

