-- ==== Sys2Proof/Machine/Bundle.lean ====
section
/-!
DEFINITION. Executing one bundle (40_bundle R157 to R170): the checks before anything changes, the
slots in performance order, the commit of the bank writes, what a slot fault leaves, and the next PC.
-/

namespace Sys2Proof.Machine

/-! ## The checks made before any state of the bundle changes (40_bundle R168, 60_exceptions R354) -/

/-- The fault of DCALL at a full PCS or DRET at an empty one (10_state R30). -/
def State.pcsFault (s : State) (d : Bundle) : Option FaultKind :=
  match d.ctl with
  | .op (.dcall _) => if s.pcsp.val = (delta% Config.pcsDepth) then some .pcsOverflow else none
  | .op .dret => if s.pcsp = 0 then some .pcsUnderflow else none
  | _ => none

/-- The first early fault of the bundle, in the order of 60_exceptions R354. -/
def State.earlyFault (s : State) (b : Record) : Option (FaultKind × Option Nat) :=
  if b.unmapped then some (.unmappedCode, none)
  else match b.dec with
    | .illegal => some (.unimplementedBundle, none)
    | .bundle d =>
      if b.indelay && b.isxfer then
        some (.unimplementedControl, (d.ctl.instr?).map (s.cfg.controlInfo b.raw))
      else (s.pcsFault d).map fun k => (k, none)

/-- `FifoShortfall(d)` of the bundle (43_transfer R252): only the transfer slot reaches the FIFOs. -/
def State.mustHold (s : State) (b : Record) : Bool :=
  match b.dec with
  | .illegal => false
  | .bundle d => match d.tr with
    | .op i => s.fifoShort i
    | .absent | .bad .. => false

/-! ## The slots (40_bundle R158, R168) -/

/-- `Perform` of one slot, or the fault of a `Bad` one. -/
def State.performSlot (s : State) : SlotDec → Host.Outcome State Fault Refusal
  | .absent => .next s
  | .op i => exec i s
  | .bad k info => .next (s.takeFault k (some info))

/-- The slots in order; a slot that took a fault ends the bundle. -/
def State.runSlots (s : State) : List SlotDec → Host.Outcome State Fault Refusal
  | [] => .next s
  | d :: ds =>
    match s.performSlot d with
    | .next t => if t.dstate = .fault then .next t else t.runSlots ds
    | .fault f => .fault f
    | .refused r => .refused r

/-- The state after a slot, for finding what the later slots could write: a slot that does not run is
passed over. -/
def State.pastSlot (s : State) (d : SlotDec) : State :=
  match s.performSlot d with
  | .next t => if t.dstate = .fault then s else t
  | .fault _ => s
  | .refused _ => s

/-- Every location the bundle could write, its slots taken in order (40_bundle R170; log 12). -/
def State.couldWrite (s : State) : List SlotDec → List Loc
  | [] => []
  | d :: ds =>
    (match d with
      | .op i => Instr.writes i s
      | .absent | .bad .. => []) ++ (s.pastSlot d).couldWrite ds

/-! ## The commit (40_bundle R160, R161) -/

/-- The writes that count: of the writes of one op to one register the last (40_bundle R161). -/
def lastWrites : List Pending → List Pending
  | [] => []
  | p :: ps =>
    if ps.any fun q => q.reg == p.reg && q.slot == p.slot then lastWrites ps else p :: lastWrites ps

/-- Commits one bank write after `earlier` ones: where another op of the bundle wrote the register
already, which of the two values stays is a free draw (R161). -/
def State.commitOne (s : State) (earlier : List Pending) (p : Pending) : State :=
  if earlier.any fun q => q.reg == p.reg then
    (s.setReg p.reg (if s.freeBit then p.val else s.getReg p.reg)).drew
  else s.setReg p.reg p.val

/-- Commits bank writes in order. -/
def State.commitFrom (s : State) (earlier : List Pending) : List Pending → State
  | [] => s
  | p :: ps => (s.commitOne earlier p).commitFrom (p :: earlier) ps

/-- `commit SCRATCH to the banks; SCRATCH <- empty` (40_bundle R168). -/
def State.commit (s : State) : State :=
  { s.commitFrom [] (lastWrites s.scratch) with scratch := [] }

/-! ## One bundle -/

/-- The snapshot `pre` and an empty `SCRATCH` (40_bundle R168). -/
def State.openBundle (s : State) : State := { s with preFlags := s.flags, scratch := [] }

/-- A bundle that passed the checks: its slots, then the commit, or, after a slot fault, any value in
every location it could write (40_bundle R168, R170). -/
def State.issue (s : State) (d : Bundle) : Host.Outcome State Fault Refusal :=
  match s.openBundle.runSlots d.slots with
  | .next t =>
    .next (if t.dstate = .fault then t.havocAll (s.openBundle.couldWrite d.slots) else t.commit)
  | .fault f => .fault f
  | .refused r => .refused r

/-- `NextPC(b)` (40_bundle R169). -/
def State.nextPc (s : State) (b : Record) : State :=
  if b.indelay then
    match s.brpend with
    | some p => { s with brpend := none, pc := if p.taken then p.target else b.addr + 1 }
    | none => { s with pc := b.addr + 1 }
  else { s with pc := b.addr + 1 }

end Sys2Proof.Machine
end

