-- ==== Sys2Proof/Machine/Fsm.lean ====
section
/-!
DEFINITION. The dispatch state machine: RUN, MISS and FLUSH steps, the translation cache and the cycle
budget (45_dispatch R326 to R336).
-/

namespace Sys2Proof.Machine

/-- `BlockTail(blk)` (45_dispatch R333). -/
def State.blockTail (s : State) (blk : Block) : State :=
  if 0 < blockCycles blk then
    if s.icount - (blockCycles blk : Int) < 0 then
      { s with
        icount := s.icount - (blockCycles blk : Int)
        dstate := .idle
        signal := some .outOfCycles
        reply := .outOfCycles s.pc }
    else { s with icount := s.icount - (blockCycles blk : Int) }
  else s

/-- After a bundle of `CUR` that did not fault: the next bundle, or the block's tail
(45_dispatch R330). -/
def State.advance (s : State) (c : Cur) (b : Record) : State :=
  if c.idx + 1 < c.blk.length then { s.nextPc b with cur := some ⟨c.blk, c.idx + 1⟩ }
  else ({ s.nextPc b with cur := none } : State).blockTail c.blk

/-- A bundle that passed the early checks and does not hold: issue it and go on, unless it faulted. -/
def State.issueAndAdvance (s : State) (c : Cur) (b : Record) (d : Bundle) :
    Host.Outcome State Fault Refusal :=
  match s.issue d with
  | .next t => .next (if t.dstate = .fault then t else t.advance c b)
  | .fault f => .fault f
  | .refused r => .refused r

/-- `ExecBundle` of the record `b` of `CUR = c`, and what RUN does after it (40_bundle R168,
45_dispatch R330). A hold changes nothing. -/
def State.bundleStep (s0 : State) (c : Cur) (b : Record) : Host.Outcome State Fault Refusal :=
  let s := { s0 with pc := b.addr }
  match s.earlyFault b with
  | some (k, info) => .next (s.takeFault k info)
  | none =>
    if s.mustHold b then .next s
    else match b.dec with
      | .bundle d => s.issueAndAdvance c b d
      | .illegal => .fault .noRecord

/-- RUN at a block boundary: the lookup by PC (45_dispatch R330). -/
def State.lookupStep (s : State) : State :=
  match s.cache.lookup s.pc with
  | some blk => { s with cur := some ⟨blk, 0⟩ }
  | none => { s with dstate := .miss, signal := some .missingCode }

/-- `RunStep` (45_dispatch R330). -/
def State.runStep (s : State) : Host.Outcome State Fault Refusal :=
  match s.cur with
  | none => .next s.lookupStep
  | some c =>
    match c.blk[c.idx]? with
    | some b => s.bundleStep c b
    | none => .fault .noRecord

/-- The block that `Analyze` builds at an address of this machine. -/
def State.analyzeAt (s : State) (a : PcWord) : Block := analyze s.cfg s.prog s.progWords a

/-- Every block that can start at an address the launch gives a fragment size for fits an empty cache. A
block of any other address has its bundle count as its size, which fits (log 20). -/
def State.capacityHolds (s : State) : Bool :=
  s.cfg.fragTable.all fun e => decide (fragSize s.cfg (s.analyzeAt e.1.1) ≤ s.cfg.cacheCapacity)

/-- `MissStep` (45_dispatch R332). -/
def State.missStep (s : State) : State :=
  let blk := s.analyzeAt s.pc
  if s.cacheUsed + fragSize s.cfg blk ≤ s.cfg.cacheCapacity then
    { s with
      cache := (s.pc, blk) :: s.cache
      cacheUsed := s.cacheUsed + fragSize s.cfg blk
      dstate := .run }
  else { s with dstate := .flush, signal := some .cacheResetRequested }

/-- Every translation is dropped (45_dispatch R331). -/
def State.emptyCache (s : State) : State := { s with cache := [], cacheUsed := 0 }

/-- `FlushStep` (45_dispatch R331). -/
def State.flushStep (s : State) : State := { s.emptyCache with dstate := .run }

/-- One step of the core (45_dispatch R328). In IDLE it waits for the host (log 9); in FAULT no core
step is enabled (60_exceptions R352). -/
def State.coreTurn (s : State) : Host.Outcome State Fault Refusal :=
  match s.dstate with
  | .idle => .next s
  | .run => s.runStep
  | .miss => .next s.missStep
  | .flush => .next s.flushStep
  | .fault => .fault .haltedInFault

/-- A bundle word stored at the PC, its block translated there and about to run, as a launch, a `Run`
and a MISS would leave it (log 23). -/
def State.startAt (s : State) (w : DWord) : State :=
  let prog := s.prog.writeDWord s.pc.toNat w
  let words := max s.progWords (s.pc.toNat + 1)
  let cfg := { s.cfg with progHoles := s.cfg.progHoles.filter fun r => !r.has s.pc }
  let blk := analyze cfg prog words s.pc
  { s with
    cfg := cfg
    prog := prog
    progWords := words
    progDirty := false
    cache := [(s.pc, blk)]
    cacheUsed := fragSize cfg blk
    dstate := .run
    faultRec := none
    scratch := []
    cur := some ⟨blk, 0⟩
    brpend := none
    schedule := [] }

end Sys2Proof.Machine
end

