-- ==== Sys2Proof/Machine/HostPort.lean ====
section
/-!
DEFINITION. The host's and the platform's side: the interactions of 45_dispatch R340, the loads of
R341 and 20_memory R62, and inspection (60_exceptions R372). A move that is not admitted is refused.
-/

namespace Sys2Proof.Machine

/-! ## Inspection (60_exceptions R372) -/

/-- `ReadReg(name)`: the register's value as a number. -/
def State.inspect (s : State) : RegName → Nat
  | .bank r => (s.getReg r).toNat
  | .ar n => s.ar[n].toNat
  | .pr i => s.pr[i].toNat
  | .prp => s.prp.val
  | .pwp => s.pwp.val
  | .pcs i => s.pcs[i].toNat
  | .pcsp => s.pcsp.val
  | .flag f => (s.getFlag f).toNat
  | .fifoData q i => (s.getFifo q).data[i].toNat
  | .fifoRpos q => (s.getFifo q).rpos.val
  | .fifoWpos q => (s.getFifo q).wpos.val
  | .fifoNum q => (s.getFifo q).num.val
  | .scalar c => (s.getScalar c).toNat
  | .pc => s.pc.toNat

/-- How many values the named register has (10_state R43). -/
def regRange : RegName → Nat
  | .bank _ | .ar _ | .pr _ | .scalar _ => 2 ^ (delta% Config.regBits)
  | .pcs _ | .pc => 2 ^ (delta% Config.pcBits)
  | .prp | .pwp => (delta% Config.prSize)
  | .pcsp => (delta% Config.pcsLevels)
  | .flag _ => 2
  | .fifoData .. => 2 ^ 64
  | .fifoRpos _ | .fifoWpos _ => (delta% Config.fifoDepth)
  | .fifoNum _ => (delta% Config.fifoFills)

/-- `WriteReg(name, v)` with `v` in the register's range. A write of a FIFO's cursor or count can break the
invariant of 10_state R34, which is then the host's to keep (45_dispatch R340, log 22). -/
def State.poke (s : State) (n : RegName) (v : Nat) : State :=
  match n with
  | .bank r => s.setReg r (BitVec.ofNat _ v)
  | .ar n => s.setAr n (BitVec.ofNat _ v)
  | .pr i => { s with pr := s.pr.set i (BitVec.ofNat _ v) }
  | .prp => { s with prp := Fin.ofNat _ v }
  | .pwp => { s with pwp := Fin.ofNat _ v }
  | .pcs i => { s with pcs := s.pcs.set i (BitVec.ofNat _ v) }
  | .pcsp => { s with pcsp := Fin.ofNat _ v }
  | .flag f => s.setFlag f (v % 2 == 1)
  | .fifoData q i =>
    s.setFifo q { s.getFifo q with data := (s.getFifo q).data.set i (BitVec.ofNat 64 v) }
  | .fifoRpos q => s.setFifo q { s.getFifo q with rpos := Fin.ofNat _ v }
  | .fifoWpos q => s.setFifo q { s.getFifo q with wpos := Fin.ofNat _ v }
  | .fifoNum q => s.setFifo q { s.getFifo q with num := Fin.ofNat _ v }
  | .scalar c => s.setScalar c (BitVec.ofNat _ v)
  | .pc => { s with pc := BitVec.ofNat _ v }

/-! ## Reset and run (70_reset R380, 45_dispatch R329) -/

/-- Processor reset: every piece of state of spec/10_state.md at its reset value. Memories, the launch's
parameters, what passed over the external port, the free draws and the turns to come are no part of it
(70_reset R383). -/
def State.resetRegisters (s : State) : State :=
  { State.reset with
    ramA := s.ramA
    ramB := s.ramB
    prog := s.prog
    progWords := s.progWords
    cfg := s.cfg
    extIn := s.extIn
    extLog := s.extLog
    draws := s.draws
    schedule := s.schedule }

/-- `Run(budget)` (45_dispatch R329). -/
def State.startRun (s : State) (budget : Nat) : State :=
  { s with icount := budget, cur := none, dstate := .run, reply := .nothing }

/-- Program memory changed: translations made before are stale if there are any (45_dispatch R341). -/
def State.markProgChange (s : State) : State :=
  { s with progDirty := s.progDirty || !s.cache.isEmpty, reply := .nothing }

/-- The host may act on registers and memories between runs (45_dispatch R340). -/
def State.isIdle (s : State) : Bool := s.dstate == .idle

/-- IDLE or FAULT (45_dispatch R340). -/
def State.isStopped (s : State) : Bool := s.dstate == .idle || s.dstate == .fault

/-- A move where it is admitted, else the refusal: "refuse: no move" (93 H1 to H3, 45_dispatch R340). -/
def admitIf (c : Bool) (s : State) : Host.Outcome State Fault Refusal :=
  if c then .next s else .refused .hostMove

/-- One host or platform action (45_dispatch R340, R341). DESIGN CHOICE (log 34): `Reset` is admitted in IDLE
and FAULT, as R340 and 70_reset R380 say, where R328's table has it from any state. -/
def State.hostTurn (s : State) : HostAction → Host.Outcome State Fault Refusal
  | .reset => admitIf s.isStopped s.resetRegisters
  | .run budget =>
    if !s.isIdle then .refused .hostMove
    else if s.progDirty then .refused .progStable
    else if !s.capacityHolds then .refused .capacity
    else .next (s.startRun budget)
  | .pushFi v =>
    admitIf (s.fi.num.val < (delta% Config.fifoDepth)) { s with fi := s.fi.push v, reply := .nothing }
  | .popFo0 =>
    admitIf (0 < s.fo0.num.val) { s with fo0 := s.fo0.pop, reply := .value s.fo0.front.toNat }
  | .popFo1 =>
    admitIf (0 < s.fo1.num.val) { s with fo1 := s.fo1.pop, reply := .value s.fo1.front.toNat }
  | .readReg n => admitIf s.isStopped { s with reply := .value (s.inspect n) }
  | .writeReg n v =>
    admitIf (s.isIdle && v < regRange n) { s.poke n v with reply := .nothing }
  | .invalidate => admitIf s.isIdle { s.emptyCache with progDirty := false, reply := .nothing }
  | .extAnswer v =>
    admitIf (s.dstate == .run) { s with extIn := s.extIn ++ [v], reply := .nothing }
  | .loadProg a w =>
    admitIf s.isIdle { s.markProgChange with prog := s.prog.writeDWord a.toNat w }
  | .setProgMapped n holes =>
    admitIf s.isIdle
      { s.markProgChange with progWords := n, cfg := { s.cfg with progHoles := holes } }
  | .loadRam .a a v =>
    admitIf (s.isIdle && a.toNat < s.cfg.ramAWords)
      { s with ramA := s.ramA.writeWord a.toNat v, reply := .nothing }
  | .loadRam .b a v =>
    admitIf (s.isIdle && a.toNat < s.cfg.ramBWords)
      { s with ramB := s.ramB.writeWord a.toNat v, reply := .nothing }

/-- One step of the machine: the next turn of the schedule, and the core's when none is listed
(70_reset R394; log 8). -/
def State.takeTurn (s : State) : Host.Outcome State Fault Refusal :=
  match s.schedule with
  | [] => s.coreTurn
  | .core :: rest => State.coreTurn { s with schedule := rest }
  | .host a :: rest => State.hostTurn { s with schedule := rest } a

end Sys2Proof.Machine
end

