-- ==== Sys2Proof/Machine/Step.lean ====
section
/-!
DEFINITION. The step of the machine, and the state whose next step runs a given word.
-/

namespace Sys2Proof.Machine

/-- One step: a turn of the core or of the host (log 8). -/
def step (s : State) : Host.Outcome State Fault Refusal := s.takeTurn

/-- `s` with a bundle stored at its PC and about to be executed, so that the next step runs it
(log 23). -/
def State.withFetchWord (s : State) (nbits w : Nat) : State :=
  s.startAt (BitVec.ofNat 64 (w % 2 ^ nbits))

end Sys2Proof.Machine
end

