-- ==== Sys2Proof/Safety.lean ====
section
/-!
DEFINITION. What counts as a safe run, the launch premises, the end of a run, and the invariants of the
machine, in the terms claims use.
-/

namespace Sys2Proof.Machine

/-- No fault is recorded: "a model takes the absence of a fault record as a premise of every claim"
(60_exceptions R352). -/
def State.safe (s : State) : Prop := s.faultRec = none ∧ s.dstate ≠ .fault

/-- The duty `CAPACITY` (45_dispatch R327, R341): every block the analyzer can produce fits an empty
cache. -/
def State.capacityPremise (s : State) : Prop :=
  ∀ a : PcWord, fragSize s.cfg (s.analyzeAt a) ≤ s.cfg.cacheCapacity

/-- The duty `PROG_STABLE` (45_dispatch R341) as far as the state shows it. -/
def State.progStable (s : State) : Prop := s.progDirty = false

/-- FIFO `q` keeps the bundle about to run from starting: its transfer would pop an empty `FI` or push a full
`FO0` or `FO1` (20_memory R76, 43_transfer R252). -/
def State.heldBy (s : State) (q : FifoId) : Prop :=
  ∃ c b d i, s.dstate = .run ∧ s.cur = some c ∧ c.blk[c.idx]? = some b ∧ s.earlyFault b = none ∧
    b.dec = .bundle d ∧ d.tr = .op i ∧
    match q with
    | .fi => Instr.regRead i = some .fi ∧ s.fi.num.val = 0
    | .fo0 => Instr.regWritten i = some .fo0 ∧ s.fo0.num.val = (delta% Config.fifoDepth)
    | .fo1 => Instr.regWritten i = some .fo1 ∧ s.fo1.num.val = (delta% Config.fifoDepth)

/-- The host action that serves a hold on a FIFO (45_dispatch R341). -/
def serves : FifoId → HostAction → Prop
  | .fi, a => ∃ v, a = .pushFi v
  | .fo0, a => a = .popFo0
  | .fo1, a => a = .popFo1

/-- The duty `FIFO_SERVICE` (45_dispatch R341): whenever the core holds on a FIFO, the host comes to serve
that FIFO. -/
def State.fifoService (s : State) : Prop :=
  ∀ (n : Nat) (t : State) (q : FifoId), Host.Core.run core n s = .next t → t.heldBy q →
    ∃ (m : Nat) (u : State) (a : HostAction) (rest : List Turn),
      Host.Core.run core m t = .next u ∧ u.schedule = .host a :: rest ∧ serves q a

/-- The invariant of 10_state R34 holds of all three FIFOs. -/
def State.fifosCoherent (s : State) : Bool := s.fi.coherent && s.fo0.coherent && s.fo1.coherent

/-- The host's duty in `WriteReg` (45_dispatch R340): where the turn that comes next is one, it keeps the
FIFOs within the invariant of 10_state R34. -/
def State.writeKeepsFifos (s : State) : Prop :=
  ∀ (n : RegName) (v : Nat) (rest : List Turn), s.schedule = .host (.writeReg n v) :: rest →
    (s.poke n v).fifosCoherent = true

/-- The core is between two blocks (45_dispatch R330). -/
def State.atBoundary (s : State) : Prop := s.cur = none

/-- `h` holds the end-of-run idiom (70_reset R392). -/
def State.haltIdiomAt (s : State) (h : PcWord) : Prop :=
  s.cfg.mapped s.progWords h = true ∧ s.cfg.mapped s.progWords (h + 1) = true ∧
    s.prog.readDWord h.toNat = 0x8380012000000000 ∧
    s.prog.readDWord (h + 1).toNat = 0x8380000000000000

/-- The core is at a block boundary at `HALT_ADDR` with no fault recorded (70_reset R392): the run has ended
here or before. -/
def State.ended (s : State) : Prop :=
  ∃ h, s.cfg.haltAddr = some h ∧ s.haltIdiomAt h ∧ s.atBoundary ∧ s.pc = h ∧ s.faultRec = none

/-- The run from `s` ends after `n` steps in `t`: the first block boundary at `HALT_ADDR` with no fault
recorded (70_reset R392). -/
def State.endsAfter (s : State) (n : Nat) (t : State) : Prop :=
  Host.Core.run core n s = .next t ∧ t.ended ∧
    ∀ m < n, ∀ u : State, Host.Core.run core m s = .next u → ¬u.ended

/-- `t` is the end state of the run from `s`, the one at that first boundary (70_reset R392). -/
def State.endState (s t : State) : Prop := ∃ n, s.endsAfter n t

/-! ## Invariants -/

/-- The memories keep their canonical form, and the FIFOs the invariant of 10_state R34. -/
def State.dataInv (s : State) : Prop :=
  s.ramA.wf = true ∧ s.ramB.wf = true ∧ s.prog.wf = true ∧ s.fifosCoherent = true

/-- Outside RUN no block is under way; a fault is recorded exactly in FAULT; `SCRATCH` is empty between
bundles; program memory is dirty only in IDLE (10_state R41, 45_dispatch R328, R341, 60_exceptions
R352). -/
def State.dispatchInv (s : State) : Prop :=
  (s.dstate ≠ .run → s.cur = none) ∧ (s.faultRec.isSome = true ↔ s.dstate = .fault) ∧
    s.scratch = [] ∧ (s.progDirty = true → s.dstate = .idle)

/-- `CACHE_USED` is the sum of the cached blocks' sizes and within the capacity, and, unless program
memory was changed, every cached block is the analysis of its address (45_dispatch R326, 40_bundle
R171). -/
def State.cacheInv (s : State) : Prop :=
  s.cacheUsed = (s.cache.map fun e => fragSize s.cfg e.2).sum ∧ s.cacheUsed ≤ s.cfg.cacheCapacity ∧
    (s.progDirty = false → ∀ e ∈ s.cache, e.2 = s.analyzeAt e.1)

/-- The block under way is the analysis of some address, `CUR` points into it, `PC` is at its record, and
a transfer is pending exactly when that record is a delay slot; none is pending at a block boundary
(10_state R41, 45_dispatch R330, R333). -/
def State.runInv (s : State) : Prop :=
  match s.cur with
  | none => s.brpend = none
  | some c =>
    ∃ a b, c.blk = s.analyzeAt a ∧ c.blk[c.idx]? = some b ∧ s.pc = b.addr ∧
      s.brpend.isSome = b.indelay

/-- All the invariants of the machine. -/
def State.inv (s : State) : Prop :=
  s.dataInv ∧ s.dispatchInv ∧ s.cacheInv ∧ s.runInv

/-! ## Where a claim about one step starts -/

/-- The core's turn comes next and record `b` of the block under way is its bundle (45_dispatch R330). -/
def State.running (s : State) (c : Cur) (b : Record) : Prop :=
  s.schedule = [] ∧ s.dstate = .run ∧ s.cur = some c ∧ c.blk[c.idx]? = some b

/-- The fault record of the bundle `b` (60_exceptions R350 to R352). -/
def recordFault (b : Record) (k : FaultKind) (info : Option Nat) : FaultRec :=
  { kind := k, code := k.code, pc := b.addr, raw := b.raw, info := info }

/-! ## What an op leaves behind -/

/-- What a computed flag value `v` of flag `f` leaves (40_bundle R165): the value where the flag is
required; else the old value, or under `Either` one of the two. -/
def State.settles (s t : State) (f : Flag) (v : Bool) : Prop :=
  if s.required f = true then t.getFlag f = v
  else match s.cfg.lazyFlags with
    | .stale => t.getFlag f = s.getFlag f
    | .either => t.getFlag f = v ∨ t.getFlag f = s.getFlag f

/-- Where a PR pointer goes, as numbers (10_state R29). -/
def ringMove : PrMode → Nat → Nat
  | .plain, p => p
  | .inc, p => (p + 1) % (delta% Config.prSize)
  | .dec, p => (p + (delta% Config.prSize) - 1) % (delta% Config.prSize)
  | .rst, _ => 0

/-- The PR ring's write side is as it was, and `SCRATCH` holds the bank write besides what it held. -/
def State.bankDelivers (s t : State) (k : SlotKind) (r : BankReg) (v : Word) : Prop :=
  t.scratch = s.scratch ++ [⟨k, r, v⟩] ∧ t.pr = s.pr ∧ t.pwp = s.pwp

/-- `PRWrite(m, v)` was performed and nothing waits for the commit (10_state R29). -/
def State.prDelivers (s t : State) (m : PrMode) (v : Word) : Prop :=
  t.scratch = s.scratch ∧ t.pr[s.pwp] = v ∧ (∀ j : PrIndex, j ≠ s.pwp → t.pr[j] = s.pr[j]) ∧
    t.pwp.val = ringMove m s.pwp.val

/-- Nothing was delivered. -/
def State.noneDelivered (s t : State) : Prop := t.scratch = s.scratch ∧ t.pr = s.pr ∧ t.pwp = s.pwp

/-- `WriteAIO(d, v)` was performed (41_alu R200): a bank write waits for the bundle's end. -/
def State.aluDelivers (s t : State) (d : AluDst) (v : Word) : Prop :=
  match d with
  | .aa n => s.bankDelivers t .alu (.aa n) v
  | .ab n => s.bankDelivers t .alu (.ab n) v
  | .pr m => s.prDelivers t m v
  | .discard => s.noneDelivered t

/-- `WriteMIO(d, v)` was performed (42_mul R230). -/
def State.mulDelivers (s t : State) (d : MulDst) (v : Word) : Prop :=
  match d with
  | .ma n => s.bankDelivers t .mul (.ma n) v
  | .mb n => s.bankDelivers t .mul (.mb n) v
  | .pr m => s.prDelivers t m v
  | .discard => s.noneDelivered t

/-- PRP after an op that reads AI2 (41_alu R200). -/
def State.prpAfterAlu (s : State) : AluSrc2 → Nat
  | .pr m => ringMove m s.prp.val
  | .aa _ | .ab _ | .zero | .one | .minusOne | .ma _ => s.prp.val

/-- PRP after an op that reads MI2 (42_mul R230). -/
def State.prpAfterMul (s : State) : MulSrc2 → Nat
  | .pr m => ringMove m s.prp.val
  | .ab _ | .mb _ | .const _ => s.prp.val

/-! ## What a transfer may change -/

/-- `ReadReg(r)` leaves `t` (43_transfer R250): FI is popped, a ring read moves PRP by its mode, and any
other read changes nothing. -/
def State.readLeaves (s t : State) : Reg6 → Prop
  | .fi => t = { s with fi := s.fi.pop }
  | .pr m => ∃ p : PrIndex, p.val = ringMove m s.prp.val ∧ t = { s with prp := p }
  | .bank _ | .ar _ | .scalar _ | .fo0 | .fo1 | .prp | .pwp => t = s

/-- The named registers that `ReadReg` changes (43_transfer R250). -/
def Reg6.readNames : Reg6 → List RegName
  | .pr _ => [.prp]
  | .fi => [.fifoRpos .fi, .fifoNum .fi]
  | .bank _ | .ar _ | .scalar _ | .fo0 | .fo1 | .prp | .pwp => []

/-- The named registers that `WriteReg` changes before the bundle's end (43_transfer R250). -/
def State.writtenNames (s : State) : Reg6 → List RegName
  | .bank _ | .fi => []
  | .ar n => [.ar n]
  | .pr _ => [.pr s.pwp, .pwp]
  | .scalar c => [.scalar c]
  | .fo0 => [.fifoData .fo0 s.fo0.wpos, .fifoWpos .fo0, .fifoNum .fo0]
  | .fo1 => [.fifoData .fo1 s.fo1.wpos, .fifoWpos .fo1, .fifoNum .fo1]
  | .prp => [.prp]
  | .pwp => [.pwp]

/-- An access through the external window changes EO (20_memory R69). -/
def windowNames (bank : MemBank) (ea : Word) : List RegName :=
  if bank = .a ∧ 0x400 ≤ ea.toNat then [.scalar .eo] else []

/-- Post-increment changes its address register (20_memory R66). -/
def modeNames (x : Fin 8) : AddrMode → List RegName
  | .postInc => [.ar x]
  | .disp12 _ => []

/-- One sub-move changes its address register, and EO through the window (43_transfer R259). -/
def State.subMoveNames (s : State) (bank : MemBank) : Option SubMove → List RegName
  | none => []
  | some m => .ar m.arx :: windowNames bank s.ar[m.arx]

/-- The named registers that a transfer op changes before the bundle's end (spec/43_transfer.md). -/
def State.transferNames (s : State) : Instr → List RegName
  | .mov src dst => Reg6.readNames src ++ s.writtenNames dst
  | .ld1 r k m x => modeNames x m ++ windowNames k (s.ea1 x m) ++ s.writtenNames r
  | .st1 r k m x => Reg6.readNames r ++ modeNames x m ++ windowNames k (s.ea1 x m)
  | .ld2 r k x d => windowNames k (s.ea x d) ++ s.writtenNames r
  | .st2 r k x d => Reg6.readNames r ++ windowNames k (s.ea x d)
  | .dx1 a b => s.subMoveNames .a a ++ s.subMoveNames .b b
  | .ldi dst _ | .ldn dst _ => s.writtenNames dst
  | .tnop | .dx2 => []
  | .nopAlu | .cif .. | .cfi .. | .add .. | .cmp .. | .mnop | .fmul .. | .mul .. => []
  | .nopCtl | .clrf .. | .setm .. | .dbcc .. | .dbncc .. | .djmp .. | .dcall .. | .dret => []

/-- The external word behind a bank-A address: the segment base with its window bits cleared, and the
window bits of the address (20_memory R68). -/
def State.windowWord (s : State) (ea : Word) : Nat := s.eb.toNat / 0x400 * 0x400 + ea.toNat % 0x400

/-! ## FIFO contents -/

/-- The words a FIFO holds, oldest first (10_state R33, R34). -/
def Fifo.contents (q : Fifo) : List DWord :=
  (List.range q.num.val).map fun i => q.data[(q.rpos.val + i) % (delta% Config.fifoDepth)]

/-! ## The numbers that binary32 patterns denote (00_scope R15) -/

/-- `value(v)` of a finite pattern (00_scope R15). -/
def f32Value (v : Word) : ℚ :=
  (if v.msb then -1 else 1) *
    (if f32Exp v = 0 then (f32Frac v : ℚ) / 2 ^ 149
     else ((2 ^ 23 + f32Frac v : ℕ) : ℚ) * 2 ^ ((f32Exp v : ℤ) - 150))

/-- The finite pattern `r` is `x` rounded in the mode (00_scope R15): no finite pattern is nearer, and of
two that are equally near the last digit is even; or none of magnitude at most that of `x` is larger. -/
def f32RoundsTo (rm : RoundMode) (x : ℚ) (r : Word) : Prop :=
  match rm with
  | .towardZero =>
    |f32Value r| ≤ |x| ∧ 0 ≤ f32Value r * x ∧
      ∀ w : Word, f32IsFinite w = true → |f32Value w| ≤ |x| → |f32Value w| ≤ |f32Value r|
  | .nearestEven =>
    ∀ w : Word, f32IsFinite w = true →
      |f32Value r - x| ≤ |f32Value w - x| ∧
        (|f32Value r - x| = |f32Value w - x| → f32Value w = f32Value r ∨ r.getLsbD 0 = false)

/-- The integer `i` is `x` rounded in the mode (00_scope R15). -/
def intRoundsTo (rm : RoundMode) (x : ℚ) (i : Int) : Prop :=
  match rm with
  | .towardZero => |(i : ℚ)| ≤ |x| ∧ |x| < |(i : ℚ)| + 1 ∧ 0 ≤ (i : ℚ) * x
  | .nearestEven => |(i : ℚ) - x| ≤ 1 / 2 ∧ (|(i : ℚ) - x| = 1 / 2 → i % 2 = 0)

end Sys2Proof.Machine
end

