-- ==== Sys2Proof/Certificates/Slice0/Obligations.lean ====
section
/-!
DEFINITION. The statements for the provers. Each docstring names the rules of spec/ it rests on; a clause
that rests on a choice of the model names the log entry.
-/

open Sys2Proof Sys2Proof.Machine

/-! ## Encoding -/

/-- Decoding the word of a well-formed bundle gives the bundle back, every operand at every value the
encoding admits (R103 to R108, R112 to R128, R131). -/
def Obligations.DecodeEncodeBundle : Prop :=
  ∀ b : Bundle, b.wf = true → decode b.encode = .bundle b

/-- The word of an instruction alone decodes to it in its own slot, with NOPs or nothing elsewhere. -/
def Obligations.DecodeEncodeInstruction : Prop :=
  ∀ i : Instr, i.wf = true →
    decode (encode i) = .bundle i.alone ∧ i.alone.at i.slot = .op i ∧
      ∀ k, k ≠ i.slot → i.alone.at k = .absent ∨ ∃ n, i.alone.at k = .op n ∧ n.isNop = true

/-- Words written out in spec/95_test_vectors.md decode to what they stand for, in every format class
(W1, E2, E3, B1, T1, T11, T13, T16, T19, K3, E21). -/
def Obligations.WordsOfTheSpecDecode : Prop :=
  decode 0x8380000000000000 =
      .bundle ⟨.singleCtrl, .absent, .op .nopAlu, .absent, .op .nopCtl⟩ ∧
  decode 0x0000000000000000 =
      .bundle ⟨.dualDxfer1, .op (.dx1 none none), .bad .unimplementedAlu 0, .op .mnop, .absent⟩ ∧
  decode 0xC000000000000000 = .illegal ∧
  decode 0x3004020000000000 =
      .bundle (.dual .dualXfer1 .tnop (.add (.aa 0) (.ab 0) (.aa 0)) (.mul (.aa 0) (.ab 0) (.ma 0))) ∧
  decode 0x270000000184A000 =
      .bundle (.dual .dualXfer1 (.mov (.bank (.ab 2)) (.ar 1)) .nopAlu .mnop) ∧
  decode 0x6700000002208020 =
      .bundle (.dual .dualXfer2 (.ld2 (.bank (.ab 0)) .a 2 0x20) .nopAlu .mnop) ∧
  decode 0x0700000002001A08 =
      .bundle (.dual .dualDxfer1
        (.dx1 (some ⟨.load, .aa 0, 0⟩) (some ⟨.store, .ab 0, 1⟩)) .nopAlu .mnop) ∧
  decode 0xA805420000000007 =
      .bundle ⟨.singleXferi, .op (.ldi (.bank (.aa 0)) 7), .op (.add (.aa 0) .one (.aa 1)), .absent,
        .absent⟩ ∧
  decode 0xE7000000027FFFFF = .bundle (.dual .dualXfer3 (.ldn (.ar 7) 0xFFFFF) .nopAlu .mnop) ∧
  decode 0x838001100000FFFF =
      .bundle ⟨.singleCtrl, .absent, .op .nopAlu, .absent, .op (.dbncc .az 0xFFFF)⟩ ∧
  decode 0x500A800000000000 =
      .bundle (.dual .dualDxfer2 .dx2 (.add (.aa 0) .one (.aa 0)) .mnop)

/-- An ALU field, and a MUL field, is a fault exactly where its opcode is not in the table or a field the
op uses holds a reserved code; the fault carries the field (R106, R108, R113, R114, R116, R117, R118). In
the single layout U selects the unit, and a MUL field under nonzero W[59:57] is a fault (R104). A word is
illegal as a whole exactly where its class is 6 (R101). -/
def Obligations.UnitFieldLegality : Prop :=
  (∀ a : BitVec 19,
    let op := a.extractLsb' 14 5
    let s := a.extractLsb' 5 5
    let d := a.extractLsb' 0 5
    let legal := op = 0x07 ∨ (op = 0x14 ∧ s ≠ 0x17) ∨
      ((op = 0x0D ∨ op = 0x0E ∨ op = 0x10) ∧ s ≠ 0x17 ∧ (d < 0x14 ∨ d = 0x1F))
    ((decodeAlu a).isBad = true ↔ ¬legal) ∧
      (¬legal → decodeAlu a = .bad .unimplementedAlu a.toNat)) ∧
  (∀ m : BitVec 16,
    let op := m.extractLsb' 14 2
    let s := m.extractLsb' 5 5
    let d := m.extractLsb' 0 5
    let legal := op = 0 ∨ ((op = 1 ∨ op = 2) ∧ s < 0x1C ∧ (d < 0x14 ∨ d = 0x1F))
    ((decodeMul m).isBad = true ↔ ¬legal) ∧
      (¬legal → decodeMul m = .bad .unimplementedMul m.toNat)) ∧
  ∀ w : DWord,
    (decode w = .illegal ↔ w.extractLsb' 61 3 = 6) ∧
    ((w.extractLsb' 61 3 = 4 ∨ w.extractLsb' 61 3 = 5) →
      ∃ b, decode w = .bundle b ∧
        (w.extractLsb' 60 1 = 0 → b.alu = decodeAlu (w.extractLsb' 41 19) ∧ b.mul = .absent) ∧
        (w.extractLsb' 60 1 = 1 → b.alu = .absent ∧
          b.mul = if w.extractLsb' 57 3 = 0 then decodeMul (w.extractLsb' 41 16)
            else .bad .unimplementedMul (w.extractLsb' 41 16).toNat))

/-- A control field is a fault exactly where COP is not in the table, a must-be-0 field is not 0, the
condition code is 14 or 15, or the CLRF selector is not 1, 2 or 3; the fault carries COP (R126 to R130). -/
def Obligations.ControlFieldLegality : Prop :=
  ∀ t : BitVec 41,
    let cop := t.extractLsb' 36 5
    let cc := t.extractLsb' 32 4
    let imm := t.extractLsb' 0 16
    let legal := t.extractLsb' 16 16 = 0 ∧
      (((cop = 0x10 ∨ cop = 0x11) ∧ cc < 14) ∨
        (cc = 0 ∧ ((cop = 0x00 ∧ imm = 0) ∨ (cop = 0x03 ∧ 1 ≤ imm ∧ imm ≤ 3) ∨ cop = 0x08 ∨
          cop = 0x12 ∨ cop = 0x14 ∨ (cop = 0x15 ∧ imm = 0))))
    ((decodeCtrl t).isBad = true ↔ ¬legal) ∧
      (¬legal → decodeCtrl t = .bad .unimplementedControl cop.toNat)

/-- A transfer field of each class is a fault exactly where a must-be-0 field is not 0, a register code is
reserved or has the wrong FIFO direction, or a DXFER2 sub-move is enabled; the fault carries the field, `T`
or `TAIL` (R120 to R125, R130, R350). Which form reads the field goes by the class (R101, R102). The write
of 24 or more to PRP or PWP, which R130 lists too, is no matter of the field here but a fault when the
transfer executes, also for LDI and LDN (log 13). -/
def Obligations.TransferFieldLegality : Prop :=
  let readable : BitVec 6 → Prop := fun c => c < 0x33 ∨ c = 0x35 ∨ c = 0x36
  let writable : BitVec 6 → Prop := fun c => c < 0x37 ∧ c ≠ 0x32
  let subMove : BitVec 13 → Prop := fun m =>
    (m.extractLsb' 12 1 = 0 ∧ m = 0) ∨ (m.extractLsb' 12 1 = 1 ∧ m.extractLsb' 0 3 = 0)
  let field : BitVec 3 → Option (BitVec 26 → Option Instr) := fun c =>
    if c = 0 then some decodeDxfer1Op else if c = 1 then some decodeXfer1Op
    else if c = 2 then some decodeDxfer2Op else if c = 3 then some decodeXfer2Op
    else if c = 7 then some decodeXfer3Op else none
  (∀ t : BitVec 26,
    let kind := t.extractLsb' 24 2
    let none := kind = 0 ∧ t.extractLsb' 0 24 = 0
    let move := kind = 1 ∧ t.extractLsb' 0 12 = 0 ∧ readable (t.extractLsb' 12 6) ∧
      writable (t.extractLsb' 18 6)
    let mode1 := t.extractLsb' 15 1 = 0 ∧ (t.extractLsb' 16 1 = 1 ∨ t.extractLsb' 0 12 = 0)
    ((decodeTransfer decodeXfer1Op t).isBad = true ↔
      ¬(none ∨ move ∨ (kind = 2 ∧ writable (t.extractLsb' 18 6) ∧ mode1) ∨
        (kind = 3 ∧ readable (t.extractLsb' 18 6) ∧ mode1))) ∧
    ((decodeTransfer decodeXfer2Op t).isBad = true ↔
      ¬(none ∨ move ∨ (kind = 2 ∧ writable (t.extractLsb' 18 6)) ∨
        (kind = 3 ∧ readable (t.extractLsb' 18 6)))) ∧
    ((decodeTransfer decodeDxfer1Op t).isBad = true ↔
      ¬(subMove (t.extractLsb' 13 13) ∧ subMove (t.extractLsb' 0 13))) ∧
    ((decodeTransfer decodeDxfer2Op t).isBad = true ↔ t ≠ 0) ∧
    ((decodeTransfer decodeXfer3Op t).isBad = true ↔ ¬writable (t.extractLsb' 20 6))) ∧
  (∀ t : BitVec 41,
    ((decodeXferiOp t).isNone = true ↔
      ¬(t.extractLsb' 32 3 = 0 ∧ writable (t.extractLsb' 35 6)))) ∧
  (∀ (op : BitVec 26 → Option Instr) (t : BitVec 26), (decodeTransfer op t).isBad = true →
    decodeTransfer op t = .bad .unimplementedTransfer t.toNat) ∧
  ∀ (w : DWord) (b : Bundle), decode w = .bundle b →
    (∀ op, field (w.extractLsb' 61 3) = some op → b.tr = decodeTransfer op (w.extractLsb' 0 26)) ∧
    (w.extractLsb' 61 3 = 4 → b.tr = .absent) ∧
    (w.extractLsb' 61 3 = 5 →
      (decodeXferiOp (w.extractLsb' 0 41) = none →
        b.tr = .bad .unimplementedTransfer (w.extractLsb' 0 41).toNat) ∧
      ∀ i, decodeXferiOp (w.extractLsb' 0 41) = some i → b.tr = .op i)

/-! ## Reset and named state -/

/-- Reset sets every register and all hidden state to its reset value and leaves the memories alone (R340,
R380, R381, R383). That it is admitted in IDLE and FAULT and refused in any other state is the model's
choice between R340 and the table of R328, which has it from any state (log 34), and so is that it keeps
the record of the external accesses (log 24). -/
def Obligations.ResetClearsEverything : Prop :=
  ∀ s : State,
    if s.dstate = .idle ∨ s.dstate = .fault then
      ∃ t, s.hostTurn .reset = .next t ∧ (∀ n, t.inspect n = 0) ∧ t.cache = [] ∧ t.cacheUsed = 0 ∧
        t.dstate = .idle ∧ t.icount = 0 ∧ t.cur = none ∧ t.faultRec = none ∧ t.scratch = [] ∧
        t.brpend = none ∧ t.ramA = s.ramA ∧ t.ramB = s.ramB ∧ t.prog = s.prog ∧
        t.progWords = s.progWords ∧ t.extLog = s.extLog
    else s.hostTurn .reset = .refused .hostMove

/-- What each operand form reads (R200, R230, R250): the banks by their numbers, the ring at its read
pointer, the constants, the scalars, the low half of the oldest input word. -/
def Obligations.OperandTables : Prop :=
  ∀ (s : State) (n : Fin 8) (m : PrMode),
    s.aluSrc1 (.aa n) = s.regs[n.val] ∧ s.aluSrc1 (.ab n) = s.regs[8 + n.val] ∧
    s.aluSrc2 (.aa n) = s.regs[n.val] ∧ s.aluSrc2 (.ab n) = s.regs[8 + n.val] ∧
    s.aluSrc2 (.ma n) = s.regs[16 + n.val] ∧ s.aluSrc2 (.pr m) = s.pr[s.prp] ∧
    s.aluSrc2 .zero = 0 ∧ s.aluSrc2 .one = 1 ∧ s.aluSrc2 .minusOne = -1 ∧
    s.mulSrc1 (.aa n) = s.regs[n.val] ∧ s.mulSrc1 (.ma n) = s.regs[16 + n.val] ∧
    s.mulSrc2 (.ab n) = s.regs[8 + n.val] ∧ s.mulSrc2 (.mb n) = s.regs[24 + n.val] ∧
    s.mulSrc2 (.pr m) = s.pr[s.prp] ∧ s.mulSrc2 (.const n) = s.cfg.mulFconst[n] ∧
    s.regVal (.bank (.aa n)) = s.regs[n.val] ∧ s.regVal (.bank (.ab n)) = s.regs[8 + n.val] ∧
    s.regVal (.bank (.ma n)) = s.regs[16 + n.val] ∧ s.regVal (.bank (.mb n)) = s.regs[24 + n.val] ∧
    s.regVal (.ar n) = s.ar[n] ∧ s.regVal (.pr m) = s.pr[s.prp] ∧ s.regVal (.scalar .eb) = s.eb ∧
    s.regVal (.scalar .eo) = s.eo ∧ s.regVal (.scalar .sp) = s.sp ∧
    s.regVal (.scalar .mod) = s.mod ∧ s.regVal (.scalar .pdr) = s.pdr ∧
    s.regVal (.scalar .ddr) = s.ddr ∧ (s.regVal .fi).toNat = s.fi.data[s.fi.rpos].toNat % 2 ^ 32 ∧
    (s.regVal .prp).toNat = s.prp.val ∧ (s.regVal .pwp).toNat = s.pwp.val

/-- The FIFO operations are those of a queue, their cursors wrap modulo 8, and they keep the invariant
between the cursors and the fill count (R33, R34). -/
def Obligations.FifoIsAQueue : Prop :=
  ∀ (q : Fifo) (v : DWord), q.coherent = true →
    (q.num.val < 8 →
      (q.push v).contents = q.contents ++ [v] ∧ (q.push v).wpos.val = (q.wpos.val + 1) % 8 ∧
        (q.push v).rpos = q.rpos ∧ (q.push v).num.val = q.num.val + 1 ∧
        (q.push v).coherent = true) ∧
    (0 < q.num.val →
      q.contents = q.front :: q.pop.contents ∧ q.pop.rpos.val = (q.rpos.val + 1) % 8 ∧
        q.pop.wpos = q.wpos ∧ q.pop.num.val + 1 = q.num.val ∧ q.pop.data = q.data ∧
        q.pop.coherent = true) ∧
    (q.clear.contents = [] ∧ q.clear.rpos.val = 0 ∧ q.clear.wpos.val = 0 ∧ q.clear.num.val = 0 ∧
      q.clear.data = q.data ∧ q.clear.coherent = true)

/-- Moving a word from the ring to the ring reads the entry at PRP, moves PRP, writes the entry at PWP and
moves PWP, each pointer by its own mode; no other entry changes (R29, R254). -/
def Obligations.RingToRingMove : Prop :=
  ∀ (m k : PrMode) (s : State), ∃ t,
    exec (.mov (.pr m) (.pr k)) s = .next t ∧ t.pr[s.pwp] = s.pr[s.prp] ∧
      (∀ j : Fin 24, j ≠ s.pwp → t.pr[j] = s.pr[j]) ∧ t.prp.val = ringMove m s.prp.val ∧
      t.pwp.val = ringMove k s.pwp.val ∧ t = { s with pr := t.pr, prp := t.prp, pwp := t.pwp }

/-! ## ALU -/

/-- ADD writes the sum modulo 2^32, or the clamped sum where ADD_SAT is set; AN, AZ and AV are the sign,
the zero test and whether the result differs from the exact sum (R202, R165). -/
def Obligations.AddResult : Prop :=
  ∀ (s1 : AluSrc1) (s2 : AluSrc2) (d : AluDst) (s : State), ∃ (t : State) (r : Word),
    exec (.add s1 s2 d) s = .next t ∧ s.aluDelivers t d r ∧ t.prp.val = s.prpAfterAlu s2 ∧
      (s.cfg.addSat = false →
        r.toNat = ((s.aluSrc1 s1).toNat + (s.aluSrc2 s2).toNat) % 2 ^ 32) ∧
      (s.cfg.addSat = true →
        r.toInt =
          min (max ((s.aluSrc1 s1).toInt + (s.aluSrc2 s2).toInt) (-2 ^ 31)) (2 ^ 31 - 1)) ∧
      s.settles t .an (decide (r.toInt < 0)) ∧ s.settles t .az (decide (r = 0)) ∧
      s.settles t .av (decide (r.toInt ≠ (s.aluSrc1 s1).toInt + (s.aluSrc2 s2).toInt))

/-- CMP writes no register; AN is the sign of the difference modulo 2^32, AZ is equality and AV is whether
that difference is not the exact one. AU and AD are some values, which are free draws, under the lazy-flag
rule: where they are not required they are as before under `Stale` (R165, R203, log 7). -/
def Obligations.CmpResult : Prop :=
  ∀ (s1 : AluSrc1) (s2 : AluSrc2) (s : State), ∃ (t : State) (au ad : Bool),
    exec (.cmp s1 s2) s = .next t ∧ s.noneDelivered t ∧ t.prp.val = s.prpAfterAlu s2 ∧
      s.settles t .an (decide ((s.aluSrc1 s1 - s.aluSrc2 s2).toInt < 0)) ∧
      s.settles t .az (decide (s.aluSrc1 s1 = s.aluSrc2 s2)) ∧
      s.settles t .av (decide ((s.aluSrc1 s1 - s.aluSrc2 s2).toInt ≠
        (s.aluSrc1 s1).toInt - (s.aluSrc2 s2).toInt)) ∧
      s.settles t .au au ∧ s.settles t .ad ad

/-- CIF writes the integer rounded to binary32 in the mode that MOD bit 7 selects; AN is the integer's
sign and AZ whether it is 0 (R204). That the rounding is right is `ConversionRounding`. -/
def Obligations.CifResult : Prop :=
  ∀ (src : AluSrc2) (d : AluDst) (s : State), ∃ t : State,
    exec (.cif src d) s = .next t ∧ t.prp.val = s.prpAfterAlu src ∧
      s.aluDelivers t d (roundToBinary32
        (if s.mod.getLsbD 7 then .nearestEven else .towardZero) (s.aluSrc2 src).toInt) ∧
      s.settles t .an (decide ((s.aluSrc2 src).toInt < 0)) ∧
      s.settles t .az (decide ((s.aluSrc2 src).toInt = 0))

/-- CFI writes the rounded value clamped to 24 bits, with AV where it was clamped; an infinity is
clamped, and a NaN gives AV with any result. AN and AZ are those of the result (R205, log 7). -/
def Obligations.CfiResult : Prop :=
  ∀ (src : AluSrc2) (d : AluDst) (s : State), ∃ (t : State) (r : Word) (sat : Bool),
    exec (.cfi src d) s = .next t ∧ s.aluDelivers t d r ∧ t.prp.val = s.prpAfterAlu src ∧
      s.settles t .av sat ∧ s.settles t .an (decide (r.toInt < 0)) ∧
      s.settles t .az (decide (r = 0)) ∧
      (if f32IsNaN (s.aluSrc2 src) = true then sat = true
       else if f32IsInf (s.aluSrc2 src) = true then
         sat = true ∧ r = (if (s.aluSrc2 src).msb then 0xFF800000 else 0x007FFFFF)
       else
         let i := roundToInteger (if s.mod.getLsbD 7 then .nearestEven else .towardZero)
           (s.aluSrc2 src)
         r.toInt = min (max i (-2 ^ 23)) (2 ^ 23 - 1) ∧ sat = decide (r.toInt ≠ i))

/-- The conversions round as the mode says: the binary32 value of a 32-bit integer is finite and is the
integer rounded, and the integer of a finite binary32 value is that value rounded (R15, R204, R205). -/
def Obligations.ConversionRounding : Prop :=
  ∀ (rm : RoundMode) (a : Word),
    f32IsFinite (roundToBinary32 rm a.toInt) = true ∧
      f32RoundsTo rm (a.toInt : ℚ) (roundToBinary32 rm a.toInt) ∧
      (f32IsFinite a = true → intRoundsTo rm (f32Value a) (roundToInteger rm a))

/-! ## MUL -/

/-- MUL writes the exact signed product clamped to 24 bits; MV, MN and MZ say whether it was clamped, the
sign and zero (R233). -/
def Obligations.MulResult : Prop :=
  ∀ (s1 : MulSrc1) (s2 : MulSrc2) (d : MulDst) (s : State), ∃ (t : State) (r : Word),
    exec (.mul s1 s2 d) s = .next t ∧ s.mulDelivers t d r ∧ t.prp.val = s.prpAfterMul s2 ∧
      r.toInt =
        min (max ((s.mulSrc1 s1).toInt * (s.mulSrc2 s2).toInt) (-2 ^ 23)) (2 ^ 23 - 1) ∧
      s.settles t .mv (decide (r.toInt ≠ (s.mulSrc1 s1).toInt * (s.mulSrc2 s2).toInt)) ∧
      s.settles t .mn (decide (r.toInt < 0)) ∧ s.settles t .mz (decide (r = 0))

/-- FMUL writes the product of two binary32 patterns and its five flags; a NaN product is some NaN whose
payload, sign and MN are free draws (R232, log 7), MN under the lazy-flag rule (R165), and whose MZ, MV
and MU are false (log 26). That the product is rounded right is `ProductRounding`. Where the launch's
`FMUL_FN` differs from its reference value (log 4), result and flags are what it names; after reset it
differs nowhere. -/
def Obligations.FmulResult : Prop :=
  State.reset.cfg.fmulTable = [] ∧
  ∀ (s1 : MulSrc1) (s2 : MulSrc2) (d : MulDst) (s : State), ∃ (t : State) (r : Word) (n : Bool),
    let a := s.mulSrc1 s1
    let b := s.mulSrc2 s2
    let nan := f32IsNaN a = true ∨ f32IsNaN b = true ∨
      (f32IsInf a = true ∧ f32IsZero b = true) ∨ (f32IsZero a = true ∧ f32IsInf b = true)
    exec (.fmul s1 s2 d) s = .next t ∧ s.mulDelivers t d r ∧ t.prp.val = s.prpAfterMul s2 ∧
      match s.cfg.fmulTable.lookup (a, b) with
      | some f =>
        r = f.r ∧ s.settles t .mn f.n ∧ s.settles t .mz f.z ∧ s.settles t .mv f.v ∧
          s.settles t .mu f.u ∧ s.settles t .md f.d
      | none =>
        (nan → f32IsNaN r = true) ∧ (¬nan → r = fmulProduct a b ∧ n = r.msb) ∧ s.settles t .mn n ∧
        s.settles t .mz (decide (r = 0 ∨ r = 0x80000000)) ∧
        s.settles t .mv (f32IsInf r && f32IsFinite a && f32IsFinite b) ∧
        s.settles t .mu
          (decide (¬nan ∧ f32IsZero a = false ∧ f32IsZero b = false) &&
            (f32IsSubnormal r || f32IsZero r)) ∧
        s.settles t .md (f32IsSubnormal a || f32IsSubnormal b)

/-- The product of two finite patterns has the sign of the product, and below the overflow bound it is
finite and the exact product rounded to nearest even; from the bound on it is infinite. A product with an
infinity and no NaN is infinite (R15, R232). -/
def Obligations.ProductRounding : Prop :=
  ∀ a b : Word, fmulIsNaN a b = false →
    (fmulProduct a b).msb = (a.msb != b.msb) ∧
    (f32IsInf a = true ∨ f32IsInf b = true → f32IsInf (fmulProduct a b) = true) ∧
    (f32IsFinite a = true → f32IsFinite b = true →
      if |f32Value a * f32Value b| < 2 ^ 128 - 2 ^ 103 then
        f32IsFinite (fmulProduct a b) = true ∧
          f32RoundsTo .nearestEven (f32Value a * f32Value b) (fmulProduct a b)
      else f32IsInf (fmulProduct a b) = true)

/-! ## Both units -/

/-- What NOP, MNOP, TNOP, DX.2 and the control NOP do: nothing (R201, R231, R253, R260, R291). -/
def Obligations.NopsDoNothing : Prop :=
  ∀ s : State,
    exec .nopAlu s = .next s ∧ exec .mnop s = .next s ∧ exec .tnop s = .next s ∧
      exec .dx2 s = .next s ∧ exec .nopCtl s = .next s

/-- FRAME of every ALU and MUL op, before the bundle's commit: at most `SCRATCH`, the PR ring and its
pointers, and the flags the op defines change (R200, R230, R106, R108); no byte of memory, no special
register, no FIFO, no accumulator. -/
def Obligations.UnitFrame : Prop :=
  ∀ (i : Instr) (s t : State), i.slot = .alu ∨ i.slot = .mul → exec i s = .next t →
    t = { s with scratch := t.scratch, pr := t.pr, prp := t.prp, pwp := t.pwp, flags := t.flags,
                 draws := t.draws } ∧
    (∀ f : Flag, f ∉ Instr.flagsDefined i → t.getFlag f = s.getFlag f) ∧
    (∀ s1 s2 d, i = .add s1 s2 d → Instr.flagsDefined i = [.an, .az, .av]) ∧
    (∀ s1 s2, i = .cmp s1 s2 → Instr.flagsDefined i = [.an, .az, .av, .au, .ad]) ∧
    (∀ src d, i = .cif src d → Instr.flagsDefined i = [.an, .az]) ∧
    (∀ src d, i = .cfi src d → Instr.flagsDefined i = [.an, .az, .av]) ∧
    (∀ s1 s2 d, i = .fmul s1 s2 d → Instr.flagsDefined i = [.mn, .mz, .mv, .mu, .md]) ∧
    (∀ s1 s2 d, i = .mul s1 s2 d → Instr.flagsDefined i = [.mn, .mz, .mv]) ∧
    ∀ a : Nat, t.ramA.readByte a = s.ramA.readByte a ∧ t.ramB.readByte a = s.ramB.readByte a

/-! ## Transfers -/

/-- LDI and LDN write each kind of destination: the bank register through the commit, AR, the ring, a
scalar, an output FIFO that is not full, and a ring pointer where the value is below 24; nothing else
changes (R250, R261, R262). LDN's value is the sign-extended immediate. -/
def Obligations.ImmediateTransferResult : Prop :=
  ∀ (s : State) (v : Word) (ldx : Reg6 → Instr),
    (ldx = fun r => .ldi r v) ∨ (∃ n : BitVec 20, v.toInt = n.toInt ∧ ldx = fun r => .ldn r n) →
    (∀ r, exec (ldx (.bank r)) s = .next { s with scratch := s.scratch ++ [⟨.tr, r, v⟩] }) ∧
    (∀ n, exec (ldx (.ar n)) s = .next { s with ar := s.ar.set n v }) ∧
    (∀ m, ∃ p : Fin 24, p.val = ringMove m s.pwp.val ∧
      exec (ldx (.pr m)) s = .next { s with pr := s.pr.set s.pwp v, pwp := p }) ∧
    exec (ldx (.scalar .eb)) s = .next { s with eb := v } ∧
    exec (ldx (.scalar .eo)) s = .next { s with eo := v } ∧
    exec (ldx (.scalar .sp)) s = .next { s with sp := v } ∧
    exec (ldx (.scalar .mod)) s = .next { s with mod := v } ∧
    exec (ldx (.scalar .pdr)) s = .next { s with pdr := v } ∧
    exec (ldx (.scalar .ddr)) s = .next { s with ddr := v } ∧
    (s.fo0.num.val < 8 →
      exec (ldx .fo0) s = .next { s with fo0 := s.fo0.push (BitVec.ofNat 64 v.toNat) }) ∧
    (s.fo1.num.val < 8 →
      exec (ldx .fo1) s = .next { s with fo1 := s.fo1.push (BitVec.ofNat 64 v.toNat) }) ∧
    ∀ p : Fin 24, v.toNat = p.val →
      exec (ldx .prp) s = .next { s with prp := p } ∧ exec (ldx .pwp) s = .next { s with pwp := p }

/-- MOV reads its source, with the source's side effect (FI is popped, a ring read moves PRP), and then
writes its destination as LDI does, for every pair of registers a MOV can name, where the FIFOs can serve
it and a ring pointer gets a value below 24 (R75, R250, R252, R254). -/
def Obligations.MovResult : Prop :=
  ∀ (src dst : Reg6) (s q : State),
    src ≠ .fo0 → src ≠ .fo1 → dst ≠ .fi →
    (src = .fi → 0 < s.fi.num.val) → (dst = .fo0 → s.fo0.num.val < 8) →
    (dst = .fo1 → s.fo1.num.val < 8) → (dst = .prp ∨ dst = .pwp → (s.regVal src).toNat < 24) →
    s.readLeaves q src →
    exec (.mov src dst) s = .next (q.afterRegWrite (s.regVal src) dst) ∧
      exec (.mov src dst) s = exec (.ldi dst (s.regVal src)) q

/-- A load writes its register with the word at its effective address: of RAM-A below 0x400, of RAM-B, or
the platform's answer for the word behind the window, with the event recorded and EO any value. The answer
is the first one that the platform has ready, and any value where it has none. The address register moves
first under post-increment (R66 to R71, R77, R251, R255, R257; log 6, log 7). -/
def Obligations.LoadResult : Prop :=
  ∀ (i : Instr) (reg : Reg6) (bank : MemBank) (ea : Word) (s u : State),
    ((∃ x, i = .ld1 reg bank .postInc x ∧ ea = s.ar[x] ∧
        u = { s with ar := s.ar.set x (s.ar[x] + 1) }) ∨
      (∃ x d, i = .ld1 reg bank (.disp12 d) x ∧ ea = s.ar[x] + d.signExtend 32 ∧ u = s) ∨
      (∃ x d, i = .ld2 reg bank x d ∧ ea = s.ar[x] + d.signExtend 32 ∧ u = s)) →
    reg ≠ .fi → (reg = .fo0 → s.fo0.num.val < 8) → (reg = .fo1 → s.fo1.num.val < 8) →
    (bank = .a → ea.toNat < 0x400 → ea.toNat < s.cfg.ramAWords →
      regAccepts reg (s.ramA.readWord ea.toNat) = true →
      exec i s = .next (u.afterRegWrite (s.ramA.readWord ea.toNat) reg)) ∧
    (bank = .b → ea.toNat < s.cfg.ramBWords → regAccepts reg (s.ramB.readWord ea.toNat) = true →
      exec i s = .next (u.afterRegWrite (s.ramB.readWord ea.toNat) reg)) ∧
    (∀ v rest, s.extIn = v :: rest → s.extVal = v) ∧
    ∀ w : Word, bank = .a → 0x400 ≤ ea.toNat → w.toNat = s.windowWord ea →
      s.cfg.admits w = true → regAccepts reg s.extVal = true →
      ∃ (e : Word) (n : Nat),
        exec i s = .next (({ u with extIn := s.extIn.tail, extLog := s.extLog ++ [.read w s.extVal],
                                    eo := e, draws := n } : State).afterRegWrite s.extVal reg)

/-- A store writes its source, read with its side effect (FI is popped, a ring read moves PRP) before the
address is formed, to the word at its effective address: of RAM-A below 0x400, of RAM-B, or as a write
event of the word behind the window, with EO any value (R66 to R71, R75, R250, R251, R256, R258; log 6,
log 7). -/
def Obligations.StoreResult : Prop :=
  ∀ (i : Instr) (reg : Reg6) (bank : MemBank) (ea : Word) (s q u : State),
    s.readLeaves q reg →
    ((∃ x, i = .st1 reg bank .postInc x ∧ ea = s.ar[x] ∧
        u = { q with ar := s.ar.set x (s.ar[x] + 1) }) ∨
      (∃ x d, i = .st1 reg bank (.disp12 d) x ∧ ea = s.ar[x] + d.signExtend 32 ∧ u = q) ∨
      (∃ x d, i = .st2 reg bank x d ∧ ea = s.ar[x] + d.signExtend 32 ∧ u = q)) →
    reg ≠ .fo0 → reg ≠ .fo1 → (reg = .fi → 0 < s.fi.num.val) →
    (bank = .a → ea.toNat < 0x400 → ea.toNat < s.cfg.ramAWords →
      exec i s = .next { u with ramA := s.ramA.writeWord ea.toNat (s.regVal reg) }) ∧
    (bank = .b → ea.toNat < s.cfg.ramBWords →
      exec i s = .next { u with ramB := s.ramB.writeWord ea.toNat (s.regVal reg) }) ∧
    ∀ w : Word, bank = .a → 0x400 ≤ ea.toNat → w.toNat = s.windowWord ea →
      s.cfg.admits w = true →
      ∃ (e : Word) (n : Nat),
        exec i s = .next { u with extLog := s.extLog ++ [.write w (s.regVal reg)], eo := e,
                                  draws := n }

/-- DX.1 performs sub-move A on bank A and then sub-move B on bank B, each with post-increment: with one
address register B uses the incremented one, and B stores what A loaded into the register it names
(R259, R159). A reaches RAM-A below 0x400, and otherwise the platform's word behind the window, with the
access recorded as an event, and EO any value (R68, R69). A load uses up an answer: the first one that the
platform has ready, and any value where it has none (R71, R77; log 6, log 7). Stated for both sub-moves on,
for either alone and for none. -/
def Obligations.DoubleTransferResult : Prop :=
  ∀ (a b : SubMove) (s : State),
    let eaA := s.ar[a.arx]
    let arA := s.ar.set a.arx (eaA + 1)
    let eaB := arA[b.arx]
    let valA := if eaA.toNat < 0x400 then s.ramA.readWord eaA.toNat else s.extVal
    let loadA : List Pending := if a.dir = .load then [⟨.tr, a.reg, valA⟩] else []
    let ramA := if a.dir = .store then s.ramA.writeWord eaA.toNat (s.getReg a.reg) else s.ramA
    let answers := if a.dir = .load then s.extIn.tail else s.extIn
    let event (w : Word) : ExtEvent :=
      if a.dir = .load then .read w s.extVal else .write w (s.getReg a.reg)
    let loadB (ea : Word) : List Pending :=
      if b.dir = .load then [⟨.tr, b.reg, s.ramB.readWord ea.toNat⟩] else []
    let ramB (ea v : Word) := if b.dir = .store then s.ramB.writeWord ea.toNat v else s.ramB
    let valB := if a.dir = .load ∧ a.reg = b.reg then valA else s.getReg b.reg
    let onlyA : State := { s with ar := arA, scratch := s.scratch ++ loadA }
    let both : State :=
      { s with ar := arA.set b.arx (eaB + 1), scratch := s.scratch ++ loadA ++ loadB eaB,
               ramB := ramB eaB valB }
    (∀ v rest, s.extIn = v :: rest → s.extVal = v) ∧
    (eaA.toNat < 0x400 → eaA.toNat < s.cfg.ramAWords →
      exec (.dx1 (some a) none) s = .next { onlyA with ramA := ramA } ∧
      (eaB.toNat < s.cfg.ramBWords → exec (.dx1 (some a) (some b)) s = .next { both with ramA := ramA })) ∧
    (∀ w : Word, 0x400 ≤ eaA.toNat → w.toNat = s.windowWord eaA → s.cfg.admits w = true →
      (∃ (e : Word) (n : Nat), exec (.dx1 (some a) none) s =
        .next { onlyA with extIn := answers, extLog := s.extLog ++ [event w], eo := e, draws := n }) ∧
      (eaB.toNat < s.cfg.ramBWords → ∃ (e : Word) (n : Nat), exec (.dx1 (some a) (some b)) s =
        .next { both with extIn := answers, extLog := s.extLog ++ [event w], eo := e, draws := n })) ∧
    (s.ar[b.arx].toNat < s.cfg.ramBWords → exec (.dx1 none (some b)) s =
      .next { s with ar := s.ar.set b.arx (s.ar[b.arx] + 1), scratch := s.scratch ++ loadB s.ar[b.arx],
                     ramB := ramB s.ar[b.arx] (s.getReg b.reg) }) ∧
    exec (.dx1 none none) s = .next s

/-- FRAME of every transfer op (TNOP, MOV, LD.1, ST.1, LD.2, ST.2, DX.1, DX.2, LDI, LDN) that takes no
fault, before the bundle's commit: a named register changes only where the op's register operands, its
addressing mode or the window name it; no flag, no bank register, no stack entry, no PC (R250 to R262). -/
def Obligations.TransferFrame : Prop :=
  ∀ (i : Instr) (s t : State), i.slot = .tr → exec i s = .next t → t.dstate ≠ .fault →
    (∀ n, n ∉ s.transferNames i → t.inspect n = s.inspect n) ∧
    t = { s with scratch := t.scratch, ar := t.ar, pr := t.pr, prp := t.prp, pwp := t.pwp,
                 eb := t.eb, eo := t.eo, sp := t.sp, mod := t.mod, pdr := t.pdr, ddr := t.ddr,
                 fi := t.fi, fo0 := t.fo0, fo1 := t.fo1, ramA := t.ramA, ramB := t.ramB,
                 extIn := t.extIn, extLog := t.extLog, draws := t.draws }

/-- FRAME in memory of ST.1, ST.2 and DX.1: every byte outside the word at the address the form computes
reads as before, in the bank the form names, and every byte of the other bank (R68, R70, R251). -/
def Obligations.StoresChangeOneWord : Prop :=
  let keepsA (s t : State) (bank : MemBank) (ea : Word) : Prop :=
    ∀ p : Nat, (bank = .b ∨ 0x400 ≤ ea.toNat ∨ p < 4 * ea.toNat ∨ 4 * ea.toNat + 4 ≤ p) →
      t.ramA.readByte p = s.ramA.readByte p
  let keepsB (s t : State) (bank : MemBank) (ea : Word) : Prop :=
    ∀ p : Nat, (bank = .a ∨ s.cfg.ramBWords ≤ ea.toNat ∨ p < 4 * ea.toNat ∨ 4 * ea.toNat + 4 ≤ p) →
      t.ramB.readByte p = s.ramB.readByte p
  ∀ s t : State,
    (∀ reg bank m x, exec (.st1 reg bank m x) s = .next t →
      keepsA s t bank (s.ea1 x m) ∧ keepsB s t bank (s.ea1 x m)) ∧
    (∀ reg bank x d, exec (.st2 reg bank x d) s = .next t →
      keepsA s t bank (s.ea x d) ∧ keepsB s t bank (s.ea x d)) ∧
    ∀ a b, exec (.dx1 a b) s = .next t →
      (match a with
        | some m => if m.dir = .store then keepsA s t .a s.ar[m.arx] else t.ramA = s.ramA
        | none => t.ramA = s.ramA) ∧
      (match b with
        | some m => if m.dir = .store then keepsB s t .b (s.afterSubMoveEa a).ar[m.arx]
          else t.ramB = s.ramB
        | none => t.ramB = s.ramB)

/-- FRAME in memory of every other op: all of memory is unchanged (R61, R71; 43_transfer). -/
def Obligations.OnlyStoresChangeMemory : Prop :=
  ∀ (i : Instr) (s t : State), exec i s = .next t →
    (∀ reg bank m x, i ≠ .st1 reg bank m x) → (∀ reg bank x d, i ≠ .st2 reg bank x d) →
    (∀ a b, i ≠ .dx1 a b) →
    ∀ p : Nat, t.ramA.readByte p = s.ramA.readByte p ∧ t.ramB.readByte p = s.ramB.readByte p ∧
      t.prog.readByte p = s.prog.readByte p

/-- A load of the word that a store wrote delivers the stored register's value, in both banks (R71, R78). -/
def Obligations.StoreThenLoad : Prop :=
  ∀ (reg : Reg6) (r : BankReg) (bank : MemBank) (x : Fin 8) (d : BitVec 14) (s t : State),
    s.ramA.wf = true → s.ramB.wf = true → reg.readable = true →
    (reg = .fi → 0 < s.fi.num.val) →
    (s.ar[x] + d.signExtend 32).toNat < (if bank = .a then min 0x400 s.cfg.ramAWords else s.cfg.ramBWords) →
    exec (.st2 reg bank x d) s = .next t →
    exec (.ld2 (.bank r) bank x d) t =
      .next { t with scratch := t.scratch ++ [⟨.tr, r, s.regVal reg⟩] }

/-- A bank-B access from RAMB_WORDS on and a window access that the platform does not admit have no step, and
RAM-A has no word from RAMA_WORDS on: the model stops with a named fault (R8, R43, R68, R70, R251, R259; log
11). Both sizes are 0x400 after reset. Stated for LD.1, LD.2, ST.1, ST.2 and for each sub-move of DX.1, B's
address being formed after A's. -/
def Obligations.StuckAccesses : Prop :=
  State.reset.cfg.ramAWords = 0x400 ∧ State.reset.cfg.ramBWords = 0x400 ∧
  ∀ (reg : Reg6) (bank : MemBank) (m : AddrMode) (x : Fin 8) (d : BitVec 14) (ea : Word) (f : Fault)
    (s : State),
    (bank = .b ∧ s.cfg.ramBWords ≤ ea.toNat ∧ f = .ramBOutOfRange ea) ∨
      (bank = .a ∧ ea.toNat < 0x400 ∧ s.cfg.ramAWords ≤ ea.toNat ∧ f = .ramAOutOfRange ea) ∨
      (bank = .a ∧ 0x400 ≤ ea.toNat ∧
        ∃ w : Word, w.toNat = s.windowWord ea ∧ s.cfg.admits w = false ∧ f = .extNotAdmitted w) →
    (s.fifoShort (.ld1 reg bank m x) = false → ea = s.ea1 x m →
      exec (.ld1 reg bank m x) s = .fault f) ∧
    (s.fifoShort (.ld2 reg bank x d) = false → ea = s.ea x d →
      exec (.ld2 reg bank x d) s = .fault f) ∧
    (s.fifoShort (.st1 reg bank m x) = false → reg.readable = true → ea = s.ea1 x m →
      exec (.st1 reg bank m x) s = .fault f) ∧
    (s.fifoShort (.st2 reg bank x d) = false → reg.readable = true → ea = s.ea x d →
      exec (.st2 reg bank x d) s = .fault f) ∧
    (∀ (m : SubMove) (b : Option SubMove), bank = .a → ea = s.ar[m.arx] →
      exec (.dx1 (some m) b) s = .fault f) ∧
    (∀ m : SubMove, bank = .b → ea = s.ar[m.arx] → exec (.dx1 none (some m)) s = .fault f) ∧
    ∀ n m : SubMove, bank = .b → ea = (s.ar.set n.arx (s.ar[n.arx] + 1))[m.arx] →
      ((s.ar[n.arx].toNat < 0x400 ∧ s.ar[n.arx].toNat < s.cfg.ramAWords) ∨
        ∃ w : Word, 0x400 ≤ s.ar[n.arx].toNat ∧ w.toNat = s.windowWord s.ar[n.arx] ∧
          s.cfg.admits w = true) →
      exec (.dx1 (some n) (some m)) s = .fault f

/-- Writing 24 or more to PRP or PWP, by LDI, LDN, MOV, LD.1 or LD.2, takes the Unimplemented-transfer
fault with the bundle and its transfer field, under the reference encoding `T` or `TAIL` (R250, R350, R352;
log 4, log 13). What the transfer could write besides, such as a moved address register, holds any value; no
other named register and neither RAM changes (R170, log 12). -/
def Obligations.PointerWriteFaults : Prop :=
  ∀ (i : Instr) (r : Reg6) (v : Word) (s : State),
    r = .prp ∨ r = .pwp → 24 ≤ v.toNat →
    (i = .ldi r v ∨ (∃ m : BitVec 20, v = m.signExtend 32 ∧ i = .ldn r m) ∨
      (∃ x : Reg6, x ≠ .fo0 ∧ x ≠ .fo1 ∧ (x = .fi → 0 < s.fi.num.val) ∧ v = s.regVal x ∧
        i = .mov x r) ∨
      ∃ (bank : MemBank) (ea : Word),
        ((∃ m x, i = .ld1 r bank m x ∧ ea = s.ea1 x m) ∨
          ∃ x d, i = .ld2 r bank x d ∧ ea = s.ea x d) ∧
        ((bank = .a ∧ ea.toNat < 0x400 ∧ ea.toNat < s.cfg.ramAWords ∧
            v = s.ramA.readWord ea.toNat) ∨
          (bank = .b ∧ ea.toNat < s.cfg.ramBWords ∧ v = s.ramB.readWord ea.toNat) ∨
          (bank = .a ∧ 0x400 ≤ ea.toNat ∧ v = s.extVal ∧
            ∃ w : Word, w.toNat = s.windowWord ea ∧ s.cfg.admits w = true))) →
    ∃ (t : State) (f : FaultRec),
      exec i s = .next t ∧ t.dstate = .fault ∧ t.faultRec = some f ∧
        f.kind = .unimplementedTransfer ∧ f.code = 4 ∧ f.pc = s.pc ∧ f.raw = s.currentRaw ∧
        f.info = s.currentRaw.map s.cfg.transferInfo ∧
        (s.cfg.encoding = [] → ∀ w, s.currentRaw = some w →
          f.info = some (if w.extractLsb' 61 3 = 4 ∨ w.extractLsb' 61 3 = 5
            then (w.extractLsb' 0 41).toNat else (w.extractLsb' 0 26).toNat)) ∧
        t.brpend = none ∧
        t.cur = none ∧ t.scratch = [] ∧ (∀ k, k ∉ s.transferNames i → t.inspect k = s.inspect k) ∧
        t.ramA = s.ramA ∧ t.ramB = s.ramB

/-- A bundle whose transfer would pop an empty FI or push a full FO0 or FO1 does not start: the step
changes nothing but PC, which already names the bundle in every reachable state (R76, R252, R390). -/
def Obligations.FifoHoldChangesNothing : Prop :=
  ∀ (s : State) (c : Cur) (b : Record) (d : Bundle) (i : Instr),
    s.running c b → s.earlyFault b = none → b.dec = .bundle d → d.tr = .op i →
    ((Instr.regRead i = some .fi ∧ s.fi.num.val = 0) ∨
      (Instr.regWritten i = some .fo0 ∧ s.fo0.num.val = 8) ∨
      (Instr.regWritten i = some .fo1 ∧ s.fo1.num.val = 8)) →
    step s = .next { s with pc := b.addr }

/-! ## Control -/

/-- CLRF resets the cursors and the fill count of the FIFOs it selects and keeps their data; SETM writes
the zero-extended immediate to MOD; nothing else changes (R292, R293). -/
def Obligations.ClearAndModeResult : Prop :=
  ∀ (s : State) (imm : BitVec 16),
    let cleared (q : Fifo) : Fifo := { data := q.data, rpos := 0, wpos := 0, num := 0 }
    exec (.clrf .input) s = .next { s with fi := cleared s.fi } ∧
    exec (.clrf .outputs) s = .next { s with fo0 := cleared s.fo0, fo1 := cleared s.fo1 } ∧
    exec (.clrf .all) s =
      .next { s with fi := cleared s.fi, fo0 := cleared s.fo0, fo1 := cleared s.fo1 } ∧
    ∃ m : Word, m.toNat = imm.toNat ∧ exec (.setm imm) s = .next { s with mod := m }

/-- Outside a delay slot DBcc, DBNcc and DJMP only leave a pending transfer: taken where the flag, as it
was before the bundle, is set or is clear, or always; the target is PC plus the signed displacement
modulo 2^32 (R290, R294, R295, R296, R163). -/
def Obligations.BranchResult : Prop :=
  ∀ (s : State) (cc : Flag) (disp : BitVec 16), s.inDelay = false →
    ∃ a : Word, (a.toNat : Int) = ((s.pc.toNat : Int) + disp.toInt) % 2 ^ 32 ∧
      exec (.dbcc cc disp) s = .next { s with brpend := some ⟨s.preFlags[cc.num], a⟩ } ∧
      exec (.dbncc cc disp) s = .next { s with brpend := some ⟨!s.preFlags[cc.num], a⟩ } ∧
      exec (.djmp disp) s = .next { s with brpend := some ⟨true, a⟩ }

/-- Outside a delay slot DCALL pushes the address after its delay slot and leaves its target pending, and
DRET pops and leaves the popped address pending; nothing else changes. At a full or an empty stack they
take the PCS faults (R30, R297, R298). -/
def Obligations.CallAndReturnResult : Prop :=
  ∀ (s : State) (disp : BitVec 16), s.inDelay = false →
    (∀ (k : Fin 4) (p : Fin 5), s.pcsp.val = k.val → p.val = k.val + 1 →
      ∃ a : Word, (a.toNat : Int) = ((s.pc.toNat : Int) + disp.toInt) % 2 ^ 32 ∧
        exec (.dcall disp) s =
          .next { s with pcs := s.pcs.set k (s.pc + 2), pcsp := p, brpend := some ⟨true, a⟩ }) ∧
    (∀ (k : Fin 4) (p : Fin 5), s.pcsp.val = k.val + 1 → p.val = k.val →
      exec .dret s = .next { s with pcsp := p, brpend := some ⟨true, s.pcs[k]⟩ }) ∧
    (s.pcsp.val = 4 → exec (.dcall disp) s = .next (s.takeFault .pcsOverflow none)) ∧
    (s.pcsp.val = 0 → exec .dret s = .next (s.takeFault .pcsUnderflow none))

/-- A control transfer in a delay slot takes the Unimplemented-control fault with its opcode value, under the
reference encoding COP, and changes no register, no flag, no FIFO and no byte of memory (R168, R290, R350,
R386; log 4). -/
def Obligations.TransferInDelaySlotFaults : Prop :=
  ∀ (i : Instr) (s : State), i.isTransfer = true → s.inDelay = true →
    ∃ (t : State) (f : FaultRec),
      exec i s = .next t ∧ t.dstate = .fault ∧ t.faultRec = some f ∧ f.kind = .unimplementedControl ∧
        f.code = 5 ∧ f.pc = s.pc ∧ f.raw = s.currentRaw ∧
        f.info = some (s.cfg.controlInfo s.currentRaw i) ∧
        (s.cfg.encoding = [] → f.info = some i.cop.toNat) ∧
        t.brpend = none ∧ t.cur = none ∧ t.scratch = [] ∧ (∀ n, t.inspect n = s.inspect n) ∧
        t.ramA = s.ramA ∧ t.ramB = s.ramB

/-! ## Flags -/

/-- A computed flag is written where it is required; else it keeps its value, or under `Either` one of the
two stays. No other flag changes, and an op writes no flag outside the set it defines (R165). Under `Stale`
no op changes a flag that is not required, AU and AD of CMP and MN of a NaN product among them. -/
def Obligations.LazyFlagWrite : Prop :=
  State.reset.cfg.lazyFlags = .stale ∧
  (∀ (s : State) (f : Flag) (v : Bool),
    s.settles (s.putFlag f v) f v ∧
      ∀ g : Flag, g ≠ f → (s.putFlag f v).getFlag g = s.getFlag g) ∧
  ∀ (i : Instr) (s t : State) (f : Flag), exec i s = .next t →
    (f ∉ Instr.flagsDefined i → t.getFlag f = s.getFlag f) ∧
    (s.required f = false → s.cfg.lazyFlags = .stale → t.getFlag f = s.getFlag f)

/-- ALU ops change only flags 0 to 8, MUL ops only flags 9 to 13, and no other op changes a flag; so an
ALU op and a MUL op never write the same flag (R167, R31). -/
def Obligations.FlagGroups : Prop :=
  ∀ (i : Instr) (s t : State) (f : Flag), exec i s = .next t → t.getFlag f ≠ s.getFlag f →
    (i.slot = .alu ∧ f.num.val ≤ 8) ∨ (i.slot = .mul ∧ 9 ≤ f.num.val)

/-! ## Bundles -/

/-- The snapshot of the flags is what they are at the bundle's start, and no slot of a bundle changes a
bank register or the snapshot while the bundle is under way, so every op reads what the banks held before
the bundle (R157, R159, R163, R168). A DBcc or DBNcc goes by the flag as it was before the bundle, whatever
the other ops of the bundle did to it (R163). -/
def Obligations.BankReadsAreOld : Prop :=
  (∀ s : State, s.openBundle = { s with preFlags := s.flags, scratch := [] }) ∧
  (∀ (ds : List SlotDec) (s t : State), s.runSlots ds = .next t → t.dstate ≠ .fault →
    t.regs = s.regs ∧ t.preFlags = s.preFlags) ∧
  ∀ (s t : State) (d : Bundle) (f : Flag) (x : BitVec 16),
    s.dstate = .run → s.issue d = .next t → t.dstate ≠ .fault →
    (d.ctl = .op (.dbcc f x) → ∃ a, t.brpend = some ⟨s.getFlag f, a⟩) ∧
    (d.ctl = .op (.dbncc f x) → ∃ a, t.brpend = some ⟨!s.getFlag f, a⟩)

/-- The commit at the bundle's end: a register that one op wrote gets its last value, also where two
sub-moves of one transfer wrote it; a register that two ops wrote gets the last value of one of them; any
other keeps its value; and nothing but the banks and `SCRATCH` changes (R160, R161; log 7). -/
def Obligations.CommitOfBankWrites : Prop :=
  ∀ (s : State) (r : BankReg),
    (∀ (before after : List Pending) (p : Pending), s.scratch = before ++ p :: after → p.reg = r →
      (∀ q ∈ after, q.reg ≠ r) → (∀ q ∈ before, q.reg = r → q.slot = p.slot) →
      s.commit.getReg r = p.val) ∧
    ((∃ p ∈ s.scratch, p.reg = r) → ∃ (before after : List Pending) (p : Pending),
      s.scratch = before ++ p :: after ∧ p.reg = r ∧ (∀ q ∈ after, q.reg = r → q.slot ≠ p.slot) ∧
        s.commit.getReg r = p.val) ∧
    ((∀ p ∈ s.scratch, p.reg ≠ r) → s.commit.getReg r = s.getReg r) ∧
    s.commit = { s with regs := s.commit.regs, scratch := [], draws := s.commit.draws }

/-- FRAME of a whole bundle, whether it completes or a slot of it faults: a bank register that no op of
the bundle writes, and a flag that no op of it defines, keep their values (R152, R153, R165, R170). -/
def Obligations.BundleFrame : Prop :=
  ∀ (s t : State) (d : Bundle), s.dstate = .run → s.issue d = .next t →
    (∀ r : BankReg, (∀ i, .op i ∈ d.slots → r ∉ Instr.banksWritten i) → t.getReg r = s.getReg r) ∧
    (∀ f : Flag, (∀ i, .op i ∈ d.slots → f ∉ Instr.flagsDefined i) → t.getFlag f = s.getFlag f)

/-- The slots run in the order transfer, ALU, MUL, control, each in the state the one before left, and the
bank writes commit after the last (R158, R160, R162, R168). -/
def Obligations.SlotsRunInOrder : Prop :=
  ∀ (s t u v : State) (c : FormatClass) (x y z : Instr), s.dstate = .run →
    exec x s.openBundle = .next t → t.dstate ≠ .fault → exec y t = .next u → u.dstate ≠ .fault →
    (exec z u = .next v → v.dstate ≠ .fault → s.issue (.dual c x y z) = .next v.commit) ∧
    s.issue ⟨c, .op x, .op y, .absent, .absent⟩ = .next u.commit ∧
    s.issue ⟨c, .op x, .absent, .op y, .absent⟩ = .next u.commit ∧
    s.issue ⟨c, .absent, .op x, .absent, .op y⟩ = .next u.commit ∧
    s.issue ⟨c, .absent, .absent, .op x, .op y⟩ = .next u.commit

/-- A STEP RUNS THE DECODED INSTRUCTION: where the word at PC (under the launch's encoding, log 4) decodes
to the bundle that carries `i` alone and the bundle passes the early checks and does not hold,
the step is `exec` of `i` on the snapshot, then the commit and the next PC; after a fault, any value
where `i` could write (R168, R330, R170). -/
def Obligations.StepRunsTheDecodedInstruction : Prop :=
  ∀ (s : State) (c : Cur) (b : Record) (i : Instr),
    s.running c b → s.runInv → s.cfg.mapped s.progWords s.pc = true →
    s.cfg.decodeWord (s.prog.readDWord s.pc.toNat) = .bundle i.alone →
    s.earlyFault b = none → s.mustHold b = false →
    step s =
      (match exec i s.openBundle with
        | .next t =>
          .next (if t.dstate = .fault then t.havocAll (Instr.writes i s.openBundle)
            else t.commit.advance c b)
        | .fault f => .fault f
        | .refused r => .refused r)

/-- After a bundle that did not fault or hold, PC is the pending transfer's target where the bundle is the
delay slot of a taken transfer, which is then no longer pending, and the next address otherwise (R169). -/
def Obligations.NextPc : Prop :=
  ∀ (s t : State) (c : Cur) (b : Record),
    s.running c b → s.earlyFault b = none → s.mustHold b = false → step s = .next t →
    t.dstate ≠ .fault →
    if b.indelay = true then
      ∀ p, s.brpend = some p → t.brpend = none ∧ t.pc = if p.taken then p.target else b.addr + 1
    else t.pc = b.addr + 1

/-! ## Faults -/

/-- The faults raised before anything of the bundle changes, in their order: unmapped code, an illegal
class, a control transfer in a delay slot with its opcode value (COP in the reference encoding; log 4), a
full or an empty PCS. Each makes its record, drops the pending transfer, `CUR` and `SCRATCH`, enters FAULT,
and changes nothing else but PC, which names the bundle (R168, R170, R350, R352, R354). -/
def Obligations.EarlyFaults : Prop :=
  (∀ (p : Params) (raw : Option DWord) (i : Instr), p.encoding = [] →
    p.controlInfo raw i = i.cop.toNat) ∧
  ∀ (s : State) (c : Cur) (b : Record) (k : FaultKind) (info : Option Nat), s.running c b →
    ((b.unmapped = true ∧ k = .unmappedCode ∧ info = none) ∨
      (b.unmapped = false ∧ b.dec = .illegal ∧ k = .unimplementedBundle ∧ info = none) ∨
      (b.unmapped = false ∧ ∃ d, b.dec = .bundle d ∧
        ((b.indelay = true ∧ b.isxfer = true ∧ k = .unimplementedControl ∧
            info = d.ctl.instr?.map (s.cfg.controlInfo b.raw)) ∨
          (¬(b.indelay = true ∧ b.isxfer = true) ∧ info = none ∧
            ((∃ x, d.ctl = .op (.dcall x) ∧ s.pcsp.val = 4 ∧ k = .pcsOverflow) ∨
              (d.ctl = .op .dret ∧ s.pcsp.val = 0 ∧ k = .pcsUnderflow)))))) →
    ∃ sig, step s =
      .next { s with pc := b.addr, faultRec := some (recordFault b k info), brpend := none,
                     cur := none, scratch := [], dstate := .fault,
                     reply := .fault (recordFault b k info), signal := sig }

/-- A bundle with a slot that does not decode, in which the slots before it went through, takes that slot's
fault when it executes, with the bundle and the slot's information, for the transfer, the ALU, the MUL and
the control slot (R154, R158, R168, R350, R354). The fault is not charged (R333). -/
def Obligations.BadSlotFaults : Prop :=
  ∀ (s u : State) (c : Cur) (b : Record) (d : Bundle) (before after : List SlotDec) (k : FaultKind)
    (info : Nat),
    s.running c b → s.earlyFault b = none → s.mustHold b = false → b.dec = .bundle d →
    [d.tr, d.alu, d.mul, d.ctl] = before ++ .bad k info :: after →
    ({ s with pc := b.addr } : State).openBundle.runSlots before = .next u → u.dstate ≠ .fault →
    ∃ t, step s = .next t ∧ t.dstate = .fault ∧
      t.faultRec = some (recordFault b k (some info)) ∧ t.pc = b.addr ∧ t.brpend = none ∧
      t.cur = none ∧ t.scratch = [] ∧ t.icount = s.icount

/-- A fault is terminal: in FAULT a core turn has no step, the record stays under every host turn but
`Reset`, and `Reset` clears it (R352, R356, R336; log 10). -/
def Obligations.FaultIsTerminal : Prop :=
  ∀ s : State, s.dstate = .fault →
    s.coreTurn = .fault .haltedInFault ∧
    ∀ (a : HostAction) (t : State), s.hostTurn a = .next t →
      if a = .reset then t.dstate = .idle ∧ t.faultRec = none
      else t.dstate = .fault ∧ t.faultRec = s.faultRec

/-! ## Blocks -/

/-- A block's records are those of consecutive addresses: mapped or not, the word, its decoding (the
reference one but where the launch's `ENCODING` says otherwise, log 4) and its cost of at least 1, the
register and flag sets of its ops, whether it is one of the five control transfers, and its branch target
(R150 to R156). The registers read are those that AI1, AI2, MI1, MI2, a move's source, a store's register or
a storing sub-move name; those written are those that AIO but for CMP, MIO, the destination of a move or of
an immediate, a load's register or a loading sub-move name (R118, R152). That an unmapped record has no raw
word, which R151 leaves undefined, is log 30. -/
def Obligations.BlockRecords : Prop :=
  let ai2 : AluSrc2 → BankReg → Prop := fun o q =>
    ∃ n, (o = .aa n ∧ q = .aa n) ∨ (o = .ab n ∧ q = .ab n) ∨ (o = .ma n ∧ q = .ma n)
  let mi2 : MulSrc2 → BankReg → Prop := fun o q =>
    ∃ n, (o = .ab n ∧ q = .ab n) ∨ (o = .mb n ∧ q = .mb n)
  let aio : AluDst → BankReg → Prop := fun o q =>
    ∃ n, (o = .aa n ∧ q = .aa n) ∨ (o = .ab n ∧ q = .ab n)
  let mio : MulDst → BankReg → Prop := fun o q =>
    ∃ n, (o = .ma n ∧ q = .ma n) ∨ (o = .mb n ∧ q = .mb n)
  let ai1 : AluSrc1 → BankReg → Prop := fun o q =>
    ∃ n, (o = .aa n ∧ q = .aa n) ∨ (o = .ab n ∧ q = .ab n)
  let mi1 : MulSrc1 → BankReg → Prop := fun o q =>
    ∃ n, (o = .aa n ∧ q = .aa n) ∨ (o = .ma n ∧ q = .ma n)
  let dx : Dir → Option SubMove → BankReg → Prop := fun d o q =>
    ∃ m, o = some m ∧ m.dir = d ∧ m.reg = q
  let reads : Instr → BankReg → Prop := fun i q =>
    (∃ s d, (i = .cif s d ∨ i = .cfi s d) ∧ ai2 s q) ∨
    (∃ s1 s2, (i = .cmp s1 s2 ∨ ∃ d, i = .add s1 s2 d) ∧ (ai1 s1 q ∨ ai2 s2 q)) ∨
    (∃ s1 s2 d, (i = .fmul s1 s2 d ∨ i = .mul s1 s2 d) ∧ (mi1 s1 q ∨ mi2 s2 q)) ∨
    (∃ d, i = .mov (.bank q) d) ∨ (∃ k m x, i = .st1 (.bank q) k m x) ∨
    (∃ k x d, i = .st2 (.bank q) k x d) ∨ ∃ a b, i = .dx1 a b ∧ (dx .store a q ∨ dx .store b q)
  let writes : Instr → BankReg → Prop := fun i q =>
    (∃ s d, (i = .cif s d ∨ i = .cfi s d ∨ ∃ s1, i = .add s1 s d) ∧ aio d q) ∨
    (∃ s1 s2 d, (i = .fmul s1 s2 d ∨ i = .mul s1 s2 d) ∧ mio d q) ∨
    (∃ s, i = .mov s (.bank q)) ∨ (∃ k m x, i = .ld1 (.bank q) k m x) ∨
    (∃ k x d, i = .ld2 (.bank q) k x d) ∨ (∃ v, i = .ldi (.bank q) v) ∨ (∃ v, i = .ldn (.bank q) v) ∨
    ∃ a b, i = .dx1 a b ∧ (dx .load a q ∨ dx .load b q)
  (∀ (i : Instr) (q : BankReg),
    (q ∈ Instr.banksRead i ↔ reads i q) ∧ (q ∈ Instr.banksWritten i ↔ writes i q)) ∧
  (∀ (p : Params) (w : DWord), p.encoding = [] → p.decodeWord w = decode w) ∧
  ∀ (p : Params) (prog : Memory) (words : Nat) (a0 : Word) (k : Nat) (r : Record),
    (analyze p prog words a0)[k]? = some r →
    let w := prog.readDWord r.addr.toNat
    r.addr = a0 + BitVec.ofNat 32 k ∧ 1 ≤ r.cycles ∧
    (r.unmapped = true ↔ words ≤ r.addr.toNat ∨
      ∃ h ∈ p.progHoles, h.base ≤ r.addr.toNat ∧ r.addr.toNat < h.base + h.size) ∧
    (r.unmapped = true → r.raw = none ∧ r.cycles = 1 ∧ r.isxfer = false) ∧
    (r.unmapped = false → r.raw = some w ∧ r.dec = p.decodeWord w ∧ r.cycles = p.cycles w) ∧
    (r.dec = .illegal → r.isxfer = false) ∧
    ∀ d, r.unmapped = false → r.dec = .bundle d →
      (∀ q : BankReg, r.wr.getLsbD (BankReg.num q).val = true ↔
        ∃ i, .op i ∈ d.slots ∧ writes i q) ∧
      (∀ q : BankReg, r.rd.getLsbD (BankReg.num q).val = true ↔
        ∃ i, .op i ∈ d.slots ∧ reads i q) ∧
      (∀ f : Flag, r.fdef.getLsbD f.num.val = true ↔
        ∃ i, .op i ∈ d.slots ∧ f ∈ Instr.flagsDefined i) ∧
      (∀ f : Flag, r.fuse.getLsbD f.num.val = true ↔
        ∃ x, d.ctl = .op (.dbcc f x) ∨ d.ctl = .op (.dbncc f x)) ∧
      (r.isxfer = true ↔
        (∃ f x, d.ctl = .op (.dbcc f x) ∨ d.ctl = .op (.dbncc f x)) ∨
          (∃ x, d.ctl = .op (.djmp x) ∨ d.ctl = .op (.dcall x)) ∨ d.ctl = .op .dret) ∧
      r.target = (match d.ctl with
        | .op (.dbcc _ x) | .op (.dbncc _ x) | .op (.djmp x) | .op (.dcall x) =>
          .static (r.addr + x.signExtend 32)
        | .op .dret => .dynamic
        | _ => .noTarget)

/-- A block ends exactly at its first delay slot, unmapped bundle, undecodable bundle or last window
position, that record alone carries the terminator mark, and a block has 1 to window + 1 records (R320,
R321). -/
def Obligations.BlockTerminators : Prop :=
  ∀ (p : Params) (prog : Memory) (words : Nat) (a0 : Word), 1 ≤ p.blockMax →
    let blk := analyze p prog words a0
    1 ≤ blk.length ∧ blk.length ≤ p.blockMax + 1 ∧
    ∀ (k : Nat) (r : Record), blk[k]? = some r →
      (r.term = true ↔ k + 1 = blk.length) ∧
      (k + 1 = blk.length ↔ r.indelay = true ∨ r.unmapped = true ∨ r.dec.hasBad = true ∨
        (k + 1 = p.blockMax ∧ r.isxfer = false))

/-- A control transfer that can execute is followed in its block by its delay slot, which it names, and a
delay slot always follows a control transfer (R151, R155, R320, R386). -/
def Obligations.DelaySlotRecords : Prop :=
  ∀ (p : Params) (prog : Memory) (words : Nat) (a0 : Word) (k : Nat) (r : Record),
    let blk := analyze p prog words a0
    blk[k]? = some r →
    (r.isxfer = true → r.indelay = false → r.unmapped = false → r.dec.hasBad = false →
      r.delay = some (k + 1) ∧ ∃ d, blk[k + 1]? = some d ∧ d.indelay = true) ∧
    (r.indelay = true → ∃ q, 1 ≤ k ∧ blk[k - 1]? = some q ∧ q.isxfer = true ∧ q.indelay = false)

/-- The required flags of a record: every flag it defines where it is a delay slot, else those of them
that a later record of the block reads (R164). -/
def Obligations.RequiredFlags : Prop :=
  ∀ (p : Params) (prog : Memory) (words : Nat) (a0 : Word) (k : Nat) (r : Record) (f : Fin 14),
    let blk := analyze p prog words a0
    blk[k]? = some r →
    (r.freq.getLsbD f.val = true ↔
      r.fdef.getLsbD f.val = true ∧
        (r.indelay = true ∨
          ∃ (j : Nat) (q : Record), k < j ∧ blk[j]? = some q ∧ q.fuse.getLsbD f.val = true))

/-! ## Dispatch -/

/-- Which block runs does not depend on the cache: from a block boundary in RUN, within six core steps,
through a lookup, a MISS or a FLUSH, the block that `Analyze` builds at PC is about to run, and nothing
else has changed but the cache and the last signal (R171, R322, R326, R330 to R332, R337). -/
def Obligations.BlockStartsWhateverTheCache : Prop :=
  ∀ s : State, s.inv → s.capacityPremise → s.schedule = [] → s.dstate = .run → s.cur = none →
    ∃ (n : Nat) (t : State), n ≤ 6 ∧ Host.Core.run core n s = .next t ∧
      t.cur = some ⟨s.analyzeAt s.pc, 0⟩ ∧
      t = { s with cur := t.cur, cache := t.cache, cacheUsed := t.cacheUsed, signal := t.signal }

/-- FLUSH empties the cache and returns to RUN; MISS installs the block of PC where it fits and asks for a
FLUSH where it does not; neither changes anything else but the last signal (R331, R332, R335). A block
takes its bundle count, but where the launch gives another `FRAG_SIZE` (R8; log 4). -/
def Obligations.FlushAndMiss : Prop :=
  ∀ s : State, s.schedule = [] →
    (s.dstate = .flush → step s = .next { s with cache := [], cacheUsed := 0, dstate := .run }) ∧
    (s.dstate = .miss →
      if s.cacheUsed + fragSize s.cfg (s.analyzeAt s.pc) ≤ s.cfg.cacheCapacity then
        step s = .next { s with cache := (s.pc, s.analyzeAt s.pc) :: s.cache,
                                cacheUsed := s.cacheUsed + fragSize s.cfg (s.analyzeAt s.pc),
                                dstate := .run }
      else step s = .next { s with dstate := .flush, signal := some .cacheResetRequested }) ∧
    ∀ blk : Block, s.cfg.fragTable = [] → fragSize s.cfg blk = blk.length

/-- The cycle budget changes only at a block's tail, by the block's declared cost; the run ends there
exactly where the budget becomes negative, and the host gets the resume PC. A bundle in which a slot faults
changes it not, and ends the run with the fault for the host (R333, R334, R336). -/
def Obligations.BudgetAtBlockTail : Prop :=
  ∀ (s t : State) (c : Cur) (b : Record),
    s.running c b → s.earlyFault b = none → s.mustHold b = false → step s = .next t →
    if t.dstate = .fault then
      t.icount = s.icount ∧ t.cur = none ∧ ∃ f, t.faultRec = some f ∧ t.reply = .fault f
    else if c.idx + 1 < c.blk.length then
      t.icount = s.icount ∧ t.dstate = .run ∧ t.cur = some ⟨c.blk, c.idx + 1⟩
    else
      t.cur = none ∧ t.icount = s.icount - ((c.blk.map Record.cycles).sum : Int) ∧
        (0 < (c.blk.map Record.cycles).sum →
          (t.dstate = .idle ↔ t.icount < 0) ∧ (t.icount < 0 → t.reply = .outOfCycles t.pc)) ∧
        (t.dstate = .idle ∨ t.dstate = .run)

/-- The host's moves are admitted where the spec admits them: `Run` in IDLE, `PushFI` where FI is not full,
`PopFO0` and `PopFO1` where that FIFO is not empty, reads of registers in IDLE and FAULT, `Invalidate` in
IDLE, answers to external reads in RUN (log 6, log 31), loads of memory in IDLE (log 18). Anywhere else
they are refused (R329, R340, R77). A `Run` that breaks `PROG_STABLE` or `CAPACITY` is refused (R327, R341;
log 21). A move that serves a hold goes through and ends that hold (R76, R341). -/
def Obligations.HostMoves : Prop :=
  ∀ (s : State) (n : Nat) (v : DWord) (a w : Word) (r : RegName),
    (s.progDirty = false → s.capacityPremise → s.hostTurn (.run n) =
      if s.dstate = .idle then
        .next { s with icount := (n : Int), cur := none, dstate := .run, reply := .nothing }
      else .refused .hostMove) ∧
    (s.dstate = .idle → s.progDirty = true → s.hostTurn (.run n) = .refused .progStable) ∧
    (s.dstate = .idle → s.progDirty = false → ¬s.capacityPremise →
      s.hostTurn (.run n) = .refused .capacity) ∧
    (s.hostTurn (.pushFi v) =
      if s.fi.num.val < 8 then .next { s with fi := s.fi.push v, reply := .nothing }
      else .refused .hostMove) ∧
    (s.hostTurn .popFo0 =
      if 0 < s.fo0.num.val then
        .next { s with fo0 := s.fo0.pop, reply := .value s.fo0.front.toNat }
      else .refused .hostMove) ∧
    (s.hostTurn .popFo1 =
      if 0 < s.fo1.num.val then
        .next { s with fo1 := s.fo1.pop, reply := .value s.fo1.front.toNat }
      else .refused .hostMove) ∧
    (s.hostTurn (.readReg r) =
      if s.dstate = .idle ∨ s.dstate = .fault then .next { s with reply := .value (s.inspect r) }
      else .refused .hostMove) ∧
    (s.hostTurn .invalidate =
      if s.dstate = .idle then
        .next { s with cache := [], cacheUsed := 0, progDirty := false, reply := .nothing }
      else .refused .hostMove) ∧
    (s.hostTurn (.extAnswer w) =
      if s.dstate = .run then .next { s with extIn := s.extIn ++ [w], reply := .nothing }
      else .refused .hostMove) ∧
    (s.hostTurn (.loadProg a v) =
      if s.dstate = .idle then
        .next { s with prog := s.prog.writeDWord a.toNat v,
                       progDirty := s.progDirty || !s.cache.isEmpty, reply := .nothing }
      else .refused .hostMove) ∧
    (∀ holes, s.hostTurn (.setProgMapped n holes) =
      if s.dstate = .idle then
        .next { s with progWords := n, cfg := { s.cfg with progHoles := holes },
                       progDirty := s.progDirty || !s.cache.isEmpty, reply := .nothing }
      else .refused .hostMove) ∧
    (s.hostTurn (.loadRam .a a w) =
      if s.dstate = .idle ∧ a.toNat < s.cfg.ramAWords then
        .next { s with ramA := s.ramA.writeWord a.toNat w, reply := .nothing }
      else .refused .hostMove) ∧
    (s.hostTurn (.loadRam .b a w) =
      if s.dstate = .idle ∧ a.toNat < s.cfg.ramBWords then
        .next { s with ramB := s.ramB.writeWord a.toNat w, reply := .nothing }
      else .refused .hostMove) ∧
    ∀ (q : FifoId) (m : HostAction), s.heldBy q → serves q m →
      ∃ t, s.hostTurn m = .next t ∧ ¬t.heldBy q

/-- In IDLE the host's move `WriteReg` with a value in the register's range goes through: `ReadReg` then gives
the value, no other named register changes, nor the hidden state or a memory. In any other state, and with
any other value, it is refused (R340, R372, 93 H3; log 22, log 33). The ranges are those of R43. -/
def Obligations.HostWriteThenRead : Prop :=
  ∀ (s : State) (n : RegName) (v : Nat),
    let range : Nat := match n with
      | .bank _ | .ar _ | .pr _ | .pcs _ | .scalar _ | .pc => 2 ^ 32
      | .prp | .pwp => 24
      | .pcsp => 5
      | .flag _ => 2
      | .fifoData _ _ => 2 ^ 64
      | .fifoRpos _ | .fifoWpos _ => 8
      | .fifoNum _ => 9
    if s.dstate = .idle ∧ v < range then
      ∃ t u, s.hostTurn (.writeReg n v) = .next t ∧
        t.hostTurn (.readReg n) = .next u ∧ u.reply = .value v ∧
        (∀ k, k ≠ n → t.inspect k = s.inspect k) ∧
        t.dstate = .idle ∧ t.icount = s.icount ∧ t.cache = s.cache ∧ t.cacheUsed = s.cacheUsed ∧
        t.cur = s.cur ∧ t.brpend = s.brpend ∧ t.faultRec = s.faultRec ∧ t.scratch = s.scratch ∧
        t.ramA = s.ramA ∧ t.ramB = s.ramB ∧ t.prog = s.prog ∧ t.progWords = s.progWords ∧
        t.progDirty = s.progDirty ∧ t.cfg = s.cfg ∧ t.extIn = s.extIn ∧ t.extLog = s.extLog
    else s.hostTurn (.writeReg n v) = .refused .hostMove

/-! ## Rules of the whole machine -/

/-- No turn of the core changes program memory, how much of it is backed, or the parameters (R61, R81,
R391), and no op changes the cycle budget or the dispatch cache (R358, R81). -/
def Obligations.CoreNeverWritesProgram : Prop :=
  (∀ s t : State, s.coreTurn = .next t →
    t.prog = s.prog ∧ t.progWords = s.progWords ∧ t.cfg = s.cfg ∧ t.progDirty = s.progDirty) ∧
  ∀ (i : Instr) (s t : State), exec i s = .next t →
    t.icount = s.icount ∧ t.cache = s.cache ∧ t.cacheUsed = s.cacheUsed

/-- The invariants of the machine hold after reset. -/
def Obligations.InvariantsHoldAtReset : Prop := State.reset.inv

/-- Every step keeps the memories in their canonical form (log 1) and the FIFOs within the invariant of R34,
also a step that takes a fault and leaves any value in what the bundle could write: that a FIFO keeps its
invariant there is the model's reading of R170 (log 12). Where the step is a `WriteReg`, keeping the FIFOs'
invariant is the host's duty (R340, log 22) and a premise. -/
def Obligations.DataInvariantIsKept : Prop :=
  ∀ s t : State, s.dataInv → s.writeKeepsFifos → step s = .next t → t.dataInv

/-- Every step keeps all the invariants: the data invariant of `DataInvariantIsKept` (log 1, log 12), that a
fault is recorded exactly in FAULT, that `SCRATCH` is empty between bundles and no block is under way
outside RUN, that the cache is within its capacity and, while program memory was not changed (log 21),
holds analyses of it, and that the block under way, PC and the pending transfer agree, with none pending at
a block boundary (R34, R41, R326, R330, R333, R352). Where the step is a `WriteReg`, keeping the FIFOs'
invariant is the host's duty (R340, log 22) and a premise. -/
def Obligations.InvariantsAreKept : Prop :=
  ∀ s t : State, s.inv → s.writeKeepsFifos → step s = .next t → t.inv
end

