-- ==== Sys2Proof/Laws/State.lean ====
section
/-!
SUPPORT. One lemma per field for each named update of the state, so that no later proof unfolds an
update: what the field becomes, or that it stays.
-/

namespace Sys2Proof.Machine

-- one declaration at a time: a thread for each would outgrow the check's memory limit
set_option Elab.async false

variable (s : State)

/-! ## `State.drew` -/

@[simp] theorem State.drew_regs : s.drew.regs = s.regs := rfl
@[simp] theorem State.drew_ar : s.drew.ar = s.ar := rfl
@[simp] theorem State.drew_pr : s.drew.pr = s.pr := rfl
@[simp] theorem State.drew_prp : s.drew.prp = s.prp := rfl
@[simp] theorem State.drew_pwp : s.drew.pwp = s.pwp := rfl
@[simp] theorem State.drew_pcs : s.drew.pcs = s.pcs := rfl
@[simp] theorem State.drew_pcsp : s.drew.pcsp = s.pcsp := rfl
@[simp] theorem State.drew_flags : s.drew.flags = s.flags := rfl
@[simp] theorem State.drew_fi : s.drew.fi = s.fi := rfl
@[simp] theorem State.drew_fo0 : s.drew.fo0 = s.fo0 := rfl
@[simp] theorem State.drew_fo1 : s.drew.fo1 = s.fo1 := rfl
@[simp] theorem State.drew_eb : s.drew.eb = s.eb := rfl
@[simp] theorem State.drew_eo : s.drew.eo = s.eo := rfl
@[simp] theorem State.drew_sp : s.drew.sp = s.sp := rfl
@[simp] theorem State.drew_mod : s.drew.mod = s.mod := rfl
@[simp] theorem State.drew_pdr : s.drew.pdr = s.pdr := rfl
@[simp] theorem State.drew_ddr : s.drew.ddr = s.ddr := rfl
@[simp] theorem State.drew_pc : s.drew.pc = s.pc := rfl
@[simp] theorem State.drew_ramA : s.drew.ramA = s.ramA := rfl
@[simp] theorem State.drew_ramB : s.drew.ramB = s.ramB := rfl
@[simp] theorem State.drew_cache : s.drew.cache = s.cache := rfl
@[simp] theorem State.drew_cacheUsed : s.drew.cacheUsed = s.cacheUsed := rfl
@[simp] theorem State.drew_dstate : s.drew.dstate = s.dstate := rfl
@[simp] theorem State.drew_icount : s.drew.icount = s.icount := rfl
@[simp] theorem State.drew_faultRec : s.drew.faultRec = s.faultRec := rfl
@[simp] theorem State.drew_scratch : s.drew.scratch = s.scratch := rfl
@[simp] theorem State.drew_cur : s.drew.cur = s.cur := rfl
@[simp] theorem State.drew_brpend : s.drew.brpend = s.brpend := rfl
@[simp] theorem State.drew_preFlags : s.drew.preFlags = s.preFlags := rfl
@[simp] theorem State.drew_prog : s.drew.prog = s.prog := rfl
@[simp] theorem State.drew_progWords : s.drew.progWords = s.progWords := rfl
@[simp] theorem State.drew_progDirty : s.drew.progDirty = s.progDirty := rfl
@[simp] theorem State.drew_cfg : s.drew.cfg = s.cfg := rfl
@[simp] theorem State.drew_extIn : s.drew.extIn = s.extIn := rfl
@[simp] theorem State.drew_extLog : s.drew.extLog = s.extLog := rfl
@[simp] theorem State.drew_draws : s.drew.draws = s.draws + 1 := rfl
@[simp] theorem State.drew_schedule : s.drew.schedule = s.schedule := rfl
@[simp] theorem State.drew_reply : s.drew.reply = s.reply := rfl
@[simp] theorem State.drew_signal : s.drew.signal = s.signal := rfl

/-! ## `State.setReg` -/

@[simp] theorem State.setReg_regs (r : BankReg) (v : Word) :
    (s.setReg r v).regs = s.regs.set (BankReg.num r) v := rfl
@[simp] theorem State.setReg_ar (r : BankReg) (v : Word) : (s.setReg r v).ar = s.ar := rfl
@[simp] theorem State.setReg_pr (r : BankReg) (v : Word) : (s.setReg r v).pr = s.pr := rfl
@[simp] theorem State.setReg_prp (r : BankReg) (v : Word) : (s.setReg r v).prp = s.prp := rfl
@[simp] theorem State.setReg_pwp (r : BankReg) (v : Word) : (s.setReg r v).pwp = s.pwp := rfl
@[simp] theorem State.setReg_pcs (r : BankReg) (v : Word) : (s.setReg r v).pcs = s.pcs := rfl
@[simp] theorem State.setReg_pcsp (r : BankReg) (v : Word) : (s.setReg r v).pcsp = s.pcsp := rfl
@[simp] theorem State.setReg_flags (r : BankReg) (v : Word) : (s.setReg r v).flags = s.flags := rfl
@[simp] theorem State.setReg_fi (r : BankReg) (v : Word) : (s.setReg r v).fi = s.fi := rfl
@[simp] theorem State.setReg_fo0 (r : BankReg) (v : Word) : (s.setReg r v).fo0 = s.fo0 := rfl
@[simp] theorem State.setReg_fo1 (r : BankReg) (v : Word) : (s.setReg r v).fo1 = s.fo1 := rfl
@[simp] theorem State.setReg_eb (r : BankReg) (v : Word) : (s.setReg r v).eb = s.eb := rfl
@[simp] theorem State.setReg_eo (r : BankReg) (v : Word) : (s.setReg r v).eo = s.eo := rfl
@[simp] theorem State.setReg_sp (r : BankReg) (v : Word) : (s.setReg r v).sp = s.sp := rfl
@[simp] theorem State.setReg_mod (r : BankReg) (v : Word) : (s.setReg r v).mod = s.mod := rfl
@[simp] theorem State.setReg_pdr (r : BankReg) (v : Word) : (s.setReg r v).pdr = s.pdr := rfl
@[simp] theorem State.setReg_ddr (r : BankReg) (v : Word) : (s.setReg r v).ddr = s.ddr := rfl
@[simp] theorem State.setReg_pc (r : BankReg) (v : Word) : (s.setReg r v).pc = s.pc := rfl
@[simp] theorem State.setReg_ramA (r : BankReg) (v : Word) : (s.setReg r v).ramA = s.ramA := rfl
@[simp] theorem State.setReg_ramB (r : BankReg) (v : Word) : (s.setReg r v).ramB = s.ramB := rfl
@[simp] theorem State.setReg_cache (r : BankReg) (v : Word) : (s.setReg r v).cache = s.cache := rfl
@[simp] theorem State.setReg_cacheUsed (r : BankReg) (v : Word) :
    (s.setReg r v).cacheUsed = s.cacheUsed := rfl
@[simp] theorem State.setReg_dstate (r : BankReg) (v : Word) :
    (s.setReg r v).dstate = s.dstate := rfl
@[simp] theorem State.setReg_icount (r : BankReg) (v : Word) :
    (s.setReg r v).icount = s.icount := rfl
@[simp] theorem State.setReg_faultRec (r : BankReg) (v : Word) :
    (s.setReg r v).faultRec = s.faultRec := rfl
@[simp] theorem State.setReg_scratch (r : BankReg) (v : Word) :
    (s.setReg r v).scratch = s.scratch := rfl
@[simp] theorem State.setReg_cur (r : BankReg) (v : Word) : (s.setReg r v).cur = s.cur := rfl
@[simp] theorem State.setReg_brpend (r : BankReg) (v : Word) :
    (s.setReg r v).brpend = s.brpend := rfl
@[simp] theorem State.setReg_preFlags (r : BankReg) (v : Word) :
    (s.setReg r v).preFlags = s.preFlags := rfl
@[simp] theorem State.setReg_prog (r : BankReg) (v : Word) : (s.setReg r v).prog = s.prog := rfl
@[simp] theorem State.setReg_progWords (r : BankReg) (v : Word) :
    (s.setReg r v).progWords = s.progWords := rfl
@[simp] theorem State.setReg_progDirty (r : BankReg) (v : Word) :
    (s.setReg r v).progDirty = s.progDirty := rfl
@[simp] theorem State.setReg_cfg (r : BankReg) (v : Word) : (s.setReg r v).cfg = s.cfg := rfl
@[simp] theorem State.setReg_extIn (r : BankReg) (v : Word) : (s.setReg r v).extIn = s.extIn := rfl
@[simp] theorem State.setReg_extLog (r : BankReg) (v : Word) :
    (s.setReg r v).extLog = s.extLog := rfl
@[simp] theorem State.setReg_draws (r : BankReg) (v : Word) : (s.setReg r v).draws = s.draws := rfl
@[simp] theorem State.setReg_schedule (r : BankReg) (v : Word) :
    (s.setReg r v).schedule = s.schedule := rfl
@[simp] theorem State.setReg_reply (r : BankReg) (v : Word) : (s.setReg r v).reply = s.reply := rfl
@[simp] theorem State.setReg_signal (r : BankReg) (v : Word) :
    (s.setReg r v).signal = s.signal := rfl

/-! ## `State.bufferReg` -/

@[simp] theorem State.bufferReg_regs (k : SlotKind) (r : BankReg) (v : Word) :
    (s.bufferReg k r v).regs = s.regs := rfl
@[simp] theorem State.bufferReg_ar (k : SlotKind) (r : BankReg) (v : Word) :
    (s.bufferReg k r v).ar = s.ar := rfl
@[simp] theorem State.bufferReg_pr (k : SlotKind) (r : BankReg) (v : Word) :
    (s.bufferReg k r v).pr = s.pr := rfl
@[simp] theorem State.bufferReg_prp (k : SlotKind) (r : BankReg) (v : Word) :
    (s.bufferReg k r v).prp = s.prp := rfl
@[simp] theorem State.bufferReg_pwp (k : SlotKind) (r : BankReg) (v : Word) :
    (s.bufferReg k r v).pwp = s.pwp := rfl
@[simp] theorem State.bufferReg_pcs (k : SlotKind) (r : BankReg) (v : Word) :
    (s.bufferReg k r v).pcs = s.pcs := rfl
@[simp] theorem State.bufferReg_pcsp (k : SlotKind) (r : BankReg) (v : Word) :
    (s.bufferReg k r v).pcsp = s.pcsp := rfl
@[simp] theorem State.bufferReg_flags (k : SlotKind) (r : BankReg) (v : Word) :
    (s.bufferReg k r v).flags = s.flags := rfl
@[simp] theorem State.bufferReg_fi (k : SlotKind) (r : BankReg) (v : Word) :
    (s.bufferReg k r v).fi = s.fi := rfl
@[simp] theorem State.bufferReg_fo0 (k : SlotKind) (r : BankReg) (v : Word) :
    (s.bufferReg k r v).fo0 = s.fo0 := rfl
@[simp] theorem State.bufferReg_fo1 (k : SlotKind) (r : BankReg) (v : Word) :
    (s.bufferReg k r v).fo1 = s.fo1 := rfl
@[simp] theorem State.bufferReg_eb (k : SlotKind) (r : BankReg) (v : Word) :
    (s.bufferReg k r v).eb = s.eb := rfl
@[simp] theorem State.bufferReg_eo (k : SlotKind) (r : BankReg) (v : Word) :
    (s.bufferReg k r v).eo = s.eo := rfl
@[simp] theorem State.bufferReg_sp (k : SlotKind) (r : BankReg) (v : Word) :
    (s.bufferReg k r v).sp = s.sp := rfl
@[simp] theorem State.bufferReg_mod (k : SlotKind) (r : BankReg) (v : Word) :
    (s.bufferReg k r v).mod = s.mod := rfl
@[simp] theorem State.bufferReg_pdr (k : SlotKind) (r : BankReg) (v : Word) :
    (s.bufferReg k r v).pdr = s.pdr := rfl
@[simp] theorem State.bufferReg_ddr (k : SlotKind) (r : BankReg) (v : Word) :
    (s.bufferReg k r v).ddr = s.ddr := rfl
@[simp] theorem State.bufferReg_pc (k : SlotKind) (r : BankReg) (v : Word) :
    (s.bufferReg k r v).pc = s.pc := rfl
@[simp] theorem State.bufferReg_ramA (k : SlotKind) (r : BankReg) (v : Word) :
    (s.bufferReg k r v).ramA = s.ramA := rfl
@[simp] theorem State.bufferReg_ramB (k : SlotKind) (r : BankReg) (v : Word) :
    (s.bufferReg k r v).ramB = s.ramB := rfl
@[simp] theorem State.bufferReg_cache (k : SlotKind) (r : BankReg) (v : Word) :
    (s.bufferReg k r v).cache = s.cache := rfl
@[simp] theorem State.bufferReg_cacheUsed (k : SlotKind) (r : BankReg) (v : Word) :
    (s.bufferReg k r v).cacheUsed = s.cacheUsed := rfl
@[simp] theorem State.bufferReg_dstate (k : SlotKind) (r : BankReg) (v : Word) :
    (s.bufferReg k r v).dstate = s.dstate := rfl
@[simp] theorem State.bufferReg_icount (k : SlotKind) (r : BankReg) (v : Word) :
    (s.bufferReg k r v).icount = s.icount := rfl
@[simp] theorem State.bufferReg_faultRec (k : SlotKind) (r : BankReg) (v : Word) :
    (s.bufferReg k r v).faultRec = s.faultRec := rfl
@[simp] theorem State.bufferReg_scratch (k : SlotKind) (r : BankReg) (v : Word) :
    (s.bufferReg k r v).scratch = s.scratch ++ [⟨k, r, v⟩] := rfl
@[simp] theorem State.bufferReg_cur (k : SlotKind) (r : BankReg) (v : Word) :
    (s.bufferReg k r v).cur = s.cur := rfl
@[simp] theorem State.bufferReg_brpend (k : SlotKind) (r : BankReg) (v : Word) :
    (s.bufferReg k r v).brpend = s.brpend := rfl
@[simp] theorem State.bufferReg_preFlags (k : SlotKind) (r : BankReg) (v : Word) :
    (s.bufferReg k r v).preFlags = s.preFlags := rfl
@[simp] theorem State.bufferReg_prog (k : SlotKind) (r : BankReg) (v : Word) :
    (s.bufferReg k r v).prog = s.prog := rfl
@[simp] theorem State.bufferReg_progWords (k : SlotKind) (r : BankReg) (v : Word) :
    (s.bufferReg k r v).progWords = s.progWords := rfl
@[simp] theorem State.bufferReg_progDirty (k : SlotKind) (r : BankReg) (v : Word) :
    (s.bufferReg k r v).progDirty = s.progDirty := rfl
@[simp] theorem State.bufferReg_cfg (k : SlotKind) (r : BankReg) (v : Word) :
    (s.bufferReg k r v).cfg = s.cfg := rfl
@[simp] theorem State.bufferReg_extIn (k : SlotKind) (r : BankReg) (v : Word) :
    (s.bufferReg k r v).extIn = s.extIn := rfl
@[simp] theorem State.bufferReg_extLog (k : SlotKind) (r : BankReg) (v : Word) :
    (s.bufferReg k r v).extLog = s.extLog := rfl
@[simp] theorem State.bufferReg_draws (k : SlotKind) (r : BankReg) (v : Word) :
    (s.bufferReg k r v).draws = s.draws := rfl
@[simp] theorem State.bufferReg_schedule (k : SlotKind) (r : BankReg) (v : Word) :
    (s.bufferReg k r v).schedule = s.schedule := rfl
@[simp] theorem State.bufferReg_reply (k : SlotKind) (r : BankReg) (v : Word) :
    (s.bufferReg k r v).reply = s.reply := rfl
@[simp] theorem State.bufferReg_signal (k : SlotKind) (r : BankReg) (v : Word) :
    (s.bufferReg k r v).signal = s.signal := rfl

/-! ## `State.setAr` -/

@[simp] theorem State.setAr_regs (x : Fin 8) (v : Word) : (s.setAr x v).regs = s.regs := rfl
@[simp] theorem State.setAr_ar (x : Fin 8) (v : Word) : (s.setAr x v).ar = s.ar.set x v := rfl
@[simp] theorem State.setAr_pr (x : Fin 8) (v : Word) : (s.setAr x v).pr = s.pr := rfl
@[simp] theorem State.setAr_prp (x : Fin 8) (v : Word) : (s.setAr x v).prp = s.prp := rfl
@[simp] theorem State.setAr_pwp (x : Fin 8) (v : Word) : (s.setAr x v).pwp = s.pwp := rfl
@[simp] theorem State.setAr_pcs (x : Fin 8) (v : Word) : (s.setAr x v).pcs = s.pcs := rfl
@[simp] theorem State.setAr_pcsp (x : Fin 8) (v : Word) : (s.setAr x v).pcsp = s.pcsp := rfl
@[simp] theorem State.setAr_flags (x : Fin 8) (v : Word) : (s.setAr x v).flags = s.flags := rfl
@[simp] theorem State.setAr_fi (x : Fin 8) (v : Word) : (s.setAr x v).fi = s.fi := rfl
@[simp] theorem State.setAr_fo0 (x : Fin 8) (v : Word) : (s.setAr x v).fo0 = s.fo0 := rfl
@[simp] theorem State.setAr_fo1 (x : Fin 8) (v : Word) : (s.setAr x v).fo1 = s.fo1 := rfl
@[simp] theorem State.setAr_eb (x : Fin 8) (v : Word) : (s.setAr x v).eb = s.eb := rfl
@[simp] theorem State.setAr_eo (x : Fin 8) (v : Word) : (s.setAr x v).eo = s.eo := rfl
@[simp] theorem State.setAr_sp (x : Fin 8) (v : Word) : (s.setAr x v).sp = s.sp := rfl
@[simp] theorem State.setAr_mod (x : Fin 8) (v : Word) : (s.setAr x v).mod = s.mod := rfl
@[simp] theorem State.setAr_pdr (x : Fin 8) (v : Word) : (s.setAr x v).pdr = s.pdr := rfl
@[simp] theorem State.setAr_ddr (x : Fin 8) (v : Word) : (s.setAr x v).ddr = s.ddr := rfl
@[simp] theorem State.setAr_pc (x : Fin 8) (v : Word) : (s.setAr x v).pc = s.pc := rfl
@[simp] theorem State.setAr_ramA (x : Fin 8) (v : Word) : (s.setAr x v).ramA = s.ramA := rfl
@[simp] theorem State.setAr_ramB (x : Fin 8) (v : Word) : (s.setAr x v).ramB = s.ramB := rfl
@[simp] theorem State.setAr_cache (x : Fin 8) (v : Word) : (s.setAr x v).cache = s.cache := rfl
@[simp] theorem State.setAr_cacheUsed (x : Fin 8) (v : Word) :
    (s.setAr x v).cacheUsed = s.cacheUsed := rfl
@[simp] theorem State.setAr_dstate (x : Fin 8) (v : Word) : (s.setAr x v).dstate = s.dstate := rfl
@[simp] theorem State.setAr_icount (x : Fin 8) (v : Word) : (s.setAr x v).icount = s.icount := rfl
@[simp] theorem State.setAr_faultRec (x : Fin 8) (v : Word) :
    (s.setAr x v).faultRec = s.faultRec := rfl
@[simp] theorem State.setAr_scratch (x : Fin 8) (v : Word) :
    (s.setAr x v).scratch = s.scratch := rfl
@[simp] theorem State.setAr_cur (x : Fin 8) (v : Word) : (s.setAr x v).cur = s.cur := rfl
@[simp] theorem State.setAr_brpend (x : Fin 8) (v : Word) : (s.setAr x v).brpend = s.brpend := rfl
@[simp] theorem State.setAr_preFlags (x : Fin 8) (v : Word) :
    (s.setAr x v).preFlags = s.preFlags := rfl
@[simp] theorem State.setAr_prog (x : Fin 8) (v : Word) : (s.setAr x v).prog = s.prog := rfl
@[simp] theorem State.setAr_progWords (x : Fin 8) (v : Word) :
    (s.setAr x v).progWords = s.progWords := rfl
@[simp] theorem State.setAr_progDirty (x : Fin 8) (v : Word) :
    (s.setAr x v).progDirty = s.progDirty := rfl
@[simp] theorem State.setAr_cfg (x : Fin 8) (v : Word) : (s.setAr x v).cfg = s.cfg := rfl
@[simp] theorem State.setAr_extIn (x : Fin 8) (v : Word) : (s.setAr x v).extIn = s.extIn := rfl
@[simp] theorem State.setAr_extLog (x : Fin 8) (v : Word) : (s.setAr x v).extLog = s.extLog := rfl
@[simp] theorem State.setAr_draws (x : Fin 8) (v : Word) : (s.setAr x v).draws = s.draws := rfl
@[simp] theorem State.setAr_schedule (x : Fin 8) (v : Word) :
    (s.setAr x v).schedule = s.schedule := rfl
@[simp] theorem State.setAr_reply (x : Fin 8) (v : Word) : (s.setAr x v).reply = s.reply := rfl
@[simp] theorem State.setAr_signal (x : Fin 8) (v : Word) : (s.setAr x v).signal = s.signal := rfl

/-! ## `State.arInc` -/

@[simp] theorem State.arInc_regs (x : Fin 8) : (s.arInc x).regs = s.regs := rfl
@[simp] theorem State.arInc_ar (x : Fin 8) : (s.arInc x).ar = s.ar.set x (s.ar[x] + 1) := rfl
@[simp] theorem State.arInc_pr (x : Fin 8) : (s.arInc x).pr = s.pr := rfl
@[simp] theorem State.arInc_prp (x : Fin 8) : (s.arInc x).prp = s.prp := rfl
@[simp] theorem State.arInc_pwp (x : Fin 8) : (s.arInc x).pwp = s.pwp := rfl
@[simp] theorem State.arInc_pcs (x : Fin 8) : (s.arInc x).pcs = s.pcs := rfl
@[simp] theorem State.arInc_pcsp (x : Fin 8) : (s.arInc x).pcsp = s.pcsp := rfl
@[simp] theorem State.arInc_flags (x : Fin 8) : (s.arInc x).flags = s.flags := rfl
@[simp] theorem State.arInc_fi (x : Fin 8) : (s.arInc x).fi = s.fi := rfl
@[simp] theorem State.arInc_fo0 (x : Fin 8) : (s.arInc x).fo0 = s.fo0 := rfl
@[simp] theorem State.arInc_fo1 (x : Fin 8) : (s.arInc x).fo1 = s.fo1 := rfl
@[simp] theorem State.arInc_eb (x : Fin 8) : (s.arInc x).eb = s.eb := rfl
@[simp] theorem State.arInc_eo (x : Fin 8) : (s.arInc x).eo = s.eo := rfl
@[simp] theorem State.arInc_sp (x : Fin 8) : (s.arInc x).sp = s.sp := rfl
@[simp] theorem State.arInc_mod (x : Fin 8) : (s.arInc x).mod = s.mod := rfl
@[simp] theorem State.arInc_pdr (x : Fin 8) : (s.arInc x).pdr = s.pdr := rfl
@[simp] theorem State.arInc_ddr (x : Fin 8) : (s.arInc x).ddr = s.ddr := rfl
@[simp] theorem State.arInc_pc (x : Fin 8) : (s.arInc x).pc = s.pc := rfl
@[simp] theorem State.arInc_ramA (x : Fin 8) : (s.arInc x).ramA = s.ramA := rfl
@[simp] theorem State.arInc_ramB (x : Fin 8) : (s.arInc x).ramB = s.ramB := rfl
@[simp] theorem State.arInc_cache (x : Fin 8) : (s.arInc x).cache = s.cache := rfl
@[simp] theorem State.arInc_cacheUsed (x : Fin 8) : (s.arInc x).cacheUsed = s.cacheUsed := rfl
@[simp] theorem State.arInc_dstate (x : Fin 8) : (s.arInc x).dstate = s.dstate := rfl
@[simp] theorem State.arInc_icount (x : Fin 8) : (s.arInc x).icount = s.icount := rfl
@[simp] theorem State.arInc_faultRec (x : Fin 8) : (s.arInc x).faultRec = s.faultRec := rfl
@[simp] theorem State.arInc_scratch (x : Fin 8) : (s.arInc x).scratch = s.scratch := rfl
@[simp] theorem State.arInc_cur (x : Fin 8) : (s.arInc x).cur = s.cur := rfl
@[simp] theorem State.arInc_brpend (x : Fin 8) : (s.arInc x).brpend = s.brpend := rfl
@[simp] theorem State.arInc_preFlags (x : Fin 8) : (s.arInc x).preFlags = s.preFlags := rfl
@[simp] theorem State.arInc_prog (x : Fin 8) : (s.arInc x).prog = s.prog := rfl
@[simp] theorem State.arInc_progWords (x : Fin 8) : (s.arInc x).progWords = s.progWords := rfl
@[simp] theorem State.arInc_progDirty (x : Fin 8) : (s.arInc x).progDirty = s.progDirty := rfl
@[simp] theorem State.arInc_cfg (x : Fin 8) : (s.arInc x).cfg = s.cfg := rfl
@[simp] theorem State.arInc_extIn (x : Fin 8) : (s.arInc x).extIn = s.extIn := rfl
@[simp] theorem State.arInc_extLog (x : Fin 8) : (s.arInc x).extLog = s.extLog := rfl
@[simp] theorem State.arInc_draws (x : Fin 8) : (s.arInc x).draws = s.draws := rfl
@[simp] theorem State.arInc_schedule (x : Fin 8) : (s.arInc x).schedule = s.schedule := rfl
@[simp] theorem State.arInc_reply (x : Fin 8) : (s.arInc x).reply = s.reply := rfl
@[simp] theorem State.arInc_signal (x : Fin 8) : (s.arInc x).signal = s.signal := rfl

/-! ## `State.afterPrRead` -/

@[simp] theorem State.afterPrRead_regs (m : PrMode) : (s.afterPrRead m).regs = s.regs := rfl
@[simp] theorem State.afterPrRead_ar (m : PrMode) : (s.afterPrRead m).ar = s.ar := rfl
@[simp] theorem State.afterPrRead_pr (m : PrMode) : (s.afterPrRead m).pr = s.pr := rfl
@[simp] theorem State.afterPrRead_prp (m : PrMode) :
    (s.afterPrRead m).prp = PrMode.move s.prp m := rfl
@[simp] theorem State.afterPrRead_pwp (m : PrMode) : (s.afterPrRead m).pwp = s.pwp := rfl
@[simp] theorem State.afterPrRead_pcs (m : PrMode) : (s.afterPrRead m).pcs = s.pcs := rfl
@[simp] theorem State.afterPrRead_pcsp (m : PrMode) : (s.afterPrRead m).pcsp = s.pcsp := rfl
@[simp] theorem State.afterPrRead_flags (m : PrMode) : (s.afterPrRead m).flags = s.flags := rfl
@[simp] theorem State.afterPrRead_fi (m : PrMode) : (s.afterPrRead m).fi = s.fi := rfl
@[simp] theorem State.afterPrRead_fo0 (m : PrMode) : (s.afterPrRead m).fo0 = s.fo0 := rfl
@[simp] theorem State.afterPrRead_fo1 (m : PrMode) : (s.afterPrRead m).fo1 = s.fo1 := rfl
@[simp] theorem State.afterPrRead_eb (m : PrMode) : (s.afterPrRead m).eb = s.eb := rfl
@[simp] theorem State.afterPrRead_eo (m : PrMode) : (s.afterPrRead m).eo = s.eo := rfl
@[simp] theorem State.afterPrRead_sp (m : PrMode) : (s.afterPrRead m).sp = s.sp := rfl
@[simp] theorem State.afterPrRead_mod (m : PrMode) : (s.afterPrRead m).mod = s.mod := rfl
@[simp] theorem State.afterPrRead_pdr (m : PrMode) : (s.afterPrRead m).pdr = s.pdr := rfl
@[simp] theorem State.afterPrRead_ddr (m : PrMode) : (s.afterPrRead m).ddr = s.ddr := rfl
@[simp] theorem State.afterPrRead_pc (m : PrMode) : (s.afterPrRead m).pc = s.pc := rfl
@[simp] theorem State.afterPrRead_ramA (m : PrMode) : (s.afterPrRead m).ramA = s.ramA := rfl
@[simp] theorem State.afterPrRead_ramB (m : PrMode) : (s.afterPrRead m).ramB = s.ramB := rfl
@[simp] theorem State.afterPrRead_cache (m : PrMode) : (s.afterPrRead m).cache = s.cache := rfl
@[simp] theorem State.afterPrRead_cacheUsed (m : PrMode) :
    (s.afterPrRead m).cacheUsed = s.cacheUsed := rfl
@[simp] theorem State.afterPrRead_dstate (m : PrMode) : (s.afterPrRead m).dstate = s.dstate := rfl
@[simp] theorem State.afterPrRead_icount (m : PrMode) : (s.afterPrRead m).icount = s.icount := rfl
@[simp] theorem State.afterPrRead_faultRec (m : PrMode) :
    (s.afterPrRead m).faultRec = s.faultRec := rfl
@[simp] theorem State.afterPrRead_scratch (m : PrMode) :
    (s.afterPrRead m).scratch = s.scratch := rfl
@[simp] theorem State.afterPrRead_cur (m : PrMode) : (s.afterPrRead m).cur = s.cur := rfl
@[simp] theorem State.afterPrRead_brpend (m : PrMode) : (s.afterPrRead m).brpend = s.brpend := rfl
@[simp] theorem State.afterPrRead_preFlags (m : PrMode) :
    (s.afterPrRead m).preFlags = s.preFlags := rfl
@[simp] theorem State.afterPrRead_prog (m : PrMode) : (s.afterPrRead m).prog = s.prog := rfl
@[simp] theorem State.afterPrRead_progWords (m : PrMode) :
    (s.afterPrRead m).progWords = s.progWords := rfl
@[simp] theorem State.afterPrRead_progDirty (m : PrMode) :
    (s.afterPrRead m).progDirty = s.progDirty := rfl
@[simp] theorem State.afterPrRead_cfg (m : PrMode) : (s.afterPrRead m).cfg = s.cfg := rfl
@[simp] theorem State.afterPrRead_extIn (m : PrMode) : (s.afterPrRead m).extIn = s.extIn := rfl
@[simp] theorem State.afterPrRead_extLog (m : PrMode) : (s.afterPrRead m).extLog = s.extLog := rfl
@[simp] theorem State.afterPrRead_draws (m : PrMode) : (s.afterPrRead m).draws = s.draws := rfl
@[simp] theorem State.afterPrRead_schedule (m : PrMode) :
    (s.afterPrRead m).schedule = s.schedule := rfl
@[simp] theorem State.afterPrRead_reply (m : PrMode) : (s.afterPrRead m).reply = s.reply := rfl
@[simp] theorem State.afterPrRead_signal (m : PrMode) : (s.afterPrRead m).signal = s.signal := rfl

/-! ## `State.prWrite` -/

@[simp] theorem State.prWrite_regs (m : PrMode) (v : Word) : (s.prWrite m v).regs = s.regs := rfl
@[simp] theorem State.prWrite_ar (m : PrMode) (v : Word) : (s.prWrite m v).ar = s.ar := rfl
@[simp] theorem State.prWrite_pr (m : PrMode) (v : Word) :
    (s.prWrite m v).pr = s.pr.set s.pwp v := rfl
@[simp] theorem State.prWrite_prp (m : PrMode) (v : Word) : (s.prWrite m v).prp = s.prp := rfl
@[simp] theorem State.prWrite_pwp (m : PrMode) (v : Word) :
    (s.prWrite m v).pwp = PrMode.move s.pwp m := rfl
@[simp] theorem State.prWrite_pcs (m : PrMode) (v : Word) : (s.prWrite m v).pcs = s.pcs := rfl
@[simp] theorem State.prWrite_pcsp (m : PrMode) (v : Word) : (s.prWrite m v).pcsp = s.pcsp := rfl
@[simp] theorem State.prWrite_flags (m : PrMode) (v : Word) : (s.prWrite m v).flags = s.flags := rfl
@[simp] theorem State.prWrite_fi (m : PrMode) (v : Word) : (s.prWrite m v).fi = s.fi := rfl
@[simp] theorem State.prWrite_fo0 (m : PrMode) (v : Word) : (s.prWrite m v).fo0 = s.fo0 := rfl
@[simp] theorem State.prWrite_fo1 (m : PrMode) (v : Word) : (s.prWrite m v).fo1 = s.fo1 := rfl
@[simp] theorem State.prWrite_eb (m : PrMode) (v : Word) : (s.prWrite m v).eb = s.eb := rfl
@[simp] theorem State.prWrite_eo (m : PrMode) (v : Word) : (s.prWrite m v).eo = s.eo := rfl
@[simp] theorem State.prWrite_sp (m : PrMode) (v : Word) : (s.prWrite m v).sp = s.sp := rfl
@[simp] theorem State.prWrite_mod (m : PrMode) (v : Word) : (s.prWrite m v).mod = s.mod := rfl
@[simp] theorem State.prWrite_pdr (m : PrMode) (v : Word) : (s.prWrite m v).pdr = s.pdr := rfl
@[simp] theorem State.prWrite_ddr (m : PrMode) (v : Word) : (s.prWrite m v).ddr = s.ddr := rfl
@[simp] theorem State.prWrite_pc (m : PrMode) (v : Word) : (s.prWrite m v).pc = s.pc := rfl
@[simp] theorem State.prWrite_ramA (m : PrMode) (v : Word) : (s.prWrite m v).ramA = s.ramA := rfl
@[simp] theorem State.prWrite_ramB (m : PrMode) (v : Word) : (s.prWrite m v).ramB = s.ramB := rfl
@[simp] theorem State.prWrite_cache (m : PrMode) (v : Word) : (s.prWrite m v).cache = s.cache := rfl
@[simp] theorem State.prWrite_cacheUsed (m : PrMode) (v : Word) :
    (s.prWrite m v).cacheUsed = s.cacheUsed := rfl
@[simp] theorem State.prWrite_dstate (m : PrMode) (v : Word) :
    (s.prWrite m v).dstate = s.dstate := rfl
@[simp] theorem State.prWrite_icount (m : PrMode) (v : Word) :
    (s.prWrite m v).icount = s.icount := rfl
@[simp] theorem State.prWrite_faultRec (m : PrMode) (v : Word) :
    (s.prWrite m v).faultRec = s.faultRec := rfl
@[simp] theorem State.prWrite_scratch (m : PrMode) (v : Word) :
    (s.prWrite m v).scratch = s.scratch := rfl
@[simp] theorem State.prWrite_cur (m : PrMode) (v : Word) : (s.prWrite m v).cur = s.cur := rfl
@[simp] theorem State.prWrite_brpend (m : PrMode) (v : Word) :
    (s.prWrite m v).brpend = s.brpend := rfl
@[simp] theorem State.prWrite_preFlags (m : PrMode) (v : Word) :
    (s.prWrite m v).preFlags = s.preFlags := rfl
@[simp] theorem State.prWrite_prog (m : PrMode) (v : Word) : (s.prWrite m v).prog = s.prog := rfl
@[simp] theorem State.prWrite_progWords (m : PrMode) (v : Word) :
    (s.prWrite m v).progWords = s.progWords := rfl
@[simp] theorem State.prWrite_progDirty (m : PrMode) (v : Word) :
    (s.prWrite m v).progDirty = s.progDirty := rfl
@[simp] theorem State.prWrite_cfg (m : PrMode) (v : Word) : (s.prWrite m v).cfg = s.cfg := rfl
@[simp] theorem State.prWrite_extIn (m : PrMode) (v : Word) : (s.prWrite m v).extIn = s.extIn := rfl
@[simp] theorem State.prWrite_extLog (m : PrMode) (v : Word) :
    (s.prWrite m v).extLog = s.extLog := rfl
@[simp] theorem State.prWrite_draws (m : PrMode) (v : Word) : (s.prWrite m v).draws = s.draws := rfl
@[simp] theorem State.prWrite_schedule (m : PrMode) (v : Word) :
    (s.prWrite m v).schedule = s.schedule := rfl
@[simp] theorem State.prWrite_reply (m : PrMode) (v : Word) : (s.prWrite m v).reply = s.reply := rfl
@[simp] theorem State.prWrite_signal (m : PrMode) (v : Word) :
    (s.prWrite m v).signal = s.signal := rfl

/-! ## `State.pcsPush` -/

@[simp] theorem State.pcsPush_regs (v : PcWord) : (s.pcsPush v).regs = s.regs := rfl
@[simp] theorem State.pcsPush_ar (v : PcWord) : (s.pcsPush v).ar = s.ar := rfl
@[simp] theorem State.pcsPush_pr (v : PcWord) : (s.pcsPush v).pr = s.pr := rfl
@[simp] theorem State.pcsPush_prp (v : PcWord) : (s.pcsPush v).prp = s.prp := rfl
@[simp] theorem State.pcsPush_pwp (v : PcWord) : (s.pcsPush v).pwp = s.pwp := rfl
@[simp] theorem State.pcsPush_pcs (v : PcWord) :
    (s.pcsPush v).pcs = s.pcs.set (pcsIndex s.pcsp) v := rfl
@[simp] theorem State.pcsPush_pcsp (v : PcWord) : (s.pcsPush v).pcsp = s.pcsp + 1 := rfl
@[simp] theorem State.pcsPush_flags (v : PcWord) : (s.pcsPush v).flags = s.flags := rfl
@[simp] theorem State.pcsPush_fi (v : PcWord) : (s.pcsPush v).fi = s.fi := rfl
@[simp] theorem State.pcsPush_fo0 (v : PcWord) : (s.pcsPush v).fo0 = s.fo0 := rfl
@[simp] theorem State.pcsPush_fo1 (v : PcWord) : (s.pcsPush v).fo1 = s.fo1 := rfl
@[simp] theorem State.pcsPush_eb (v : PcWord) : (s.pcsPush v).eb = s.eb := rfl
@[simp] theorem State.pcsPush_eo (v : PcWord) : (s.pcsPush v).eo = s.eo := rfl
@[simp] theorem State.pcsPush_sp (v : PcWord) : (s.pcsPush v).sp = s.sp := rfl
@[simp] theorem State.pcsPush_mod (v : PcWord) : (s.pcsPush v).mod = s.mod := rfl
@[simp] theorem State.pcsPush_pdr (v : PcWord) : (s.pcsPush v).pdr = s.pdr := rfl
@[simp] theorem State.pcsPush_ddr (v : PcWord) : (s.pcsPush v).ddr = s.ddr := rfl
@[simp] theorem State.pcsPush_pc (v : PcWord) : (s.pcsPush v).pc = s.pc := rfl
@[simp] theorem State.pcsPush_ramA (v : PcWord) : (s.pcsPush v).ramA = s.ramA := rfl
@[simp] theorem State.pcsPush_ramB (v : PcWord) : (s.pcsPush v).ramB = s.ramB := rfl
@[simp] theorem State.pcsPush_cache (v : PcWord) : (s.pcsPush v).cache = s.cache := rfl
@[simp] theorem State.pcsPush_cacheUsed (v : PcWord) : (s.pcsPush v).cacheUsed = s.cacheUsed := rfl
@[simp] theorem State.pcsPush_dstate (v : PcWord) : (s.pcsPush v).dstate = s.dstate := rfl
@[simp] theorem State.pcsPush_icount (v : PcWord) : (s.pcsPush v).icount = s.icount := rfl
@[simp] theorem State.pcsPush_faultRec (v : PcWord) : (s.pcsPush v).faultRec = s.faultRec := rfl
@[simp] theorem State.pcsPush_scratch (v : PcWord) : (s.pcsPush v).scratch = s.scratch := rfl
@[simp] theorem State.pcsPush_cur (v : PcWord) : (s.pcsPush v).cur = s.cur := rfl
@[simp] theorem State.pcsPush_brpend (v : PcWord) : (s.pcsPush v).brpend = s.brpend := rfl
@[simp] theorem State.pcsPush_preFlags (v : PcWord) : (s.pcsPush v).preFlags = s.preFlags := rfl
@[simp] theorem State.pcsPush_prog (v : PcWord) : (s.pcsPush v).prog = s.prog := rfl
@[simp] theorem State.pcsPush_progWords (v : PcWord) : (s.pcsPush v).progWords = s.progWords := rfl
@[simp] theorem State.pcsPush_progDirty (v : PcWord) : (s.pcsPush v).progDirty = s.progDirty := rfl
@[simp] theorem State.pcsPush_cfg (v : PcWord) : (s.pcsPush v).cfg = s.cfg := rfl
@[simp] theorem State.pcsPush_extIn (v : PcWord) : (s.pcsPush v).extIn = s.extIn := rfl
@[simp] theorem State.pcsPush_extLog (v : PcWord) : (s.pcsPush v).extLog = s.extLog := rfl
@[simp] theorem State.pcsPush_draws (v : PcWord) : (s.pcsPush v).draws = s.draws := rfl
@[simp] theorem State.pcsPush_schedule (v : PcWord) : (s.pcsPush v).schedule = s.schedule := rfl
@[simp] theorem State.pcsPush_reply (v : PcWord) : (s.pcsPush v).reply = s.reply := rfl
@[simp] theorem State.pcsPush_signal (v : PcWord) : (s.pcsPush v).signal = s.signal := rfl

/-! ## `State.afterPcsPop` -/

@[simp] theorem State.afterPcsPop_regs : s.afterPcsPop.regs = s.regs := rfl
@[simp] theorem State.afterPcsPop_ar : s.afterPcsPop.ar = s.ar := rfl
@[simp] theorem State.afterPcsPop_pr : s.afterPcsPop.pr = s.pr := rfl
@[simp] theorem State.afterPcsPop_prp : s.afterPcsPop.prp = s.prp := rfl
@[simp] theorem State.afterPcsPop_pwp : s.afterPcsPop.pwp = s.pwp := rfl
@[simp] theorem State.afterPcsPop_pcs : s.afterPcsPop.pcs = s.pcs := rfl
@[simp] theorem State.afterPcsPop_pcsp : s.afterPcsPop.pcsp = s.pcsp - 1 := rfl
@[simp] theorem State.afterPcsPop_flags : s.afterPcsPop.flags = s.flags := rfl
@[simp] theorem State.afterPcsPop_fi : s.afterPcsPop.fi = s.fi := rfl
@[simp] theorem State.afterPcsPop_fo0 : s.afterPcsPop.fo0 = s.fo0 := rfl
@[simp] theorem State.afterPcsPop_fo1 : s.afterPcsPop.fo1 = s.fo1 := rfl
@[simp] theorem State.afterPcsPop_eb : s.afterPcsPop.eb = s.eb := rfl
@[simp] theorem State.afterPcsPop_eo : s.afterPcsPop.eo = s.eo := rfl
@[simp] theorem State.afterPcsPop_sp : s.afterPcsPop.sp = s.sp := rfl
@[simp] theorem State.afterPcsPop_mod : s.afterPcsPop.mod = s.mod := rfl
@[simp] theorem State.afterPcsPop_pdr : s.afterPcsPop.pdr = s.pdr := rfl
@[simp] theorem State.afterPcsPop_ddr : s.afterPcsPop.ddr = s.ddr := rfl
@[simp] theorem State.afterPcsPop_pc : s.afterPcsPop.pc = s.pc := rfl
@[simp] theorem State.afterPcsPop_ramA : s.afterPcsPop.ramA = s.ramA := rfl
@[simp] theorem State.afterPcsPop_ramB : s.afterPcsPop.ramB = s.ramB := rfl
@[simp] theorem State.afterPcsPop_cache : s.afterPcsPop.cache = s.cache := rfl
@[simp] theorem State.afterPcsPop_cacheUsed : s.afterPcsPop.cacheUsed = s.cacheUsed := rfl
@[simp] theorem State.afterPcsPop_dstate : s.afterPcsPop.dstate = s.dstate := rfl
@[simp] theorem State.afterPcsPop_icount : s.afterPcsPop.icount = s.icount := rfl
@[simp] theorem State.afterPcsPop_faultRec : s.afterPcsPop.faultRec = s.faultRec := rfl
@[simp] theorem State.afterPcsPop_scratch : s.afterPcsPop.scratch = s.scratch := rfl
@[simp] theorem State.afterPcsPop_cur : s.afterPcsPop.cur = s.cur := rfl
@[simp] theorem State.afterPcsPop_brpend : s.afterPcsPop.brpend = s.brpend := rfl
@[simp] theorem State.afterPcsPop_preFlags : s.afterPcsPop.preFlags = s.preFlags := rfl
@[simp] theorem State.afterPcsPop_prog : s.afterPcsPop.prog = s.prog := rfl
@[simp] theorem State.afterPcsPop_progWords : s.afterPcsPop.progWords = s.progWords := rfl
@[simp] theorem State.afterPcsPop_progDirty : s.afterPcsPop.progDirty = s.progDirty := rfl
@[simp] theorem State.afterPcsPop_cfg : s.afterPcsPop.cfg = s.cfg := rfl
@[simp] theorem State.afterPcsPop_extIn : s.afterPcsPop.extIn = s.extIn := rfl
@[simp] theorem State.afterPcsPop_extLog : s.afterPcsPop.extLog = s.extLog := rfl
@[simp] theorem State.afterPcsPop_draws : s.afterPcsPop.draws = s.draws := rfl
@[simp] theorem State.afterPcsPop_schedule : s.afterPcsPop.schedule = s.schedule := rfl
@[simp] theorem State.afterPcsPop_reply : s.afterPcsPop.reply = s.reply := rfl
@[simp] theorem State.afterPcsPop_signal : s.afterPcsPop.signal = s.signal := rfl

/-! ## `State.setFlag` -/

@[simp] theorem State.setFlag_regs (f : Flag) (v : Bool) : (s.setFlag f v).regs = s.regs := rfl
@[simp] theorem State.setFlag_ar (f : Flag) (v : Bool) : (s.setFlag f v).ar = s.ar := rfl
@[simp] theorem State.setFlag_pr (f : Flag) (v : Bool) : (s.setFlag f v).pr = s.pr := rfl
@[simp] theorem State.setFlag_prp (f : Flag) (v : Bool) : (s.setFlag f v).prp = s.prp := rfl
@[simp] theorem State.setFlag_pwp (f : Flag) (v : Bool) : (s.setFlag f v).pwp = s.pwp := rfl
@[simp] theorem State.setFlag_pcs (f : Flag) (v : Bool) : (s.setFlag f v).pcs = s.pcs := rfl
@[simp] theorem State.setFlag_pcsp (f : Flag) (v : Bool) : (s.setFlag f v).pcsp = s.pcsp := rfl
@[simp] theorem State.setFlag_flags (f : Flag) (v : Bool) :
    (s.setFlag f v).flags = s.flags.set f.num v := rfl
@[simp] theorem State.setFlag_fi (f : Flag) (v : Bool) : (s.setFlag f v).fi = s.fi := rfl
@[simp] theorem State.setFlag_fo0 (f : Flag) (v : Bool) : (s.setFlag f v).fo0 = s.fo0 := rfl
@[simp] theorem State.setFlag_fo1 (f : Flag) (v : Bool) : (s.setFlag f v).fo1 = s.fo1 := rfl
@[simp] theorem State.setFlag_eb (f : Flag) (v : Bool) : (s.setFlag f v).eb = s.eb := rfl
@[simp] theorem State.setFlag_eo (f : Flag) (v : Bool) : (s.setFlag f v).eo = s.eo := rfl
@[simp] theorem State.setFlag_sp (f : Flag) (v : Bool) : (s.setFlag f v).sp = s.sp := rfl
@[simp] theorem State.setFlag_mod (f : Flag) (v : Bool) : (s.setFlag f v).mod = s.mod := rfl
@[simp] theorem State.setFlag_pdr (f : Flag) (v : Bool) : (s.setFlag f v).pdr = s.pdr := rfl
@[simp] theorem State.setFlag_ddr (f : Flag) (v : Bool) : (s.setFlag f v).ddr = s.ddr := rfl
@[simp] theorem State.setFlag_pc (f : Flag) (v : Bool) : (s.setFlag f v).pc = s.pc := rfl
@[simp] theorem State.setFlag_ramA (f : Flag) (v : Bool) : (s.setFlag f v).ramA = s.ramA := rfl
@[simp] theorem State.setFlag_ramB (f : Flag) (v : Bool) : (s.setFlag f v).ramB = s.ramB := rfl
@[simp] theorem State.setFlag_cache (f : Flag) (v : Bool) : (s.setFlag f v).cache = s.cache := rfl
@[simp] theorem State.setFlag_cacheUsed (f : Flag) (v : Bool) :
    (s.setFlag f v).cacheUsed = s.cacheUsed := rfl
@[simp] theorem State.setFlag_dstate (f : Flag) (v : Bool) :
    (s.setFlag f v).dstate = s.dstate := rfl
@[simp] theorem State.setFlag_icount (f : Flag) (v : Bool) :
    (s.setFlag f v).icount = s.icount := rfl
@[simp] theorem State.setFlag_faultRec (f : Flag) (v : Bool) :
    (s.setFlag f v).faultRec = s.faultRec := rfl
@[simp] theorem State.setFlag_scratch (f : Flag) (v : Bool) :
    (s.setFlag f v).scratch = s.scratch := rfl
@[simp] theorem State.setFlag_cur (f : Flag) (v : Bool) : (s.setFlag f v).cur = s.cur := rfl
@[simp] theorem State.setFlag_brpend (f : Flag) (v : Bool) :
    (s.setFlag f v).brpend = s.brpend := rfl
@[simp] theorem State.setFlag_preFlags (f : Flag) (v : Bool) :
    (s.setFlag f v).preFlags = s.preFlags := rfl
@[simp] theorem State.setFlag_prog (f : Flag) (v : Bool) : (s.setFlag f v).prog = s.prog := rfl
@[simp] theorem State.setFlag_progWords (f : Flag) (v : Bool) :
    (s.setFlag f v).progWords = s.progWords := rfl
@[simp] theorem State.setFlag_progDirty (f : Flag) (v : Bool) :
    (s.setFlag f v).progDirty = s.progDirty := rfl
@[simp] theorem State.setFlag_cfg (f : Flag) (v : Bool) : (s.setFlag f v).cfg = s.cfg := rfl
@[simp] theorem State.setFlag_extIn (f : Flag) (v : Bool) : (s.setFlag f v).extIn = s.extIn := rfl
@[simp] theorem State.setFlag_extLog (f : Flag) (v : Bool) :
    (s.setFlag f v).extLog = s.extLog := rfl
@[simp] theorem State.setFlag_draws (f : Flag) (v : Bool) : (s.setFlag f v).draws = s.draws := rfl
@[simp] theorem State.setFlag_schedule (f : Flag) (v : Bool) :
    (s.setFlag f v).schedule = s.schedule := rfl
@[simp] theorem State.setFlag_reply (f : Flag) (v : Bool) : (s.setFlag f v).reply = s.reply := rfl
@[simp] theorem State.setFlag_signal (f : Flag) (v : Bool) :
    (s.setFlag f v).signal = s.signal := rfl

/-! ## `State.drawEo` -/

@[simp] theorem State.drawEo_regs : s.drawEo.regs = s.regs := rfl
@[simp] theorem State.drawEo_ar : s.drawEo.ar = s.ar := rfl
@[simp] theorem State.drawEo_pr : s.drawEo.pr = s.pr := rfl
@[simp] theorem State.drawEo_prp : s.drawEo.prp = s.prp := rfl
@[simp] theorem State.drawEo_pwp : s.drawEo.pwp = s.pwp := rfl
@[simp] theorem State.drawEo_pcs : s.drawEo.pcs = s.pcs := rfl
@[simp] theorem State.drawEo_pcsp : s.drawEo.pcsp = s.pcsp := rfl
@[simp] theorem State.drawEo_flags : s.drawEo.flags = s.flags := rfl
@[simp] theorem State.drawEo_fi : s.drawEo.fi = s.fi := rfl
@[simp] theorem State.drawEo_fo0 : s.drawEo.fo0 = s.fo0 := rfl
@[simp] theorem State.drawEo_fo1 : s.drawEo.fo1 = s.fo1 := rfl
@[simp] theorem State.drawEo_eb : s.drawEo.eb = s.eb := rfl
@[simp] theorem State.drawEo_eo : s.drawEo.eo = s.freeWord := rfl
@[simp] theorem State.drawEo_sp : s.drawEo.sp = s.sp := rfl
@[simp] theorem State.drawEo_mod : s.drawEo.mod = s.mod := rfl
@[simp] theorem State.drawEo_pdr : s.drawEo.pdr = s.pdr := rfl
@[simp] theorem State.drawEo_ddr : s.drawEo.ddr = s.ddr := rfl
@[simp] theorem State.drawEo_pc : s.drawEo.pc = s.pc := rfl
@[simp] theorem State.drawEo_ramA : s.drawEo.ramA = s.ramA := rfl
@[simp] theorem State.drawEo_ramB : s.drawEo.ramB = s.ramB := rfl
@[simp] theorem State.drawEo_cache : s.drawEo.cache = s.cache := rfl
@[simp] theorem State.drawEo_cacheUsed : s.drawEo.cacheUsed = s.cacheUsed := rfl
@[simp] theorem State.drawEo_dstate : s.drawEo.dstate = s.dstate := rfl
@[simp] theorem State.drawEo_icount : s.drawEo.icount = s.icount := rfl
@[simp] theorem State.drawEo_faultRec : s.drawEo.faultRec = s.faultRec := rfl
@[simp] theorem State.drawEo_scratch : s.drawEo.scratch = s.scratch := rfl
@[simp] theorem State.drawEo_cur : s.drawEo.cur = s.cur := rfl
@[simp] theorem State.drawEo_brpend : s.drawEo.brpend = s.brpend := rfl
@[simp] theorem State.drawEo_preFlags : s.drawEo.preFlags = s.preFlags := rfl
@[simp] theorem State.drawEo_prog : s.drawEo.prog = s.prog := rfl
@[simp] theorem State.drawEo_progWords : s.drawEo.progWords = s.progWords := rfl
@[simp] theorem State.drawEo_progDirty : s.drawEo.progDirty = s.progDirty := rfl
@[simp] theorem State.drawEo_cfg : s.drawEo.cfg = s.cfg := rfl
@[simp] theorem State.drawEo_extIn : s.drawEo.extIn = s.extIn := rfl
@[simp] theorem State.drawEo_extLog : s.drawEo.extLog = s.extLog := rfl
@[simp] theorem State.drawEo_draws : s.drawEo.draws = s.draws + 1 := rfl
@[simp] theorem State.drawEo_schedule : s.drawEo.schedule = s.schedule := rfl
@[simp] theorem State.drawEo_reply : s.drawEo.reply = s.reply := rfl
@[simp] theorem State.drawEo_signal : s.drawEo.signal = s.signal := rfl

/-! ## `State.afterExtRead` -/

@[simp] theorem State.afterExtRead_regs (a : Word) : (s.afterExtRead a).regs = s.regs := rfl
@[simp] theorem State.afterExtRead_ar (a : Word) : (s.afterExtRead a).ar = s.ar := rfl
@[simp] theorem State.afterExtRead_pr (a : Word) : (s.afterExtRead a).pr = s.pr := rfl
@[simp] theorem State.afterExtRead_prp (a : Word) : (s.afterExtRead a).prp = s.prp := rfl
@[simp] theorem State.afterExtRead_pwp (a : Word) : (s.afterExtRead a).pwp = s.pwp := rfl
@[simp] theorem State.afterExtRead_pcs (a : Word) : (s.afterExtRead a).pcs = s.pcs := rfl
@[simp] theorem State.afterExtRead_pcsp (a : Word) : (s.afterExtRead a).pcsp = s.pcsp := rfl
@[simp] theorem State.afterExtRead_flags (a : Word) : (s.afterExtRead a).flags = s.flags := rfl
@[simp] theorem State.afterExtRead_fi (a : Word) : (s.afterExtRead a).fi = s.fi := rfl
@[simp] theorem State.afterExtRead_fo0 (a : Word) : (s.afterExtRead a).fo0 = s.fo0 := rfl
@[simp] theorem State.afterExtRead_fo1 (a : Word) : (s.afterExtRead a).fo1 = s.fo1 := rfl
@[simp] theorem State.afterExtRead_eb (a : Word) : (s.afterExtRead a).eb = s.eb := rfl
@[simp] theorem State.afterExtRead_eo (a : Word) :
    (s.afterExtRead a).eo = Config.freeWord (s.draws + 1) := rfl
@[simp] theorem State.afterExtRead_sp (a : Word) : (s.afterExtRead a).sp = s.sp := rfl
@[simp] theorem State.afterExtRead_mod (a : Word) : (s.afterExtRead a).mod = s.mod := rfl
@[simp] theorem State.afterExtRead_pdr (a : Word) : (s.afterExtRead a).pdr = s.pdr := rfl
@[simp] theorem State.afterExtRead_ddr (a : Word) : (s.afterExtRead a).ddr = s.ddr := rfl
@[simp] theorem State.afterExtRead_pc (a : Word) : (s.afterExtRead a).pc = s.pc := rfl
@[simp] theorem State.afterExtRead_ramA (a : Word) : (s.afterExtRead a).ramA = s.ramA := rfl
@[simp] theorem State.afterExtRead_ramB (a : Word) : (s.afterExtRead a).ramB = s.ramB := rfl
@[simp] theorem State.afterExtRead_cache (a : Word) : (s.afterExtRead a).cache = s.cache := rfl
@[simp] theorem State.afterExtRead_cacheUsed (a : Word) :
    (s.afterExtRead a).cacheUsed = s.cacheUsed := rfl
@[simp] theorem State.afterExtRead_dstate (a : Word) : (s.afterExtRead a).dstate = s.dstate := rfl
@[simp] theorem State.afterExtRead_icount (a : Word) : (s.afterExtRead a).icount = s.icount := rfl
@[simp] theorem State.afterExtRead_faultRec (a : Word) :
    (s.afterExtRead a).faultRec = s.faultRec := rfl
@[simp] theorem State.afterExtRead_scratch (a : Word) :
    (s.afterExtRead a).scratch = s.scratch := rfl
@[simp] theorem State.afterExtRead_cur (a : Word) : (s.afterExtRead a).cur = s.cur := rfl
@[simp] theorem State.afterExtRead_brpend (a : Word) : (s.afterExtRead a).brpend = s.brpend := rfl
@[simp] theorem State.afterExtRead_preFlags (a : Word) :
    (s.afterExtRead a).preFlags = s.preFlags := rfl
@[simp] theorem State.afterExtRead_prog (a : Word) : (s.afterExtRead a).prog = s.prog := rfl
@[simp] theorem State.afterExtRead_progWords (a : Word) :
    (s.afterExtRead a).progWords = s.progWords := rfl
@[simp] theorem State.afterExtRead_progDirty (a : Word) :
    (s.afterExtRead a).progDirty = s.progDirty := rfl
@[simp] theorem State.afterExtRead_cfg (a : Word) : (s.afterExtRead a).cfg = s.cfg := rfl
@[simp] theorem State.afterExtRead_extIn (a : Word) : (s.afterExtRead a).extIn = s.extIn.tail := rfl
@[simp] theorem State.afterExtRead_extLog (a : Word) :
    (s.afterExtRead a).extLog = s.extLog ++ [ExtEvent.read a s.extVal] := rfl
@[simp] theorem State.afterExtRead_draws (a : Word) : (s.afterExtRead a).draws = s.draws + 2 := rfl
@[simp] theorem State.afterExtRead_schedule (a : Word) :
    (s.afterExtRead a).schedule = s.schedule := rfl
@[simp] theorem State.afterExtRead_reply (a : Word) : (s.afterExtRead a).reply = s.reply := rfl
@[simp] theorem State.afterExtRead_signal (a : Word) : (s.afterExtRead a).signal = s.signal := rfl

/-! ## `State.afterExtWrite` -/

@[simp] theorem State.afterExtWrite_regs (a v : Word) : (s.afterExtWrite a v).regs = s.regs := rfl
@[simp] theorem State.afterExtWrite_ar (a v : Word) : (s.afterExtWrite a v).ar = s.ar := rfl
@[simp] theorem State.afterExtWrite_pr (a v : Word) : (s.afterExtWrite a v).pr = s.pr := rfl
@[simp] theorem State.afterExtWrite_prp (a v : Word) : (s.afterExtWrite a v).prp = s.prp := rfl
@[simp] theorem State.afterExtWrite_pwp (a v : Word) : (s.afterExtWrite a v).pwp = s.pwp := rfl
@[simp] theorem State.afterExtWrite_pcs (a v : Word) : (s.afterExtWrite a v).pcs = s.pcs := rfl
@[simp] theorem State.afterExtWrite_pcsp (a v : Word) : (s.afterExtWrite a v).pcsp = s.pcsp := rfl
@[simp] theorem State.afterExtWrite_flags (a v : Word) :
    (s.afterExtWrite a v).flags = s.flags := rfl
@[simp] theorem State.afterExtWrite_fi (a v : Word) : (s.afterExtWrite a v).fi = s.fi := rfl
@[simp] theorem State.afterExtWrite_fo0 (a v : Word) : (s.afterExtWrite a v).fo0 = s.fo0 := rfl
@[simp] theorem State.afterExtWrite_fo1 (a v : Word) : (s.afterExtWrite a v).fo1 = s.fo1 := rfl
@[simp] theorem State.afterExtWrite_eb (a v : Word) : (s.afterExtWrite a v).eb = s.eb := rfl
@[simp] theorem State.afterExtWrite_eo (a v : Word) : (s.afterExtWrite a v).eo = s.freeWord := rfl
@[simp] theorem State.afterExtWrite_sp (a v : Word) : (s.afterExtWrite a v).sp = s.sp := rfl
@[simp] theorem State.afterExtWrite_mod (a v : Word) : (s.afterExtWrite a v).mod = s.mod := rfl
@[simp] theorem State.afterExtWrite_pdr (a v : Word) : (s.afterExtWrite a v).pdr = s.pdr := rfl
@[simp] theorem State.afterExtWrite_ddr (a v : Word) : (s.afterExtWrite a v).ddr = s.ddr := rfl
@[simp] theorem State.afterExtWrite_pc (a v : Word) : (s.afterExtWrite a v).pc = s.pc := rfl
@[simp] theorem State.afterExtWrite_ramA (a v : Word) : (s.afterExtWrite a v).ramA = s.ramA := rfl
@[simp] theorem State.afterExtWrite_ramB (a v : Word) : (s.afterExtWrite a v).ramB = s.ramB := rfl
@[simp] theorem State.afterExtWrite_cache (a v : Word) :
    (s.afterExtWrite a v).cache = s.cache := rfl
@[simp] theorem State.afterExtWrite_cacheUsed (a v : Word) :
    (s.afterExtWrite a v).cacheUsed = s.cacheUsed := rfl
@[simp] theorem State.afterExtWrite_dstate (a v : Word) :
    (s.afterExtWrite a v).dstate = s.dstate := rfl
@[simp] theorem State.afterExtWrite_icount (a v : Word) :
    (s.afterExtWrite a v).icount = s.icount := rfl
@[simp] theorem State.afterExtWrite_faultRec (a v : Word) :
    (s.afterExtWrite a v).faultRec = s.faultRec := rfl
@[simp] theorem State.afterExtWrite_scratch (a v : Word) :
    (s.afterExtWrite a v).scratch = s.scratch := rfl
@[simp] theorem State.afterExtWrite_cur (a v : Word) : (s.afterExtWrite a v).cur = s.cur := rfl
@[simp] theorem State.afterExtWrite_brpend (a v : Word) :
    (s.afterExtWrite a v).brpend = s.brpend := rfl
@[simp] theorem State.afterExtWrite_preFlags (a v : Word) :
    (s.afterExtWrite a v).preFlags = s.preFlags := rfl
@[simp] theorem State.afterExtWrite_prog (a v : Word) : (s.afterExtWrite a v).prog = s.prog := rfl
@[simp] theorem State.afterExtWrite_progWords (a v : Word) :
    (s.afterExtWrite a v).progWords = s.progWords := rfl
@[simp] theorem State.afterExtWrite_progDirty (a v : Word) :
    (s.afterExtWrite a v).progDirty = s.progDirty := rfl
@[simp] theorem State.afterExtWrite_cfg (a v : Word) : (s.afterExtWrite a v).cfg = s.cfg := rfl
@[simp] theorem State.afterExtWrite_extIn (a v : Word) :
    (s.afterExtWrite a v).extIn = s.extIn := rfl
@[simp] theorem State.afterExtWrite_extLog (a v : Word) :
    (s.afterExtWrite a v).extLog = s.extLog ++ [ExtEvent.write a v] := rfl
@[simp] theorem State.afterExtWrite_draws (a v : Word) :
    (s.afterExtWrite a v).draws = s.draws + 1 := rfl
@[simp] theorem State.afterExtWrite_schedule (a v : Word) :
    (s.afterExtWrite a v).schedule = s.schedule := rfl
@[simp] theorem State.afterExtWrite_reply (a v : Word) :
    (s.afterExtWrite a v).reply = s.reply := rfl
@[simp] theorem State.afterExtWrite_signal (a v : Word) :
    (s.afterExtWrite a v).signal = s.signal := rfl

/-! ## `State.setScalar` -/

@[simp] theorem State.setScalar_regs (c : Scalar) (v : Word) :
    (s.setScalar c v).regs = s.regs := by cases c <;> rfl
@[simp] theorem State.setScalar_ar (c : Scalar) (v : Word) :
    (s.setScalar c v).ar = s.ar := by cases c <;> rfl
@[simp] theorem State.setScalar_pr (c : Scalar) (v : Word) :
    (s.setScalar c v).pr = s.pr := by cases c <;> rfl
@[simp] theorem State.setScalar_prp (c : Scalar) (v : Word) :
    (s.setScalar c v).prp = s.prp := by cases c <;> rfl
@[simp] theorem State.setScalar_pwp (c : Scalar) (v : Word) :
    (s.setScalar c v).pwp = s.pwp := by cases c <;> rfl
@[simp] theorem State.setScalar_pcs (c : Scalar) (v : Word) :
    (s.setScalar c v).pcs = s.pcs := by cases c <;> rfl
@[simp] theorem State.setScalar_pcsp (c : Scalar) (v : Word) :
    (s.setScalar c v).pcsp = s.pcsp := by cases c <;> rfl
@[simp] theorem State.setScalar_flags (c : Scalar) (v : Word) :
    (s.setScalar c v).flags = s.flags := by cases c <;> rfl
@[simp] theorem State.setScalar_fi (c : Scalar) (v : Word) :
    (s.setScalar c v).fi = s.fi := by cases c <;> rfl
@[simp] theorem State.setScalar_fo0 (c : Scalar) (v : Word) :
    (s.setScalar c v).fo0 = s.fo0 := by cases c <;> rfl
@[simp] theorem State.setScalar_fo1 (c : Scalar) (v : Word) :
    (s.setScalar c v).fo1 = s.fo1 := by cases c <;> rfl
@[simp] theorem State.setScalar_pc (c : Scalar) (v : Word) :
    (s.setScalar c v).pc = s.pc := by cases c <;> rfl
@[simp] theorem State.setScalar_ramA (c : Scalar) (v : Word) :
    (s.setScalar c v).ramA = s.ramA := by cases c <;> rfl
@[simp] theorem State.setScalar_ramB (c : Scalar) (v : Word) :
    (s.setScalar c v).ramB = s.ramB := by cases c <;> rfl
@[simp] theorem State.setScalar_cache (c : Scalar) (v : Word) :
    (s.setScalar c v).cache = s.cache := by cases c <;> rfl
@[simp] theorem State.setScalar_cacheUsed (c : Scalar) (v : Word) :
    (s.setScalar c v).cacheUsed = s.cacheUsed := by cases c <;> rfl
@[simp] theorem State.setScalar_dstate (c : Scalar) (v : Word) :
    (s.setScalar c v).dstate = s.dstate := by cases c <;> rfl
@[simp] theorem State.setScalar_icount (c : Scalar) (v : Word) :
    (s.setScalar c v).icount = s.icount := by cases c <;> rfl
@[simp] theorem State.setScalar_faultRec (c : Scalar) (v : Word) :
    (s.setScalar c v).faultRec = s.faultRec := by cases c <;> rfl
@[simp] theorem State.setScalar_scratch (c : Scalar) (v : Word) :
    (s.setScalar c v).scratch = s.scratch := by cases c <;> rfl
@[simp] theorem State.setScalar_cur (c : Scalar) (v : Word) :
    (s.setScalar c v).cur = s.cur := by cases c <;> rfl
@[simp] theorem State.setScalar_brpend (c : Scalar) (v : Word) :
    (s.setScalar c v).brpend = s.brpend := by cases c <;> rfl
@[simp] theorem State.setScalar_preFlags (c : Scalar) (v : Word) :
    (s.setScalar c v).preFlags = s.preFlags := by cases c <;> rfl
@[simp] theorem State.setScalar_prog (c : Scalar) (v : Word) :
    (s.setScalar c v).prog = s.prog := by cases c <;> rfl
@[simp] theorem State.setScalar_progWords (c : Scalar) (v : Word) :
    (s.setScalar c v).progWords = s.progWords := by cases c <;> rfl
@[simp] theorem State.setScalar_progDirty (c : Scalar) (v : Word) :
    (s.setScalar c v).progDirty = s.progDirty := by cases c <;> rfl
@[simp] theorem State.setScalar_cfg (c : Scalar) (v : Word) :
    (s.setScalar c v).cfg = s.cfg := by cases c <;> rfl
@[simp] theorem State.setScalar_extIn (c : Scalar) (v : Word) :
    (s.setScalar c v).extIn = s.extIn := by cases c <;> rfl
@[simp] theorem State.setScalar_extLog (c : Scalar) (v : Word) :
    (s.setScalar c v).extLog = s.extLog := by cases c <;> rfl
@[simp] theorem State.setScalar_draws (c : Scalar) (v : Word) :
    (s.setScalar c v).draws = s.draws := by cases c <;> rfl
@[simp] theorem State.setScalar_schedule (c : Scalar) (v : Word) :
    (s.setScalar c v).schedule = s.schedule := by cases c <;> rfl
@[simp] theorem State.setScalar_reply (c : Scalar) (v : Word) :
    (s.setScalar c v).reply = s.reply := by cases c <;> rfl
@[simp] theorem State.setScalar_signal (c : Scalar) (v : Word) :
    (s.setScalar c v).signal = s.signal := by cases c <;> rfl

/-! ## `State.setFifo` -/

@[simp] theorem State.setFifo_regs (q : FifoId) (f : Fifo) :
    (s.setFifo q f).regs = s.regs := by cases q <;> rfl
@[simp] theorem State.setFifo_ar (q : FifoId) (f : Fifo) :
    (s.setFifo q f).ar = s.ar := by cases q <;> rfl
@[simp] theorem State.setFifo_pr (q : FifoId) (f : Fifo) :
    (s.setFifo q f).pr = s.pr := by cases q <;> rfl
@[simp] theorem State.setFifo_prp (q : FifoId) (f : Fifo) :
    (s.setFifo q f).prp = s.prp := by cases q <;> rfl
@[simp] theorem State.setFifo_pwp (q : FifoId) (f : Fifo) :
    (s.setFifo q f).pwp = s.pwp := by cases q <;> rfl
@[simp] theorem State.setFifo_pcs (q : FifoId) (f : Fifo) :
    (s.setFifo q f).pcs = s.pcs := by cases q <;> rfl
@[simp] theorem State.setFifo_pcsp (q : FifoId) (f : Fifo) :
    (s.setFifo q f).pcsp = s.pcsp := by cases q <;> rfl
@[simp] theorem State.setFifo_flags (q : FifoId) (f : Fifo) :
    (s.setFifo q f).flags = s.flags := by cases q <;> rfl
@[simp] theorem State.setFifo_eb (q : FifoId) (f : Fifo) :
    (s.setFifo q f).eb = s.eb := by cases q <;> rfl
@[simp] theorem State.setFifo_eo (q : FifoId) (f : Fifo) :
    (s.setFifo q f).eo = s.eo := by cases q <;> rfl
@[simp] theorem State.setFifo_sp (q : FifoId) (f : Fifo) :
    (s.setFifo q f).sp = s.sp := by cases q <;> rfl
@[simp] theorem State.setFifo_mod (q : FifoId) (f : Fifo) :
    (s.setFifo q f).mod = s.mod := by cases q <;> rfl
@[simp] theorem State.setFifo_pdr (q : FifoId) (f : Fifo) :
    (s.setFifo q f).pdr = s.pdr := by cases q <;> rfl
@[simp] theorem State.setFifo_ddr (q : FifoId) (f : Fifo) :
    (s.setFifo q f).ddr = s.ddr := by cases q <;> rfl
@[simp] theorem State.setFifo_pc (q : FifoId) (f : Fifo) :
    (s.setFifo q f).pc = s.pc := by cases q <;> rfl
@[simp] theorem State.setFifo_ramA (q : FifoId) (f : Fifo) :
    (s.setFifo q f).ramA = s.ramA := by cases q <;> rfl
@[simp] theorem State.setFifo_ramB (q : FifoId) (f : Fifo) :
    (s.setFifo q f).ramB = s.ramB := by cases q <;> rfl
@[simp] theorem State.setFifo_cache (q : FifoId) (f : Fifo) :
    (s.setFifo q f).cache = s.cache := by cases q <;> rfl
@[simp] theorem State.setFifo_cacheUsed (q : FifoId) (f : Fifo) :
    (s.setFifo q f).cacheUsed = s.cacheUsed := by cases q <;> rfl
@[simp] theorem State.setFifo_dstate (q : FifoId) (f : Fifo) :
    (s.setFifo q f).dstate = s.dstate := by cases q <;> rfl
@[simp] theorem State.setFifo_icount (q : FifoId) (f : Fifo) :
    (s.setFifo q f).icount = s.icount := by cases q <;> rfl
@[simp] theorem State.setFifo_faultRec (q : FifoId) (f : Fifo) :
    (s.setFifo q f).faultRec = s.faultRec := by cases q <;> rfl
@[simp] theorem State.setFifo_scratch (q : FifoId) (f : Fifo) :
    (s.setFifo q f).scratch = s.scratch := by cases q <;> rfl
@[simp] theorem State.setFifo_cur (q : FifoId) (f : Fifo) :
    (s.setFifo q f).cur = s.cur := by cases q <;> rfl
@[simp] theorem State.setFifo_brpend (q : FifoId) (f : Fifo) :
    (s.setFifo q f).brpend = s.brpend := by cases q <;> rfl
@[simp] theorem State.setFifo_preFlags (q : FifoId) (f : Fifo) :
    (s.setFifo q f).preFlags = s.preFlags := by cases q <;> rfl
@[simp] theorem State.setFifo_prog (q : FifoId) (f : Fifo) :
    (s.setFifo q f).prog = s.prog := by cases q <;> rfl
@[simp] theorem State.setFifo_progWords (q : FifoId) (f : Fifo) :
    (s.setFifo q f).progWords = s.progWords := by cases q <;> rfl
@[simp] theorem State.setFifo_progDirty (q : FifoId) (f : Fifo) :
    (s.setFifo q f).progDirty = s.progDirty := by cases q <;> rfl
@[simp] theorem State.setFifo_cfg (q : FifoId) (f : Fifo) :
    (s.setFifo q f).cfg = s.cfg := by cases q <;> rfl
@[simp] theorem State.setFifo_extIn (q : FifoId) (f : Fifo) :
    (s.setFifo q f).extIn = s.extIn := by cases q <;> rfl
@[simp] theorem State.setFifo_extLog (q : FifoId) (f : Fifo) :
    (s.setFifo q f).extLog = s.extLog := by cases q <;> rfl
@[simp] theorem State.setFifo_draws (q : FifoId) (f : Fifo) :
    (s.setFifo q f).draws = s.draws := by cases q <;> rfl
@[simp] theorem State.setFifo_schedule (q : FifoId) (f : Fifo) :
    (s.setFifo q f).schedule = s.schedule := by cases q <;> rfl
@[simp] theorem State.setFifo_reply (q : FifoId) (f : Fifo) :
    (s.setFifo q f).reply = s.reply := by cases q <;> rfl
@[simp] theorem State.setFifo_signal (q : FifoId) (f : Fifo) :
    (s.setFifo q f).signal = s.signal := by cases q <;> rfl

/-! ## `State.afterLoad` -/

@[simp] theorem State.afterLoad_regs (p : Place) :
    (s.afterLoad p).regs = s.regs := by cases p <;> rfl
@[simp] theorem State.afterLoad_ar (p : Place) : (s.afterLoad p).ar = s.ar := by cases p <;> rfl
@[simp] theorem State.afterLoad_pr (p : Place) : (s.afterLoad p).pr = s.pr := by cases p <;> rfl
@[simp] theorem State.afterLoad_prp (p : Place) : (s.afterLoad p).prp = s.prp := by cases p <;> rfl
@[simp] theorem State.afterLoad_pwp (p : Place) : (s.afterLoad p).pwp = s.pwp := by cases p <;> rfl
@[simp] theorem State.afterLoad_pcs (p : Place) : (s.afterLoad p).pcs = s.pcs := by cases p <;> rfl
@[simp] theorem State.afterLoad_pcsp (p : Place) :
    (s.afterLoad p).pcsp = s.pcsp := by cases p <;> rfl
@[simp] theorem State.afterLoad_flags (p : Place) :
    (s.afterLoad p).flags = s.flags := by cases p <;> rfl
@[simp] theorem State.afterLoad_fi (p : Place) : (s.afterLoad p).fi = s.fi := by cases p <;> rfl
@[simp] theorem State.afterLoad_fo0 (p : Place) : (s.afterLoad p).fo0 = s.fo0 := by cases p <;> rfl
@[simp] theorem State.afterLoad_fo1 (p : Place) : (s.afterLoad p).fo1 = s.fo1 := by cases p <;> rfl
@[simp] theorem State.afterLoad_eb (p : Place) : (s.afterLoad p).eb = s.eb := by cases p <;> rfl
@[simp] theorem State.afterLoad_sp (p : Place) : (s.afterLoad p).sp = s.sp := by cases p <;> rfl
@[simp] theorem State.afterLoad_mod (p : Place) : (s.afterLoad p).mod = s.mod := by cases p <;> rfl
@[simp] theorem State.afterLoad_pdr (p : Place) : (s.afterLoad p).pdr = s.pdr := by cases p <;> rfl
@[simp] theorem State.afterLoad_ddr (p : Place) : (s.afterLoad p).ddr = s.ddr := by cases p <;> rfl
@[simp] theorem State.afterLoad_pc (p : Place) : (s.afterLoad p).pc = s.pc := by cases p <;> rfl
@[simp] theorem State.afterLoad_ramA (p : Place) :
    (s.afterLoad p).ramA = s.ramA := by cases p <;> rfl
@[simp] theorem State.afterLoad_ramB (p : Place) :
    (s.afterLoad p).ramB = s.ramB := by cases p <;> rfl
@[simp] theorem State.afterLoad_cache (p : Place) :
    (s.afterLoad p).cache = s.cache := by cases p <;> rfl
@[simp] theorem State.afterLoad_cacheUsed (p : Place) :
    (s.afterLoad p).cacheUsed = s.cacheUsed := by cases p <;> rfl
@[simp] theorem State.afterLoad_dstate (p : Place) :
    (s.afterLoad p).dstate = s.dstate := by cases p <;> rfl
@[simp] theorem State.afterLoad_icount (p : Place) :
    (s.afterLoad p).icount = s.icount := by cases p <;> rfl
@[simp] theorem State.afterLoad_faultRec (p : Place) :
    (s.afterLoad p).faultRec = s.faultRec := by cases p <;> rfl
@[simp] theorem State.afterLoad_scratch (p : Place) :
    (s.afterLoad p).scratch = s.scratch := by cases p <;> rfl
@[simp] theorem State.afterLoad_cur (p : Place) : (s.afterLoad p).cur = s.cur := by cases p <;> rfl
@[simp] theorem State.afterLoad_brpend (p : Place) :
    (s.afterLoad p).brpend = s.brpend := by cases p <;> rfl
@[simp] theorem State.afterLoad_preFlags (p : Place) :
    (s.afterLoad p).preFlags = s.preFlags := by cases p <;> rfl
@[simp] theorem State.afterLoad_prog (p : Place) :
    (s.afterLoad p).prog = s.prog := by cases p <;> rfl
@[simp] theorem State.afterLoad_progWords (p : Place) :
    (s.afterLoad p).progWords = s.progWords := by cases p <;> rfl
@[simp] theorem State.afterLoad_progDirty (p : Place) :
    (s.afterLoad p).progDirty = s.progDirty := by cases p <;> rfl
@[simp] theorem State.afterLoad_cfg (p : Place) : (s.afterLoad p).cfg = s.cfg := by cases p <;> rfl
@[simp] theorem State.afterLoad_schedule (p : Place) :
    (s.afterLoad p).schedule = s.schedule := by cases p <;> rfl
@[simp] theorem State.afterLoad_reply (p : Place) :
    (s.afterLoad p).reply = s.reply := by cases p <;> rfl
@[simp] theorem State.afterLoad_signal (p : Place) :
    (s.afterLoad p).signal = s.signal := by cases p <;> rfl

/-! ## `State.store` -/

@[simp] theorem State.store_regs (v : Word) (p : Place) :
    (s.store v p).regs = s.regs := by cases p <;> rfl
@[simp] theorem State.store_ar (v : Word) (p : Place) :
    (s.store v p).ar = s.ar := by cases p <;> rfl
@[simp] theorem State.store_pr (v : Word) (p : Place) :
    (s.store v p).pr = s.pr := by cases p <;> rfl
@[simp] theorem State.store_prp (v : Word) (p : Place) :
    (s.store v p).prp = s.prp := by cases p <;> rfl
@[simp] theorem State.store_pwp (v : Word) (p : Place) :
    (s.store v p).pwp = s.pwp := by cases p <;> rfl
@[simp] theorem State.store_pcs (v : Word) (p : Place) :
    (s.store v p).pcs = s.pcs := by cases p <;> rfl
@[simp] theorem State.store_pcsp (v : Word) (p : Place) :
    (s.store v p).pcsp = s.pcsp := by cases p <;> rfl
@[simp] theorem State.store_flags (v : Word) (p : Place) :
    (s.store v p).flags = s.flags := by cases p <;> rfl
@[simp] theorem State.store_fi (v : Word) (p : Place) :
    (s.store v p).fi = s.fi := by cases p <;> rfl
@[simp] theorem State.store_fo0 (v : Word) (p : Place) :
    (s.store v p).fo0 = s.fo0 := by cases p <;> rfl
@[simp] theorem State.store_fo1 (v : Word) (p : Place) :
    (s.store v p).fo1 = s.fo1 := by cases p <;> rfl
@[simp] theorem State.store_eb (v : Word) (p : Place) :
    (s.store v p).eb = s.eb := by cases p <;> rfl
@[simp] theorem State.store_sp (v : Word) (p : Place) :
    (s.store v p).sp = s.sp := by cases p <;> rfl
@[simp] theorem State.store_mod (v : Word) (p : Place) :
    (s.store v p).mod = s.mod := by cases p <;> rfl
@[simp] theorem State.store_pdr (v : Word) (p : Place) :
    (s.store v p).pdr = s.pdr := by cases p <;> rfl
@[simp] theorem State.store_ddr (v : Word) (p : Place) :
    (s.store v p).ddr = s.ddr := by cases p <;> rfl
@[simp] theorem State.store_pc (v : Word) (p : Place) :
    (s.store v p).pc = s.pc := by cases p <;> rfl
@[simp] theorem State.store_cache (v : Word) (p : Place) :
    (s.store v p).cache = s.cache := by cases p <;> rfl
@[simp] theorem State.store_cacheUsed (v : Word) (p : Place) :
    (s.store v p).cacheUsed = s.cacheUsed := by cases p <;> rfl
@[simp] theorem State.store_dstate (v : Word) (p : Place) :
    (s.store v p).dstate = s.dstate := by cases p <;> rfl
@[simp] theorem State.store_icount (v : Word) (p : Place) :
    (s.store v p).icount = s.icount := by cases p <;> rfl
@[simp] theorem State.store_faultRec (v : Word) (p : Place) :
    (s.store v p).faultRec = s.faultRec := by cases p <;> rfl
@[simp] theorem State.store_scratch (v : Word) (p : Place) :
    (s.store v p).scratch = s.scratch := by cases p <;> rfl
@[simp] theorem State.store_cur (v : Word) (p : Place) :
    (s.store v p).cur = s.cur := by cases p <;> rfl
@[simp] theorem State.store_brpend (v : Word) (p : Place) :
    (s.store v p).brpend = s.brpend := by cases p <;> rfl
@[simp] theorem State.store_preFlags (v : Word) (p : Place) :
    (s.store v p).preFlags = s.preFlags := by cases p <;> rfl
@[simp] theorem State.store_prog (v : Word) (p : Place) :
    (s.store v p).prog = s.prog := by cases p <;> rfl
@[simp] theorem State.store_progWords (v : Word) (p : Place) :
    (s.store v p).progWords = s.progWords := by cases p <;> rfl
@[simp] theorem State.store_progDirty (v : Word) (p : Place) :
    (s.store v p).progDirty = s.progDirty := by cases p <;> rfl
@[simp] theorem State.store_cfg (v : Word) (p : Place) :
    (s.store v p).cfg = s.cfg := by cases p <;> rfl
@[simp] theorem State.store_extIn (v : Word) (p : Place) :
    (s.store v p).extIn = s.extIn := by cases p <;> rfl
@[simp] theorem State.store_schedule (v : Word) (p : Place) :
    (s.store v p).schedule = s.schedule := by cases p <;> rfl
@[simp] theorem State.store_reply (v : Word) (p : Place) :
    (s.store v p).reply = s.reply := by cases p <;> rfl
@[simp] theorem State.store_signal (v : Word) (p : Place) :
    (s.store v p).signal = s.signal := by cases p <;> rfl

/-! ## `State.takeFault` -/

@[simp] theorem State.takeFault_regs (k : FaultKind) (info : Option Nat) :
    (s.takeFault k info).regs = s.regs := rfl
@[simp] theorem State.takeFault_ar (k : FaultKind) (info : Option Nat) :
    (s.takeFault k info).ar = s.ar := rfl
@[simp] theorem State.takeFault_pr (k : FaultKind) (info : Option Nat) :
    (s.takeFault k info).pr = s.pr := rfl
@[simp] theorem State.takeFault_prp (k : FaultKind) (info : Option Nat) :
    (s.takeFault k info).prp = s.prp := rfl
@[simp] theorem State.takeFault_pwp (k : FaultKind) (info : Option Nat) :
    (s.takeFault k info).pwp = s.pwp := rfl
@[simp] theorem State.takeFault_pcs (k : FaultKind) (info : Option Nat) :
    (s.takeFault k info).pcs = s.pcs := rfl
@[simp] theorem State.takeFault_pcsp (k : FaultKind) (info : Option Nat) :
    (s.takeFault k info).pcsp = s.pcsp := rfl
@[simp] theorem State.takeFault_flags (k : FaultKind) (info : Option Nat) :
    (s.takeFault k info).flags = s.flags := rfl
@[simp] theorem State.takeFault_fi (k : FaultKind) (info : Option Nat) :
    (s.takeFault k info).fi = s.fi := rfl
@[simp] theorem State.takeFault_fo0 (k : FaultKind) (info : Option Nat) :
    (s.takeFault k info).fo0 = s.fo0 := rfl
@[simp] theorem State.takeFault_fo1 (k : FaultKind) (info : Option Nat) :
    (s.takeFault k info).fo1 = s.fo1 := rfl
@[simp] theorem State.takeFault_eb (k : FaultKind) (info : Option Nat) :
    (s.takeFault k info).eb = s.eb := rfl
@[simp] theorem State.takeFault_eo (k : FaultKind) (info : Option Nat) :
    (s.takeFault k info).eo = s.eo := rfl
@[simp] theorem State.takeFault_sp (k : FaultKind) (info : Option Nat) :
    (s.takeFault k info).sp = s.sp := rfl
@[simp] theorem State.takeFault_mod (k : FaultKind) (info : Option Nat) :
    (s.takeFault k info).mod = s.mod := rfl
@[simp] theorem State.takeFault_pdr (k : FaultKind) (info : Option Nat) :
    (s.takeFault k info).pdr = s.pdr := rfl
@[simp] theorem State.takeFault_ddr (k : FaultKind) (info : Option Nat) :
    (s.takeFault k info).ddr = s.ddr := rfl
@[simp] theorem State.takeFault_pc (k : FaultKind) (info : Option Nat) :
    (s.takeFault k info).pc = s.pc := rfl
@[simp] theorem State.takeFault_ramA (k : FaultKind) (info : Option Nat) :
    (s.takeFault k info).ramA = s.ramA := rfl
@[simp] theorem State.takeFault_ramB (k : FaultKind) (info : Option Nat) :
    (s.takeFault k info).ramB = s.ramB := rfl
@[simp] theorem State.takeFault_cache (k : FaultKind) (info : Option Nat) :
    (s.takeFault k info).cache = s.cache := rfl
@[simp] theorem State.takeFault_cacheUsed (k : FaultKind) (info : Option Nat) :
    (s.takeFault k info).cacheUsed = s.cacheUsed := rfl
@[simp] theorem State.takeFault_dstate (k : FaultKind) (info : Option Nat) :
    (s.takeFault k info).dstate = .fault := rfl
@[simp] theorem State.takeFault_icount (k : FaultKind) (info : Option Nat) :
    (s.takeFault k info).icount = s.icount := rfl
@[simp] theorem State.takeFault_faultRec (k : FaultKind) (info : Option Nat) :
    (s.takeFault k info).faultRec = some (s.faultInfo k info) := rfl
@[simp] theorem State.takeFault_scratch (k : FaultKind) (info : Option Nat) :
    (s.takeFault k info).scratch = [] := rfl
@[simp] theorem State.takeFault_cur (k : FaultKind) (info : Option Nat) :
    (s.takeFault k info).cur = none := rfl
@[simp] theorem State.takeFault_brpend (k : FaultKind) (info : Option Nat) :
    (s.takeFault k info).brpend = none := rfl
@[simp] theorem State.takeFault_preFlags (k : FaultKind) (info : Option Nat) :
    (s.takeFault k info).preFlags = s.preFlags := rfl
@[simp] theorem State.takeFault_prog (k : FaultKind) (info : Option Nat) :
    (s.takeFault k info).prog = s.prog := rfl
@[simp] theorem State.takeFault_progWords (k : FaultKind) (info : Option Nat) :
    (s.takeFault k info).progWords = s.progWords := rfl
@[simp] theorem State.takeFault_progDirty (k : FaultKind) (info : Option Nat) :
    (s.takeFault k info).progDirty = s.progDirty := rfl
@[simp] theorem State.takeFault_cfg (k : FaultKind) (info : Option Nat) :
    (s.takeFault k info).cfg = s.cfg := rfl
@[simp] theorem State.takeFault_extIn (k : FaultKind) (info : Option Nat) :
    (s.takeFault k info).extIn = s.extIn := rfl
@[simp] theorem State.takeFault_extLog (k : FaultKind) (info : Option Nat) :
    (s.takeFault k info).extLog = s.extLog := rfl
@[simp] theorem State.takeFault_draws (k : FaultKind) (info : Option Nat) :
    (s.takeFault k info).draws = s.draws := rfl
@[simp] theorem State.takeFault_schedule (k : FaultKind) (info : Option Nat) :
    (s.takeFault k info).schedule = s.schedule := rfl
@[simp] theorem State.takeFault_reply (k : FaultKind) (info : Option Nat) :
    (s.takeFault k info).reply = .fault (s.faultInfo k info) := rfl
@[simp] theorem State.takeFault_signal (k : FaultKind) (info : Option Nat) :
    (s.takeFault k info).signal = faultSignal k s.signal := rfl

/-! ## `State.setPending` -/

@[simp] theorem State.setPending_regs (b : Bool) (t : PcWord) :
    (s.setPending b t).regs = s.regs := rfl
@[simp] theorem State.setPending_ar (b : Bool) (t : PcWord) : (s.setPending b t).ar = s.ar := rfl
@[simp] theorem State.setPending_pr (b : Bool) (t : PcWord) : (s.setPending b t).pr = s.pr := rfl
@[simp] theorem State.setPending_prp (b : Bool) (t : PcWord) : (s.setPending b t).prp = s.prp := rfl
@[simp] theorem State.setPending_pwp (b : Bool) (t : PcWord) : (s.setPending b t).pwp = s.pwp := rfl
@[simp] theorem State.setPending_pcs (b : Bool) (t : PcWord) : (s.setPending b t).pcs = s.pcs := rfl
@[simp] theorem State.setPending_pcsp (b : Bool) (t : PcWord) :
    (s.setPending b t).pcsp = s.pcsp := rfl
@[simp] theorem State.setPending_flags (b : Bool) (t : PcWord) :
    (s.setPending b t).flags = s.flags := rfl
@[simp] theorem State.setPending_fi (b : Bool) (t : PcWord) : (s.setPending b t).fi = s.fi := rfl
@[simp] theorem State.setPending_fo0 (b : Bool) (t : PcWord) : (s.setPending b t).fo0 = s.fo0 := rfl
@[simp] theorem State.setPending_fo1 (b : Bool) (t : PcWord) : (s.setPending b t).fo1 = s.fo1 := rfl
@[simp] theorem State.setPending_eb (b : Bool) (t : PcWord) : (s.setPending b t).eb = s.eb := rfl
@[simp] theorem State.setPending_eo (b : Bool) (t : PcWord) : (s.setPending b t).eo = s.eo := rfl
@[simp] theorem State.setPending_sp (b : Bool) (t : PcWord) : (s.setPending b t).sp = s.sp := rfl
@[simp] theorem State.setPending_mod (b : Bool) (t : PcWord) : (s.setPending b t).mod = s.mod := rfl
@[simp] theorem State.setPending_pdr (b : Bool) (t : PcWord) : (s.setPending b t).pdr = s.pdr := rfl
@[simp] theorem State.setPending_ddr (b : Bool) (t : PcWord) : (s.setPending b t).ddr = s.ddr := rfl
@[simp] theorem State.setPending_pc (b : Bool) (t : PcWord) : (s.setPending b t).pc = s.pc := rfl
@[simp] theorem State.setPending_ramA (b : Bool) (t : PcWord) :
    (s.setPending b t).ramA = s.ramA := rfl
@[simp] theorem State.setPending_ramB (b : Bool) (t : PcWord) :
    (s.setPending b t).ramB = s.ramB := rfl
@[simp] theorem State.setPending_cache (b : Bool) (t : PcWord) :
    (s.setPending b t).cache = s.cache := rfl
@[simp] theorem State.setPending_cacheUsed (b : Bool) (t : PcWord) :
    (s.setPending b t).cacheUsed = s.cacheUsed := rfl
@[simp] theorem State.setPending_dstate (b : Bool) (t : PcWord) :
    (s.setPending b t).dstate = s.dstate := rfl
@[simp] theorem State.setPending_icount (b : Bool) (t : PcWord) :
    (s.setPending b t).icount = s.icount := rfl
@[simp] theorem State.setPending_faultRec (b : Bool) (t : PcWord) :
    (s.setPending b t).faultRec = s.faultRec := rfl
@[simp] theorem State.setPending_scratch (b : Bool) (t : PcWord) :
    (s.setPending b t).scratch = s.scratch := rfl
@[simp] theorem State.setPending_cur (b : Bool) (t : PcWord) : (s.setPending b t).cur = s.cur := rfl
@[simp] theorem State.setPending_brpend (b : Bool) (t : PcWord) :
    (s.setPending b t).brpend = some ⟨b, t⟩ := rfl
@[simp] theorem State.setPending_preFlags (b : Bool) (t : PcWord) :
    (s.setPending b t).preFlags = s.preFlags := rfl
@[simp] theorem State.setPending_prog (b : Bool) (t : PcWord) :
    (s.setPending b t).prog = s.prog := rfl
@[simp] theorem State.setPending_progWords (b : Bool) (t : PcWord) :
    (s.setPending b t).progWords = s.progWords := rfl
@[simp] theorem State.setPending_progDirty (b : Bool) (t : PcWord) :
    (s.setPending b t).progDirty = s.progDirty := rfl
@[simp] theorem State.setPending_cfg (b : Bool) (t : PcWord) : (s.setPending b t).cfg = s.cfg := rfl
@[simp] theorem State.setPending_extIn (b : Bool) (t : PcWord) :
    (s.setPending b t).extIn = s.extIn := rfl
@[simp] theorem State.setPending_extLog (b : Bool) (t : PcWord) :
    (s.setPending b t).extLog = s.extLog := rfl
@[simp] theorem State.setPending_draws (b : Bool) (t : PcWord) :
    (s.setPending b t).draws = s.draws := rfl
@[simp] theorem State.setPending_schedule (b : Bool) (t : PcWord) :
    (s.setPending b t).schedule = s.schedule := rfl
@[simp] theorem State.setPending_reply (b : Bool) (t : PcWord) :
    (s.setPending b t).reply = s.reply := rfl
@[simp] theorem State.setPending_signal (b : Bool) (t : PcWord) :
    (s.setPending b t).signal = s.signal := rfl

/-! ## `State.afterAluSrc2` -/

@[simp] theorem State.afterAluSrc2_regs (x : AluSrc2) :
    (s.afterAluSrc2 x).regs = s.regs := by cases x <;> rfl
@[simp] theorem State.afterAluSrc2_ar (x : AluSrc2) :
    (s.afterAluSrc2 x).ar = s.ar := by cases x <;> rfl
@[simp] theorem State.afterAluSrc2_pr (x : AluSrc2) :
    (s.afterAluSrc2 x).pr = s.pr := by cases x <;> rfl
@[simp] theorem State.afterAluSrc2_pwp (x : AluSrc2) :
    (s.afterAluSrc2 x).pwp = s.pwp := by cases x <;> rfl
@[simp] theorem State.afterAluSrc2_pcs (x : AluSrc2) :
    (s.afterAluSrc2 x).pcs = s.pcs := by cases x <;> rfl
@[simp] theorem State.afterAluSrc2_pcsp (x : AluSrc2) :
    (s.afterAluSrc2 x).pcsp = s.pcsp := by cases x <;> rfl
@[simp] theorem State.afterAluSrc2_flags (x : AluSrc2) :
    (s.afterAluSrc2 x).flags = s.flags := by cases x <;> rfl
@[simp] theorem State.afterAluSrc2_fi (x : AluSrc2) :
    (s.afterAluSrc2 x).fi = s.fi := by cases x <;> rfl
@[simp] theorem State.afterAluSrc2_fo0 (x : AluSrc2) :
    (s.afterAluSrc2 x).fo0 = s.fo0 := by cases x <;> rfl
@[simp] theorem State.afterAluSrc2_fo1 (x : AluSrc2) :
    (s.afterAluSrc2 x).fo1 = s.fo1 := by cases x <;> rfl
@[simp] theorem State.afterAluSrc2_eb (x : AluSrc2) :
    (s.afterAluSrc2 x).eb = s.eb := by cases x <;> rfl
@[simp] theorem State.afterAluSrc2_eo (x : AluSrc2) :
    (s.afterAluSrc2 x).eo = s.eo := by cases x <;> rfl
@[simp] theorem State.afterAluSrc2_sp (x : AluSrc2) :
    (s.afterAluSrc2 x).sp = s.sp := by cases x <;> rfl
@[simp] theorem State.afterAluSrc2_mod (x : AluSrc2) :
    (s.afterAluSrc2 x).mod = s.mod := by cases x <;> rfl
@[simp] theorem State.afterAluSrc2_pdr (x : AluSrc2) :
    (s.afterAluSrc2 x).pdr = s.pdr := by cases x <;> rfl
@[simp] theorem State.afterAluSrc2_ddr (x : AluSrc2) :
    (s.afterAluSrc2 x).ddr = s.ddr := by cases x <;> rfl
@[simp] theorem State.afterAluSrc2_pc (x : AluSrc2) :
    (s.afterAluSrc2 x).pc = s.pc := by cases x <;> rfl
@[simp] theorem State.afterAluSrc2_ramA (x : AluSrc2) :
    (s.afterAluSrc2 x).ramA = s.ramA := by cases x <;> rfl
@[simp] theorem State.afterAluSrc2_ramB (x : AluSrc2) :
    (s.afterAluSrc2 x).ramB = s.ramB := by cases x <;> rfl
@[simp] theorem State.afterAluSrc2_cache (x : AluSrc2) :
    (s.afterAluSrc2 x).cache = s.cache := by cases x <;> rfl
@[simp] theorem State.afterAluSrc2_cacheUsed (x : AluSrc2) :
    (s.afterAluSrc2 x).cacheUsed = s.cacheUsed := by cases x <;> rfl
@[simp] theorem State.afterAluSrc2_dstate (x : AluSrc2) :
    (s.afterAluSrc2 x).dstate = s.dstate := by cases x <;> rfl
@[simp] theorem State.afterAluSrc2_icount (x : AluSrc2) :
    (s.afterAluSrc2 x).icount = s.icount := by cases x <;> rfl
@[simp] theorem State.afterAluSrc2_faultRec (x : AluSrc2) :
    (s.afterAluSrc2 x).faultRec = s.faultRec := by cases x <;> rfl
@[simp] theorem State.afterAluSrc2_scratch (x : AluSrc2) :
    (s.afterAluSrc2 x).scratch = s.scratch := by cases x <;> rfl
@[simp] theorem State.afterAluSrc2_cur (x : AluSrc2) :
    (s.afterAluSrc2 x).cur = s.cur := by cases x <;> rfl
@[simp] theorem State.afterAluSrc2_brpend (x : AluSrc2) :
    (s.afterAluSrc2 x).brpend = s.brpend := by cases x <;> rfl
@[simp] theorem State.afterAluSrc2_preFlags (x : AluSrc2) :
    (s.afterAluSrc2 x).preFlags = s.preFlags := by cases x <;> rfl
@[simp] theorem State.afterAluSrc2_prog (x : AluSrc2) :
    (s.afterAluSrc2 x).prog = s.prog := by cases x <;> rfl
@[simp] theorem State.afterAluSrc2_progWords (x : AluSrc2) :
    (s.afterAluSrc2 x).progWords = s.progWords := by cases x <;> rfl
@[simp] theorem State.afterAluSrc2_progDirty (x : AluSrc2) :
    (s.afterAluSrc2 x).progDirty = s.progDirty := by cases x <;> rfl
@[simp] theorem State.afterAluSrc2_cfg (x : AluSrc2) :
    (s.afterAluSrc2 x).cfg = s.cfg := by cases x <;> rfl
@[simp] theorem State.afterAluSrc2_extIn (x : AluSrc2) :
    (s.afterAluSrc2 x).extIn = s.extIn := by cases x <;> rfl
@[simp] theorem State.afterAluSrc2_extLog (x : AluSrc2) :
    (s.afterAluSrc2 x).extLog = s.extLog := by cases x <;> rfl
@[simp] theorem State.afterAluSrc2_draws (x : AluSrc2) :
    (s.afterAluSrc2 x).draws = s.draws := by cases x <;> rfl
@[simp] theorem State.afterAluSrc2_schedule (x : AluSrc2) :
    (s.afterAluSrc2 x).schedule = s.schedule := by cases x <;> rfl
@[simp] theorem State.afterAluSrc2_reply (x : AluSrc2) :
    (s.afterAluSrc2 x).reply = s.reply := by cases x <;> rfl
@[simp] theorem State.afterAluSrc2_signal (x : AluSrc2) :
    (s.afterAluSrc2 x).signal = s.signal := by cases x <;> rfl

/-! ## `State.aluWrite` -/

@[simp] theorem State.aluWrite_regs (v : Word) (d : AluDst) :
    (s.aluWrite v d).regs = s.regs := by cases d <;> rfl
@[simp] theorem State.aluWrite_ar (v : Word) (d : AluDst) :
    (s.aluWrite v d).ar = s.ar := by cases d <;> rfl
@[simp] theorem State.aluWrite_prp (v : Word) (d : AluDst) :
    (s.aluWrite v d).prp = s.prp := by cases d <;> rfl
@[simp] theorem State.aluWrite_pcs (v : Word) (d : AluDst) :
    (s.aluWrite v d).pcs = s.pcs := by cases d <;> rfl
@[simp] theorem State.aluWrite_pcsp (v : Word) (d : AluDst) :
    (s.aluWrite v d).pcsp = s.pcsp := by cases d <;> rfl
@[simp] theorem State.aluWrite_flags (v : Word) (d : AluDst) :
    (s.aluWrite v d).flags = s.flags := by cases d <;> rfl
@[simp] theorem State.aluWrite_fi (v : Word) (d : AluDst) :
    (s.aluWrite v d).fi = s.fi := by cases d <;> rfl
@[simp] theorem State.aluWrite_fo0 (v : Word) (d : AluDst) :
    (s.aluWrite v d).fo0 = s.fo0 := by cases d <;> rfl
@[simp] theorem State.aluWrite_fo1 (v : Word) (d : AluDst) :
    (s.aluWrite v d).fo1 = s.fo1 := by cases d <;> rfl
@[simp] theorem State.aluWrite_eb (v : Word) (d : AluDst) :
    (s.aluWrite v d).eb = s.eb := by cases d <;> rfl
@[simp] theorem State.aluWrite_eo (v : Word) (d : AluDst) :
    (s.aluWrite v d).eo = s.eo := by cases d <;> rfl
@[simp] theorem State.aluWrite_sp (v : Word) (d : AluDst) :
    (s.aluWrite v d).sp = s.sp := by cases d <;> rfl
@[simp] theorem State.aluWrite_mod (v : Word) (d : AluDst) :
    (s.aluWrite v d).mod = s.mod := by cases d <;> rfl
@[simp] theorem State.aluWrite_pdr (v : Word) (d : AluDst) :
    (s.aluWrite v d).pdr = s.pdr := by cases d <;> rfl
@[simp] theorem State.aluWrite_ddr (v : Word) (d : AluDst) :
    (s.aluWrite v d).ddr = s.ddr := by cases d <;> rfl
@[simp] theorem State.aluWrite_pc (v : Word) (d : AluDst) :
    (s.aluWrite v d).pc = s.pc := by cases d <;> rfl
@[simp] theorem State.aluWrite_ramA (v : Word) (d : AluDst) :
    (s.aluWrite v d).ramA = s.ramA := by cases d <;> rfl
@[simp] theorem State.aluWrite_ramB (v : Word) (d : AluDst) :
    (s.aluWrite v d).ramB = s.ramB := by cases d <;> rfl
@[simp] theorem State.aluWrite_cache (v : Word) (d : AluDst) :
    (s.aluWrite v d).cache = s.cache := by cases d <;> rfl
@[simp] theorem State.aluWrite_cacheUsed (v : Word) (d : AluDst) :
    (s.aluWrite v d).cacheUsed = s.cacheUsed := by cases d <;> rfl
@[simp] theorem State.aluWrite_dstate (v : Word) (d : AluDst) :
    (s.aluWrite v d).dstate = s.dstate := by cases d <;> rfl
@[simp] theorem State.aluWrite_icount (v : Word) (d : AluDst) :
    (s.aluWrite v d).icount = s.icount := by cases d <;> rfl
@[simp] theorem State.aluWrite_faultRec (v : Word) (d : AluDst) :
    (s.aluWrite v d).faultRec = s.faultRec := by cases d <;> rfl
@[simp] theorem State.aluWrite_cur (v : Word) (d : AluDst) :
    (s.aluWrite v d).cur = s.cur := by cases d <;> rfl
@[simp] theorem State.aluWrite_brpend (v : Word) (d : AluDst) :
    (s.aluWrite v d).brpend = s.brpend := by cases d <;> rfl
@[simp] theorem State.aluWrite_preFlags (v : Word) (d : AluDst) :
    (s.aluWrite v d).preFlags = s.preFlags := by cases d <;> rfl
@[simp] theorem State.aluWrite_prog (v : Word) (d : AluDst) :
    (s.aluWrite v d).prog = s.prog := by cases d <;> rfl
@[simp] theorem State.aluWrite_progWords (v : Word) (d : AluDst) :
    (s.aluWrite v d).progWords = s.progWords := by cases d <;> rfl
@[simp] theorem State.aluWrite_progDirty (v : Word) (d : AluDst) :
    (s.aluWrite v d).progDirty = s.progDirty := by cases d <;> rfl
@[simp] theorem State.aluWrite_cfg (v : Word) (d : AluDst) :
    (s.aluWrite v d).cfg = s.cfg := by cases d <;> rfl
@[simp] theorem State.aluWrite_extIn (v : Word) (d : AluDst) :
    (s.aluWrite v d).extIn = s.extIn := by cases d <;> rfl
@[simp] theorem State.aluWrite_extLog (v : Word) (d : AluDst) :
    (s.aluWrite v d).extLog = s.extLog := by cases d <;> rfl
@[simp] theorem State.aluWrite_draws (v : Word) (d : AluDst) :
    (s.aluWrite v d).draws = s.draws := by cases d <;> rfl
@[simp] theorem State.aluWrite_schedule (v : Word) (d : AluDst) :
    (s.aluWrite v d).schedule = s.schedule := by cases d <;> rfl
@[simp] theorem State.aluWrite_reply (v : Word) (d : AluDst) :
    (s.aluWrite v d).reply = s.reply := by cases d <;> rfl
@[simp] theorem State.aluWrite_signal (v : Word) (d : AluDst) :
    (s.aluWrite v d).signal = s.signal := by cases d <;> rfl

/-! ## `State.afterMulSrc2` -/

@[simp] theorem State.afterMulSrc2_regs (x : MulSrc2) :
    (s.afterMulSrc2 x).regs = s.regs := by cases x <;> rfl
@[simp] theorem State.afterMulSrc2_ar (x : MulSrc2) :
    (s.afterMulSrc2 x).ar = s.ar := by cases x <;> rfl
@[simp] theorem State.afterMulSrc2_pr (x : MulSrc2) :
    (s.afterMulSrc2 x).pr = s.pr := by cases x <;> rfl
@[simp] theorem State.afterMulSrc2_pwp (x : MulSrc2) :
    (s.afterMulSrc2 x).pwp = s.pwp := by cases x <;> rfl
@[simp] theorem State.afterMulSrc2_pcs (x : MulSrc2) :
    (s.afterMulSrc2 x).pcs = s.pcs := by cases x <;> rfl
@[simp] theorem State.afterMulSrc2_pcsp (x : MulSrc2) :
    (s.afterMulSrc2 x).pcsp = s.pcsp := by cases x <;> rfl
@[simp] theorem State.afterMulSrc2_flags (x : MulSrc2) :
    (s.afterMulSrc2 x).flags = s.flags := by cases x <;> rfl
@[simp] theorem State.afterMulSrc2_fi (x : MulSrc2) :
    (s.afterMulSrc2 x).fi = s.fi := by cases x <;> rfl
@[simp] theorem State.afterMulSrc2_fo0 (x : MulSrc2) :
    (s.afterMulSrc2 x).fo0 = s.fo0 := by cases x <;> rfl
@[simp] theorem State.afterMulSrc2_fo1 (x : MulSrc2) :
    (s.afterMulSrc2 x).fo1 = s.fo1 := by cases x <;> rfl
@[simp] theorem State.afterMulSrc2_eb (x : MulSrc2) :
    (s.afterMulSrc2 x).eb = s.eb := by cases x <;> rfl
@[simp] theorem State.afterMulSrc2_eo (x : MulSrc2) :
    (s.afterMulSrc2 x).eo = s.eo := by cases x <;> rfl
@[simp] theorem State.afterMulSrc2_sp (x : MulSrc2) :
    (s.afterMulSrc2 x).sp = s.sp := by cases x <;> rfl
@[simp] theorem State.afterMulSrc2_mod (x : MulSrc2) :
    (s.afterMulSrc2 x).mod = s.mod := by cases x <;> rfl
@[simp] theorem State.afterMulSrc2_pdr (x : MulSrc2) :
    (s.afterMulSrc2 x).pdr = s.pdr := by cases x <;> rfl
@[simp] theorem State.afterMulSrc2_ddr (x : MulSrc2) :
    (s.afterMulSrc2 x).ddr = s.ddr := by cases x <;> rfl
@[simp] theorem State.afterMulSrc2_pc (x : MulSrc2) :
    (s.afterMulSrc2 x).pc = s.pc := by cases x <;> rfl
@[simp] theorem State.afterMulSrc2_ramA (x : MulSrc2) :
    (s.afterMulSrc2 x).ramA = s.ramA := by cases x <;> rfl
@[simp] theorem State.afterMulSrc2_ramB (x : MulSrc2) :
    (s.afterMulSrc2 x).ramB = s.ramB := by cases x <;> rfl
@[simp] theorem State.afterMulSrc2_cache (x : MulSrc2) :
    (s.afterMulSrc2 x).cache = s.cache := by cases x <;> rfl
@[simp] theorem State.afterMulSrc2_cacheUsed (x : MulSrc2) :
    (s.afterMulSrc2 x).cacheUsed = s.cacheUsed := by cases x <;> rfl
@[simp] theorem State.afterMulSrc2_dstate (x : MulSrc2) :
    (s.afterMulSrc2 x).dstate = s.dstate := by cases x <;> rfl
@[simp] theorem State.afterMulSrc2_icount (x : MulSrc2) :
    (s.afterMulSrc2 x).icount = s.icount := by cases x <;> rfl
@[simp] theorem State.afterMulSrc2_faultRec (x : MulSrc2) :
    (s.afterMulSrc2 x).faultRec = s.faultRec := by cases x <;> rfl
@[simp] theorem State.afterMulSrc2_scratch (x : MulSrc2) :
    (s.afterMulSrc2 x).scratch = s.scratch := by cases x <;> rfl
@[simp] theorem State.afterMulSrc2_cur (x : MulSrc2) :
    (s.afterMulSrc2 x).cur = s.cur := by cases x <;> rfl
@[simp] theorem State.afterMulSrc2_brpend (x : MulSrc2) :
    (s.afterMulSrc2 x).brpend = s.brpend := by cases x <;> rfl
@[simp] theorem State.afterMulSrc2_preFlags (x : MulSrc2) :
    (s.afterMulSrc2 x).preFlags = s.preFlags := by cases x <;> rfl
@[simp] theorem State.afterMulSrc2_prog (x : MulSrc2) :
    (s.afterMulSrc2 x).prog = s.prog := by cases x <;> rfl
@[simp] theorem State.afterMulSrc2_progWords (x : MulSrc2) :
    (s.afterMulSrc2 x).progWords = s.progWords := by cases x <;> rfl
@[simp] theorem State.afterMulSrc2_progDirty (x : MulSrc2) :
    (s.afterMulSrc2 x).progDirty = s.progDirty := by cases x <;> rfl
@[simp] theorem State.afterMulSrc2_cfg (x : MulSrc2) :
    (s.afterMulSrc2 x).cfg = s.cfg := by cases x <;> rfl
@[simp] theorem State.afterMulSrc2_extIn (x : MulSrc2) :
    (s.afterMulSrc2 x).extIn = s.extIn := by cases x <;> rfl
@[simp] theorem State.afterMulSrc2_extLog (x : MulSrc2) :
    (s.afterMulSrc2 x).extLog = s.extLog := by cases x <;> rfl
@[simp] theorem State.afterMulSrc2_draws (x : MulSrc2) :
    (s.afterMulSrc2 x).draws = s.draws := by cases x <;> rfl
@[simp] theorem State.afterMulSrc2_schedule (x : MulSrc2) :
    (s.afterMulSrc2 x).schedule = s.schedule := by cases x <;> rfl
@[simp] theorem State.afterMulSrc2_reply (x : MulSrc2) :
    (s.afterMulSrc2 x).reply = s.reply := by cases x <;> rfl
@[simp] theorem State.afterMulSrc2_signal (x : MulSrc2) :
    (s.afterMulSrc2 x).signal = s.signal := by cases x <;> rfl

/-! ## `State.mulWrite` -/

@[simp] theorem State.mulWrite_regs (v : Word) (d : MulDst) :
    (s.mulWrite v d).regs = s.regs := by cases d <;> rfl
@[simp] theorem State.mulWrite_ar (v : Word) (d : MulDst) :
    (s.mulWrite v d).ar = s.ar := by cases d <;> rfl
@[simp] theorem State.mulWrite_prp (v : Word) (d : MulDst) :
    (s.mulWrite v d).prp = s.prp := by cases d <;> rfl
@[simp] theorem State.mulWrite_pcs (v : Word) (d : MulDst) :
    (s.mulWrite v d).pcs = s.pcs := by cases d <;> rfl
@[simp] theorem State.mulWrite_pcsp (v : Word) (d : MulDst) :
    (s.mulWrite v d).pcsp = s.pcsp := by cases d <;> rfl
@[simp] theorem State.mulWrite_flags (v : Word) (d : MulDst) :
    (s.mulWrite v d).flags = s.flags := by cases d <;> rfl
@[simp] theorem State.mulWrite_fi (v : Word) (d : MulDst) :
    (s.mulWrite v d).fi = s.fi := by cases d <;> rfl
@[simp] theorem State.mulWrite_fo0 (v : Word) (d : MulDst) :
    (s.mulWrite v d).fo0 = s.fo0 := by cases d <;> rfl
@[simp] theorem State.mulWrite_fo1 (v : Word) (d : MulDst) :
    (s.mulWrite v d).fo1 = s.fo1 := by cases d <;> rfl
@[simp] theorem State.mulWrite_eb (v : Word) (d : MulDst) :
    (s.mulWrite v d).eb = s.eb := by cases d <;> rfl
@[simp] theorem State.mulWrite_eo (v : Word) (d : MulDst) :
    (s.mulWrite v d).eo = s.eo := by cases d <;> rfl
@[simp] theorem State.mulWrite_sp (v : Word) (d : MulDst) :
    (s.mulWrite v d).sp = s.sp := by cases d <;> rfl
@[simp] theorem State.mulWrite_mod (v : Word) (d : MulDst) :
    (s.mulWrite v d).mod = s.mod := by cases d <;> rfl
@[simp] theorem State.mulWrite_pdr (v : Word) (d : MulDst) :
    (s.mulWrite v d).pdr = s.pdr := by cases d <;> rfl
@[simp] theorem State.mulWrite_ddr (v : Word) (d : MulDst) :
    (s.mulWrite v d).ddr = s.ddr := by cases d <;> rfl
@[simp] theorem State.mulWrite_pc (v : Word) (d : MulDst) :
    (s.mulWrite v d).pc = s.pc := by cases d <;> rfl
@[simp] theorem State.mulWrite_ramA (v : Word) (d : MulDst) :
    (s.mulWrite v d).ramA = s.ramA := by cases d <;> rfl
@[simp] theorem State.mulWrite_ramB (v : Word) (d : MulDst) :
    (s.mulWrite v d).ramB = s.ramB := by cases d <;> rfl
@[simp] theorem State.mulWrite_cache (v : Word) (d : MulDst) :
    (s.mulWrite v d).cache = s.cache := by cases d <;> rfl
@[simp] theorem State.mulWrite_cacheUsed (v : Word) (d : MulDst) :
    (s.mulWrite v d).cacheUsed = s.cacheUsed := by cases d <;> rfl
@[simp] theorem State.mulWrite_dstate (v : Word) (d : MulDst) :
    (s.mulWrite v d).dstate = s.dstate := by cases d <;> rfl
@[simp] theorem State.mulWrite_icount (v : Word) (d : MulDst) :
    (s.mulWrite v d).icount = s.icount := by cases d <;> rfl
@[simp] theorem State.mulWrite_faultRec (v : Word) (d : MulDst) :
    (s.mulWrite v d).faultRec = s.faultRec := by cases d <;> rfl
@[simp] theorem State.mulWrite_cur (v : Word) (d : MulDst) :
    (s.mulWrite v d).cur = s.cur := by cases d <;> rfl
@[simp] theorem State.mulWrite_brpend (v : Word) (d : MulDst) :
    (s.mulWrite v d).brpend = s.brpend := by cases d <;> rfl
@[simp] theorem State.mulWrite_preFlags (v : Word) (d : MulDst) :
    (s.mulWrite v d).preFlags = s.preFlags := by cases d <;> rfl
@[simp] theorem State.mulWrite_prog (v : Word) (d : MulDst) :
    (s.mulWrite v d).prog = s.prog := by cases d <;> rfl
@[simp] theorem State.mulWrite_progWords (v : Word) (d : MulDst) :
    (s.mulWrite v d).progWords = s.progWords := by cases d <;> rfl
@[simp] theorem State.mulWrite_progDirty (v : Word) (d : MulDst) :
    (s.mulWrite v d).progDirty = s.progDirty := by cases d <;> rfl
@[simp] theorem State.mulWrite_cfg (v : Word) (d : MulDst) :
    (s.mulWrite v d).cfg = s.cfg := by cases d <;> rfl
@[simp] theorem State.mulWrite_extIn (v : Word) (d : MulDst) :
    (s.mulWrite v d).extIn = s.extIn := by cases d <;> rfl
@[simp] theorem State.mulWrite_extLog (v : Word) (d : MulDst) :
    (s.mulWrite v d).extLog = s.extLog := by cases d <;> rfl
@[simp] theorem State.mulWrite_draws (v : Word) (d : MulDst) :
    (s.mulWrite v d).draws = s.draws := by cases d <;> rfl
@[simp] theorem State.mulWrite_schedule (v : Word) (d : MulDst) :
    (s.mulWrite v d).schedule = s.schedule := by cases d <;> rfl
@[simp] theorem State.mulWrite_reply (v : Word) (d : MulDst) :
    (s.mulWrite v d).reply = s.reply := by cases d <;> rfl
@[simp] theorem State.mulWrite_signal (v : Word) (d : MulDst) :
    (s.mulWrite v d).signal = s.signal := by cases d <;> rfl

/-! ## `State.afterRegRead` -/

@[simp] theorem State.afterRegRead_regs (r : Reg6) :
    (s.afterRegRead r).regs = s.regs := by cases r <;> rfl
@[simp] theorem State.afterRegRead_ar (r : Reg6) :
    (s.afterRegRead r).ar = s.ar := by cases r <;> rfl
@[simp] theorem State.afterRegRead_pr (r : Reg6) :
    (s.afterRegRead r).pr = s.pr := by cases r <;> rfl
@[simp] theorem State.afterRegRead_pwp (r : Reg6) :
    (s.afterRegRead r).pwp = s.pwp := by cases r <;> rfl
@[simp] theorem State.afterRegRead_pcs (r : Reg6) :
    (s.afterRegRead r).pcs = s.pcs := by cases r <;> rfl
@[simp] theorem State.afterRegRead_pcsp (r : Reg6) :
    (s.afterRegRead r).pcsp = s.pcsp := by cases r <;> rfl
@[simp] theorem State.afterRegRead_flags (r : Reg6) :
    (s.afterRegRead r).flags = s.flags := by cases r <;> rfl
@[simp] theorem State.afterRegRead_fo0 (r : Reg6) :
    (s.afterRegRead r).fo0 = s.fo0 := by cases r <;> rfl
@[simp] theorem State.afterRegRead_fo1 (r : Reg6) :
    (s.afterRegRead r).fo1 = s.fo1 := by cases r <;> rfl
@[simp] theorem State.afterRegRead_eb (r : Reg6) :
    (s.afterRegRead r).eb = s.eb := by cases r <;> rfl
@[simp] theorem State.afterRegRead_eo (r : Reg6) :
    (s.afterRegRead r).eo = s.eo := by cases r <;> rfl
@[simp] theorem State.afterRegRead_sp (r : Reg6) :
    (s.afterRegRead r).sp = s.sp := by cases r <;> rfl
@[simp] theorem State.afterRegRead_mod (r : Reg6) :
    (s.afterRegRead r).mod = s.mod := by cases r <;> rfl
@[simp] theorem State.afterRegRead_pdr (r : Reg6) :
    (s.afterRegRead r).pdr = s.pdr := by cases r <;> rfl
@[simp] theorem State.afterRegRead_ddr (r : Reg6) :
    (s.afterRegRead r).ddr = s.ddr := by cases r <;> rfl
@[simp] theorem State.afterRegRead_pc (r : Reg6) :
    (s.afterRegRead r).pc = s.pc := by cases r <;> rfl
@[simp] theorem State.afterRegRead_ramA (r : Reg6) :
    (s.afterRegRead r).ramA = s.ramA := by cases r <;> rfl
@[simp] theorem State.afterRegRead_ramB (r : Reg6) :
    (s.afterRegRead r).ramB = s.ramB := by cases r <;> rfl
@[simp] theorem State.afterRegRead_cache (r : Reg6) :
    (s.afterRegRead r).cache = s.cache := by cases r <;> rfl
@[simp] theorem State.afterRegRead_cacheUsed (r : Reg6) :
    (s.afterRegRead r).cacheUsed = s.cacheUsed := by cases r <;> rfl
@[simp] theorem State.afterRegRead_dstate (r : Reg6) :
    (s.afterRegRead r).dstate = s.dstate := by cases r <;> rfl
@[simp] theorem State.afterRegRead_icount (r : Reg6) :
    (s.afterRegRead r).icount = s.icount := by cases r <;> rfl
@[simp] theorem State.afterRegRead_faultRec (r : Reg6) :
    (s.afterRegRead r).faultRec = s.faultRec := by cases r <;> rfl
@[simp] theorem State.afterRegRead_scratch (r : Reg6) :
    (s.afterRegRead r).scratch = s.scratch := by cases r <;> rfl
@[simp] theorem State.afterRegRead_cur (r : Reg6) :
    (s.afterRegRead r).cur = s.cur := by cases r <;> rfl
@[simp] theorem State.afterRegRead_brpend (r : Reg6) :
    (s.afterRegRead r).brpend = s.brpend := by cases r <;> rfl
@[simp] theorem State.afterRegRead_preFlags (r : Reg6) :
    (s.afterRegRead r).preFlags = s.preFlags := by cases r <;> rfl
@[simp] theorem State.afterRegRead_prog (r : Reg6) :
    (s.afterRegRead r).prog = s.prog := by cases r <;> rfl
@[simp] theorem State.afterRegRead_progWords (r : Reg6) :
    (s.afterRegRead r).progWords = s.progWords := by cases r <;> rfl
@[simp] theorem State.afterRegRead_progDirty (r : Reg6) :
    (s.afterRegRead r).progDirty = s.progDirty := by cases r <;> rfl
@[simp] theorem State.afterRegRead_cfg (r : Reg6) :
    (s.afterRegRead r).cfg = s.cfg := by cases r <;> rfl
@[simp] theorem State.afterRegRead_extIn (r : Reg6) :
    (s.afterRegRead r).extIn = s.extIn := by cases r <;> rfl
@[simp] theorem State.afterRegRead_extLog (r : Reg6) :
    (s.afterRegRead r).extLog = s.extLog := by cases r <;> rfl
@[simp] theorem State.afterRegRead_draws (r : Reg6) :
    (s.afterRegRead r).draws = s.draws := by cases r <;> rfl
@[simp] theorem State.afterRegRead_schedule (r : Reg6) :
    (s.afterRegRead r).schedule = s.schedule := by cases r <;> rfl
@[simp] theorem State.afterRegRead_reply (r : Reg6) :
    (s.afterRegRead r).reply = s.reply := by cases r <;> rfl
@[simp] theorem State.afterRegRead_signal (r : Reg6) :
    (s.afterRegRead r).signal = s.signal := by cases r <;> rfl

/-! ## `State.afterRegWrite` -/

@[simp] theorem State.afterRegWrite_regs (v : Word) (r : Reg6) : (s.afterRegWrite v r).regs = s.regs := by
  cases r <;> first | rfl | exact State.setScalar_regs ..
@[simp] theorem State.afterRegWrite_pcs (v : Word) (r : Reg6) : (s.afterRegWrite v r).pcs = s.pcs := by
  cases r <;> first | rfl | exact State.setScalar_pcs ..
@[simp] theorem State.afterRegWrite_pcsp (v : Word) (r : Reg6) : (s.afterRegWrite v r).pcsp = s.pcsp := by
  cases r <;> first | rfl | exact State.setScalar_pcsp ..
@[simp] theorem State.afterRegWrite_flags (v : Word) (r : Reg6) : (s.afterRegWrite v r).flags = s.flags := by
  cases r <;> first | rfl | exact State.setScalar_flags ..
@[simp] theorem State.afterRegWrite_fi (v : Word) (r : Reg6) : (s.afterRegWrite v r).fi = s.fi := by
  cases r <;> first | rfl | exact State.setScalar_fi ..
@[simp] theorem State.afterRegWrite_pc (v : Word) (r : Reg6) : (s.afterRegWrite v r).pc = s.pc := by
  cases r <;> first | rfl | exact State.setScalar_pc ..
@[simp] theorem State.afterRegWrite_ramA (v : Word) (r : Reg6) : (s.afterRegWrite v r).ramA = s.ramA := by
  cases r <;> first | rfl | exact State.setScalar_ramA ..
@[simp] theorem State.afterRegWrite_ramB (v : Word) (r : Reg6) : (s.afterRegWrite v r).ramB = s.ramB := by
  cases r <;> first | rfl | exact State.setScalar_ramB ..
@[simp] theorem State.afterRegWrite_cache (v : Word) (r : Reg6) : (s.afterRegWrite v r).cache = s.cache := by
  cases r <;> first | rfl | exact State.setScalar_cache ..
@[simp] theorem State.afterRegWrite_cacheUsed (v : Word) (r : Reg6) : (s.afterRegWrite v r).cacheUsed = s.cacheUsed := by
  cases r <;> first | rfl | exact State.setScalar_cacheUsed ..
@[simp] theorem State.afterRegWrite_dstate (v : Word) (r : Reg6) : (s.afterRegWrite v r).dstate = s.dstate := by
  cases r <;> first | rfl | exact State.setScalar_dstate ..
@[simp] theorem State.afterRegWrite_icount (v : Word) (r : Reg6) : (s.afterRegWrite v r).icount = s.icount := by
  cases r <;> first | rfl | exact State.setScalar_icount ..
@[simp] theorem State.afterRegWrite_faultRec (v : Word) (r : Reg6) : (s.afterRegWrite v r).faultRec = s.faultRec := by
  cases r <;> first | rfl | exact State.setScalar_faultRec ..
@[simp] theorem State.afterRegWrite_cur (v : Word) (r : Reg6) : (s.afterRegWrite v r).cur = s.cur := by
  cases r <;> first | rfl | exact State.setScalar_cur ..
@[simp] theorem State.afterRegWrite_brpend (v : Word) (r : Reg6) : (s.afterRegWrite v r).brpend = s.brpend := by
  cases r <;> first | rfl | exact State.setScalar_brpend ..
@[simp] theorem State.afterRegWrite_preFlags (v : Word) (r : Reg6) : (s.afterRegWrite v r).preFlags = s.preFlags := by
  cases r <;> first | rfl | exact State.setScalar_preFlags ..
@[simp] theorem State.afterRegWrite_prog (v : Word) (r : Reg6) : (s.afterRegWrite v r).prog = s.prog := by
  cases r <;> first | rfl | exact State.setScalar_prog ..
@[simp] theorem State.afterRegWrite_progWords (v : Word) (r : Reg6) : (s.afterRegWrite v r).progWords = s.progWords := by
  cases r <;> first | rfl | exact State.setScalar_progWords ..
@[simp] theorem State.afterRegWrite_progDirty (v : Word) (r : Reg6) : (s.afterRegWrite v r).progDirty = s.progDirty := by
  cases r <;> first | rfl | exact State.setScalar_progDirty ..
@[simp] theorem State.afterRegWrite_cfg (v : Word) (r : Reg6) : (s.afterRegWrite v r).cfg = s.cfg := by
  cases r <;> first | rfl | exact State.setScalar_cfg ..
@[simp] theorem State.afterRegWrite_extIn (v : Word) (r : Reg6) : (s.afterRegWrite v r).extIn = s.extIn := by
  cases r <;> first | rfl | exact State.setScalar_extIn ..
@[simp] theorem State.afterRegWrite_extLog (v : Word) (r : Reg6) : (s.afterRegWrite v r).extLog = s.extLog := by
  cases r <;> first | rfl | exact State.setScalar_extLog ..
@[simp] theorem State.afterRegWrite_draws (v : Word) (r : Reg6) : (s.afterRegWrite v r).draws = s.draws := by
  cases r <;> first | rfl | exact State.setScalar_draws ..
@[simp] theorem State.afterRegWrite_schedule (v : Word) (r : Reg6) : (s.afterRegWrite v r).schedule = s.schedule := by
  cases r <;> first | rfl | exact State.setScalar_schedule ..
@[simp] theorem State.afterRegWrite_reply (v : Word) (r : Reg6) : (s.afterRegWrite v r).reply = s.reply := by
  cases r <;> first | rfl | exact State.setScalar_reply ..
@[simp] theorem State.afterRegWrite_signal (v : Word) (r : Reg6) : (s.afterRegWrite v r).signal = s.signal := by
  cases r <;> first | rfl | exact State.setScalar_signal ..

/-! ## `State.afterEa1` -/

@[simp] theorem State.afterEa1_regs (x : Fin 8) (m : AddrMode) :
    (s.afterEa1 x m).regs = s.regs := by cases m <;> rfl
@[simp] theorem State.afterEa1_pr (x : Fin 8) (m : AddrMode) :
    (s.afterEa1 x m).pr = s.pr := by cases m <;> rfl
@[simp] theorem State.afterEa1_prp (x : Fin 8) (m : AddrMode) :
    (s.afterEa1 x m).prp = s.prp := by cases m <;> rfl
@[simp] theorem State.afterEa1_pwp (x : Fin 8) (m : AddrMode) :
    (s.afterEa1 x m).pwp = s.pwp := by cases m <;> rfl
@[simp] theorem State.afterEa1_pcs (x : Fin 8) (m : AddrMode) :
    (s.afterEa1 x m).pcs = s.pcs := by cases m <;> rfl
@[simp] theorem State.afterEa1_pcsp (x : Fin 8) (m : AddrMode) :
    (s.afterEa1 x m).pcsp = s.pcsp := by cases m <;> rfl
@[simp] theorem State.afterEa1_flags (x : Fin 8) (m : AddrMode) :
    (s.afterEa1 x m).flags = s.flags := by cases m <;> rfl
@[simp] theorem State.afterEa1_fi (x : Fin 8) (m : AddrMode) :
    (s.afterEa1 x m).fi = s.fi := by cases m <;> rfl
@[simp] theorem State.afterEa1_fo0 (x : Fin 8) (m : AddrMode) :
    (s.afterEa1 x m).fo0 = s.fo0 := by cases m <;> rfl
@[simp] theorem State.afterEa1_fo1 (x : Fin 8) (m : AddrMode) :
    (s.afterEa1 x m).fo1 = s.fo1 := by cases m <;> rfl
@[simp] theorem State.afterEa1_eb (x : Fin 8) (m : AddrMode) :
    (s.afterEa1 x m).eb = s.eb := by cases m <;> rfl
@[simp] theorem State.afterEa1_eo (x : Fin 8) (m : AddrMode) :
    (s.afterEa1 x m).eo = s.eo := by cases m <;> rfl
@[simp] theorem State.afterEa1_sp (x : Fin 8) (m : AddrMode) :
    (s.afterEa1 x m).sp = s.sp := by cases m <;> rfl
@[simp] theorem State.afterEa1_mod (x : Fin 8) (m : AddrMode) :
    (s.afterEa1 x m).mod = s.mod := by cases m <;> rfl
@[simp] theorem State.afterEa1_pdr (x : Fin 8) (m : AddrMode) :
    (s.afterEa1 x m).pdr = s.pdr := by cases m <;> rfl
@[simp] theorem State.afterEa1_ddr (x : Fin 8) (m : AddrMode) :
    (s.afterEa1 x m).ddr = s.ddr := by cases m <;> rfl
@[simp] theorem State.afterEa1_pc (x : Fin 8) (m : AddrMode) :
    (s.afterEa1 x m).pc = s.pc := by cases m <;> rfl
@[simp] theorem State.afterEa1_ramA (x : Fin 8) (m : AddrMode) :
    (s.afterEa1 x m).ramA = s.ramA := by cases m <;> rfl
@[simp] theorem State.afterEa1_ramB (x : Fin 8) (m : AddrMode) :
    (s.afterEa1 x m).ramB = s.ramB := by cases m <;> rfl
@[simp] theorem State.afterEa1_cache (x : Fin 8) (m : AddrMode) :
    (s.afterEa1 x m).cache = s.cache := by cases m <;> rfl
@[simp] theorem State.afterEa1_cacheUsed (x : Fin 8) (m : AddrMode) :
    (s.afterEa1 x m).cacheUsed = s.cacheUsed := by cases m <;> rfl
@[simp] theorem State.afterEa1_dstate (x : Fin 8) (m : AddrMode) :
    (s.afterEa1 x m).dstate = s.dstate := by cases m <;> rfl
@[simp] theorem State.afterEa1_icount (x : Fin 8) (m : AddrMode) :
    (s.afterEa1 x m).icount = s.icount := by cases m <;> rfl
@[simp] theorem State.afterEa1_faultRec (x : Fin 8) (m : AddrMode) :
    (s.afterEa1 x m).faultRec = s.faultRec := by cases m <;> rfl
@[simp] theorem State.afterEa1_scratch (x : Fin 8) (m : AddrMode) :
    (s.afterEa1 x m).scratch = s.scratch := by cases m <;> rfl
@[simp] theorem State.afterEa1_cur (x : Fin 8) (m : AddrMode) :
    (s.afterEa1 x m).cur = s.cur := by cases m <;> rfl
@[simp] theorem State.afterEa1_brpend (x : Fin 8) (m : AddrMode) :
    (s.afterEa1 x m).brpend = s.brpend := by cases m <;> rfl
@[simp] theorem State.afterEa1_preFlags (x : Fin 8) (m : AddrMode) :
    (s.afterEa1 x m).preFlags = s.preFlags := by cases m <;> rfl
@[simp] theorem State.afterEa1_prog (x : Fin 8) (m : AddrMode) :
    (s.afterEa1 x m).prog = s.prog := by cases m <;> rfl
@[simp] theorem State.afterEa1_progWords (x : Fin 8) (m : AddrMode) :
    (s.afterEa1 x m).progWords = s.progWords := by cases m <;> rfl
@[simp] theorem State.afterEa1_progDirty (x : Fin 8) (m : AddrMode) :
    (s.afterEa1 x m).progDirty = s.progDirty := by cases m <;> rfl
@[simp] theorem State.afterEa1_cfg (x : Fin 8) (m : AddrMode) :
    (s.afterEa1 x m).cfg = s.cfg := by cases m <;> rfl
@[simp] theorem State.afterEa1_extIn (x : Fin 8) (m : AddrMode) :
    (s.afterEa1 x m).extIn = s.extIn := by cases m <;> rfl
@[simp] theorem State.afterEa1_extLog (x : Fin 8) (m : AddrMode) :
    (s.afterEa1 x m).extLog = s.extLog := by cases m <;> rfl
@[simp] theorem State.afterEa1_draws (x : Fin 8) (m : AddrMode) :
    (s.afterEa1 x m).draws = s.draws := by cases m <;> rfl
@[simp] theorem State.afterEa1_schedule (x : Fin 8) (m : AddrMode) :
    (s.afterEa1 x m).schedule = s.schedule := by cases m <;> rfl
@[simp] theorem State.afterEa1_reply (x : Fin 8) (m : AddrMode) :
    (s.afterEa1 x m).reply = s.reply := by cases m <;> rfl
@[simp] theorem State.afterEa1_signal (x : Fin 8) (m : AddrMode) :
    (s.afterEa1 x m).signal = s.signal := by cases m <;> rfl

/-! ## `State.openBundle` -/

@[simp] theorem State.openBundle_regs : s.openBundle.regs = s.regs := rfl
@[simp] theorem State.openBundle_ar : s.openBundle.ar = s.ar := rfl
@[simp] theorem State.openBundle_pr : s.openBundle.pr = s.pr := rfl
@[simp] theorem State.openBundle_prp : s.openBundle.prp = s.prp := rfl
@[simp] theorem State.openBundle_pwp : s.openBundle.pwp = s.pwp := rfl
@[simp] theorem State.openBundle_pcs : s.openBundle.pcs = s.pcs := rfl
@[simp] theorem State.openBundle_pcsp : s.openBundle.pcsp = s.pcsp := rfl
@[simp] theorem State.openBundle_flags : s.openBundle.flags = s.flags := rfl
@[simp] theorem State.openBundle_fi : s.openBundle.fi = s.fi := rfl
@[simp] theorem State.openBundle_fo0 : s.openBundle.fo0 = s.fo0 := rfl
@[simp] theorem State.openBundle_fo1 : s.openBundle.fo1 = s.fo1 := rfl
@[simp] theorem State.openBundle_eb : s.openBundle.eb = s.eb := rfl
@[simp] theorem State.openBundle_eo : s.openBundle.eo = s.eo := rfl
@[simp] theorem State.openBundle_sp : s.openBundle.sp = s.sp := rfl
@[simp] theorem State.openBundle_mod : s.openBundle.mod = s.mod := rfl
@[simp] theorem State.openBundle_pdr : s.openBundle.pdr = s.pdr := rfl
@[simp] theorem State.openBundle_ddr : s.openBundle.ddr = s.ddr := rfl
@[simp] theorem State.openBundle_pc : s.openBundle.pc = s.pc := rfl
@[simp] theorem State.openBundle_ramA : s.openBundle.ramA = s.ramA := rfl
@[simp] theorem State.openBundle_ramB : s.openBundle.ramB = s.ramB := rfl
@[simp] theorem State.openBundle_cache : s.openBundle.cache = s.cache := rfl
@[simp] theorem State.openBundle_cacheUsed : s.openBundle.cacheUsed = s.cacheUsed := rfl
@[simp] theorem State.openBundle_dstate : s.openBundle.dstate = s.dstate := rfl
@[simp] theorem State.openBundle_icount : s.openBundle.icount = s.icount := rfl
@[simp] theorem State.openBundle_faultRec : s.openBundle.faultRec = s.faultRec := rfl
@[simp] theorem State.openBundle_scratch : s.openBundle.scratch = [] := rfl
@[simp] theorem State.openBundle_cur : s.openBundle.cur = s.cur := rfl
@[simp] theorem State.openBundle_brpend : s.openBundle.brpend = s.brpend := rfl
@[simp] theorem State.openBundle_preFlags : s.openBundle.preFlags = s.flags := rfl
@[simp] theorem State.openBundle_prog : s.openBundle.prog = s.prog := rfl
@[simp] theorem State.openBundle_progWords : s.openBundle.progWords = s.progWords := rfl
@[simp] theorem State.openBundle_progDirty : s.openBundle.progDirty = s.progDirty := rfl
@[simp] theorem State.openBundle_cfg : s.openBundle.cfg = s.cfg := rfl
@[simp] theorem State.openBundle_extIn : s.openBundle.extIn = s.extIn := rfl
@[simp] theorem State.openBundle_extLog : s.openBundle.extLog = s.extLog := rfl
@[simp] theorem State.openBundle_draws : s.openBundle.draws = s.draws := rfl
@[simp] theorem State.openBundle_schedule : s.openBundle.schedule = s.schedule := rfl
@[simp] theorem State.openBundle_reply : s.openBundle.reply = s.reply := rfl
@[simp] theorem State.openBundle_signal : s.openBundle.signal = s.signal := rfl

/-! ## `State.emptyCache` -/

@[simp] theorem State.emptyCache_regs : s.emptyCache.regs = s.regs := rfl
@[simp] theorem State.emptyCache_ar : s.emptyCache.ar = s.ar := rfl
@[simp] theorem State.emptyCache_pr : s.emptyCache.pr = s.pr := rfl
@[simp] theorem State.emptyCache_prp : s.emptyCache.prp = s.prp := rfl
@[simp] theorem State.emptyCache_pwp : s.emptyCache.pwp = s.pwp := rfl
@[simp] theorem State.emptyCache_pcs : s.emptyCache.pcs = s.pcs := rfl
@[simp] theorem State.emptyCache_pcsp : s.emptyCache.pcsp = s.pcsp := rfl
@[simp] theorem State.emptyCache_flags : s.emptyCache.flags = s.flags := rfl
@[simp] theorem State.emptyCache_fi : s.emptyCache.fi = s.fi := rfl
@[simp] theorem State.emptyCache_fo0 : s.emptyCache.fo0 = s.fo0 := rfl
@[simp] theorem State.emptyCache_fo1 : s.emptyCache.fo1 = s.fo1 := rfl
@[simp] theorem State.emptyCache_eb : s.emptyCache.eb = s.eb := rfl
@[simp] theorem State.emptyCache_eo : s.emptyCache.eo = s.eo := rfl
@[simp] theorem State.emptyCache_sp : s.emptyCache.sp = s.sp := rfl
@[simp] theorem State.emptyCache_mod : s.emptyCache.mod = s.mod := rfl
@[simp] theorem State.emptyCache_pdr : s.emptyCache.pdr = s.pdr := rfl
@[simp] theorem State.emptyCache_ddr : s.emptyCache.ddr = s.ddr := rfl
@[simp] theorem State.emptyCache_pc : s.emptyCache.pc = s.pc := rfl
@[simp] theorem State.emptyCache_ramA : s.emptyCache.ramA = s.ramA := rfl
@[simp] theorem State.emptyCache_ramB : s.emptyCache.ramB = s.ramB := rfl
@[simp] theorem State.emptyCache_cache : s.emptyCache.cache = [] := rfl
@[simp] theorem State.emptyCache_cacheUsed : s.emptyCache.cacheUsed = 0 := rfl
@[simp] theorem State.emptyCache_dstate : s.emptyCache.dstate = s.dstate := rfl
@[simp] theorem State.emptyCache_icount : s.emptyCache.icount = s.icount := rfl
@[simp] theorem State.emptyCache_faultRec : s.emptyCache.faultRec = s.faultRec := rfl
@[simp] theorem State.emptyCache_scratch : s.emptyCache.scratch = s.scratch := rfl
@[simp] theorem State.emptyCache_cur : s.emptyCache.cur = s.cur := rfl
@[simp] theorem State.emptyCache_brpend : s.emptyCache.brpend = s.brpend := rfl
@[simp] theorem State.emptyCache_preFlags : s.emptyCache.preFlags = s.preFlags := rfl
@[simp] theorem State.emptyCache_prog : s.emptyCache.prog = s.prog := rfl
@[simp] theorem State.emptyCache_progWords : s.emptyCache.progWords = s.progWords := rfl
@[simp] theorem State.emptyCache_progDirty : s.emptyCache.progDirty = s.progDirty := rfl
@[simp] theorem State.emptyCache_cfg : s.emptyCache.cfg = s.cfg := rfl
@[simp] theorem State.emptyCache_extIn : s.emptyCache.extIn = s.extIn := rfl
@[simp] theorem State.emptyCache_extLog : s.emptyCache.extLog = s.extLog := rfl
@[simp] theorem State.emptyCache_draws : s.emptyCache.draws = s.draws := rfl
@[simp] theorem State.emptyCache_schedule : s.emptyCache.schedule = s.schedule := rfl
@[simp] theorem State.emptyCache_reply : s.emptyCache.reply = s.reply := rfl
@[simp] theorem State.emptyCache_signal : s.emptyCache.signal = s.signal := rfl

/-! ## `State.putFlag` and `State.putFlags` -/

@[simp] theorem State.putFlag_regs (f : Flag) (v : Bool) : (s.putFlag f v).regs = s.regs := by
  unfold State.putFlag; split; · rfl
  · split <;> rfl
@[simp] theorem State.putFlag_ar (f : Flag) (v : Bool) : (s.putFlag f v).ar = s.ar := by
  unfold State.putFlag; split; · rfl
  · split <;> rfl
@[simp] theorem State.putFlag_pr (f : Flag) (v : Bool) : (s.putFlag f v).pr = s.pr := by
  unfold State.putFlag; split; · rfl
  · split <;> rfl
@[simp] theorem State.putFlag_prp (f : Flag) (v : Bool) : (s.putFlag f v).prp = s.prp := by
  unfold State.putFlag; split; · rfl
  · split <;> rfl
@[simp] theorem State.putFlag_pwp (f : Flag) (v : Bool) : (s.putFlag f v).pwp = s.pwp := by
  unfold State.putFlag; split; · rfl
  · split <;> rfl
@[simp] theorem State.putFlag_pcs (f : Flag) (v : Bool) : (s.putFlag f v).pcs = s.pcs := by
  unfold State.putFlag; split; · rfl
  · split <;> rfl
@[simp] theorem State.putFlag_pcsp (f : Flag) (v : Bool) : (s.putFlag f v).pcsp = s.pcsp := by
  unfold State.putFlag; split; · rfl
  · split <;> rfl
@[simp] theorem State.putFlag_fi (f : Flag) (v : Bool) : (s.putFlag f v).fi = s.fi := by
  unfold State.putFlag; split; · rfl
  · split <;> rfl
@[simp] theorem State.putFlag_fo0 (f : Flag) (v : Bool) : (s.putFlag f v).fo0 = s.fo0 := by
  unfold State.putFlag; split; · rfl
  · split <;> rfl
@[simp] theorem State.putFlag_fo1 (f : Flag) (v : Bool) : (s.putFlag f v).fo1 = s.fo1 := by
  unfold State.putFlag; split; · rfl
  · split <;> rfl
@[simp] theorem State.putFlag_eb (f : Flag) (v : Bool) : (s.putFlag f v).eb = s.eb := by
  unfold State.putFlag; split; · rfl
  · split <;> rfl
@[simp] theorem State.putFlag_eo (f : Flag) (v : Bool) : (s.putFlag f v).eo = s.eo := by
  unfold State.putFlag; split; · rfl
  · split <;> rfl
@[simp] theorem State.putFlag_sp (f : Flag) (v : Bool) : (s.putFlag f v).sp = s.sp := by
  unfold State.putFlag; split; · rfl
  · split <;> rfl
@[simp] theorem State.putFlag_mod (f : Flag) (v : Bool) : (s.putFlag f v).mod = s.mod := by
  unfold State.putFlag; split; · rfl
  · split <;> rfl
@[simp] theorem State.putFlag_pdr (f : Flag) (v : Bool) : (s.putFlag f v).pdr = s.pdr := by
  unfold State.putFlag; split; · rfl
  · split <;> rfl
@[simp] theorem State.putFlag_ddr (f : Flag) (v : Bool) : (s.putFlag f v).ddr = s.ddr := by
  unfold State.putFlag; split; · rfl
  · split <;> rfl
@[simp] theorem State.putFlag_pc (f : Flag) (v : Bool) : (s.putFlag f v).pc = s.pc := by
  unfold State.putFlag; split; · rfl
  · split <;> rfl
@[simp] theorem State.putFlag_ramA (f : Flag) (v : Bool) : (s.putFlag f v).ramA = s.ramA := by
  unfold State.putFlag; split; · rfl
  · split <;> rfl
@[simp] theorem State.putFlag_ramB (f : Flag) (v : Bool) : (s.putFlag f v).ramB = s.ramB := by
  unfold State.putFlag; split; · rfl
  · split <;> rfl
@[simp] theorem State.putFlag_cache (f : Flag) (v : Bool) : (s.putFlag f v).cache = s.cache := by
  unfold State.putFlag; split; · rfl
  · split <;> rfl
@[simp] theorem State.putFlag_cacheUsed (f : Flag) (v : Bool) : (s.putFlag f v).cacheUsed = s.cacheUsed := by
  unfold State.putFlag; split; · rfl
  · split <;> rfl
@[simp] theorem State.putFlag_dstate (f : Flag) (v : Bool) : (s.putFlag f v).dstate = s.dstate := by
  unfold State.putFlag; split; · rfl
  · split <;> rfl
@[simp] theorem State.putFlag_icount (f : Flag) (v : Bool) : (s.putFlag f v).icount = s.icount := by
  unfold State.putFlag; split; · rfl
  · split <;> rfl
@[simp] theorem State.putFlag_faultRec (f : Flag) (v : Bool) : (s.putFlag f v).faultRec = s.faultRec := by
  unfold State.putFlag; split; · rfl
  · split <;> rfl
@[simp] theorem State.putFlag_scratch (f : Flag) (v : Bool) : (s.putFlag f v).scratch = s.scratch := by
  unfold State.putFlag; split; · rfl
  · split <;> rfl
@[simp] theorem State.putFlag_cur (f : Flag) (v : Bool) : (s.putFlag f v).cur = s.cur := by
  unfold State.putFlag; split; · rfl
  · split <;> rfl
@[simp] theorem State.putFlag_brpend (f : Flag) (v : Bool) : (s.putFlag f v).brpend = s.brpend := by
  unfold State.putFlag; split; · rfl
  · split <;> rfl
@[simp] theorem State.putFlag_preFlags (f : Flag) (v : Bool) : (s.putFlag f v).preFlags = s.preFlags := by
  unfold State.putFlag; split; · rfl
  · split <;> rfl
@[simp] theorem State.putFlag_prog (f : Flag) (v : Bool) : (s.putFlag f v).prog = s.prog := by
  unfold State.putFlag; split; · rfl
  · split <;> rfl
@[simp] theorem State.putFlag_progWords (f : Flag) (v : Bool) : (s.putFlag f v).progWords = s.progWords := by
  unfold State.putFlag; split; · rfl
  · split <;> rfl
@[simp] theorem State.putFlag_progDirty (f : Flag) (v : Bool) : (s.putFlag f v).progDirty = s.progDirty := by
  unfold State.putFlag; split; · rfl
  · split <;> rfl
@[simp] theorem State.putFlag_cfg (f : Flag) (v : Bool) : (s.putFlag f v).cfg = s.cfg := by
  unfold State.putFlag; split; · rfl
  · split <;> rfl
@[simp] theorem State.putFlag_extIn (f : Flag) (v : Bool) : (s.putFlag f v).extIn = s.extIn := by
  unfold State.putFlag; split; · rfl
  · split <;> rfl
@[simp] theorem State.putFlag_extLog (f : Flag) (v : Bool) : (s.putFlag f v).extLog = s.extLog := by
  unfold State.putFlag; split; · rfl
  · split <;> rfl
@[simp] theorem State.putFlag_schedule (f : Flag) (v : Bool) : (s.putFlag f v).schedule = s.schedule := by
  unfold State.putFlag; split; · rfl
  · split <;> rfl
@[simp] theorem State.putFlag_reply (f : Flag) (v : Bool) : (s.putFlag f v).reply = s.reply := by
  unfold State.putFlag; split; · rfl
  · split <;> rfl
@[simp] theorem State.putFlag_signal (f : Flag) (v : Bool) : (s.putFlag f v).signal = s.signal := by
  unfold State.putFlag; split; · rfl
  · split <;> rfl
@[simp] theorem State.putFlags_regs (l : List (Flag × Bool)) :
    (s.putFlags l).regs = s.regs := by
  induction l generalizing s with
  | nil => rfl
  | cons p l ih => simp [State.putFlags, ih]
@[simp] theorem State.putFlags_ar (l : List (Flag × Bool)) :
    (s.putFlags l).ar = s.ar := by
  induction l generalizing s with
  | nil => rfl
  | cons p l ih => simp [State.putFlags, ih]
@[simp] theorem State.putFlags_pr (l : List (Flag × Bool)) :
    (s.putFlags l).pr = s.pr := by
  induction l generalizing s with
  | nil => rfl
  | cons p l ih => simp [State.putFlags, ih]
@[simp] theorem State.putFlags_prp (l : List (Flag × Bool)) :
    (s.putFlags l).prp = s.prp := by
  induction l generalizing s with
  | nil => rfl
  | cons p l ih => simp [State.putFlags, ih]
@[simp] theorem State.putFlags_pwp (l : List (Flag × Bool)) :
    (s.putFlags l).pwp = s.pwp := by
  induction l generalizing s with
  | nil => rfl
  | cons p l ih => simp [State.putFlags, ih]
@[simp] theorem State.putFlags_pcs (l : List (Flag × Bool)) :
    (s.putFlags l).pcs = s.pcs := by
  induction l generalizing s with
  | nil => rfl
  | cons p l ih => simp [State.putFlags, ih]
@[simp] theorem State.putFlags_pcsp (l : List (Flag × Bool)) :
    (s.putFlags l).pcsp = s.pcsp := by
  induction l generalizing s with
  | nil => rfl
  | cons p l ih => simp [State.putFlags, ih]
@[simp] theorem State.putFlags_fi (l : List (Flag × Bool)) :
    (s.putFlags l).fi = s.fi := by
  induction l generalizing s with
  | nil => rfl
  | cons p l ih => simp [State.putFlags, ih]
@[simp] theorem State.putFlags_fo0 (l : List (Flag × Bool)) :
    (s.putFlags l).fo0 = s.fo0 := by
  induction l generalizing s with
  | nil => rfl
  | cons p l ih => simp [State.putFlags, ih]
@[simp] theorem State.putFlags_fo1 (l : List (Flag × Bool)) :
    (s.putFlags l).fo1 = s.fo1 := by
  induction l generalizing s with
  | nil => rfl
  | cons p l ih => simp [State.putFlags, ih]
@[simp] theorem State.putFlags_eb (l : List (Flag × Bool)) :
    (s.putFlags l).eb = s.eb := by
  induction l generalizing s with
  | nil => rfl
  | cons p l ih => simp [State.putFlags, ih]
@[simp] theorem State.putFlags_eo (l : List (Flag × Bool)) :
    (s.putFlags l).eo = s.eo := by
  induction l generalizing s with
  | nil => rfl
  | cons p l ih => simp [State.putFlags, ih]
@[simp] theorem State.putFlags_sp (l : List (Flag × Bool)) :
    (s.putFlags l).sp = s.sp := by
  induction l generalizing s with
  | nil => rfl
  | cons p l ih => simp [State.putFlags, ih]
@[simp] theorem State.putFlags_mod (l : List (Flag × Bool)) :
    (s.putFlags l).mod = s.mod := by
  induction l generalizing s with
  | nil => rfl
  | cons p l ih => simp [State.putFlags, ih]
@[simp] theorem State.putFlags_pdr (l : List (Flag × Bool)) :
    (s.putFlags l).pdr = s.pdr := by
  induction l generalizing s with
  | nil => rfl
  | cons p l ih => simp [State.putFlags, ih]
@[simp] theorem State.putFlags_ddr (l : List (Flag × Bool)) :
    (s.putFlags l).ddr = s.ddr := by
  induction l generalizing s with
  | nil => rfl
  | cons p l ih => simp [State.putFlags, ih]
@[simp] theorem State.putFlags_pc (l : List (Flag × Bool)) :
    (s.putFlags l).pc = s.pc := by
  induction l generalizing s with
  | nil => rfl
  | cons p l ih => simp [State.putFlags, ih]
@[simp] theorem State.putFlags_ramA (l : List (Flag × Bool)) :
    (s.putFlags l).ramA = s.ramA := by
  induction l generalizing s with
  | nil => rfl
  | cons p l ih => simp [State.putFlags, ih]
@[simp] theorem State.putFlags_ramB (l : List (Flag × Bool)) :
    (s.putFlags l).ramB = s.ramB := by
  induction l generalizing s with
  | nil => rfl
  | cons p l ih => simp [State.putFlags, ih]
@[simp] theorem State.putFlags_cache (l : List (Flag × Bool)) :
    (s.putFlags l).cache = s.cache := by
  induction l generalizing s with
  | nil => rfl
  | cons p l ih => simp [State.putFlags, ih]
@[simp] theorem State.putFlags_cacheUsed (l : List (Flag × Bool)) :
    (s.putFlags l).cacheUsed = s.cacheUsed := by
  induction l generalizing s with
  | nil => rfl
  | cons p l ih => simp [State.putFlags, ih]
@[simp] theorem State.putFlags_dstate (l : List (Flag × Bool)) :
    (s.putFlags l).dstate = s.dstate := by
  induction l generalizing s with
  | nil => rfl
  | cons p l ih => simp [State.putFlags, ih]
@[simp] theorem State.putFlags_icount (l : List (Flag × Bool)) :
    (s.putFlags l).icount = s.icount := by
  induction l generalizing s with
  | nil => rfl
  | cons p l ih => simp [State.putFlags, ih]
@[simp] theorem State.putFlags_faultRec (l : List (Flag × Bool)) :
    (s.putFlags l).faultRec = s.faultRec := by
  induction l generalizing s with
  | nil => rfl
  | cons p l ih => simp [State.putFlags, ih]
@[simp] theorem State.putFlags_scratch (l : List (Flag × Bool)) :
    (s.putFlags l).scratch = s.scratch := by
  induction l generalizing s with
  | nil => rfl
  | cons p l ih => simp [State.putFlags, ih]
@[simp] theorem State.putFlags_cur (l : List (Flag × Bool)) :
    (s.putFlags l).cur = s.cur := by
  induction l generalizing s with
  | nil => rfl
  | cons p l ih => simp [State.putFlags, ih]
@[simp] theorem State.putFlags_brpend (l : List (Flag × Bool)) :
    (s.putFlags l).brpend = s.brpend := by
  induction l generalizing s with
  | nil => rfl
  | cons p l ih => simp [State.putFlags, ih]
@[simp] theorem State.putFlags_preFlags (l : List (Flag × Bool)) :
    (s.putFlags l).preFlags = s.preFlags := by
  induction l generalizing s with
  | nil => rfl
  | cons p l ih => simp [State.putFlags, ih]
@[simp] theorem State.putFlags_prog (l : List (Flag × Bool)) :
    (s.putFlags l).prog = s.prog := by
  induction l generalizing s with
  | nil => rfl
  | cons p l ih => simp [State.putFlags, ih]
@[simp] theorem State.putFlags_progWords (l : List (Flag × Bool)) :
    (s.putFlags l).progWords = s.progWords := by
  induction l generalizing s with
  | nil => rfl
  | cons p l ih => simp [State.putFlags, ih]
@[simp] theorem State.putFlags_progDirty (l : List (Flag × Bool)) :
    (s.putFlags l).progDirty = s.progDirty := by
  induction l generalizing s with
  | nil => rfl
  | cons p l ih => simp [State.putFlags, ih]
@[simp] theorem State.putFlags_cfg (l : List (Flag × Bool)) :
    (s.putFlags l).cfg = s.cfg := by
  induction l generalizing s with
  | nil => rfl
  | cons p l ih => simp [State.putFlags, ih]
@[simp] theorem State.putFlags_extIn (l : List (Flag × Bool)) :
    (s.putFlags l).extIn = s.extIn := by
  induction l generalizing s with
  | nil => rfl
  | cons p l ih => simp [State.putFlags, ih]
@[simp] theorem State.putFlags_extLog (l : List (Flag × Bool)) :
    (s.putFlags l).extLog = s.extLog := by
  induction l generalizing s with
  | nil => rfl
  | cons p l ih => simp [State.putFlags, ih]
@[simp] theorem State.putFlags_schedule (l : List (Flag × Bool)) :
    (s.putFlags l).schedule = s.schedule := by
  induction l generalizing s with
  | nil => rfl
  | cons p l ih => simp [State.putFlags, ih]
@[simp] theorem State.putFlags_reply (l : List (Flag × Bool)) :
    (s.putFlags l).reply = s.reply := by
  induction l generalizing s with
  | nil => rfl
  | cons p l ih => simp [State.putFlags, ih]
@[simp] theorem State.putFlags_signal (l : List (Flag × Bool)) :
    (s.putFlags l).signal = s.signal := by
  induction l generalizing s with
  | nil => rfl
  | cons p l ih => simp [State.putFlags, ih]

/-! ## `State.havoc`, `State.havocAll` and `State.raiseOp` -/

@[simp] theorem State.havoc_pc (l : Loc) : (s.havoc l).pc = s.pc := by
  cases l <;> simp [State.havoc]
@[simp] theorem State.havoc_cache (l : Loc) : (s.havoc l).cache = s.cache := by
  cases l <;> simp [State.havoc]
@[simp] theorem State.havoc_cacheUsed (l : Loc) : (s.havoc l).cacheUsed = s.cacheUsed := by
  cases l <;> simp [State.havoc]
@[simp] theorem State.havoc_dstate (l : Loc) : (s.havoc l).dstate = s.dstate := by
  cases l <;> simp [State.havoc]
@[simp] theorem State.havoc_icount (l : Loc) : (s.havoc l).icount = s.icount := by
  cases l <;> simp [State.havoc]
@[simp] theorem State.havoc_faultRec (l : Loc) : (s.havoc l).faultRec = s.faultRec := by
  cases l <;> simp [State.havoc]
@[simp] theorem State.havoc_scratch (l : Loc) : (s.havoc l).scratch = s.scratch := by
  cases l <;> simp [State.havoc]
@[simp] theorem State.havoc_cur (l : Loc) : (s.havoc l).cur = s.cur := by
  cases l <;> simp [State.havoc]
@[simp] theorem State.havoc_brpend (l : Loc) : (s.havoc l).brpend = s.brpend := by
  cases l <;> simp [State.havoc]
@[simp] theorem State.havoc_preFlags (l : Loc) : (s.havoc l).preFlags = s.preFlags := by
  cases l <;> simp [State.havoc]
@[simp] theorem State.havoc_prog (l : Loc) : (s.havoc l).prog = s.prog := by
  cases l <;> simp [State.havoc]
@[simp] theorem State.havoc_progWords (l : Loc) : (s.havoc l).progWords = s.progWords := by
  cases l <;> simp [State.havoc]
@[simp] theorem State.havoc_progDirty (l : Loc) : (s.havoc l).progDirty = s.progDirty := by
  cases l <;> simp [State.havoc]
@[simp] theorem State.havoc_cfg (l : Loc) : (s.havoc l).cfg = s.cfg := by
  cases l <;> simp [State.havoc]
@[simp] theorem State.havoc_extIn (l : Loc) : (s.havoc l).extIn = s.extIn := by
  cases l <;> simp [State.havoc]
@[simp] theorem State.havoc_schedule (l : Loc) : (s.havoc l).schedule = s.schedule := by
  cases l <;> simp [State.havoc]
@[simp] theorem State.havoc_reply (l : Loc) : (s.havoc l).reply = s.reply := by
  cases l <;> simp [State.havoc]
@[simp] theorem State.havoc_signal (l : Loc) : (s.havoc l).signal = s.signal := by
  cases l <;> simp [State.havoc]
@[simp] theorem State.havocAll_pc (ls : List Loc) :
    (s.havocAll ls).pc = s.pc := by
  induction ls generalizing s with
  | nil => rfl
  | cons l ls ih => exact (ih (s.havoc l)).trans (s.havoc_pc l)
@[simp] theorem State.havocAll_cache (ls : List Loc) :
    (s.havocAll ls).cache = s.cache := by
  induction ls generalizing s with
  | nil => rfl
  | cons l ls ih => exact (ih (s.havoc l)).trans (s.havoc_cache l)
@[simp] theorem State.havocAll_cacheUsed (ls : List Loc) :
    (s.havocAll ls).cacheUsed = s.cacheUsed := by
  induction ls generalizing s with
  | nil => rfl
  | cons l ls ih => exact (ih (s.havoc l)).trans (s.havoc_cacheUsed l)
@[simp] theorem State.havocAll_dstate (ls : List Loc) :
    (s.havocAll ls).dstate = s.dstate := by
  induction ls generalizing s with
  | nil => rfl
  | cons l ls ih => exact (ih (s.havoc l)).trans (s.havoc_dstate l)
@[simp] theorem State.havocAll_icount (ls : List Loc) :
    (s.havocAll ls).icount = s.icount := by
  induction ls generalizing s with
  | nil => rfl
  | cons l ls ih => exact (ih (s.havoc l)).trans (s.havoc_icount l)
@[simp] theorem State.havocAll_faultRec (ls : List Loc) :
    (s.havocAll ls).faultRec = s.faultRec := by
  induction ls generalizing s with
  | nil => rfl
  | cons l ls ih => exact (ih (s.havoc l)).trans (s.havoc_faultRec l)
@[simp] theorem State.havocAll_scratch (ls : List Loc) :
    (s.havocAll ls).scratch = s.scratch := by
  induction ls generalizing s with
  | nil => rfl
  | cons l ls ih => exact (ih (s.havoc l)).trans (s.havoc_scratch l)
@[simp] theorem State.havocAll_cur (ls : List Loc) :
    (s.havocAll ls).cur = s.cur := by
  induction ls generalizing s with
  | nil => rfl
  | cons l ls ih => exact (ih (s.havoc l)).trans (s.havoc_cur l)
@[simp] theorem State.havocAll_brpend (ls : List Loc) :
    (s.havocAll ls).brpend = s.brpend := by
  induction ls generalizing s with
  | nil => rfl
  | cons l ls ih => exact (ih (s.havoc l)).trans (s.havoc_brpend l)
@[simp] theorem State.havocAll_preFlags (ls : List Loc) :
    (s.havocAll ls).preFlags = s.preFlags := by
  induction ls generalizing s with
  | nil => rfl
  | cons l ls ih => exact (ih (s.havoc l)).trans (s.havoc_preFlags l)
@[simp] theorem State.havocAll_prog (ls : List Loc) :
    (s.havocAll ls).prog = s.prog := by
  induction ls generalizing s with
  | nil => rfl
  | cons l ls ih => exact (ih (s.havoc l)).trans (s.havoc_prog l)
@[simp] theorem State.havocAll_progWords (ls : List Loc) :
    (s.havocAll ls).progWords = s.progWords := by
  induction ls generalizing s with
  | nil => rfl
  | cons l ls ih => exact (ih (s.havoc l)).trans (s.havoc_progWords l)
@[simp] theorem State.havocAll_progDirty (ls : List Loc) :
    (s.havocAll ls).progDirty = s.progDirty := by
  induction ls generalizing s with
  | nil => rfl
  | cons l ls ih => exact (ih (s.havoc l)).trans (s.havoc_progDirty l)
@[simp] theorem State.havocAll_cfg (ls : List Loc) :
    (s.havocAll ls).cfg = s.cfg := by
  induction ls generalizing s with
  | nil => rfl
  | cons l ls ih => exact (ih (s.havoc l)).trans (s.havoc_cfg l)
@[simp] theorem State.havocAll_extIn (ls : List Loc) :
    (s.havocAll ls).extIn = s.extIn := by
  induction ls generalizing s with
  | nil => rfl
  | cons l ls ih => exact (ih (s.havoc l)).trans (s.havoc_extIn l)
@[simp] theorem State.havocAll_schedule (ls : List Loc) :
    (s.havocAll ls).schedule = s.schedule := by
  induction ls generalizing s with
  | nil => rfl
  | cons l ls ih => exact (ih (s.havoc l)).trans (s.havoc_schedule l)
@[simp] theorem State.havocAll_reply (ls : List Loc) :
    (s.havocAll ls).reply = s.reply := by
  induction ls generalizing s with
  | nil => rfl
  | cons l ls ih => exact (ih (s.havoc l)).trans (s.havoc_reply l)
@[simp] theorem State.havocAll_signal (ls : List Loc) :
    (s.havocAll ls).signal = s.signal := by
  induction ls generalizing s with
  | nil => rfl
  | cons l ls ih => exact (ih (s.havoc l)).trans (s.havoc_signal l)
@[simp] theorem State.raiseOp_pc (i : Instr) (s0 : State) (k : FaultKind)
    (info : Option Nat) : (s.raiseOp i s0 k info).pc = s.pc := by
  simp [State.raiseOp]
@[simp] theorem State.raiseOp_cache (i : Instr) (s0 : State) (k : FaultKind)
    (info : Option Nat) : (s.raiseOp i s0 k info).cache = s.cache := by
  simp [State.raiseOp]
@[simp] theorem State.raiseOp_cacheUsed (i : Instr) (s0 : State) (k : FaultKind)
    (info : Option Nat) : (s.raiseOp i s0 k info).cacheUsed = s.cacheUsed := by
  simp [State.raiseOp]
@[simp] theorem State.raiseOp_dstate (i : Instr) (s0 : State) (k : FaultKind)
    (info : Option Nat) : (s.raiseOp i s0 k info).dstate = .fault := by
  simp [State.raiseOp]
@[simp] theorem State.raiseOp_icount (i : Instr) (s0 : State) (k : FaultKind)
    (info : Option Nat) : (s.raiseOp i s0 k info).icount = s.icount := by
  simp [State.raiseOp]
@[simp] theorem State.raiseOp_faultRec (i : Instr) (s0 : State) (k : FaultKind)
    (info : Option Nat) : (s.raiseOp i s0 k info).faultRec = some (s.faultInfo k info) := by
  simp [State.raiseOp]
@[simp] theorem State.raiseOp_scratch (i : Instr) (s0 : State) (k : FaultKind)
    (info : Option Nat) : (s.raiseOp i s0 k info).scratch = [] := by
  simp [State.raiseOp]
@[simp] theorem State.raiseOp_cur (i : Instr) (s0 : State) (k : FaultKind)
    (info : Option Nat) : (s.raiseOp i s0 k info).cur = none := by
  simp [State.raiseOp]
@[simp] theorem State.raiseOp_brpend (i : Instr) (s0 : State) (k : FaultKind)
    (info : Option Nat) : (s.raiseOp i s0 k info).brpend = none := by
  simp [State.raiseOp]
@[simp] theorem State.raiseOp_preFlags (i : Instr) (s0 : State) (k : FaultKind)
    (info : Option Nat) : (s.raiseOp i s0 k info).preFlags = s.preFlags := by
  simp [State.raiseOp]
@[simp] theorem State.raiseOp_prog (i : Instr) (s0 : State) (k : FaultKind)
    (info : Option Nat) : (s.raiseOp i s0 k info).prog = s.prog := by
  simp [State.raiseOp]
@[simp] theorem State.raiseOp_progWords (i : Instr) (s0 : State) (k : FaultKind)
    (info : Option Nat) : (s.raiseOp i s0 k info).progWords = s.progWords := by
  simp [State.raiseOp]
@[simp] theorem State.raiseOp_progDirty (i : Instr) (s0 : State) (k : FaultKind)
    (info : Option Nat) : (s.raiseOp i s0 k info).progDirty = s.progDirty := by
  simp [State.raiseOp]
@[simp] theorem State.raiseOp_cfg (i : Instr) (s0 : State) (k : FaultKind)
    (info : Option Nat) : (s.raiseOp i s0 k info).cfg = s.cfg := by
  simp [State.raiseOp]
@[simp] theorem State.raiseOp_extIn (i : Instr) (s0 : State) (k : FaultKind)
    (info : Option Nat) : (s.raiseOp i s0 k info).extIn = s.extIn := by
  simp [State.raiseOp]
@[simp] theorem State.raiseOp_schedule (i : Instr) (s0 : State) (k : FaultKind)
    (info : Option Nat) : (s.raiseOp i s0 k info).schedule = s.schedule := by
  simp [State.raiseOp]
@[simp] theorem State.raiseOp_reply (i : Instr) (s0 : State) (k : FaultKind)
    (info : Option Nat) : (s.raiseOp i s0 k info).reply = .fault (s.faultInfo k info) := by
  simp [State.raiseOp]
@[simp] theorem State.raiseOp_signal (i : Instr) (s0 : State) (k : FaultKind)
    (info : Option Nat) : (s.raiseOp i s0 k info).signal = faultSignal k s.signal := by
  simp [State.raiseOp]

/-! ## `State.commit` -/

@[simp] theorem State.commitFrom_ar (e ps : List Pending) :
    (s.commitFrom e ps).ar = s.ar := by
  induction ps generalizing s e with
  | nil => rfl
  | cons p ps ih =>
    rw [State.commitFrom, ih, State.commitOne]
    split <;> simp
@[simp] theorem State.commitFrom_pr (e ps : List Pending) :
    (s.commitFrom e ps).pr = s.pr := by
  induction ps generalizing s e with
  | nil => rfl
  | cons p ps ih =>
    rw [State.commitFrom, ih, State.commitOne]
    split <;> simp
@[simp] theorem State.commitFrom_prp (e ps : List Pending) :
    (s.commitFrom e ps).prp = s.prp := by
  induction ps generalizing s e with
  | nil => rfl
  | cons p ps ih =>
    rw [State.commitFrom, ih, State.commitOne]
    split <;> simp
@[simp] theorem State.commitFrom_pwp (e ps : List Pending) :
    (s.commitFrom e ps).pwp = s.pwp := by
  induction ps generalizing s e with
  | nil => rfl
  | cons p ps ih =>
    rw [State.commitFrom, ih, State.commitOne]
    split <;> simp
@[simp] theorem State.commitFrom_pcs (e ps : List Pending) :
    (s.commitFrom e ps).pcs = s.pcs := by
  induction ps generalizing s e with
  | nil => rfl
  | cons p ps ih =>
    rw [State.commitFrom, ih, State.commitOne]
    split <;> simp
@[simp] theorem State.commitFrom_pcsp (e ps : List Pending) :
    (s.commitFrom e ps).pcsp = s.pcsp := by
  induction ps generalizing s e with
  | nil => rfl
  | cons p ps ih =>
    rw [State.commitFrom, ih, State.commitOne]
    split <;> simp
@[simp] theorem State.commitFrom_flags (e ps : List Pending) :
    (s.commitFrom e ps).flags = s.flags := by
  induction ps generalizing s e with
  | nil => rfl
  | cons p ps ih =>
    rw [State.commitFrom, ih, State.commitOne]
    split <;> simp
@[simp] theorem State.commitFrom_fi (e ps : List Pending) :
    (s.commitFrom e ps).fi = s.fi := by
  induction ps generalizing s e with
  | nil => rfl
  | cons p ps ih =>
    rw [State.commitFrom, ih, State.commitOne]
    split <;> simp
@[simp] theorem State.commitFrom_fo0 (e ps : List Pending) :
    (s.commitFrom e ps).fo0 = s.fo0 := by
  induction ps generalizing s e with
  | nil => rfl
  | cons p ps ih =>
    rw [State.commitFrom, ih, State.commitOne]
    split <;> simp
@[simp] theorem State.commitFrom_fo1 (e ps : List Pending) :
    (s.commitFrom e ps).fo1 = s.fo1 := by
  induction ps generalizing s e with
  | nil => rfl
  | cons p ps ih =>
    rw [State.commitFrom, ih, State.commitOne]
    split <;> simp
@[simp] theorem State.commitFrom_eb (e ps : List Pending) :
    (s.commitFrom e ps).eb = s.eb := by
  induction ps generalizing s e with
  | nil => rfl
  | cons p ps ih =>
    rw [State.commitFrom, ih, State.commitOne]
    split <;> simp
@[simp] theorem State.commitFrom_eo (e ps : List Pending) :
    (s.commitFrom e ps).eo = s.eo := by
  induction ps generalizing s e with
  | nil => rfl
  | cons p ps ih =>
    rw [State.commitFrom, ih, State.commitOne]
    split <;> simp
@[simp] theorem State.commitFrom_sp (e ps : List Pending) :
    (s.commitFrom e ps).sp = s.sp := by
  induction ps generalizing s e with
  | nil => rfl
  | cons p ps ih =>
    rw [State.commitFrom, ih, State.commitOne]
    split <;> simp
@[simp] theorem State.commitFrom_mod (e ps : List Pending) :
    (s.commitFrom e ps).mod = s.mod := by
  induction ps generalizing s e with
  | nil => rfl
  | cons p ps ih =>
    rw [State.commitFrom, ih, State.commitOne]
    split <;> simp
@[simp] theorem State.commitFrom_pdr (e ps : List Pending) :
    (s.commitFrom e ps).pdr = s.pdr := by
  induction ps generalizing s e with
  | nil => rfl
  | cons p ps ih =>
    rw [State.commitFrom, ih, State.commitOne]
    split <;> simp
@[simp] theorem State.commitFrom_ddr (e ps : List Pending) :
    (s.commitFrom e ps).ddr = s.ddr := by
  induction ps generalizing s e with
  | nil => rfl
  | cons p ps ih =>
    rw [State.commitFrom, ih, State.commitOne]
    split <;> simp
@[simp] theorem State.commitFrom_pc (e ps : List Pending) :
    (s.commitFrom e ps).pc = s.pc := by
  induction ps generalizing s e with
  | nil => rfl
  | cons p ps ih =>
    rw [State.commitFrom, ih, State.commitOne]
    split <;> simp
@[simp] theorem State.commitFrom_ramA (e ps : List Pending) :
    (s.commitFrom e ps).ramA = s.ramA := by
  induction ps generalizing s e with
  | nil => rfl
  | cons p ps ih =>
    rw [State.commitFrom, ih, State.commitOne]
    split <;> simp
@[simp] theorem State.commitFrom_ramB (e ps : List Pending) :
    (s.commitFrom e ps).ramB = s.ramB := by
  induction ps generalizing s e with
  | nil => rfl
  | cons p ps ih =>
    rw [State.commitFrom, ih, State.commitOne]
    split <;> simp
@[simp] theorem State.commitFrom_cache (e ps : List Pending) :
    (s.commitFrom e ps).cache = s.cache := by
  induction ps generalizing s e with
  | nil => rfl
  | cons p ps ih =>
    rw [State.commitFrom, ih, State.commitOne]
    split <;> simp
@[simp] theorem State.commitFrom_cacheUsed (e ps : List Pending) :
    (s.commitFrom e ps).cacheUsed = s.cacheUsed := by
  induction ps generalizing s e with
  | nil => rfl
  | cons p ps ih =>
    rw [State.commitFrom, ih, State.commitOne]
    split <;> simp
@[simp] theorem State.commitFrom_dstate (e ps : List Pending) :
    (s.commitFrom e ps).dstate = s.dstate := by
  induction ps generalizing s e with
  | nil => rfl
  | cons p ps ih =>
    rw [State.commitFrom, ih, State.commitOne]
    split <;> simp
@[simp] theorem State.commitFrom_icount (e ps : List Pending) :
    (s.commitFrom e ps).icount = s.icount := by
  induction ps generalizing s e with
  | nil => rfl
  | cons p ps ih =>
    rw [State.commitFrom, ih, State.commitOne]
    split <;> simp
@[simp] theorem State.commitFrom_faultRec (e ps : List Pending) :
    (s.commitFrom e ps).faultRec = s.faultRec := by
  induction ps generalizing s e with
  | nil => rfl
  | cons p ps ih =>
    rw [State.commitFrom, ih, State.commitOne]
    split <;> simp
@[simp] theorem State.commitFrom_cur (e ps : List Pending) :
    (s.commitFrom e ps).cur = s.cur := by
  induction ps generalizing s e with
  | nil => rfl
  | cons p ps ih =>
    rw [State.commitFrom, ih, State.commitOne]
    split <;> simp
@[simp] theorem State.commitFrom_brpend (e ps : List Pending) :
    (s.commitFrom e ps).brpend = s.brpend := by
  induction ps generalizing s e with
  | nil => rfl
  | cons p ps ih =>
    rw [State.commitFrom, ih, State.commitOne]
    split <;> simp
@[simp] theorem State.commitFrom_preFlags (e ps : List Pending) :
    (s.commitFrom e ps).preFlags = s.preFlags := by
  induction ps generalizing s e with
  | nil => rfl
  | cons p ps ih =>
    rw [State.commitFrom, ih, State.commitOne]
    split <;> simp
@[simp] theorem State.commitFrom_prog (e ps : List Pending) :
    (s.commitFrom e ps).prog = s.prog := by
  induction ps generalizing s e with
  | nil => rfl
  | cons p ps ih =>
    rw [State.commitFrom, ih, State.commitOne]
    split <;> simp
@[simp] theorem State.commitFrom_progWords (e ps : List Pending) :
    (s.commitFrom e ps).progWords = s.progWords := by
  induction ps generalizing s e with
  | nil => rfl
  | cons p ps ih =>
    rw [State.commitFrom, ih, State.commitOne]
    split <;> simp
@[simp] theorem State.commitFrom_progDirty (e ps : List Pending) :
    (s.commitFrom e ps).progDirty = s.progDirty := by
  induction ps generalizing s e with
  | nil => rfl
  | cons p ps ih =>
    rw [State.commitFrom, ih, State.commitOne]
    split <;> simp
@[simp] theorem State.commitFrom_cfg (e ps : List Pending) :
    (s.commitFrom e ps).cfg = s.cfg := by
  induction ps generalizing s e with
  | nil => rfl
  | cons p ps ih =>
    rw [State.commitFrom, ih, State.commitOne]
    split <;> simp
@[simp] theorem State.commitFrom_extIn (e ps : List Pending) :
    (s.commitFrom e ps).extIn = s.extIn := by
  induction ps generalizing s e with
  | nil => rfl
  | cons p ps ih =>
    rw [State.commitFrom, ih, State.commitOne]
    split <;> simp
@[simp] theorem State.commitFrom_extLog (e ps : List Pending) :
    (s.commitFrom e ps).extLog = s.extLog := by
  induction ps generalizing s e with
  | nil => rfl
  | cons p ps ih =>
    rw [State.commitFrom, ih, State.commitOne]
    split <;> simp
@[simp] theorem State.commitFrom_schedule (e ps : List Pending) :
    (s.commitFrom e ps).schedule = s.schedule := by
  induction ps generalizing s e with
  | nil => rfl
  | cons p ps ih =>
    rw [State.commitFrom, ih, State.commitOne]
    split <;> simp
@[simp] theorem State.commitFrom_reply (e ps : List Pending) :
    (s.commitFrom e ps).reply = s.reply := by
  induction ps generalizing s e with
  | nil => rfl
  | cons p ps ih =>
    rw [State.commitFrom, ih, State.commitOne]
    split <;> simp
@[simp] theorem State.commitFrom_signal (e ps : List Pending) :
    (s.commitFrom e ps).signal = s.signal := by
  induction ps generalizing s e with
  | nil => rfl
  | cons p ps ih =>
    rw [State.commitFrom, ih, State.commitOne]
    split <;> simp
@[simp] theorem State.commit_ar : s.commit.ar = s.ar := by simp [State.commit]
@[simp] theorem State.commit_pr : s.commit.pr = s.pr := by simp [State.commit]
@[simp] theorem State.commit_prp : s.commit.prp = s.prp := by simp [State.commit]
@[simp] theorem State.commit_pwp : s.commit.pwp = s.pwp := by simp [State.commit]
@[simp] theorem State.commit_pcs : s.commit.pcs = s.pcs := by simp [State.commit]
@[simp] theorem State.commit_pcsp : s.commit.pcsp = s.pcsp := by simp [State.commit]
@[simp] theorem State.commit_flags : s.commit.flags = s.flags := by simp [State.commit]
@[simp] theorem State.commit_fi : s.commit.fi = s.fi := by simp [State.commit]
@[simp] theorem State.commit_fo0 : s.commit.fo0 = s.fo0 := by simp [State.commit]
@[simp] theorem State.commit_fo1 : s.commit.fo1 = s.fo1 := by simp [State.commit]
@[simp] theorem State.commit_eb : s.commit.eb = s.eb := by simp [State.commit]
@[simp] theorem State.commit_eo : s.commit.eo = s.eo := by simp [State.commit]
@[simp] theorem State.commit_sp : s.commit.sp = s.sp := by simp [State.commit]
@[simp] theorem State.commit_mod : s.commit.mod = s.mod := by simp [State.commit]
@[simp] theorem State.commit_pdr : s.commit.pdr = s.pdr := by simp [State.commit]
@[simp] theorem State.commit_ddr : s.commit.ddr = s.ddr := by simp [State.commit]
@[simp] theorem State.commit_pc : s.commit.pc = s.pc := by simp [State.commit]
@[simp] theorem State.commit_ramA : s.commit.ramA = s.ramA := by simp [State.commit]
@[simp] theorem State.commit_ramB : s.commit.ramB = s.ramB := by simp [State.commit]
@[simp] theorem State.commit_cache : s.commit.cache = s.cache := by simp [State.commit]
@[simp] theorem State.commit_cacheUsed : s.commit.cacheUsed = s.cacheUsed := by simp [State.commit]
@[simp] theorem State.commit_dstate : s.commit.dstate = s.dstate := by simp [State.commit]
@[simp] theorem State.commit_icount : s.commit.icount = s.icount := by simp [State.commit]
@[simp] theorem State.commit_faultRec : s.commit.faultRec = s.faultRec := by simp [State.commit]
@[simp] theorem State.commit_scratch : s.commit.scratch = [] := rfl
@[simp] theorem State.commit_cur : s.commit.cur = s.cur := by simp [State.commit]
@[simp] theorem State.commit_brpend : s.commit.brpend = s.brpend := by simp [State.commit]
@[simp] theorem State.commit_preFlags : s.commit.preFlags = s.preFlags := by simp [State.commit]
@[simp] theorem State.commit_prog : s.commit.prog = s.prog := by simp [State.commit]
@[simp] theorem State.commit_progWords : s.commit.progWords = s.progWords := by simp [State.commit]
@[simp] theorem State.commit_progDirty : s.commit.progDirty = s.progDirty := by simp [State.commit]
@[simp] theorem State.commit_cfg : s.commit.cfg = s.cfg := by simp [State.commit]
@[simp] theorem State.commit_extIn : s.commit.extIn = s.extIn := by simp [State.commit]
@[simp] theorem State.commit_extLog : s.commit.extLog = s.extLog := by simp [State.commit]
@[simp] theorem State.commit_schedule : s.commit.schedule = s.schedule := by simp [State.commit]
@[simp] theorem State.commit_reply : s.commit.reply = s.reply := by simp [State.commit]
@[simp] theorem State.commit_signal : s.commit.signal = s.signal := by simp [State.commit]

end Sys2Proof.Machine
end

