-- ==== Sys2Proof/Laws/Memory.lean ====
section
/-!
SUPPORT. The laws of a memory: every operation keeps the canonical form, a read after a write gives what
was written, and a write leaves every other byte alone.
-/

namespace Sys2Proof.Machine

-- one declaration at a time: a thread for each would outgrow the check's memory limit
set_option Elab.async false

/-! ## The canonical form -/

theorem Memory.wfFrom_cons (lo k : Nat) (b : Byte) (m : Memory) :
    wfFrom lo ((k, b) :: m) = true ↔ lo ≤ k ∧ b ≠ unlistedByte ∧ wfFrom (k + 1) m = true := by
  simp [wfFrom, and_assoc]

theorem Memory.wfFrom_mono {lo lo' : Nat} {m : Memory} (h : wfFrom lo m = true) (hl : lo' ≤ lo) :
    wfFrom lo' m = true := by
  cases m with
  | nil => rfl
  | cons c m =>
    obtain ⟨h1, h2, h3⟩ := (wfFrom_cons ..).1 h
    exact (wfFrom_cons ..).2 ⟨by omega, h2, h3⟩

theorem Memory.wfFrom_consByte {lo a : Nat} {v : Byte} {m : Memory} (hl : lo ≤ a)
    (h : wfFrom (a + 1) m = true) : wfFrom lo (Memory.cons a v m) = true := by
  unfold Memory.cons
  split
  · exact wfFrom_mono h (by omega)
  · exact (wfFrom_cons ..).2 ⟨hl, ‹_›, h⟩

theorem Memory.wfFrom_writeByte {lo a : Nat} {v : Byte} {m : Memory} (h : wfFrom lo m = true)
    (hl : lo ≤ a) : wfFrom lo (m.writeByte a v) = true := by
  induction m generalizing lo with
  | nil => exact wfFrom_consByte hl rfl
  | cons c m ih =>
    obtain ⟨k, b⟩ := c
    obtain ⟨h1, h2, h3⟩ := (wfFrom_cons ..).1 h
    unfold writeByte
    split
    · exact wfFrom_consByte hl ((wfFrom_cons ..).2 ⟨by omega, h2, h3⟩)
    · split
      · subst a; exact wfFrom_consByte hl h3
      · exact (wfFrom_cons ..).2 ⟨h1, h2, ih h3 (by omega)⟩

/-- Writing a byte keeps the canonical form. -/
@[simp] theorem Memory.wf_writeByte {m : Memory} (h : m.wf = true) (a : Nat) (v : Byte) :
    (m.writeByte a v).wf = true := wfFrom_writeByte h (Nat.zero_le a)

/-- Writing a word keeps the canonical form. -/
@[simp] theorem Memory.wf_writeWord {m : Memory} (h : m.wf = true) (a : Nat) (v : Word) :
    (m.writeWord a v).wf = true :=
  wf_writeByte (wf_writeByte (wf_writeByte (wf_writeByte h _ _) _ _) _ _) _ _

/-- Writing a bundle keeps the canonical form. -/
@[simp] theorem Memory.wf_writeDWord {m : Memory} (h : m.wf = true) (a : Nat) (v : DWord) :
    (m.writeDWord a v).wf = true :=
  wf_writeWord (wf_writeWord h _ _) _ _

theorem Memory.wf_nil : Memory.wf [] = true := rfl

/-- The memories after reset are in canonical form. -/
theorem Memory.reset_wf :
    State.reset.ramA.wf = true ∧ State.reset.ramB.wf = true ∧ State.reset.prog.wf = true :=
  ⟨rfl, rfl, rfl⟩

/-! ## Bytes -/

theorem Memory.readByte_below {lo a : Nat} {m : Memory} (h : wfFrom lo m = true) (ha : a < lo) :
    m.readByte a = unlistedByte := by
  induction m generalizing lo with
  | nil => rfl
  | cons c m ih =>
    obtain ⟨k, b⟩ := c
    obtain ⟨h1, -, h3⟩ := (wfFrom_cons ..).1 h
    simp only [readByte, show k ≠ a by omega, if_false]
    exact ih h3 (by omega)

theorem Memory.readByte_consByte (a : Nat) (v : Byte) (m : Memory) (x : Nat) (hx : x ≠ a) :
    (Memory.cons a v m).readByte x = m.readByte x := by
  unfold Memory.cons
  split
  · rfl
  · simp [readByte, hx.symm]

theorem Memory.readByte_consByte_same {a : Nat} {v : Byte} {m : Memory} (h : wfFrom (a + 1) m = true) :
    (Memory.cons a v m).readByte a = v := by
  unfold Memory.cons
  split
  · rw [readByte_below h (by omega)]; exact (Eq.symm ‹_›)
  · simp [readByte]

/-- A write leaves every other byte alone. -/
theorem Memory.readByte_writeByte_of_ne {x a : Nat} (m : Memory) (v : Byte) (hx : x ≠ a) :
    (m.writeByte a v).readByte x = m.readByte x := by
  induction m with
  | nil => exact readByte_consByte _ _ _ _ hx
  | cons c m ih =>
    obtain ⟨k, b⟩ := c
    unfold writeByte
    split
    · exact readByte_consByte _ _ _ _ hx
    · split
      · subst a; rw [readByte_consByte _ _ _ _ hx]; simp [readByte, hx.symm]
      · simp only [readByte, ih]

theorem Memory.readByte_writeByte_from {lo a : Nat} {m : Memory} (h : wfFrom lo m = true) (v : Byte) :
    (m.writeByte a v).readByte a = v := by
  induction m generalizing lo with
  | nil => exact readByte_consByte_same rfl
  | cons c m ih =>
    obtain ⟨k, b⟩ := c
    obtain ⟨h1, h2, h3⟩ := (wfFrom_cons ..).1 h
    unfold writeByte
    split
    · exact readByte_consByte_same ((wfFrom_cons ..).2 ⟨by omega, h2, h3⟩)
    · split
      · subst a; exact readByte_consByte_same h3
      · simp only [readByte, show k ≠ a by omega, if_false]; exact ih h3

/-- A byte reads as it was last written. -/
theorem Memory.readByte_writeByte {m : Memory} (h : m.wf = true) (a : Nat) (v : Byte) :
    (m.writeByte a v).readByte a = v := readByte_writeByte_from h v

/-! ## Words -/

/-- A word write leaves every byte outside its four alone. -/
theorem Memory.readByte_writeWord_of_ne {x a : Nat} (m : Memory) (v : Word) (hx : x < 4 * a ∨ 4 * a + 4 ≤ x) :
    (m.writeWord a v).readByte x = m.readByte x := by
  unfold writeWord
  rw [readByte_writeByte_of_ne _ _ (by omega), readByte_writeByte_of_ne _ _ (by omega),
    readByte_writeByte_of_ne _ _ (by omega), readByte_writeByte_of_ne _ _ (by omega)]

/-- A word write leaves every other word alone. -/
theorem Memory.readWord_writeWord_of_ne {x a : Nat} (m : Memory) (v : Word) (hx : x ≠ a) :
    (m.writeWord a v).readWord x = m.readWord x := by
  unfold readWord
  rw [readByte_writeWord_of_ne _ _ (by omega), readByte_writeWord_of_ne _ _ (by omega),
    readByte_writeWord_of_ne _ _ (by omega), readByte_writeWord_of_ne _ _ (by omega)]

/-- A word reads as it was last written. -/
theorem Memory.readWord_writeWord {m : Memory} (h : m.wf = true) (a : Nat) (v : Word) :
    (m.writeWord a v).readWord a = v := by
  unfold readWord writeWord
  have w1 := wf_writeByte h (4 * a) (v.extractLsb' 0 8)
  have w2 := wf_writeByte w1 (4 * a + 1) (v.extractLsb' 8 8)
  have w3 := wf_writeByte w2 (4 * a + 2) (v.extractLsb' 16 8)
  rw [readByte_writeByte w3,
    readByte_writeByte_of_ne _ _ (show 4 * a + 2 ≠ 4 * a + 3 by omega),
    readByte_writeByte w2,
    readByte_writeByte_of_ne _ _ (show 4 * a + 1 ≠ 4 * a + 3 by omega),
    readByte_writeByte_of_ne _ _ (show 4 * a + 1 ≠ 4 * a + 2 by omega),
    readByte_writeByte w1,
    readByte_writeByte_of_ne _ _ (show 4 * a ≠ 4 * a + 3 by omega),
    readByte_writeByte_of_ne _ _ (show 4 * a ≠ 4 * a + 2 by omega),
    readByte_writeByte_of_ne _ _ (show 4 * a ≠ 4 * a + 1 by omega),
    readByte_writeByte h]
  ext i hi
  simp only [BitVec.getElem_append, BitVec.getElem_extractLsb']
  split
  · simp [BitVec.getLsbD_eq_getElem (show i < 32 by omega)]
  · split
    · rw [show 8 + (i - 8) = i by omega]; simp [BitVec.getLsbD_eq_getElem, hi]
    · split
      · rw [show 16 + (i - 8 - 8) = i by omega]; simp [BitVec.getLsbD_eq_getElem, hi]
      · rw [show 24 + (i - 8 - 8 - 8) = i by omega]; simp [BitVec.getLsbD_eq_getElem, hi]

/-- A bundle reads as it was last written. -/
theorem Memory.readDWord_writeDWord {m : Memory} (h : m.wf = true) (a : Nat) (v : DWord) :
    (m.writeDWord a v).readDWord a = v := by
  unfold readDWord writeDWord
  rw [readWord_writeWord (wf_writeWord h _ _), readWord_writeWord_of_ne _ _ (by omega),
    readWord_writeWord h]
  ext i hi
  simp only [BitVec.getElem_append, BitVec.getElem_extractLsb']
  split
  · simp [BitVec.getLsbD_eq_getElem (show i < 64 by omega)]
  · rw [show 32 + (i - 32) = i by omega]; simp [BitVec.getLsbD_eq_getElem, hi]

/-- A bundle write leaves every other bundle alone. -/
theorem Memory.readDWord_writeDWord_of_ne {x a : Nat} (m : Memory) (v : DWord) (hx : x ≠ a) :
    (m.writeDWord a v).readDWord x = m.readDWord x := by
  unfold readDWord writeDWord
  rw [readWord_writeWord_of_ne _ _ (by omega), readWord_writeWord_of_ne _ _ (by omega),
    readWord_writeWord_of_ne _ _ (by omega), readWord_writeWord_of_ne _ _ (by omega)]

end Sys2Proof.Machine
end

