-- ==== Sys2Proof/Laws/Ops.lean ====
section
/-!
SUPPORT. One lemma for each shared operation that says what it can do, for proofs to cite in place of its
definition: routing, the endings of a transfer, the delay-slot check, a slot, a turn of the core.
-/

namespace Sys2Proof.Machine

-- one declaration at a time: a thread for each would outgrow the check's memory limit
set_option Elab.async false

variable (s : State)

/-! ## Reads after writes -/

theorem BankReg.num_injective {q r : BankReg} (h : BankReg.num q = BankReg.num r) : q = r := by
  cases q <;> cases r <;> simp [BankReg.num, Fin.ext_iff] at h ⊢ <;> omega

theorem Flag.num_injective {f g : Flag} (h : f.num = g.num) : f = g := by
  revert h; cases f <;> cases g <;> decide

@[simp] theorem State.getReg_setReg (r : BankReg) (v : Word) : (s.setReg r v).getReg r = v := by
  simp [State.getReg]

theorem State.getReg_setReg_of_ne {q r : BankReg} (v : Word) (h : q ≠ r) :
    (s.setReg r v).getReg q = s.getReg q := by
  have : (BankReg.num r).val ≠ (BankReg.num q).val :=
    fun e => h (BankReg.num_injective (Fin.ext e.symm))
  simp [State.getReg, this]

@[simp] theorem State.getFlag_setFlag (f : Flag) (v : Bool) : (s.setFlag f v).getFlag f = v := by
  simp [State.getFlag]

theorem State.getFlag_setFlag_of_ne {f g : Flag} (v : Bool) (h : f ≠ g) :
    (s.setFlag g v).getFlag f = s.getFlag f := by
  have : g.num.val ≠ f.num.val := fun e => h (Flag.num_injective (Fin.ext e.symm))
  simp [State.getFlag, this]

/-! ## Flag writes touch only their flags -/

theorem State.putFlag_eq (f : Flag) (v : Bool) :
    ∃ fl n, s.putFlag f v = { s with flags := fl, draws := n } := by
  unfold State.putFlag
  split
  · exact ⟨_, s.draws, rfl⟩
  · split
    · exact ⟨s.flags, s.draws, rfl⟩
    · exact ⟨_, _, rfl⟩

theorem State.putFlags_eq (l : List (Flag × Bool)) :
    ∃ fl n, s.putFlags l = { s with flags := fl, draws := n } := by
  induction l generalizing s with
  | nil => exact ⟨s.flags, s.draws, rfl⟩
  | cons p l ih =>
    obtain ⟨fl, n, h⟩ := s.putFlag_eq p.1 p.2
    obtain ⟨fl', n', h'⟩ := ih (s.putFlag p.1 p.2)
    exact ⟨fl', n', by rw [State.putFlags, h', h]⟩

/-! ## Sizes (00_scope R8) -/

theorem fifoFills_eq : Config.fifoFills = Config.fifoDepth + 1 := rfl

theorem pcsLevels_eq : Config.pcsLevels = Config.pcsDepth + 1 := rfl

/-! ## Routing (20_memory R68, R70) -/

theorem State.memLoc_ramA {ea : Word} (h : ea.toNat < 0x400) (hw : ea.toNat < s.cfg.ramAWords) :
    s.memLoc .a ea = .ok (.ramA ea) := by
  simp [State.memLoc, Config.windowA, h, hw]

theorem State.memLoc_absent {ea : Word} (h : ea.toNat < 0x400) (hw : s.cfg.ramAWords ≤ ea.toNat) :
    s.memLoc .a ea = .error (.ramAOutOfRange ea) := by
  simp [State.memLoc, Config.windowA, h, Nat.not_lt.2 hw]

theorem State.memLoc_ramB {ea : Word} (h : ea.toNat < s.cfg.ramBWords) :
    s.memLoc .b ea = .ok (.ramB ea) := by
  simp [State.memLoc, h]

theorem State.memLoc_ext {ea : Word} (h : 0x400 ≤ ea.toNat) (ha : s.cfg.admits (s.extAddr ea) = true) :
    s.memLoc .a ea = .ok (.ext (s.extAddr ea)) := by
  simp [State.memLoc, Config.windowA, Nat.not_lt.2 h, ha]

theorem State.memLoc_refused {ea : Word} (h : 0x400 ≤ ea.toNat)
    (ha : s.cfg.admits (s.extAddr ea) = false) :
    s.memLoc .a ea = .error (.extNotAdmitted (s.extAddr ea)) := by
  simp [State.memLoc, Config.windowA, Nat.not_lt.2 h, ha]

theorem State.memLoc_outOfRange {ea : Word} (h : s.cfg.ramBWords ≤ ea.toNat) :
    s.memLoc .b ea = .error (.ramBOutOfRange ea) := by
  simp [State.memLoc, Nat.not_lt.2 h]

theorem windowBits (e a : Word) :
    (e &&& 0xFFFFFC00#32) ||| (a &&& 0x000003FF#32) = e.extractLsb' 10 22 ++ a.extractLsb' 0 10 := by
  ext i hi
  have hc : (0xFFFFFC00#32)[i] = decide (10 ≤ i) ∧ (0x000003FF#32)[i] = decide (i < 10) := by
    revert i; decide
  rw [BitVec.getElem_or, BitVec.getElem_and, BitVec.getElem_and, hc.1, hc.2, BitVec.getElem_append]
  by_cases h10 : i < 10
  · simp [h10, Nat.not_le.2 h10, BitVec.getLsbD_eq_getElem hi]
  · simp [h10, Nat.not_lt.1 h10, show 10 + (i - 10) = i by omega, BitVec.getLsbD_eq_getElem hi]

/-- The window word keeps EB's high bits and takes its low ten from the address (20_memory R68). -/
theorem State.extAddr_toNat (ea : Word) : (s.extAddr ea).toNat = s.windowWord ea := by
  have h : s.extAddr ea = s.eb.extractLsb' 10 22 ++ ea.extractLsb' 0 10 := windowBits s.eb ea
  have := s.eb.isLt
  rw [h, BitVec.toNat_append, State.windowWord, ← Nat.shiftLeft_add_eq_or_of_lt (BitVec.isLt _),
    Nat.shiftLeft_eq, BitVec.extractLsb'_toNat, BitVec.extractLsb'_toNat, Nat.shiftRight_zero,
    Nat.shiftRight_eq_div_pow, Nat.mod_eq_of_lt (a := s.eb.toNat / 2 ^ 10) (by omega)]

/-! ## The endings of a transfer (43_transfer R250, R251) -/

/-- An op that a FIFO cannot serve holds, and otherwise it goes on (20_memory R76). -/
theorem State.unlessShort_of_short {i : Instr} (k : Host.Outcome State Fault Refusal)
    (h : s.fifoShort i = true) : s.unlessShort i k = .next s := by simp [State.unlessShort, h]

theorem State.unlessShort_of_served {i : Instr} (k : Host.Outcome State Fault Refusal)
    (h : s.fifoShort i = false) : s.unlessShort i k = k := by simp [State.unlessShort, h]

theorem State.unlessShort_next {i : Instr} {k : Host.Outcome State Fault Refusal} {t : State}
    (h : s.unlessShort i k = .next t) : t = s ∨ (s.fifoShort i = false ∧ k = .next t) := by
  unfold State.unlessShort at h
  split at h
  · cases h; exact .inl rfl
  · rename_i hs; exact .inr ⟨by simpa using hs, h⟩

/-- A register write goes through, or takes the Unimplemented-transfer fault. -/
theorem State.finishReg_cases (i : Instr) (s0 : State) (r : Reg6) (v : Word) :
    (regAccepts r v = true ∧ s.finishReg i s0 r v = .next (s.afterRegWrite v r)) ∨
      (regAccepts r v = false ∧ s.finishReg i s0 r v =
        .next (s.raiseOp i s0 .unimplementedTransfer s.currentTransferField)) := by
  cases h : regAccepts r v <;> simp [State.finishReg, State.raiseTransfer, h]

/-- A load ends in a stuck access, or writes its register with the word at its place. -/
theorem State.loadReg_cases (i : Instr) (s0 : State) (bank : MemBank) (ea : Word) (reg : Reg6) :
    (∃ f, s.memLoc bank ea = .error f ∧ s.loadReg i s0 bank ea reg = .fault f) ∨
      ∃ p, s.memLoc bank ea = .ok p ∧
        s.loadReg i s0 bank ea reg = (s.afterLoad p).finishReg i s0 reg (s.placeVal p) := by
  cases h : s.memLoc bank ea <;> simp [State.loadReg, h]

/-- A store ends in a stuck access, or stores at its place. -/
theorem State.storeAt_cases (bank : MemBank) (ea v : Word) :
    (∃ f, s.memLoc bank ea = .error f ∧ s.storeAt bank ea v = .fault f) ∨
      ∃ p, s.memLoc bank ea = .ok p ∧ s.storeAt bank ea v = .next (s.store v p) := by
  cases h : s.memLoc bank ea <;> simp [State.storeAt, h]

/-- A sub-move is off, or moves its address register and then loads or stores at its place. -/
theorem State.subMove_cases {s u : State} {bank : MemBank} {l l' : Option (BankReg × Word)}
    {m : Option SubMove} (h : s.subMove bank l m = .ok (u, l')) :
    (m = none ∧ u = s ∧ l' = none) ∨
      ∃ n p, m = some n ∧ (s.arInc n.arx).memLoc bank s.ar[n.arx] = .ok p ∧
        ((n.dir = .load ∧ l' = some (n.reg, (s.arInc n.arx).placeVal p) ∧
            u = ((s.arInc n.arx).afterLoad p).bufferReg .tr n.reg ((s.arInc n.arx).placeVal p)) ∨
          (n.dir = .store ∧ l' = none ∧
            u = (s.arInc n.arx).store ((s.arInc n.arx).readBankSeq l n.reg) p)) := by
  cases m with
  | none => simp [State.subMove] at h; exact .inl ⟨rfl, h.1.symm, h.2.symm⟩
  | some n =>
    right
    simp only [State.subMove] at h
    split at h
    · cases h
    · rename_i p hp
      refine ⟨n, p, rfl, hp, ?_⟩
      split at h <;> simp only [Except.ok.injEq, Prod.mk.injEq] at h
      · exact .inl ⟨‹_›, h.2.symm, h.1.symm⟩
      · exact .inr ⟨‹_›, h.2.symm, h.1.symm⟩

/-- A control transfer does its work, or takes the Unimplemented-control fault in a delay slot. -/
theorem State.unlessDelay_cases (i : Instr) (t : State) :
    (s.inDelay = false ∧ s.unlessDelay i t = .next t) ∨
      (s.inDelay = true ∧
        s.unlessDelay i t = .next (s.takeFault .unimplementedControl
          (some (s.cfg.controlInfo s.currentRaw i)))) := by
  cases h : s.inDelay <;> simp [State.unlessDelay, h]

/-! ## Slots -/

/-- A list of slots that completes: its first slot completes, and either took a fault or the others
follow. -/
theorem State.runSlots_cons {s t : State} {d : SlotDec} {ds : List SlotDec}
    (h : s.runSlots (d :: ds) = .next t) :
    ∃ u, s.performSlot d = .next u ∧
      ((u.dstate = .fault ∧ t = u) ∨ (u.dstate ≠ .fault ∧ u.runSlots ds = .next t)) := by
  simp only [State.runSlots] at h
  split at h
  · rename_i u hu
    refine ⟨u, hu, ?_⟩
    split at h
    · cases h; exact .inl ⟨‹_›, rfl⟩
    · exact .inr ⟨‹_›, h⟩
  · cases h
  · cases h

/-- An invariant of every slot is one of the slots in a row. -/
theorem State.runSlots_invariant {P : State → Prop} {ds : List SlotDec}
    (hP : ∀ s t d, d ∈ ds → P s → s.performSlot d = .next t → P t) {s t : State} (hs : P s)
    (h : s.runSlots ds = .next t) : P t := by
  induction ds generalizing s with
  | nil => cases h; exact hs
  | cons d ds ih =>
    obtain ⟨u, hu, ⟨-, rfl⟩ | ⟨-, hr⟩⟩ := State.runSlots_cons h
    · exact hP _ _ _ (by simp) hs hu
    · exact ih (fun s t d hd => hP s t d (by simp [hd])) (hP _ _ _ (by simp) hs hu) hr

/-! ## The launch premise `CAPACITY` (45_dispatch R327) -/

@[simp] theorem fillFreq_length (blk : Block) : (fillFreq blk).length = blk.length := by
  induction blk <;> simp_all [fillFreq]

@[simp] theorem markTerm_length (blk : Block) : (markTerm blk).length = blk.length := by
  fun_induction markTerm blk <;> simp_all

theorem fillFreq_head (blk : Block) :
    (fillFreq blk).head?.map Record.addr = blk.head?.map Record.addr := by
  cases blk <;> simp [fillFreq]

theorem markTerm_head (blk : Block) :
    (markTerm blk).head?.map Record.addr = blk.head?.map Record.addr := by
  fun_induction markTerm blk <;> simp_all

@[simp] theorem recordAt_addr (p : Params) (prog : Memory) (words : Nat) (a : PcWord) :
    (recordAt p prog words a).addr = a := by
  unfold recordAt; split <;> rfl

theorem joinRecord_length (r d : Record) (k : Nat) (rest : Block) :
    (joinRecord r d k rest).length ≤ max 2 (rest.length + 1) := by
  unfold joinRecord; split <;> [skip; split] <;> simp

theorem joinRecord_head (r d : Record) (k : Nat) (rest : Block) :
    (joinRecord r d k rest).head?.map Record.addr = some r.addr := by
  unfold joinRecord; split <;> [skip; split] <;> simp

theorem collect_length_le (p : Params) (prog : Memory) (words : Nat) (a : PcWord) (k n : Nat) :
    (collect p prog words a k n).length ≤ n + 2 := by
  induction n generalizing a k with
  | zero => exact (joinRecord_length ..).trans (by simp)
  | succ n ih => exact (joinRecord_length ..).trans (by have := ih (a + 1) (k + 1); omega)

theorem collect_head (p : Params) (prog : Memory) (words : Nat) (a : PcWord) (k n : Nat) :
    (collect p prog words a k n).head?.map Record.addr = some a := by
  cases n <;> simp [collect, joinRecord_head]

theorem analyze_key (p : Params) (prog : Memory) (words : Nat) (a : PcWord) :
    (blockKey (analyze p prog words a)).1 = a := by
  simp [blockKey, analyze, fillFreq_head, markTerm_head, collect_head]

/-- A block whose start address has no fragment size of its own fits an empty cache. -/
theorem fragSize_le_of_unlisted (p : Params) (prog : Memory) (words : Nat) (a : PcWord)
    (h : ∀ e ∈ p.fragTable, e.1.1 ≠ a) : fragSize p (analyze p prog words a) ≤ p.cacheCapacity := by
  have hn : p.fragTable.lookup (blockKey (analyze p prog words a)) = none := by
    rw [List.lookup_eq_none_iff]
    intro e he
    have := h e he
    rw [bne_iff_ne]
    exact fun hk => this (hk ▸ analyze_key p prog words a)
  have := collect_length_le p prog words a 0 (p.window - 1)
  have : 1 ≤ p.window := Nat.le_max_left ..
  simp only [fragSize, hn, Option.getD_none]
  simp only [analyze, fillFreq_length, markTerm_length, Params.cacheCapacity]
  omega

/-- What `Run` checks is the premise over every start address. -/
theorem State.capacityHolds_iff : s.capacityHolds = true ↔ s.capacityPremise := by
  simp only [State.capacityHolds, List.all_eq_true, decide_eq_true_eq, State.capacityPremise]
  refine ⟨fun h a => ?_, fun h e _ => h _⟩
  by_cases hl : ∃ e ∈ s.cfg.fragTable, e.1.1 = a
  · obtain ⟨e, he, rfl⟩ := hl
    exact h e he
  · exact fragSize_le_of_unlisted _ _ _ _ fun e he ha => hl ⟨e, he, ha⟩

/-! ## The launch's encoding (00_scope R8) -/

/-- Under the reference encoding the control fault reports COP. -/
theorem Params.controlInfo_reference {p : Params} (h : p.encoding = []) (raw : Option DWord) (i : Instr) :
    p.controlInfo raw i = i.cop.toNat := by
  cases raw <;> simp [Params.controlInfo, h]

/-- Under the reference encoding a word is decoded by the tables of spec/30_encoding.md. -/
theorem Params.decodeWord_reference {p : Params} (h : p.encoding = []) (w : DWord) :
    p.decodeWord w = decode w := by
  simp [Params.decodeWord, h]

/-! ## The commit (40_bundle R161) -/

/-- A write that counts is the last one that its op made to its register. -/
theorem mem_lastWrites {l : List Pending} {p : Pending} (h : p ∈ lastWrites l) :
    ∃ before after, l = before ++ p :: after ∧ ∀ q ∈ after, q.reg = p.reg → q.slot ≠ p.slot := by
  induction l with
  | nil => simp [lastWrites] at h
  | cons q ps ih =>
    have tail (h : p ∈ lastWrites ps) : ∃ before after, q :: ps = before ++ p :: after ∧
        ∀ q ∈ after, q.reg = p.reg → q.slot ≠ p.slot := by
      obtain ⟨before, after, hl, ha⟩ := ih h
      exact ⟨q :: before, after, by rw [hl]; rfl, ha⟩
    rw [lastWrites] at h
    split at h
    · exact tail h
    · rename_i hn
      obtain rfl | h := List.mem_cons.1 h
      · exact ⟨[], ps, rfl, by simpa using hn⟩
      · exact tail h

/-! ## The end of a run (70_reset R392) -/

/-- A run ends in at most one state. -/
theorem State.endState_unique {t u : State} (ht : s.endState t) (hu : s.endState u) : t = u := by
  obtain ⟨n, hn, he, hf⟩ := ht
  obtain ⟨m, hm, he', hf'⟩ := hu
  obtain h | rfl | h := Nat.lt_trichotomy n m
  · exact absurd he (hf' n h t hn)
  · rw [hn] at hm
    cases hm
    rfl
  · exact absurd he' (hf m h u hm)

/-! ## Turns -/

/-- A turn of the core in RUN with a block under way: a fault before anything changes, a hold, or the
bundle. -/
theorem State.step_running {s : State} {c : Cur} {b : Record} (h : s.running c b) :
    step s = s.bundleStep c b := by
  obtain ⟨hs, hd, hc, hb⟩ := h
  have : s.runStep = s.bundleStep c b := by simp only [State.runStep, hc]; rw [hb]
  simpa [step, State.takeTurn, hs, State.coreTurn, hd] using this

/-- A bundle that passes the checks and does not hold is issued. -/
theorem State.bundleStep_issues {s : State} {c : Cur} {b : Record} {d : Bundle}
    (he : s.earlyFault b = none) (hh : s.mustHold b = false) (hd : b.dec = .bundle d) :
    s.bundleStep c b = ({ s with pc := b.addr } : State).issueAndAdvance c b d := by
  have he' : ({ s with pc := b.addr } : State).earlyFault b = none := he
  have hh' : ({ s with pc := b.addr } : State).mustHold b = false := hh
  unfold State.bundleStep
  simp only [he', hh']
  rw [hd]
  rfl

/-- A completed issue committed its slots, or a slot of it took a fault. -/
theorem State.issue_cases {s t : State} {d : Bundle} (h : s.issue d = .next t) :
    ∃ u, s.openBundle.runSlots d.slots = .next u ∧
      ((u.dstate = .fault ∧ t = u.havocAll (s.openBundle.couldWrite d.slots)) ∨
        (u.dstate ≠ .fault ∧ t = u.commit)) := by
  simp only [State.issue] at h
  split at h
  · rename_i u hu
    cases h
    refine ⟨u, hu, ?_⟩
    by_cases hf : u.dstate = .fault
    · exact .inl ⟨hf, by rw [if_pos hf]⟩
    · exact .inr ⟨hf, by rw [if_neg hf]⟩
  · cases h
  · cases h

/-- A step of the machine is a turn of the core or of the host on the rest of the schedule. -/
theorem State.step_cases (h : step s = .next t) :
    (∃ rest, State.coreTurn { s with schedule := rest } = .next t) ∨
      ∃ a rest, State.hostTurn { s with schedule := rest } a = .next t := by
  simp only [step, State.takeTurn] at h
  split at h
  · rename_i hs; left; exact ⟨[], by rwa [← hs]⟩
  · exact .inl ⟨_, h⟩
  · exact .inr ⟨_, _, h⟩

end Sys2Proof.Machine
end

