-- ==== Sys2Proof/Laws/PerInstr.lean ====
section
/-!
SUPPORT. One lemma per instruction: alone in its bundle, a well-formed instruction makes a well-formed
bundle, of the class and layout that encode it (30_encoding R102 to R104).
-/

namespace Sys2Proof.Laws.AloneWf

-- one declaration at a time: a thread for each would outgrow the check's memory limit
set_option Elab.async false

/-- The bundle that carries a well-formed instruction alone is well-formed. -/
def Statement (i : Instr) : Prop := i.wf = true → i.alone.wf = true

theorem nopAlu : Statement .nopAlu := fun _ => rfl

theorem cif (src : AluSrc2) (dst : AluDst) :
    Statement (.cif src dst) := fun _ => rfl

theorem cfi (src : AluSrc2) (dst : AluDst) :
    Statement (.cfi src dst) := fun _ => rfl

theorem add (s1 : AluSrc1) (s2 : AluSrc2) (dst : AluDst) :
    Statement (.add s1 s2 dst) := fun _ => rfl

theorem cmp (s1 : AluSrc1) (s2 : AluSrc2) :
    Statement (.cmp s1 s2) := fun _ => rfl

theorem mnop : Statement .mnop := fun _ => rfl

theorem fmul (s1 : MulSrc1) (s2 : MulSrc2) (dst : MulDst) :
    Statement (.fmul s1 s2 dst) := fun _ => rfl

theorem mul (s1 : MulSrc1) (s2 : MulSrc2) (dst : MulDst) :
    Statement (.mul s1 s2 dst) := fun _ => rfl

theorem tnop : Statement .tnop := fun _ => rfl

theorem mov (src dst : Reg6) :
    Statement (.mov src dst) := fun h =>
  show ((true && Instr.wf (.mov src dst)) && true && true && true) = true by rw [h]; rfl

theorem ld1 (reg : Reg6) (bank : MemBank) (mode : AddrMode) (arx : Fin 8) :
    Statement (.ld1 reg bank mode arx) := fun h =>
  show ((true && Instr.wf (.ld1 reg bank mode arx)) && true && true && true) = true by rw [h]; rfl

theorem st1 (reg : Reg6) (bank : MemBank) (mode : AddrMode) (arx : Fin 8) :
    Statement (.st1 reg bank mode arx) := fun h =>
  show ((true && Instr.wf (.st1 reg bank mode arx)) && true && true && true) = true by rw [h]; rfl

theorem ld2 (reg : Reg6) (bank : MemBank) (arx : Fin 8) (disp : BitVec 14) :
    Statement (.ld2 reg bank arx disp) := fun h =>
  show ((true && Instr.wf (.ld2 reg bank arx disp)) && true && true && true) = true by rw [h]; rfl

theorem st2 (reg : Reg6) (bank : MemBank) (arx : Fin 8) (disp : BitVec 14) :
    Statement (.st2 reg bank arx disp) := fun h =>
  show ((true && Instr.wf (.st2 reg bank arx disp)) && true && true && true) = true by rw [h]; rfl

theorem dx1 (a b : Option SubMove) :
    Statement (.dx1 a b) := fun _ => rfl

theorem dx2 : Statement .dx2 := fun _ => rfl

theorem ldi (dst : Reg6) (imm : Word) :
    Statement (.ldi dst imm) := fun h =>
  show ((true && Instr.wf (.ldi dst imm)) && true && true) = true by rw [h]; rfl

theorem ldn (dst : Reg6) (imm : BitVec 20) :
    Statement (.ldn dst imm) := fun h =>
  show ((true && Instr.wf (.ldn dst imm)) && true && true && true) = true by rw [h]; rfl

theorem nopCtl : Statement .nopCtl := fun _ => rfl

theorem clrf (sel : ClrSel) :
    Statement (.clrf sel) := fun _ => rfl

theorem setm (imm : BitVec 16) :
    Statement (.setm imm) := fun _ => rfl

theorem dbcc (cc : Flag) (disp : BitVec 16) :
    Statement (.dbcc cc disp) := fun _ => rfl

theorem dbncc (cc : Flag) (disp : BitVec 16) :
    Statement (.dbncc cc disp) := fun _ => rfl

theorem djmp (disp : BitVec 16) :
    Statement (.djmp disp) := fun _ => rfl

theorem dcall (disp : BitVec 16) :
    Statement (.dcall disp) := fun _ => rfl

theorem dret : Statement .dret := fun _ => rfl

end Sys2Proof.Laws.AloneWf
end

