-- ==== Sys2Proof/Tests/Slice0.lean ====
section
/-!
SUPPORT. The model's own tests: the checks of WellFormed refuse ill-formed terms, words written out in
spec/95_test_vectors.md decode to what they stand for, single steps give that file's results, and a
concrete witness meets the hypotheses of each statement. Each test names its vector.
-/

namespace Sys2Proof.Machine

-- one declaration at a time: a thread for each would outgrow the check's memory limit
set_option Elab.async false

/-! ## WellFormed -/

theorem test_wf_refuses_register_directions :
    (Instr.mov .fo0 (.ar 0)).wf = false ∧ (Instr.mov .fo1 (.ar 0)).wf = false ∧
    (Instr.mov (.ar 0) .fi).wf = false ∧ (Instr.ld1 .fi .a .postInc 0).wf = false ∧
    (Instr.ld2 .fi .a 0 0).wf = false ∧ (Instr.st1 .fo0 .a .postInc 0).wf = false ∧
    (Instr.st2 .fo1 .b 0 0).wf = false ∧ (Instr.ldi .fi 0).wf = false ∧
    (Instr.ldn .fi 0).wf = false ∧ (Instr.mov .fi .fo0).wf = true := by decide

theorem test_wf_refuses_misplaced_ops :
    (SlotDec.op .mnop).holds .alu = false ∧ (SlotDec.bad .unimplementedAlu 0).holds .alu = false ∧
    (SlotDec.op (.ldn (.ar 0) 0)).holdsTransfer .dualXfer1 = false ∧
    (SlotDec.op (.mov .fo0 (.ar 0))).holdsTransfer .dualXfer1 = false ∧
    SlotDec.absent.holdsTransfer .dualXfer1 = false := by decide

theorem test_wf_refuses_ill_formed_bundles :
    (Bundle.dual .dualDxfer1 .tnop .nopAlu .mnop).wf = false ∧
    (Bundle.dual .dualXfer1 .tnop .mnop .nopAlu).wf = false ∧
    (Bundle.mk .dualXfer1 (.op .tnop) (.op .nopAlu) (.op .mnop) (.op .nopCtl)).wf = false ∧
    (Bundle.mk .singleCtrl .absent (.op .nopAlu) (.op .mnop) (.op .nopCtl)).wf = false ∧
    (Bundle.mk .singleCtrl .absent .absent .absent (.op .nopCtl)).wf = false ∧
    (Bundle.mk .singleCtrl (.op .tnop) (.op .nopAlu) .absent (.op .nopCtl)).wf = false ∧
    (Bundle.mk .singleXferi (.op (.ldi .fo0 1)) (.op .nopAlu) .absent (.op .nopCtl)).wf = false ∧
    (Bundle.mk .singleXferi (.op (.ldi .fo0 1)) .absent (.op .mnop) .absent).wf = true := by decide

/-! ## Decoding, every constructor by a word of spec/95_test_vectors.md -/

/-- A1, A8, A12, A19, B1: every ALU op and both MUL ops. -/
theorem test_decode_units :
    decode 0x3004000000000000 =
      .bundle (.dual .dualXfer1 .tnop (.add (.aa 0) (.ab 0) (.aa 0)) .mnop) ∧
    decode 0x341A800000000000 = .bundle (.dual .dualXfer1 .tnop (.cmp (.aa 1) .one) .mnop) ∧
    decode 0x2D00240000000000 = .bundle (.dual .dualXfer1 .tnop (.cif (.aa 0) (.ab 1)) .mnop) ∧
    decode 0x2E04880000000000 = .bundle (.dual .dualXfer1 .tnop (.cfi (.ab 1) (.aa 2)) .mnop) ∧
    decode 0x2700010B84000000 =
      .bundle (.dual .dualXfer1 .tnop .nopAlu (.fmul (.aa 0) (.const 3) (.ma 1))) ∧
    decode 0x2700020A80000000 =
      .bundle (.dual .dualXfer1 .tnop .nopAlu (.mul (.aa 0) (.const 1) (.ma 0))) ∧
    decode 0x9100000000000000 =
      .bundle ⟨.singleCtrl, .absent, .absent, .op (.mul (.aa 0) (.ab 0) (.ma 0)), .op .nopCtl⟩ := by
  decide +kernel

/-- T2, T5, T8, T11, T12, T14, E21, T15, T20: every transfer op. -/
theorem test_decode_transfers :
    decode 0x2700000001A69000 =
      .bundle (.dual .dualXfer1 (.mov (.pr .inc) (.pr .inc)) .nopAlu .mnop) ∧
    decode 0x27000000020C0000 =
      .bundle (.dual .dualXfer1 (.ld1 (.bank (.aa 3)) .a .postInc 0) .nopAlu .mnop) ∧
    decode 0x2700000003031002 =
      .bundle (.dual .dualXfer1 (.st1 (.bank (.aa 0)) .b (.disp12 2) 1) .nopAlu .mnop) ∧
    decode 0x6700000002208020 =
      .bundle (.dual .dualXfer2 (.ld2 (.bank (.ab 0)) .a 2 0x20) .nopAlu .mnop) ∧
    decode 0x670000000344FF00 =
      .bundle (.dual .dualXfer2 (.st2 (.bank (.ma 1)) .a 3 (-0x100)) .nopAlu .mnop) ∧
    decode 0x0700000002001808 =
      .bundle (.dual .dualDxfer1 (.dx1 (some ⟨.load, .aa 0, 0⟩) (some ⟨.store, .aa 0, 1⟩)) .nopAlu
        .mnop) ∧
    decode 0x500A800000000000 =
      .bundle (.dual .dualDxfer2 .dx2 (.add (.aa 0) .one (.aa 0)) .mnop) ∧
    decode 0xA380000080000000 =
      .bundle ⟨.singleXferi, .op (.ldi (.bank (.aa 0)) 0x80000000), .op .nopAlu, .absent, .absent⟩ ∧
    decode 0xE700000000080000 =
      .bundle (.dual .dualXfer3 (.ldn (.bank (.aa 0)) 0x80000) .nopAlu .mnop) := by decide +kernel

/-- K7 to K10, K1, K3 to K6: every control op. -/
theorem test_decode_control :
    decode 0x8380003000000001 = .bundle (Instr.clrf .input).alone ∧
    decode 0x8380003000000002 = .bundle (Instr.clrf .outputs).alone ∧
    decode 0x8380003000000003 = .bundle (Instr.clrf .all).alone ∧
    decode 0x8380008000000080 = .bundle (Instr.setm 0x80).alone ∧
    decode 0x8380010000000010 = .bundle (Instr.dbcc .az 0x10).alone ∧
    decode 0x838001100000FFFF = .bundle (Instr.dbncc .az (-1)).alone ∧
    decode 0x838001200000FFFC = .bundle (Instr.djmp (-4)).alone ∧
    decode 0x8380014000000004 = .bundle (Instr.dcall 4).alone ∧
    decode 0x8380015000000000 = .bundle Instr.dret.alone := by decide +kernel

/-- E2, E4 to E7, E9 to E12, E14 to E22: encodings that are faults, and the slot that carries each. -/
theorem test_decode_refuses_reserved_encodings :
    [0x0000000000000000, 0x300B800000000000, 0x3004500000000000].map
        (fun w => (decodeClass .dualXfer1 w).alu.isBad) = [true, true, true] ∧
    [0x2700030000000000, 0x2700010E00000000].map
        (fun w => (decodeClass .dualXfer1 w).mul.isBad) = [true, true] ∧
    (decodeClass .singleCtrl 0x9200000000000000).mul.isBad = true ∧
    [0x2700000000000001, 0x2700000002008000, 0x2700000002000001, 0x2700000001C80000,
      0x2700000001033000, 0x2700000001DC0000].map
        (fun w => (decodeClass .dualXfer1 w).tr.isBad) = [true, true, true, true, true, true] ∧
    (decodeClass .dualDxfer2 0x4700000002000000).tr.isBad = true ∧
    [0x8380001000000000, 0x8380010E00000002, 0x8380000000000001, 0x8380003000000000].map
        (fun w => (decodeClass .singleCtrl w).ctl) =
      [.bad .unimplementedControl 0x01, .bad .unimplementedControl 0x10,
        .bad .unimplementedControl 0x00, .bad .unimplementedControl 0x03] := by decide +kernel

/-! ## Single steps -/

/-- A state about to execute the bundle `w` in a delay slot, so that every flag it defines is required. -/
def delayed (s : State) (w : Nat) : State :=
  let prog := (Memory.writeDWord [] 0 0x8380012000000000).writeDWord 1 (BitVec.ofNat 64 w)
  let blk := analyze s.cfg prog 2 0
  { s with prog := prog, progWords := 2, cache := [(0, blk)], cacheUsed := fragSize s.cfg blk, dstate := .run,
           cur := some ⟨blk, 1⟩, pc := 1, brpend := some ⟨true, 0⟩ }

/-- The state one step after `s`. -/
def after (s : State) : Option State :=
  match step s with
  | .next t => some t
  | .fault _ | .refused _ => none

/-- Named registers one step after the bundle `w` in a delay slot; nothing where the machine stops. -/
def seen (s : State) (w : Nat) (ns : List RegName) : List Nat :=
  ((after (delayed s w)).map fun t => ns.map t.inspect).getD []

/-- The reset state with registers set. -/
def having (l : List (RegName × Nat)) : State := l.foldl (fun s p => s.poke p.1 p.2) State.reset

/-- The reset state with a word of RAM-A set. -/
def havingA (a v : Nat) (l : List (RegName × Nat)) : State :=
  { having l with ramA := Memory.writeWord [] a (BitVec.ofNat 32 v) }

/-- W1: the all-NOP bundle moves only PC. -/
theorem test_nops_advance_pc :
    (after ((having [(.pc, 0x10)]).withFetchWord 64 0x8380000000000000)).map (·.pc) = some 0x11 ∧
    (after ((having [(.pc, 0xFFFFFFFF)]).withFetchWord 64 0x2700000000000000)).map (·.pc) = some 0 := by
  decide +kernel

/-- A2. -/
theorem test_add_overflows :
    seen (having [(.bank (.aa 0), 0x7FFFFFFF)]) 0x300A800000000000
      [.bank (.aa 0), .flag .an, .flag .az, .flag .av] = [0x80000000, 1, 0, 1] := by decide +kernel

/-- A7: the ring is read and written, each pointer moved. -/
theorem test_add_through_the_ring :
    seen (having [(.bank (.aa 0), 1), (.pr 0, 10), (.pwp, 3)]) 0x3008C40000000000
      [.pr 3, .prp, .pwp] = [11, 1, 4] := by decide +kernel

/-- A10. -/
theorem test_cmp_signed_overflow :
    seen (having [(.bank (.aa 0), 0x80000000)]) 0x340A800000000000
      [.bank (.aa 0), .flag .an, .flag .az, .flag .av] = [0x80000000, 0, 0, 1] := by decide +kernel

/-- A15. -/
theorem test_cif_nearest :
    seen (having [(.bank (.aa 0), 0x7FFFFFFF), (.scalar .mod, 0x80)]) 0x2D00040000000000
      [.bank (.aa 1), .flag .an, .flag .az] = [0x4F000000, 0, 0] := by decide +kernel

/-- A16. -/
theorem test_cif_truncates :
    seen (having [(.bank (.aa 0), 0x7FFFFFFF)]) 0x2D00040000000000 [.bank (.aa 1)] =
      [0x4EFFFFFF] := by decide +kernel

/-- A26 under nearest-even: the tie goes to 2^23, which is clamped. -/
theorem test_cfi_ties_and_clamps :
    seen (having [(.bank (.aa 0), 0x4AFFFFFF), (.scalar .mod, 0x80)]) 0x2E00040000000000
      [.bank (.aa 1), .flag .av] = [0x007FFFFF, 1] := by decide +kernel

/-- A23 and A28. -/
theorem test_cfi_negative :
    seen (having [(.bank (.aa 0), 0xC0200000)]) 0x2E00040000000000 [.bank (.aa 1), .flag .av] =
      [0xFFFFFFFE, 0] ∧
    seen (having [(.bank (.aa 0), 0xFF800000)]) 0x2E00040000000000
      [.bank (.aa 1), .flag .an, .flag .av] = [0xFF800000, 1, 1] := by decide +kernel

/-- M3. -/
theorem test_mul_at_the_lower_bound :
    seen (having [(.bank (.aa 0), 0xFFFFF000), (.bank (.ab 0), 0x800)]) 0x2700020000000000
      [.bank (.ma 0), .flag .mv, .flag .mn] = [0xFF800000, 0, 1] := by decide +kernel

/-- M4. -/
theorem test_mul_clamps :
    seen (having [(.bank (.aa 0), 0x80000000), (.bank (.ab 0), 0x80000000)]) 0x2700020000000000
      [.bank (.ma 0), .flag .mv] = [0x007FFFFF, 1] := by decide +kernel

/-- M16: a subnormal product, rounded to even. -/
theorem test_fmul_subnormal :
    seen (having [(.bank (.aa 0), 3)]) 0x2700010C80000000
      [.bank (.ma 0), .flag .mz, .flag .mv, .flag .mu, .flag .md] = [2, 0, 0, 1, 1] := by
  decide +kernel

/-- M11. -/
theorem test_fmul_overflows :
    seen (having [(.bank (.aa 0), 0x7F7FFFFF)]) 0x2700010B80000000
      [.bank (.ma 0), .flag .mn, .flag .mv, .flag .mu] = [0x7F800000, 0, 1, 0] := by decide +kernel

/-- W7. -/
theorem test_mov_ring_wraps :
    seen (having [(.prp, 23), (.pr 23, 0x77)]) 0x2700000001029000 [.bank (.aa 0), .prp] =
      [0x77, 0] := by decide +kernel

/-- T3. -/
theorem test_mov_input_to_output :
    seen (having [(.fifoData .fi 0, 0xAAAABBBBCCCCDDDD), (.fifoWpos .fi, 1), (.fifoNum .fi, 1)])
      0x2700000001CF2000 [.fifoNum .fi, .fifoRpos .fi, .fifoData .fo0 0, .fifoNum .fo0] =
      [0, 1, 0xCCCCDDDD, 1] := by decide +kernel

/-- T6: the load overwrites the increment. -/
theorem test_ld1_into_its_own_address :
    seen (havingA 0x100 0x55 [(.ar 0, 0x100)]) 0x2700000002800000 [.ar 0] = [0x55] := by
  decide +kernel

/-- T9: a displacement of -1. -/
theorem test_ld1_negative_displacement :
    seen (havingA 0x100 9 [(.ar 0, 0x101)]) 0x2700000002010FFF [.bank (.aa 0), .ar 0] =
      [9, 0x101] := by decide +kernel

/-- T7: the source is read before the address register moves. -/
theorem test_st1_stores_the_old_address :
    ((after (delayed (having [(.ar 0, 0x100)]) 0x2700000003800000)).map fun t =>
      (t.ramA.readWord 0x100, t.inspect (.ar 0))) = some (0x100, 0x101) := by decide +kernel

/-- T8. -/
theorem test_st1_bank_b :
    ((after (delayed (having [(.ar 1, 0x10), (.bank (.aa 0), 12)]) 0x2700000003031002)).map fun t =>
      (t.ramB.readWord 0x12, t.ramA, t.inspect (.ar 1))) = some (12, [], 0x10) := by decide +kernel

/-- T11: through the window, with the platform's answer. -/
theorem test_ld2_through_the_window :
    ((after (delayed { having [(.ar 2, 0x3F0), (.scalar .eb, 0x12345678)] with extIn := [0xBEEF] }
        0x6700000002208020)).map fun t => (t.inspect (.bank (.ab 0)), t.extLog, t.extIn)) =
      some (0xBEEF, [.read 0x12345410 0xBEEF], []) := by decide +kernel

/-- T12. -/
theorem test_st2_negative_displacement :
    ((after (delayed (having [(.ar 3, 0x200), (.bank (.ma 1), 35)]) 0x670000000344FF00)).map fun t =>
      (t.ramA.readWord 0x100, t.ramB)) = some (35, []) := by decide +kernel

/-- T14: sub-move B stores what sub-move A loaded. -/
theorem test_dx1_in_sequence :
    ((after (delayed (havingA 0x10 7 [(.ar 0, 0x10), (.ar 1, 0x20)]) 0x0700000002001808)).map fun t =>
      (t.inspect (.bank (.aa 0)), t.ramB.readWord 0x20, t.inspect (.ar 0), t.inspect (.ar 1))) =
      some (7, 7, 0x11, 0x21) := by decide +kernel

/-- E21. -/
theorem test_dx2_runs_the_other_slots :
    seen (having [(.bank (.aa 0), 4)]) 0x500A800000000000 [.bank (.aa 0)] = [5] := by decide +kernel

/-- T16: the ADD reads AA0 from before the bundle. -/
theorem test_ldi_commits_at_the_end :
    seen State.reset 0xA805420000000007 [.bank (.aa 0), .bank (.aa 1)] = [7, 1] := by decide +kernel

/-- T17: a pointer value of 24 is a fault. -/
theorem test_ldi_pointer_out_of_range :
    ((after (delayed State.reset 0xA38001A800000018)).map fun t =>
      (t.dstate, t.faultRec.map (·.code), t.faultRec.map (·.pc))) = some (.fault, some 4, some 1) := by
  decide +kernel

/-- T20 and T21: the sign bit of the immediate. -/
theorem test_ldn_sign_extends :
    seen State.reset 0xE700000000080000 [.bank (.aa 0)] = [0xFFF80000] ∧
    seen State.reset 0xE70000000007FFFF [.bank (.aa 0)] = [0x0007FFFF] := by decide +kernel

/-- K7: the cursors and the count go, the data stay. -/
theorem test_clrf_keeps_data :
    seen (having [(.fifoData .fi 2, 9), (.fifoRpos .fi, 2), (.fifoWpos .fi, 5), (.fifoNum .fi, 3),
        (.fifoNum .fo0, 1), (.fifoWpos .fo0, 1)]) 0x8380003000000001
      [.fifoRpos .fi, .fifoWpos .fi, .fifoNum .fi, .fifoData .fi 2, .fifoNum .fo0] =
      [0, 0, 0, 9, 1] := by decide +kernel

/-- K11: a conversion in the same bundle uses the old MOD. -/
theorem test_setm_comes_last :
    seen (having [(.bank (.aa 0), 0x7FFFFFFF), (.scalar .mod, 0xFFFF0000)]) 0x8680028000000080
      [.bank (.aa 1), .scalar .mod] = [0x4EFFFFFF, 0x80] := by decide +kernel

/-- K1 and K2: the pending transfer a branch leaves. -/
theorem test_dbcc_reads_its_flag :
    (after ((having [(.pc, 0x20), (.flag .az, 1)]).withFetchWord 64 0x8380010000000010)).map
      (·.brpend) = some (some ⟨true, 0x30⟩) ∧
    (after ((having [(.pc, 0x20)]).withFetchWord 64 0x8380010000000010)).map (·.brpend) =
      some (some ⟨false, 0x30⟩) := by decide +kernel

/-- K3. -/
theorem test_dbncc_backwards :
    (after ((having [(.pc, 3)]).withFetchWord 64 0x838001100000FFFF)).map
      (fun t => (t.brpend, t.pc)) = some (some ⟨true, 2⟩, 4) := by decide +kernel

/-- K4. -/
theorem test_djmp_is_pending :
    (after ((having [(.pc, 0x40)]).withFetchWord 64 0x838001200000FFFC)).map
      (fun t => (t.brpend, t.pc)) = some (some ⟨true, 0x3C⟩, 0x41) := by decide +kernel

/-- W3: the last free entry, with the address after the delay slot. -/
theorem test_dcall_fills_the_stack :
    (after ((having [(.pc, 0x100), (.pcsp, 3)]).withFetchWord 64 0x8380014000000010)).map
      (fun t => (t.inspect (.pcs 3), t.pcsp, t.brpend)) = some (0x102, 4, some ⟨true, 0x110⟩) := by
  decide +kernel

/-- W3: the next call overflows, and nothing moves. -/
theorem test_dcall_overflows :
    (after ((having [(.pc, 0x110), (.pcsp, 4)]).withFetchWord 64 0x8380014000000010)).map
      (fun t => (t.faultRec.map (·.kind), t.pcsp, t.pc, t.brpend)) =
      some (some .pcsOverflow, 4, 0x110, none) := by decide +kernel

/-- K6. -/
theorem test_dret_pops :
    (after ((having [(.pc, 0x205), (.pcsp, 1), (.pcs 0, 0x102)]).withFetchWord 64
      0x8380015000000000)).map (fun t => (t.pcsp, t.brpend)) = some (0, some ⟨true, 0x102⟩) := by
  decide +kernel

/-- W5. -/
theorem test_dret_underflows :
    (after (State.reset.withFetchWord 64 0x8380015000000000)).map
      (fun t => (t.faultRec.map (·.code), t.pcsp)) = some (some 7, 0) := by decide +kernel

/-- B2: the ring is sequential inside a bundle, the banks are not. -/
theorem test_bundle_order :
    seen (having [(.bank (.aa 0), 10), (.pr 0, 5)]) 0x300AC20801028000
      [.bank (.aa 0), .pr 0, .bank (.ma 0)] = [5, 11, 110] := by decide +kernel

/-- K12: a control transfer in a delay slot. -/
theorem test_transfer_in_a_delay_slot :
    ((after (delayed State.reset 0x8380012000000000)).map fun t =>
      (t.faultRec.map (·.kind), t.faultRec.bind (·.info), t.pc, t.brpend)) =
      some (some .unimplementedControl, some 0x12, 1, none) := by decide +kernel

/-- E3. -/
theorem test_illegal_class :
    ((after (State.reset.withFetchWord 64 0xC000000000000000)).map fun t =>
      t.faultRec.map (·.code)) = some (some 1) := by decide +kernel

/-! ## Witnesses: concrete terms that meet the hypotheses of each statement, clause by clause -/

/-- The bundle that `delayed` and `withFetchWord` make current. -/
def recordOf (s : State) : Option Record := s.current

/-- A record that is no delay slot, for states that need one. -/
def plainRecord (d : Decoded) : Record :=
  { raw := some 0, addr := 0, unmapped := false, dec := d, cycles := 1, rd := 0, wr := 0, fuse := 0,
    fdef := 0, freq := 0, isxfer := false, target := .noTarget, delay := none, indelay := false,
    term := false }

/-- A state whose current record is `b`, alone in its block. -/
def atRecord (s : State) (b : Record) : State := { s with dstate := .run, cur := some ⟨[b], 0⟩ }

/-- DecodeEncodeBundle and DecodeEncodeInstruction: bundles and instructions of every class. -/
theorem witness_wf :
    (Bundle.dual .dualXfer1 (.mov .fi .fo0) (.cmp (.ab 7) .minusOne)
      (.fmul (.ma 7) (.const 7) .discard)).wf = true ∧
    (Bundle.mk .singleXferi (.op (.ldi .pwp 23)) .absent (.op .mnop) .absent).wf = true ∧
    (Instr.dx1 none (some ⟨.store, .mb 7, 7⟩)).alone.wf = true ∧ (Instr.ldn .fo1 0).alone.wf = true ∧
    (Instr.dbcc .md 0).alone.wf = true ∧ (Instr.st2 .fi .b 7 0x3FFF).wf = true := by decide

/-- UnitFieldLegality: fields on both sides of each bound. -/
theorem witness_unit_fields :
    [0x1C000, 0x00000, 0x502FF, 0x50014, 0x402C0, 0x402E0, 0x40013, 0x40014, 0x4001E, 0x4001F].map
        (fun a => (decodeAlu a).isBad) =
      [false, true, true, false, false, true, false, true, true, false] ∧
    [0x0000, 0x4360, 0x4380, 0xC000].map (fun m => (decodeMul m).isBad) =
      [false, false, true, true] := by decide +kernel

/-- ControlFieldLegality: condition codes 13 and 14, selectors 0, 1, 3 and 4. -/
theorem witness_control_fields :
    [0x10D00000000, 0x10E00000000, 0x3000000000, 0x3000000001, 0x3000000003, 0x3000000004].map
        (fun t => (decodeCtrl t).isBad) = [false, true, true, false, false, true] := by
  decide +kernel

/-- TransferFieldLegality: for each form a field that is a fault and carries itself, and words of three
classes (E20, LDI to FI, E1). -/
theorem witness_transfer_fields :
    [decodeDxfer1Op, decodeXfer1Op, decodeDxfer2Op, decodeXfer2Op].map
        (fun op => decodeTransfer op 0x2000001) =
      [.bad .unimplementedTransfer 0x2000001, .bad .unimplementedTransfer 0x2000001,
        .bad .unimplementedTransfer 0x2000001, .op (.ld2 (.bank (.aa 0)) .a 0 1)] ∧
    decodeTransfer decodeXfer3Op 0x3200000 = .bad .unimplementedTransfer 0x3200000 ∧
    (∃ b, decode 0x4700000002000000 = .bundle b ∧ b.tr = .bad .unimplementedTransfer 0x2000000) ∧
    (∃ b, decode 0xA380019000000000 = .bundle b ∧ b.tr = .bad .unimplementedTransfer 0x19000000000) ∧
    ∃ b, decode 0x8380000000000000 = .bundle b ∧ b.tr = .absent :=
  ⟨by decide +kernel, by decide +kernel, ⟨_, rfl, by decide +kernel⟩, ⟨_, rfl, by decide +kernel⟩,
    ⟨_, rfl, by decide +kernel⟩⟩

/-- ResetClearsEverything: a state that admits the reset in IDLE and FAULT, and one that does not. -/
theorem witness_reset :
    State.reset.dstate = .idle ∧ (State.reset.takeFault .pcsOverflow none).dstate = .fault ∧
    (State.reset.startRun 0).dstate = .run := by decide

/-- FifoIsAQueue: empty, one word short of full, and full. -/
theorem witness_fifo :
    Fifo.empty.coherent = true ∧ Fifo.empty.num.val = 0 ∧
    (Fifo.mk (Vector.replicate 8 0) 1 0 7).coherent = true ∧
    (Fifo.mk (Vector.replicate 8 0) 3 3 8).coherent = true ∧
    (Fifo.mk (Vector.replicate 8 0) 6 3 2).coherent = false ∧
    (Fifo.mk (Vector.replicate 8 0) 4 3 8).coherent = false := by decide

/-- AddResult: both settings of ADD_SAT. -/
theorem witness_add :
    State.reset.cfg.addSat = false ∧
    ({ State.reset with cfg := { Config.reference with addSat := true } } : State).cfg.addSat = true := by
  decide

/-- CfiResult, ConversionRounding, FmulResult: a NaN, an infinity, a finite value, infinity by zero. -/
theorem witness_floats :
    f32IsNaN 0x7FC00000 = true ∧ f32IsInf 0xFF800000 = true ∧ f32IsFinite 0x7F7FFFFF = true ∧
    f32IsZero 0x80000000 = true ∧ fmulIsNaN 0x7F800000 0 = true ∧
    fmulIsNaN 0x3F800000 0x40000000 = false := by decide

/-- ProductRounding: an infinite factor, a product below the bound and one at it, 2^64 by 2^64. -/
theorem witness_products :
    (fmulIsNaN 0x7F800000 0x3F800000 = false ∧ f32IsInf 0x7F800000 = true) ∧
    (fmulIsNaN 0x3F800000 0x3F800000 = false ∧
      |f32Value 0x3F800000 * f32Value 0x3F800000| < 2 ^ 128 - 2 ^ 103) ∧
    fmulIsNaN 0x5F800000 0x5F800000 = false ∧ f32IsFinite 0x5F800000 = true ∧
    ¬|f32Value 0x5F800000 * f32Value 0x5F800000| < 2 ^ 128 - 2 ^ 103 := by
  have h1 : f32Value 0x3F800000 = 1 := by
    simp [f32Value, f32Exp, f32Frac, BitVec.msb_eq_decide]
    norm_num
  have h2 : f32Value 0x5F800000 = 2 ^ 64 := by
    simp [f32Value, f32Exp, f32Frac, BitVec.msb_eq_decide]
    norm_num
  rw [h1, h2]
  refine ⟨by decide, ⟨by decide, by norm_num⟩, by decide, by decide, by norm_num⟩

/-- UnitFrame, FlagGroups, LazyFlagWrite: an ALU and a MUL op that answer a next state, and one that
changes a flag of its group. -/
theorem witness_units :
    (Instr.add (.aa 0) .zero .discard).slot = .alu ∧ (Instr.mul (.aa 0) (.ab 0) .discard).slot = .mul ∧
    (∃ t, exec (.add (.aa 0) .zero .discard) (delayed State.reset 0x88053E0000000000) = .next t ∧
      t.getFlag .az ≠ (delayed State.reset 0x88053E0000000000).getFlag .az) ∧
    (∃ t, exec (.mul (.aa 0) (.ab 0) .discard) State.reset = .next t) ∧
    Flag.zc ∉ Instr.flagsDefined (.add (.aa 0) .zero .discard) :=
  ⟨rfl, rfl, ⟨_, rfl, by decide +kernel⟩, ⟨_, rfl⟩, by decide⟩

/-- ImmediateTransferResult: LDI, LDN, an output FIFO with one place left, the last ring pointer. -/
theorem witness_immediates :
    ((fun r => Instr.ldi r 5) = fun r => Instr.ldi r 5) ∧
    (∃ n : BitVec 20, (0xFFF80000 : Word).toInt = n.toInt ∧ n = 0x80000) ∧
    (having [(.fifoWpos .fo0, 7), (.fifoNum .fo0, 7)]).fo0.num.val < 8 ∧
    (having [(.fifoWpos .fo1, 7), (.fifoNum .fo1, 7)]).fo1.num.val < 8 ∧
    ∃ p : Fin 24, (23 : Word).toNat = p.val :=
  ⟨rfl, ⟨_, by decide, rfl⟩, by decide, by decide, ⟨23, rfl⟩⟩

/-- MovResult, StoreResult: what a read of FI, of the ring and of another register leaves. -/
theorem witness_reads (s : State) :
    s.readLeaves { s with fi := s.fi.pop } .fi ∧ s.readLeaves s (.ar 0) ∧
    State.reset.readLeaves { State.reset with prp := 23 } (.pr .dec) :=
  ⟨rfl, rfl, 23, rfl, rfl⟩

/-- MovResult: FI with one word to FO0 with one place, and a pointer written with 23. -/
theorem witness_mov :
    0 < (having [(.fifoNum .fi, 1), (.fifoNum .fo0, 7)]).fi.num.val ∧
    (having [(.fifoNum .fi, 1), (.fifoNum .fo0, 7)]).fo0.num.val < 8 ∧
    ((having [(.ar 0, 23)]).regVal (.ar 0)).toNat < 24 := by decide

/-- LoadResult, StoreResult, StoreThenLoad: the last word of either RAM, the first word through the window,
and a platform with an answer ready. -/
theorem witness_loads_and_stores :
    ((having [(.ar 0, 0x3FF)]).ar[0]).toNat < 0x400 ∧
    (0x3FF : Word).toNat < State.reset.cfg.ramAWords ∧
    regAccepts (.bank (.aa 0)) ((having [(.ar 0, 0x3FF)]).ramA.readWord 0x3FF) = true ∧
    0x400 ≤ ((having [(.ar 0, 0x400), (.scalar .eb, 0x12345678)]).ar[0]).toNat ∧
    (0x12345400 : Word).toNat =
      (having [(.ar 0, 0x400), (.scalar .eb, 0x12345678)]).windowWord 0x400 ∧
    Config.reference.admits 0x12345400 = true ∧ (0x3FF : Word).toNat < State.reset.cfg.ramBWords ∧
    ({ State.reset with extIn := [7, 8] } : State).extIn = 7 :: [8] ∧
    ((having [(.ar 0, 0x400)]).ar[0] + (0x3FFF : BitVec 14).signExtend 32).toNat < 0x400 := by decide

/-- The three forms of a load and of a store in LoadResult and StoreResult. -/
theorem witness_load_forms (s : State) :
    (∃ x, Instr.ld1 (.ar 0) .a .postInc 0 = .ld1 (.ar 0) .a .postInc x ∧ s.ar[0] = s.ar[x]) ∧
    (∃ x d, Instr.ld1 (.ar 0) .b (.disp12 5) 1 = .ld1 (.ar 0) .b (.disp12 d) x) ∧
    (∃ x d, Instr.ld2 (.ar 0) .b 1 5 = .ld2 (.ar 0) .b x d) ∧
    (∃ x d, Instr.st2 (.ar 0) .b 1 5 = .st2 (.ar 0) .b x d) :=
  ⟨⟨0, rfl, rfl⟩, ⟨1, 5, rfl⟩, ⟨1, 5, rfl⟩, ⟨1, 5, rfl⟩⟩

/-- StoreThenLoad: a store that answers a next state on canonical memories. -/
theorem witness_store_then_load :
    State.reset.ramA.wf = true ∧ State.reset.ramB.wf = true ∧ (Reg6.ar 3).readable = true ∧
    ∃ t, exec (.st2 (.ar 3) .b 0 0x3FF) State.reset = .next t :=
  ⟨rfl, rfl, rfl, ⟨_, rfl⟩⟩

/-- DoubleTransferResult: A in RAM-A at the last word and through the window, B at the last word. -/
theorem witness_double_transfer :
    ((having [(.ar 0, 0x3FF)]).ar[0]).toNat < 0x400 ∧
    Config.reference.admits ((having [(.ar 0, 0x400)]).extAddr 0x400) = true ∧
    (((having [(.ar 0, 0x3FE)]).ar.set 0 0x3FF)[0]).toNat < State.reset.cfg.ramBWords := by decide

/-- TransferFrame, StoresChangeOneWord, OnlyStoresChangeMemory: ops that answer a next state. -/
theorem witness_transfer_frames :
    (∃ t, exec (.ld1 (.ar 1) .a .postInc 0) State.reset = .next t ∧ t.dstate ≠ .fault) ∧
    (∃ t, exec (.st1 (.ar 1) .a .postInc 0) State.reset = .next t ∧ t.dstate ≠ .fault) ∧
    (∃ t, exec (.st2 (.ar 1) .b 0 4) State.reset = .next t) ∧
    (∃ t, exec (.dx1 (some ⟨.store, .aa 0, 0⟩) (some ⟨.store, .ab 0, 1⟩)) State.reset = .next t) ∧
    RegName.pc ∉ State.reset.transferNames (.ld1 (.ar 1) .a .postInc 0) :=
  ⟨⟨_, rfl, by decide⟩, ⟨_, rfl, by decide⟩, ⟨_, rfl⟩, ⟨_, rfl⟩, by decide⟩

/-- StuckAccesses: bank B at its first word beyond, and a window word that the platform does not admit. -/
theorem witness_stuck :
    State.reset.cfg.ramBWords ≤ (0x400 : Word).toNat ∧
    State.reset.fifoShort (.ld1 (.ar 0) .b .postInc 0) = false ∧
    (0x400 : Word) = (having [(.ar 0, 0x400)]).ea1 0 .postInc ∧
    (0x400 : Word) = (having [(.ar 0, 0x400)]).ea 0 (0 : BitVec 14) ∧
    (0 : Word).toNat = State.reset.windowWord 0x400 ∧
    ({ Config.reference with extAdmit := [] } : Params).admits 0 = false := by decide

/-- StuckAccesses: sub-move B of DX.1 reaches 0x400 by A's increment of the register they share. -/
theorem witness_stuck_second :
    let s := having [(.ar 0, 0x3FF)]
    (0x400 : Word) = (s.ar.set 0 (s.ar[0] + 1))[0] ∧ s.ar[0].toNat < 0x400 := by decide

/-- PointerWriteFaults: 24 by LDI, a negative immediate by LDN, 24 by MOV from AR and from FI, and by a load
from RAM-A; 23 is accepted. -/
theorem witness_pointer_faults :
    24 ≤ (24 : Word).toNat ∧ 24 ≤ ((0xFFFFF : BitVec 20).signExtend 32).toNat ∧
    (24 : Word) = (having [(.ar 0, 24)]).regVal (.ar 0) ∧
    (24 : Word) = (having [(.fifoData .fi 0, 24), (.fifoNum .fi, 1)]).regVal .fi ∧
    (24 : Word) = (havingA 5 24 []).ramA.readWord 5 ∧ regAccepts .prp 23 = true := by decide

/-- PointerWriteFaults: under the reference encoding a bundle under way has a word, which the fault reports. -/
theorem witness_pointer_fault_field :
    let s := State.reset.withFetchWord 64 0x270000000184A000
    s.cfg.encoding = [] ∧ s.currentRaw = some 0x270000000184A000 := ⟨rfl, rfl⟩

/-- LazyFlagWrite, CmpResult: CMP in a bundle that requires no flag answers a next state. -/
theorem witness_lazy :
    let s := atRecord State.reset (plainRecord .illegal)
    s.required .au = false ∧ s.cfg.lazyFlags = .stale ∧
      ∃ t, exec (.cmp (.aa 0) .one) s = .next t := ⟨by decide, rfl, ⟨_, rfl⟩⟩

/-- BlockRecords: each operand field names a register that its op reads or writes. -/
theorem witness_operand_fields :
    BankReg.ab 1 ∈ Instr.banksRead (.add (.ab 1) (.ma 2) (.aa 3)) ∧
    BankReg.ma 2 ∈ Instr.banksRead (.cmp (.ab 1) (.ma 2)) ∧
    BankReg.mb 2 ∈ Instr.banksRead (.fmul (.aa 1) (.mb 2) (.ma 3)) ∧
    BankReg.aa 7 ∈ Instr.banksRead (.dx1 none (some ⟨.store, .aa 7, 0⟩)) ∧
    BankReg.aa 3 ∈ Instr.banksWritten (.add (.ab 1) (.ma 2) (.aa 3)) ∧
    Instr.banksWritten (.cmp (.ab 1) (.ma 2)) = [] ∧
    BankReg.mb 0 ∈ Instr.banksWritten (.ldn (.bank (.mb 0)) 0) := by decide

/-- FifoHoldChangesNothing: an empty FI, a full FO0 and a full FO1 before a bundle that needs them. -/
theorem witness_hold :
    let b := plainRecord (.bundle (Instr.mov .fi .fo0).alone)
    let s := atRecord State.reset b
    let full := atRecord (having [(.fifoNum .fo0, 8), (.fifoNum .fo1, 8)]) b
    s.running ⟨[b], 0⟩ b ∧ s.earlyFault b = none ∧
      (Instr.regRead (.mov .fi .fo0) = some .fi ∧ s.fi.num.val = 0) ∧
      (Instr.regWritten (.mov .fi .fo0) = some .fo0 ∧ full.fo0.num.val = 8) ∧
      (Instr.regWritten (.ldi .fo1 0) = some .fo1 ∧ full.fo1.num.val = 8) :=
  ⟨⟨rfl, rfl, rfl, rfl⟩, by decide, by decide, by decide, by decide⟩

/-- BranchResult and CallAndReturnResult: outside a delay slot, with the stack empty, with one entry, one
short of full, and full. -/
theorem witness_control :
    State.reset.inDelay = false ∧ State.reset.pcsp.val = 0 ∧
    (∃ (k : Fin 4) (p : Fin 5), (having [(.pcsp, 3)]).pcsp.val = k.val ∧ p.val = k.val + 1) ∧
    (∃ (k : Fin 4) (p : Fin 5), (having [(.pcsp, 4)]).pcsp.val = k.val + 1 ∧ p.val = k.val) ∧
    (having [(.pcsp, 4)]).pcsp.val = 4 :=
  ⟨by decide, by decide, ⟨3, 4, by decide, rfl⟩, ⟨3, 3, by decide, rfl⟩, by decide⟩

/-- TransferInDelaySlotFaults: a state in a delay slot, before each of the five transfers. -/
theorem witness_in_delay :
    (delayed State.reset 0x8380015000000000).inDelay = true ∧
    [Instr.dbcc .az 0, .dbncc .az 0, .djmp 0, .dcall 0, .dret].all Instr.isTransfer = true := by
  decide +kernel

/-- BankReadsAreOld, BundleFrame, SlotsRunInOrder: a bundle of three ops that completes. -/
theorem witness_bundle :
    (∃ t, (atRecord State.reset (plainRecord .illegal)).runSlots
      (Bundle.dual .dualXfer1 (.mov (.ar 0) (.bank (.aa 0))) (.add (.aa 0) .one (.aa 0)) .mnop).slots =
        .next t ∧ t.dstate ≠ .fault) ∧
    ∃ t, (atRecord State.reset (plainRecord .illegal)).issue
      (Bundle.dual .dualXfer1 .tnop (.add (.aa 0) .one (.aa 0)) .mnop) = .next t :=
  ⟨⟨_, rfl, by decide⟩, ⟨_, rfl⟩⟩

/-- BankReadsAreOld: a branch beside an op that computes its flag. -/
theorem witness_branch_beside_op :
    ∃ t, (atRecord State.reset (plainRecord .illegal)).issue
        ⟨.singleCtrl, .absent, .op (.add (.aa 0) .zero .discard), .absent, .op (.dbcc .az 2)⟩ = .next t ∧
      t.dstate ≠ .fault ∧ t.brpend.map (·.taken) = some false :=
  ⟨_, rfl, by decide, by decide⟩

/-- SlotsRunInOrder: each op completes in the state the one before left. -/
theorem witness_slots :
    ∃ t u v, exec .tnop (atRecord State.reset (plainRecord .illegal)).openBundle = .next t ∧
      t.dstate ≠ .fault ∧ exec (.add (.aa 0) .one (.pr .inc)) t = .next u ∧ u.dstate ≠ .fault ∧
      exec (.mul (.aa 0) (.pr .inc) .discard) u = .next v ∧ v.dstate ≠ .fault :=
  ⟨_, _, _, rfl, by decide, rfl, by decide, rfl, by decide⟩

/-- CommitOfBankWrites: a register written once, twice by one transfer, by two ops, and not at all. -/
theorem witness_commit :
    let l : List Pending :=
      [⟨.tr, .aa 0, 1⟩, ⟨.tr, .aa 0, 2⟩, ⟨.alu, .ab 0, 3⟩, ⟨.tr, .ma 0, 4⟩, ⟨.mul, .ma 0, 5⟩]
    l = [⟨.tr, .aa 0, 1⟩] ++ ⟨.tr, .aa 0, 2⟩ :: l.drop 2 ∧ (∀ q ∈ l.drop 2, q.reg ≠ .aa 0) ∧
      (∃ p ∈ l, p.reg = .ma 0) ∧ ∀ p ∈ l, p.reg ≠ .mb 0 := by decide

/-- StepRunsTheDecodedInstruction: the word of ADD at PC. -/
theorem witness_step_runs :
    let s := State.reset.withFetchWord 64 0x300A800000000000
    ∃ c b, s.running c b ∧ s.runInv ∧ s.cfg.mapped s.progWords s.pc = true ∧
      s.cfg.decodeWord (s.prog.readDWord s.pc.toNat) = .bundle (Instr.add (.aa 0) .one (.aa 0)).alone ∧
      s.earlyFault b = none ∧ s.mustHold b = false :=
  ⟨_, _, ⟨rfl, rfl, rfl, rfl⟩, ⟨0, _, rfl, rfl, rfl, rfl⟩, rfl, by decide +kernel, by decide +kernel,
    by decide +kernel⟩

/-- NextPc and BudgetAtBlockTail: a delay slot of a taken transfer, which ends its block. -/
theorem witness_next_pc_in_delay :
    let s := delayed State.reset 0x8380000000000000
    ∃ c b t, s.running c b ∧ s.earlyFault b = none ∧ s.mustHold b = false ∧ step s = .next t ∧
      t.dstate ≠ .fault ∧ b.indelay = true ∧ s.brpend = some ⟨true, 0⟩ ∧
      ¬c.idx + 1 < c.blk.length ∧ 0 < (c.blk.map Record.cycles).sum :=
  ⟨_, _, _, ⟨rfl, rfl, rfl, rfl⟩, by decide +kernel, by decide +kernel, rfl, by decide +kernel,
    by decide +kernel, rfl, by decide +kernel, by decide +kernel⟩

/-- NextPc and BudgetAtBlockTail: a bundle that is no delay slot and does not end its block. -/
theorem witness_next_pc :
    let s := State.reset.withFetchWord 64 0x8380000000000000
    ∃ c b t, s.running c b ∧ s.earlyFault b = none ∧ s.mustHold b = false ∧ step s = .next t ∧
      t.dstate ≠ .fault ∧ b.indelay = false ∧ c.idx + 1 < c.blk.length :=
  ⟨_, _, _, ⟨rfl, rfl, rfl, rfl⟩, by decide +kernel, by decide +kernel, rfl, by decide +kernel,
    by decide +kernel, by decide +kernel⟩

/-- EarlyFaults: one bundle for each of the five kinds, with the stack as it must be. -/
theorem witness_early_faults :
    (∃ c b, (delayed State.reset 0x8380012000000000).running c b ∧ b.indelay = true ∧
      b.isxfer = true ∧ b.unmapped = false) ∧
    (∃ c b, (State.reset.withFetchWord 64 0xC000000000000000).running c b ∧ b.dec = .illegal ∧
      b.unmapped = false) ∧
    (∃ c b, (atRecord State.reset (unmappedRecord 0)).running c b ∧ b.unmapped = true) ∧
    (∃ c b d, ((having [(.pcsp, 4)]).withFetchWord 64 0x8380014000000010).running c b ∧
      b.dec = .bundle d ∧ d.ctl = .op (.dcall 0x10) ∧ ¬(b.indelay = true ∧ b.isxfer = true)) ∧
    (∃ c b d, (State.reset.withFetchWord 64 0x8380015000000000).running c b ∧
      b.dec = .bundle d ∧ d.ctl = .op .dret ∧ ¬(b.indelay = true ∧ b.isxfer = true)) :=
  ⟨⟨_, _, ⟨rfl, rfl, rfl, rfl⟩, by decide +kernel⟩, ⟨_, _, ⟨rfl, rfl, rfl, rfl⟩, by decide +kernel⟩,
    ⟨_, _, ⟨rfl, rfl, rfl, rfl⟩, rfl⟩, ⟨_, _, _, ⟨rfl, rfl, rfl, rfl⟩, rfl, by decide +kernel⟩,
    ⟨_, _, _, ⟨rfl, rfl, rfl, rfl⟩, rfl, by decide +kernel⟩⟩

/-- BadSlotFaults: each of the four slots does not decode, with the slots before it gone through. -/
theorem witness_bad_slots :
    (∃ c b d, (State.reset.withFetchWord 64 0x2700000000000001).running c b ∧ b.dec = .bundle d ∧
      d.tr = .bad .unimplementedTransfer 1) ∧
    (∃ c b d, (State.reset.withFetchWord 64 0x2000000000000000).running c b ∧ b.dec = .bundle d ∧
      d.tr = .op .tnop ∧ d.alu = .bad .unimplementedAlu 0 ∧
      ∃ u, (State.reset.withFetchWord 64 0x2000000000000000).openBundle.runSlots [.op .tnop] = .next u ∧
        u.dstate ≠ .fault) ∧
    (∃ c b d, (State.reset.withFetchWord 64 0x270003000000000F).running c b ∧ b.dec = .bundle d ∧
      d.alu = .op .nopAlu ∧ d.mul = .bad .unimplementedMul 0xC000) ∧
    (∃ c b d, (State.reset.withFetchWord 64 0x8380001000000000).running c b ∧ b.dec = .bundle d ∧
      [d.tr, d.alu, d.mul] = [.absent, .op .nopAlu, .absent] ∧
      d.ctl = .bad .unimplementedControl 1) :=
  ⟨⟨_, _, _, ⟨rfl, rfl, rfl, rfl⟩, rfl, by decide +kernel⟩,
    ⟨_, _, _, ⟨rfl, rfl, rfl, rfl⟩, rfl, by decide +kernel, by decide +kernel, ⟨_, rfl,
      by decide +kernel⟩⟩,
    ⟨_, _, _, ⟨rfl, rfl, rfl, rfl⟩, rfl, by decide +kernel⟩,
    ⟨_, _, _, ⟨rfl, rfl, rfl, rfl⟩, rfl, by decide +kernel⟩⟩

/-- BudgetAtBlockTail: a step in which a slot faults. -/
theorem witness_slot_fault :
    let s := State.reset.withFetchWord 64 0x2000000000000000
    ∃ c b t, s.running c b ∧ s.earlyFault b = none ∧ s.mustHold b = false ∧ step s = .next t ∧
      t.dstate = .fault :=
  ⟨_, _, _, ⟨rfl, rfl, rfl, rfl⟩, by decide +kernel, by decide +kernel, rfl, by decide +kernel⟩

/-- FaultIsTerminal: a state in FAULT, in which `Reset` and a host push answer a next state. -/
theorem witness_fault :
    let s := State.reset.takeFault .pcsOverflow none
    s.dstate = .fault ∧ (∃ t, s.hostTurn .reset = .next t) ∧ ∃ t, s.hostTurn (.pushFi 1) = .next t :=
  ⟨rfl, ⟨_, rfl⟩, ⟨_, rfl⟩⟩

/-- BlockRecords, BlockTerminators, DelaySlotRecords, RequiredFlags: a block with a control transfer and
its delay slot, the slot that defines flags, and a window of one. -/
theorem witness_blocks :
    let s := delayed State.reset 0x88053E0000000000
    let blk := analyze s.cfg s.prog s.progWords 0
    1 ≤ s.cfg.blockMax ∧
    (∃ r, blk[0]? = some r ∧ r.isxfer = true ∧ r.indelay = false ∧ r.unmapped = false ∧
      r.dec.hasBad = false) ∧
    (∃ r d, blk[1]? = some r ∧ r.indelay = true ∧ r.dec = .bundle d ∧
      r.freq.getLsbD Flag.az.num.val = true) ∧
    ∃ r, (analyze s.cfg s.prog s.progWords 2)[0]? = some r ∧ r.unmapped = true :=
  ⟨by decide, ⟨_, rfl, by decide +kernel⟩, ⟨_, _, rfl, by decide +kernel, rfl, by decide +kernel⟩,
    ⟨_, rfl, by decide +kernel⟩⟩

/-- BlockStartsWhateverTheCache, FlushAndMiss (MISS that fits, FLUSH), InvariantsAreKept: the machine just
set running, with and without room in the cache. -/
theorem witness_dispatch :
    let s := State.reset.startRun 0
    (s.inv ∧ s.capacityPremise ∧ s.schedule = [] ∧ s.dstate = .run ∧ s.cur = none) ∧
    (∃ t, step s = .next t ∧ t.dstate = .miss ∧
      t.cacheUsed + fragSize t.cfg (t.analyzeAt t.pc) ≤ t.cfg.cacheCapacity) ∧
    (({ s with dstate := .miss, cacheUsed := 65 } : State).cacheUsed +
      fragSize s.cfg (s.analyzeAt s.pc) > s.cfg.cacheCapacity) ∧ ({ s with dstate := .flush } : State).dstate = .flush := by
  refine ⟨⟨⟨⟨rfl, rfl, rfl, rfl⟩, ⟨by decide, by decide, rfl, by decide⟩, ⟨rfl, by decide, ?_⟩, rfl⟩,
    (State.capacityHolds_iff _).1 rfl, rfl, rfl, rfl⟩, ⟨_, rfl, rfl, by decide +kernel⟩,
    by decide +kernel, rfl⟩
  intro _ e he
  cases he

/-- HostMoves, HostWriteThenRead: a clean program memory with every block fitting, a launch with a fragment
that fits no empty cache, and for each range of R43 its largest value. -/
theorem witness_host :
    State.reset.progDirty = false ∧ State.reset.capacityPremise ∧
    ¬({ State.reset with cfg := { Config.reference with fragTable := [((0, [none]), 66)] } } :
      State).capacityPremise ∧
    [2 ^ 32 - 1, 23, 4, 1, 2 ^ 64 - 1, 7, 8].map (fun v => v + 1) =
      [RegName.pc, .pwp, .pcsp, .flag .md, .fifoData .fo1 7, .fifoRpos .fi, .fifoNum .fo0].map regRange :=
  ⟨rfl, (State.capacityHolds_iff _).1 rfl,
    fun h => absurd ((State.capacityHolds_iff _).2 h) (by decide +kernel), by decide⟩

/-- HostMoves: a bundle that an empty FI holds, and the push that serves it. -/
theorem witness_held :
    (atRecord State.reset (plainRecord (.bundle (Instr.mov .fi .fo0).alone))).heldBy .fi ∧
    serves .fi (.pushFi 1) :=
  ⟨⟨_, _, _, _, rfl, rfl, rfl, by decide, rfl, rfl, by decide, by decide⟩, 1, rfl⟩

/-- DataInvariantIsKept, InvariantsAreKept: no `WriteReg` comes next, or one that keeps R34. -/
theorem witness_writes :
    State.reset.writeKeepsFifos ∧
    ({ State.reset with schedule := [.host (.writeReg (.ar 0) 5)] } : State).writeKeepsFifos := by
  refine ⟨fun n v rest h => (by cases h), fun n v rest h => ?_⟩
  cases h
  decide

/-- R340: a cursor of a FIFO is written as any register. -/
theorem test_host_writes_a_cursor :
    (match State.reset.hostTurn (.writeReg (.fifoWpos .fi) 3) with
      | .next t => t.fi.wpos
      | .fault _ | .refused _ => 0) = 3 ∧
    State.reset.hostTurn (.writeReg (.fifoWpos .fi) 8) = .refused .hostMove :=
  ⟨by decide, rfl⟩

/-- R8: a launch with its own encoding, its own product, a hole in program memory and a bundle of three
cycles. A fault under that encoding reports the launch's own field or opcode value (R350). -/
theorem test_parameters :
    let p : Params := { Config.reference with
      encoding := [(0xC000000000000000, some ⟨some ⟨.xferi 0x3300000005, 0x77⟩, some ⟨0x1C000, 0⟩,
          some ⟨0xC000, 0x33⟩, some ⟨0x12000000000, 0x1F⟩⟩),
        (0x8380000000000000, none)]
      progHoles := [⟨5, 2⟩]
      fmulTable := [((1, 2), ⟨3, true, false, false, false, false⟩)]
      extraCycles := [(0x8380000000000000, 2)] }
    p.decodeWord 0xC000000000000000 =
      .bundle ⟨.singleXferi, .bad .unimplementedTransfer 0x77, .op .nopAlu, .bad .unimplementedMul 0x33,
        .op (.djmp 0)⟩ ∧
    p.controlInfo (some 0xC000000000000000) (.djmp 0) = 0x1F ∧
    p.controlInfo (some 0) (.djmp 0) = 0x12 ∧ p.transferInfo 0xC000000000000000 = 0x77 ∧
    p.decodeWord 0x8380000000000000 = .illegal ∧ p.decodeWord 0 = decode 0 ∧
    (fmulOf p 0 false 1 2).r = 3 ∧ (fmulOf p 0 false 0x40400000 0x40000000).r = 0x40C00000 ∧
    [4, 5, 6, 7, 8].map (p.mapped 8) = [true, false, false, true, false] ∧
    [0x8380000000000000, 0].map p.cycles = [3, 1] := by decide +kernel

/-- R8, R68, R43: a launch with a RAM-A of 0x200 words stops at its word 0x200 and serves word 0x1FF. -/
theorem test_small_ram :
    let s (a : Nat) : State := { having [(.ar 0, a)] with cfg := { Config.reference with ramAWords := 0x200 } }
    exec (.ld1 (.ar 1) .a .postInc 0) (s 0x200) = .fault (.ramAOutOfRange 0x200) ∧
    ∃ t, exec (.ld1 (.ar 1) .a .postInc 0) (s 0x1FF) = .next t := ⟨rfl, _, rfl⟩

/-- R161: of what two sub-moves and an ALU op wrote to one register only the second's and the op's count. -/
theorem test_last_writes :
    lastWrites [⟨.tr, .aa 0, 1⟩, ⟨.tr, .aa 0, 2⟩, ⟨.alu, .aa 0, 3⟩, ⟨.mul, .ma 0, 4⟩] =
      [⟨.tr, .aa 0, 2⟩, ⟨.alu, .aa 0, 3⟩, ⟨.mul, .ma 0, 4⟩] := by decide

/-- R392: a run that starts at the end-of-run idiom has that state as its end state, and not the state the
host leaves after it. -/
theorem test_end_state :
    let s : State := { State.reset with
      prog := (Memory.writeDWord [] 0 0x8380012000000000).writeDWord 1 0x8380000000000000
      progWords := 2, cfg := { Config.reference with haltAddr := some 0 } }
    s.endState s ∧ ¬s.endState { s with fo0 := s.fo0.pop } := by
  intro s
  have h : s.endState s :=
    ⟨0, rfl, ⟨0, rfl, ⟨rfl, rfl, by decide +kernel, by decide +kernel⟩, rfl, rfl, rfl⟩,
      fun m hm => absurd hm m.not_lt_zero⟩
  exact ⟨h, fun h' => absurd (State.endState_unique _ h h') (by decide +kernel)⟩

/-- CoreNeverWritesProgram, DataInvariantIsKept: a core turn that answers a next state. -/
theorem witness_core_turn :
    (∃ t, (State.reset.startRun 5).coreTurn = .next t) ∧ State.reset.dataInv ∧
    ∃ t, step (State.reset.startRun 5) = .next t :=
  ⟨⟨_, rfl⟩, ⟨rfl, rfl, rfl, rfl⟩, ⟨_, rfl⟩⟩

end Sys2Proof.Machine
end

section
/-!
PROOFS. FLUSH and MISS (45_dispatch R331, R332), and the accesses that leave the core stuck (20_memory R68,
R70).
-/

namespace Sys2Proof.Machine

/-! ## FLUSH and MISS (45_dispatch R331, R332) -/

section
variable {s : State}

theorem State.step_of_unscheduled (hs : s.schedule = []) : step s = s.coreTurn := by
  simp [step, State.takeTurn, hs]

theorem State.step_flush (hs : s.schedule = []) (hd : s.dstate = .flush) : step s = .next s.flushStep := by
  simp [State.step_of_unscheduled hs, State.coreTurn, hd]

theorem State.step_miss (hs : s.schedule = []) (hd : s.dstate = .miss) : step s = .next s.missStep := by
  simp [State.step_of_unscheduled hs, State.coreTurn, hd]

theorem State.missStep_of_fits
    (h : s.cacheUsed + fragSize s.cfg (s.analyzeAt s.pc) ≤ s.cfg.cacheCapacity) :
    s.missStep = { s with cache := (s.pc, s.analyzeAt s.pc) :: s.cache,
                          cacheUsed := s.cacheUsed + fragSize s.cfg (s.analyzeAt s.pc),
                          dstate := .run } := if_pos h

theorem State.missStep_of_full
    (h : ¬s.cacheUsed + fragSize s.cfg (s.analyzeAt s.pc) ≤ s.cfg.cacheCapacity) :
    s.missStep = { s with dstate := .flush, signal := some .cacheResetRequested } := if_neg h

end

theorem fragSize_reference {p : Params} (h : p.fragTable = []) (blk : Block) :
    fragSize p blk = blk.length := by simp [fragSize, h]

/-- Settles O53: FLUSH and MISS are one core turn each, and MISS goes by whether the block fits. -/
theorem flushAndMiss : Obligations.FlushAndMiss := by
  intro s hs
  refine ⟨State.step_flush hs, fun hd => ?_, fun blk h => fragSize_reference h blk⟩
  rw [State.step_miss hs hd]
  split
  next h => rw [State.missStep_of_fits h]
  next h => rw [State.missStep_of_full h]

/-! ## Stuck accesses (20_memory R68, R70) -/

theorem State.extAddr_congr {s t : State} (he : t.eb = s.eb) (ea : Word) : t.extAddr ea = s.extAddr ea :=
  congrArg (fun e : Word => (e &&& 0xFFFFFC00) ||| (ea &&& 0x000003FF)) he

/-- Routing looks at the parameters and the segment base alone (20_memory R68, R70). -/
theorem State.memLoc_congr {s t : State} (hc : t.cfg = s.cfg) (he : t.eb = s.eb) (bank : MemBank) (ea : Word) :
    t.memLoc bank ea = s.memLoc bank ea := by
  simp only [State.memLoc, State.extAddr_congr he, hc]

theorem State.windowWord_eq {s : State} {ea w : Word} (h : w.toNat = s.windowWord ea) : w = s.extAddr ea :=
  BitVec.eq_of_toNat_eq (h.trans (s.extAddr_toNat ea).symm)

section
variable {s : State} {bank : MemBank} {ea : Word} {f : Fault}

theorem State.memLoc_stuck
    (h : (bank = .b ∧ s.cfg.ramBWords ≤ ea.toNat ∧ f = .ramBOutOfRange ea) ∨
      (bank = .a ∧ ea.toNat < 0x400 ∧ s.cfg.ramAWords ≤ ea.toNat ∧ f = .ramAOutOfRange ea) ∨
      (bank = .a ∧ 0x400 ≤ ea.toNat ∧
        ∃ w : Word, w.toNat = s.windowWord ea ∧ s.cfg.admits w = false ∧ f = .extNotAdmitted w)) :
    s.memLoc bank ea = .error f := by
  obtain ⟨rfl, hw, rfl⟩ | ⟨rfl, hi, hw, rfl⟩ | ⟨rfl, hi, w, hw, ha, rfl⟩ := h
  · exact s.memLoc_outOfRange hw
  · exact s.memLoc_absent hi hw
  · obtain rfl := State.windowWord_eq hw
    exact s.memLoc_refused hi ha

theorem State.memLoc_served
    (h : (ea.toNat < 0x400 ∧ ea.toNat < s.cfg.ramAWords) ∨
      ∃ w : Word, 0x400 ≤ ea.toNat ∧ w.toNat = s.windowWord ea ∧ s.cfg.admits w = true) :
    ∃ p, s.memLoc .a ea = .ok p := by
  obtain ⟨hi, hw⟩ | ⟨w, hi, hw, ha⟩ := h
  · exact ⟨_, s.memLoc_ramA hi hw⟩
  · obtain rfl := State.windowWord_eq hw
    exact ⟨_, s.memLoc_ext hi ha⟩

theorem State.loadReg_of_stuck (h : s.memLoc bank ea = .error f) (i : Instr) (s0 : State) (reg : Reg6) :
    s.loadReg i s0 bank ea reg = .fault f := by
  simp [State.loadReg, h]

theorem State.storeAt_of_stuck (h : s.memLoc bank ea = .error f) (v : Word) :
    s.storeAt bank ea v = .fault f := by
  simp [State.storeAt, h]

theorem exec_ld1_of_stuck {reg : Reg6} {m : AddrMode} {x : Fin 8}
    (hs : s.fifoShort (.ld1 reg bank m x) = false) (h : s.memLoc bank (s.ea1 x m) = .error f) :
    exec (.ld1 reg bank m x) s = .fault f := by
  rw [exec, execLd1, State.unlessShort_of_served _ _ hs]
  exact State.loadReg_of_stuck ((State.memLoc_congr (by simp) (by simp) ..).trans h) ..

theorem exec_ld2_of_stuck {reg : Reg6} {x : Fin 8} {d : BitVec 14}
    (hs : s.fifoShort (.ld2 reg bank x d) = false) (h : s.memLoc bank (s.ea x d) = .error f) :
    exec (.ld2 reg bank x d) s = .fault f := by
  rw [exec, execLd2, State.unlessShort_of_served _ _ hs, State.loadReg_of_stuck h]

@[simp] theorem State.ea_afterRegRead {n : Nat} (s : State) (reg : Reg6) (x : Fin 8) (d : BitVec n) :
    (s.afterRegRead reg).ea x d = s.ea x d := by
  simp [State.ea]

@[simp] theorem State.ea1_afterRegRead (s : State) (reg : Reg6) (x : Fin 8) (m : AddrMode) :
    (s.afterRegRead reg).ea1 x m = s.ea1 x m := by
  cases m <;> simp [State.ea1]

theorem exec_st1_of_stuck {reg : Reg6} {m : AddrMode} {x : Fin 8}
    (hs : s.fifoShort (.st1 reg bank m x) = false) (hr : reg.readable = true)
    (h : s.memLoc bank (s.ea1 x m) = .error f) : exec (.st1 reg bank m x) s = .fault f := by
  rw [exec, execSt1, State.unlessShort_of_served _ _ hs, if_pos hr, State.ea1_afterRegRead]
  exact State.storeAt_of_stuck ((State.memLoc_congr (by simp) (by simp) ..).trans h) _

theorem exec_st2_of_stuck {reg : Reg6} {x : Fin 8} {d : BitVec 14}
    (hs : s.fifoShort (.st2 reg bank x d) = false) (hr : reg.readable = true)
    (h : s.memLoc bank (s.ea x d) = .error f) : exec (.st2 reg bank x d) s = .fault f := by
  rw [exec, execSt2, State.unlessShort_of_served _ _ hs, if_pos hr, State.ea_afterRegRead]
  exact State.storeAt_of_stuck ((State.memLoc_congr (by simp) (by simp) ..).trans h) _

theorem State.subMove_of_stuck {m : SubMove} (h : s.memLoc bank s.ar[m.arx] = .error f)
    (l : Option (BankReg × Word)) : s.subMove bank l (some m) = .error f := by
  have ht : (s.arInc m.arx).memLoc bank s.ar[m.arx] = .error f :=
    (State.memLoc_congr (by simp) (by simp) ..).trans h
  simp only [State.subMove, ht]

/-- A sub-move that is served keeps what the next one's address and routing rest on, but for its own
address register (43_transfer R259). -/
theorem State.subMove_of_served {m : SubMove} {p : Place} (h : s.memLoc bank s.ar[m.arx] = .ok p)
    (l : Option (BankReg × Word)) :
    ∃ u l', s.subMove bank l (some m) = .ok (u, l') ∧ u.ar = s.ar.set m.arx (s.ar[m.arx] + 1) ∧
      u.cfg = s.cfg ∧ u.eb = s.eb := by
  have ht : (s.arInc m.arx).memLoc bank s.ar[m.arx] = .ok p :=
    (State.memLoc_congr (by simp) (by simp) ..).trans h
  simp only [State.subMove, ht]
  cases m.dir
  · exact ⟨_, _, rfl, by simp⟩
  · exact ⟨_, _, rfl, by simp⟩

theorem exec_dx1_of_stuck_a {m : SubMove} (b : Option SubMove) (h : s.memLoc .a s.ar[m.arx] = .error f) :
    exec (.dx1 (some m) b) s = .fault f := by
  simp only [exec, execDx1, State.subMove_of_stuck h]

theorem exec_dx1_of_stuck_b {m : SubMove} (h : s.memLoc .b s.ar[m.arx] = .error f) :
    exec (.dx1 none (some m)) s = .fault f := by
  have h0 : s.subMove .a none none = .ok (s, none) := rfl
  simp only [exec, execDx1, h0, State.subMove_of_stuck h]

theorem exec_dx1_of_stuck_after_a {n m : SubMove} {p : Place} (hn : s.memLoc .a s.ar[n.arx] = .ok p)
    (h : s.memLoc .b (s.ar.set n.arx (s.ar[n.arx] + 1))[m.arx] = .error f) :
    exec (.dx1 (some n) (some m)) s = .fault f := by
  obtain ⟨u, l, hu, har, hc, he⟩ := State.subMove_of_served hn none
  have hm : u.memLoc .b u.ar[m.arx] = .error f := by
    rw [State.memLoc_congr hc he, har, h]
  simp only [exec, execDx1, hu, State.subMove_of_stuck hm]

end

/-- Settles O30: the routing of the access answers the fault, and each form passes it on. -/
theorem stuckAccesses : Obligations.StuckAccesses := by
  refine ⟨rfl, rfl, fun reg bank m x d ea f s h => ?_⟩
  have hm := State.memLoc_stuck h
  refine ⟨fun hs he => ?_, fun hs he => ?_, fun hs hr he => ?_, fun hs hr he => ?_, fun n b hb he => ?_,
    fun n hb he => ?_, fun n k hb he hn => ?_⟩
  · exact exec_ld1_of_stuck hs (he ▸ hm)
  · exact exec_ld2_of_stuck hs (he ▸ hm)
  · exact exec_st1_of_stuck hs hr (he ▸ hm)
  · exact exec_st2_of_stuck hs hr (he ▸ hm)
  · exact exec_dx1_of_stuck_a b (hb ▸ he ▸ hm)
  · exact exec_dx1_of_stuck_b (hb ▸ he ▸ hm)
  · obtain ⟨p, hp⟩ := State.memLoc_served hn
    exact exec_dx1_of_stuck_after_a hp (hb ▸ he ▸ hm)

end Sys2Proof.Machine
end

section
/-!
PROOFS. The records of a block (40_bundle R150 to R156): the slot an op decodes into, the register and flag
sets as sets, and what the block adds to the record of an address.
-/

namespace Sys2Proof

/-! ## Decoded ops stand in their own slot (30_encoding R131) -/

/-- The op, if there is one, stands in slot `k`. -/
def standsIn (k : SlotKind) (o : Option Instr) : Prop := ∀ i, o = some i → i.slot = k

section
variable {k : SlotKind} {α : Type}

@[simp] theorem standsIn_none : standsIn k none := by simp [standsIn]

@[simp] theorem standsIn_some (i : Instr) : standsIn k (some i) ↔ i.slot = k := by simp [standsIn]

@[simp] theorem standsIn_map (o : Option α) (f : α → Instr) :
    standsIn k (o.map f) ↔ ∀ x ∈ o, (f x).slot = k := by
  cases o <;> simp

@[simp] theorem standsIn_bind (o : Option α) (f : α → Option Instr) :
    standsIn k (o.bind f) ↔ ∀ x ∈ o, standsIn k (f x) := by
  cases o <;> simp

@[simp] theorem standsIn_ite (c : Prop) [Decidable c] (o o' : Option Instr) :
    standsIn k (if c then o else o') ↔ (c → standsIn k o) ∧ (¬c → standsIn k o') := by
  by_cases h : c <;> simp [h]

end

@[simp] theorem decodeAluOp_standsIn (a : BitVec 19) : standsIn .alu (decodeAluOp a) := by
  simp [decodeAluOp, Instr.slot]

@[simp] theorem decodeMulOp_standsIn (m : BitVec 16) : standsIn .mul (decodeMulOp m) := by
  simp [decodeMulOp, Instr.slot]

@[simp] theorem decodeCtrlOp_standsIn (t : BitVec 41) : standsIn .ctl (decodeCtrlOp t) := by
  simp [decodeCtrlOp, Instr.slot]

@[simp] theorem decodeMovOp_standsIn (t : BitVec 26) : standsIn .tr (decodeMovOp t) := by
  simp [decodeMovOp, Instr.slot]

@[simp] theorem transferOp_standsIn (f : TransferField) : standsIn .tr f.op? := by
  cases f <;> simp [TransferField.op?, decodeXfer1Op, decodeXfer2Op, decodeXfer3Op, decodeDxfer1Op,
    decodeDxfer2Op, decodeXferiOp, Instr.slot]

/-- The op that a slot holds, if it holds one, stands in slot `k`. -/
def SlotDec.standsIn (k : SlotKind) (d : SlotDec) : Prop := Sys2Proof.standsIn k d.instr?

theorem SlotDec.standsIn_ofOption {k : SlotKind} (e : FaultKind) (info : Nat) {o : Option Instr}
    (h : Sys2Proof.standsIn k o) : (SlotDec.ofOption e info o).standsIn k := by
  cases o
  · exact standsIn_none
  · exact h

theorem SlotField.slot_standsIn {α : Type} {k : SlotKind} (e : FaultKind) {op : α → Option Instr}
    (h : ∀ x, standsIn k (op x)) (f : Option (SlotField α)) : (SlotField.slot e op f).standsIn k := by
  cases f
  · exact standsIn_none
  · exact SlotDec.standsIn_ofOption _ _ (h _)

theorem singleAlu_standsIn (w : DWord) : (singleAlu w).standsIn .alu := by
  unfold singleAlu
  split
  · exact SlotDec.standsIn_ofOption _ _ (decodeAluOp_standsIn _)
  · exact standsIn_none

theorem singleMul_standsIn (w : DWord) : (singleMul w).standsIn .mul := by
  unfold singleMul
  split_ifs
  · exact standsIn_none
  · exact SlotDec.standsIn_ofOption _ _ (decodeMulOp_standsIn _)
  · exact standsIn_none

/-- Every slot of a bundle holds at most an op of its own kind. -/
def Bundle.slotted (b : Bundle) : Prop := ∀ k, (b.at k).standsIn k

theorem Bundle.slotted_mk {b : Bundle} (ht : b.tr.standsIn .tr) (ha : b.alu.standsIn .alu)
    (hm : b.mul.standsIn .mul) (hc : b.ctl.standsIn .ctl) : b.slotted
  | .tr => ht
  | .alu => ha
  | .mul => hm
  | .ctl => hc

theorem decodeDual_slotted (c : FormatClass) {op : BitVec 26 → Option Instr} (w : DWord)
    (h : ∀ t, standsIn .tr (op t)) : (decodeDual c op w).slotted :=
  Bundle.slotted_mk (SlotDec.standsIn_ofOption _ _ (h _))
    (SlotDec.standsIn_ofOption _ _ (decodeAluOp_standsIn _))
    (SlotDec.standsIn_ofOption _ _ (decodeMulOp_standsIn _)) standsIn_none

theorem decodeClass_slotted (c : FormatClass) (w : DWord) : (decodeClass c w).slotted := by
  cases c with
  | dualDxfer1 => exact decodeDual_slotted _ w fun t => transferOp_standsIn (.dxfer1 t)
  | dualXfer1 => exact decodeDual_slotted _ w fun t => transferOp_standsIn (.xfer1 t)
  | dualDxfer2 => exact decodeDual_slotted _ w fun t => transferOp_standsIn (.dxfer2 t)
  | dualXfer2 => exact decodeDual_slotted _ w fun t => transferOp_standsIn (.xfer2 t)
  | dualXfer3 => exact decodeDual_slotted _ w fun t => transferOp_standsIn (.xfer3 t)
  | singleCtrl =>
    exact Bundle.slotted_mk standsIn_none (singleAlu_standsIn w) (singleMul_standsIn w)
      (SlotDec.standsIn_ofOption _ _ (decodeCtrlOp_standsIn _))
  | singleXferi =>
    exact Bundle.slotted_mk (SlotDec.standsIn_ofOption _ _ (transferOp_standsIn (.xferi _)))
      (singleAlu_standsIn w) (singleMul_standsIn w) standsIn_none

theorem WordFields.bundle_slotted (f : WordFields) : f.bundle.slotted :=
  Bundle.slotted_mk (SlotField.slot_standsIn _ transferOp_standsIn _)
    (SlotField.slot_standsIn _ decodeAluOp_standsIn _) (SlotField.slot_standsIn _ decodeMulOp_standsIn _)
    (SlotField.slot_standsIn _ decodeCtrlOp_standsIn _)

/-- Under every `ENCODING` a slot decodes to an op of its own kind only (30_encoding R131). -/
theorem Params.decodeWord_slotted {p : Params} {w : DWord} {d : Bundle} (h : p.decodeWord w = .bundle d) :
    d.slotted := by
  unfold Params.decodeWord decode at h
  split at h
  · split at h <;> cases h
    exact decodeClass_slotted _ w
  · cases h
  · cases h
    exact WordFields.bundle_slotted _

theorem Bundle.mem_slots {b : Bundle} {x : SlotDec} : x ∈ b.slots ↔ ∃ k, b.at k = x := by
  constructor
  · intro h
    simp only [Bundle.slots, List.mem_cons, List.not_mem_nil, or_false] at h
    obtain rfl | rfl | rfl | rfl := h
    · exact ⟨.tr, rfl⟩
    · exact ⟨.alu, rfl⟩
    · exact ⟨.mul, rfl⟩
    · exact ⟨.ctl, rfl⟩
  · rintro ⟨k, rfl⟩
    cases k <;> simp [Bundle.slots, Bundle.at]

/-- An op of a slotted bundle is found in its own slot. -/
theorem Bundle.slotted.op_mem_slots {b : Bundle} (h : b.slotted) (i : Instr) :
    .op i ∈ b.slots ↔ b.at i.slot = .op i := by
  refine ⟨fun hi => ?_, fun hi => Bundle.mem_slots.2 ⟨_, hi⟩⟩
  obtain ⟨k, hk⟩ := Bundle.mem_slots.1 hi
  have hs : i.slot = k := h k i (by rw [hk]; rfl)
  rw [hs, hk]

end Sys2Proof

namespace Sys2Proof.Machine

/-! ## The registers that an op names (40_bundle R152) -/

section
variable {q : BankReg}

theorem AluSrc1.reg_eq_iff {o : AluSrc1} :
    AluSrc1.reg o = q ↔ ∃ n, (o = .aa n ∧ q = .aa n) ∨ (o = .ab n ∧ q = .ab n) := by
  cases o <;> simp [AluSrc1.reg, eq_comm]

theorem AluSrc2.reg?_eq_some_iff {o : AluSrc2} : AluSrc2.reg? o = some q ↔
    ∃ n, (o = .aa n ∧ q = .aa n) ∨ (o = .ab n ∧ q = .ab n) ∨ (o = .ma n ∧ q = .ma n) := by
  cases o <;> simp [AluSrc2.reg?, eq_comm]

theorem AluDst.reg?_eq_some_iff {o : AluDst} :
    AluDst.reg? o = some q ↔ ∃ n, (o = .aa n ∧ q = .aa n) ∨ (o = .ab n ∧ q = .ab n) := by
  cases o <;> simp [AluDst.reg?, eq_comm]

theorem MulSrc1.reg_eq_iff {o : MulSrc1} :
    MulSrc1.reg o = q ↔ ∃ n, (o = .aa n ∧ q = .aa n) ∨ (o = .ma n ∧ q = .ma n) := by
  cases o <;> simp [MulSrc1.reg, eq_comm]

theorem MulSrc2.reg?_eq_some_iff {o : MulSrc2} :
    MulSrc2.reg? o = some q ↔ ∃ n, (o = .ab n ∧ q = .ab n) ∨ (o = .mb n ∧ q = .mb n) := by
  cases o <;> simp [MulSrc2.reg?, eq_comm]

theorem MulDst.reg?_eq_some_iff {o : MulDst} :
    MulDst.reg? o = some q ↔ ∃ n, (o = .ma n ∧ q = .ma n) ∨ (o = .mb n ∧ q = .mb n) := by
  cases o <;> simp [MulDst.reg?, eq_comm]

theorem Reg6.reg?_eq_some_iff {r : Reg6} : Reg6.reg? r = some q ↔ r = .bank q := by
  cases r <;> simp [Reg6.reg?]

theorem subMoveReg?_eq_some_iff {d : Dir} {o : Option SubMove} :
    subMoveReg? d o = some q ↔ ∃ m, o = some m ∧ m.dir = d ∧ m.reg = q := by
  cases o <;> simp [subMoveReg?]

/-- The op reads the bank register through a field it uses (40_bundle R152). -/
def Instr.ReadsBank (i : Instr) (q : BankReg) : Prop :=
  (∃ s d, (i = .cif s d ∨ i = .cfi s d) ∧ AluSrc2.reg? s = some q) ∨
  (∃ s1 s2, (i = .cmp s1 s2 ∨ ∃ d, i = .add s1 s2 d) ∧
    (AluSrc1.reg s1 = q ∨ AluSrc2.reg? s2 = some q)) ∨
  (∃ s1 s2 d, (i = .fmul s1 s2 d ∨ i = .mul s1 s2 d) ∧
    (MulSrc1.reg s1 = q ∨ MulSrc2.reg? s2 = some q)) ∨
  (∃ d, i = .mov (.bank q) d) ∨ (∃ k m x, i = .st1 (.bank q) k m x) ∨
  (∃ k x d, i = .st2 (.bank q) k x d) ∨
  ∃ a b, i = .dx1 a b ∧ (subMoveReg? .store a = some q ∨ subMoveReg? .store b = some q)

/-- The op writes the bank register (40_bundle R152). -/
def Instr.WritesBank (i : Instr) (q : BankReg) : Prop :=
  (∃ s d, (i = .cif s d ∨ i = .cfi s d ∨ ∃ s1, i = .add s1 s d) ∧ AluDst.reg? d = some q) ∨
  (∃ s1 s2 d, (i = .fmul s1 s2 d ∨ i = .mul s1 s2 d) ∧ MulDst.reg? d = some q) ∨
  (∃ s, i = .mov s (.bank q)) ∨ (∃ k m x, i = .ld1 (.bank q) k m x) ∨
  (∃ k x d, i = .ld2 (.bank q) k x d) ∨ (∃ v, i = .ldi (.bank q) v) ∨ (∃ v, i = .ldn (.bank q) v) ∨
  ∃ a b, i = .dx1 a b ∧ (subMoveReg? .load a = some q ∨ subMoveReg? .load b = some q)

theorem Instr.mem_banksRead {i : Instr} : q ∈ Instr.banksRead i ↔ Instr.ReadsBank i q := by
  cases i <;> simp [Instr.banksRead, Instr.ReadsBank, Reg6.reg?_eq_some_iff, @eq_comm _ q]

theorem Instr.mem_banksWritten {i : Instr} : q ∈ Instr.banksWritten i ↔ Instr.WritesBank i q := by
  cases i <;> simp [Instr.banksWritten, Instr.WritesBank, Reg6.reg?_eq_some_iff]

end

theorem Instr.mem_flagsUsed {i : Instr} {f : Flag} :
    f ∈ Instr.flagsUsed i ↔ ∃ x, i = .dbcc f x ∨ i = .dbncc f x := by
  cases i <;> simp [Instr.flagsUsed, eq_comm]

theorem Instr.isTransfer_iff {i : Instr} : i.isTransfer = true ↔
    (∃ f x, i = .dbcc f x ∨ i = .dbncc f x) ∨ (∃ x, i = .djmp x ∨ i = .dcall x) ∨ i = .dret := by
  cases i <;> simp [Instr.isTransfer]

/-! ## Bit sets as sets -/

theorem bankSet_getLsbD (l : List BankReg) (q : BankReg) :
    (bankSet l).getLsbD (BankReg.num q).val = true ↔ q ∈ l := by
  induction l with
  | nil => simp [bankSet]
  | cons r l ih =>
    have hr : (BankReg.bit r).getLsbD (BankReg.num q).val = true ↔ q = r := by
      simp only [BankReg.bit, BitVec.getLsbD_twoPow, Bool.and_eq_true, decide_eq_true_eq, Fin.is_lt,
        true_and, Fin.val_inj]
      exact ⟨fun h => (BankReg.num_injective h).symm, fun h => h ▸ rfl⟩
    rw [List.mem_cons, ← ih, ← hr, ← Bool.or_eq_true, ← BitVec.getLsbD_or]
    rfl

theorem flagSet_getLsbD (l : List Flag) (f : Flag) : (flagSet l).getLsbD f.num.val = true ↔ f ∈ l := by
  induction l with
  | nil => simp [flagSet]
  | cons g l ih =>
    have hg : (Flag.bit g).getLsbD f.num.val = true ↔ f = g := by
      simp only [Flag.bit, BitVec.getLsbD_twoPow, Bool.and_eq_true, decide_eq_true_eq, Fin.is_lt,
        true_and, Fin.val_inj]
      exact ⟨fun h => (Flag.num_injective h).symm, fun h => h ▸ rfl⟩
    rw [List.mem_cons, ← ih, ← hg, ← Bool.or_eq_true, ← BitVec.getLsbD_or]
    rfl

theorem mem_decodedOps {d : Bundle} {i : Instr} : i ∈ decodedOps (.bundle d) ↔ .op i ∈ d.slots := by
  have h : ∀ x : SlotDec, x.instr? = some i ↔ x = .op i := fun x => by cases x <;> simp [SlotDec.instr?]
  simp [decodedOps, h]

/-! ## The record of a mapped bundle (40_bundle R151 to R155) -/

theorem mappedRecord_isxfer_of_illegal {p : Params} {w : DWord} (a : PcWord)
    (h : p.decodeWord w = .illegal) : (mappedRecord p a w).isxfer = false := by
  simp [mappedRecord, h, controlOp]

section
variable {p : Params} {w : DWord} {d : Bundle} (a : PcWord) (h : p.decodeWord w = .bundle d)
include h

theorem mappedRecord_rd (q : BankReg) : (mappedRecord p a w).rd.getLsbD (BankReg.num q).val = true ↔
    ∃ i, .op i ∈ d.slots ∧ Instr.ReadsBank i q := by
  simp only [mappedRecord, bankSet_getLsbD, h, List.mem_flatMap, mem_decodedOps, Instr.mem_banksRead]

theorem mappedRecord_wr (q : BankReg) : (mappedRecord p a w).wr.getLsbD (BankReg.num q).val = true ↔
    ∃ i, .op i ∈ d.slots ∧ Instr.WritesBank i q := by
  simp only [mappedRecord, bankSet_getLsbD, h, List.mem_flatMap, mem_decodedOps, Instr.mem_banksWritten]

theorem mappedRecord_fdef (f : Flag) : (mappedRecord p a w).fdef.getLsbD f.num.val = true ↔
    ∃ i, .op i ∈ d.slots ∧ f ∈ Instr.flagsDefined i := by
  simp only [mappedRecord, flagSet_getLsbD, h, List.mem_flatMap, mem_decodedOps]

/-- Only the control slot reads a flag: a conditional branch decodes there alone. -/
theorem mappedRecord_fuse (f : Flag) : (mappedRecord p a w).fuse.getLsbD f.num.val = true ↔
    ∃ x, d.ctl = .op (.dbcc f x) ∨ d.ctl = .op (.dbncc f x) := by
  have hd := Params.decodeWord_slotted h
  simp only [mappedRecord, flagSet_getLsbD, h, List.mem_flatMap, mem_decodedOps, Instr.mem_flagsUsed]
  constructor
  · rintro ⟨i, hi, x, rfl | rfl⟩
    · exact ⟨x, .inl ((hd.op_mem_slots _).1 hi)⟩
    · exact ⟨x, .inr ((hd.op_mem_slots _).1 hi)⟩
  · rintro ⟨x, hx | hx⟩
    · exact ⟨_, (hd.op_mem_slots (.dbcc f x)).2 hx, x, .inl rfl⟩
    · exact ⟨_, (hd.op_mem_slots (.dbncc f x)).2 hx, x, .inr rfl⟩

theorem mappedRecord_isxfer : (mappedRecord p a w).isxfer = true ↔
    (∃ f x, d.ctl = .op (.dbcc f x) ∨ d.ctl = .op (.dbncc f x)) ∨
      (∃ x, d.ctl = .op (.djmp x) ∨ d.ctl = .op (.dcall x)) ∨ d.ctl = .op .dret := by
  simp only [mappedRecord, h, controlOp]
  cases d.ctl with
  | absent | bad => simp [SlotDec.instr?]
  | op i => simp [SlotDec.instr?, Instr.isTransfer_iff]

theorem mappedRecord_target : (mappedRecord p a w).target = match d.ctl with
    | .op (.dbcc _ x) | .op (.dbncc _ x) | .op (.djmp x) | .op (.dcall x) =>
      .static (a + x.signExtend 32)
    | .op .dret => .dynamic
    | _ => .noTarget := by
  have ht : (mappedRecord p a w).target = ((d.ctl.instr?).map (Instr.targetAt a)).getD .noTarget := by
    change ((controlOp (p.decodeWord w)).map (Instr.targetAt a)).getD .noTarget = _
    rw [h, controlOp]
  rw [ht]
  cases d.ctl with
  | absent | bad => rfl
  | op i => cases i <;> rfl

end

/-! ## The records of a block (45_dispatch R320) -/

/-- `r` is the record `q` but for what its block fills in: the required flags, its delay slot, whether it is
one, and the terminator mark (40_bundle R151). -/
def Record.placed (r q : Record) : Prop :=
  ∃ fs k i t, r = { q with freq := fs, delay := k, indelay := i, term := t }

theorem Record.placed_self (r : Record) : r.placed r := ⟨_, _, _, _, rfl⟩

theorem Record.placed.trans {r q u : Record} (h : r.placed q) (h' : q.placed u) : r.placed u := by
  obtain ⟨fs, k, i, t, rfl⟩ := h
  obtain ⟨_, _, _, _, rfl⟩ := h'
  exact ⟨fs, k, i, t, rfl⟩

theorem fillFreq_getElem? {blk : Block} {k : Nat} {r : Record} (h : (fillFreq blk)[k]? = some r) :
    ∃ q, blk[k]? = some q ∧ r.placed q := by
  induction blk generalizing k with
  | nil => simp [fillFreq] at h
  | cons q rs ih =>
    cases k with
    | zero =>
      simp only [fillFreq, List.getElem?_cons_zero, Option.some.injEq] at h
      exact ⟨q, rfl, _, _, _, _, h.symm⟩
    | succ k => exact ih h

theorem markTerm_getElem? {blk : Block} {k : Nat} {r : Record} (h : (markTerm blk)[k]? = some r) :
    ∃ q, blk[k]? = some q ∧ r.placed q := by
  fun_induction markTerm blk generalizing k with
  | case1 => simp at h
  | case2 q =>
    cases k with
    | zero =>
      simp only [List.getElem?_cons_zero, Option.some.injEq] at h
      exact ⟨q, rfl, _, _, _, _, h.symm⟩
    | succ k => simp at h
  | case3 q q' rs ih =>
    cases k with
    | zero => exact ⟨r, h, r.placed_self⟩
    | succ k => exact ih h

/-- Where a record that `joinRecord` puts together comes from. -/
theorem joinRecord_getElem? {r d q : Record} {k j : Nat} {rest : Block}
    (h : (joinRecord r d k rest)[j]? = some q) :
    (j = 0 ∧ q.placed r) ∨ (j = 1 ∧ q.placed d) ∨ ∃ i, j = i + 1 ∧ rest[i]? = some q := by
  unfold joinRecord at h
  split_ifs at h
  · match j with
    | 0 => cases h; exact .inl ⟨rfl, Record.placed_self _⟩
  · match j with
    | 0 => cases h; exact .inl ⟨rfl, _, _, _, _, rfl⟩
    | 1 => cases h; exact .inr (.inl ⟨rfl, _, _, _, _, rfl⟩)
  · match j with
    | 0 => cases h; exact .inl ⟨rfl, Record.placed_self _⟩
    | i + 1 => exact .inr (.inr ⟨i, rfl, h⟩)

theorem collect_getElem? {p : Params} {prog : Memory} {words : Nat} {a : PcWord} {k n j : Nat} {r : Record}
    (h : (collect p prog words a k n)[j]? = some r) :
    r.placed (recordAt p prog words (a + BitVec.ofNat _ j)) := by
  induction n generalizing a k j with
  | zero =>
    obtain ⟨rfl, hr⟩ | ⟨rfl, hr⟩ | ⟨i, -, hr⟩ := joinRecord_getElem? h
    · simpa using hr
    · exact hr
    · simp at hr
  | succ n ih =>
    obtain ⟨rfl, hr⟩ | ⟨rfl, hr⟩ | ⟨i, rfl, hr⟩ := joinRecord_getElem? h
    · simpa using hr
    · exact hr
    · have ha : a + BitVec.ofNat 32 (i + 1) = a + 1 + BitVec.ofNat 32 i := by
        rw [BitVec.ofNat_add]; ac_rfl
      rw [ha]
      exact ih hr

/-- The records of a block are those of consecutive addresses, with what the block fills in. -/
theorem analyze_getElem? {p : Params} {prog : Memory} {words : Nat} {a0 : PcWord} {k : Nat} {r : Record}
    (h : (analyze p prog words a0)[k]? = some r) :
    r.placed (recordAt p prog words (a0 + BitVec.ofNat _ k)) := by
  obtain ⟨q, hq, hr⟩ := fillFreq_getElem? h
  obtain ⟨u, hu, hq⟩ := markTerm_getElem? hq
  exact hr.trans (hq.trans (collect_getElem? hu))

theorem recordAt_cases (p : Params) (prog : Memory) (words : Nat) (a : PcWord) :
    (p.mapped words a = true ∧ recordAt p prog words a = mappedRecord p a (prog.readDWord a.toNat)) ∨
      (p.mapped words a = false ∧ recordAt p prog words a = unmappedRecord a) := by
  cases h : p.mapped words a <;> simp [recordAt, h]

theorem Params.mapped_eq_false_iff {p : Params} {words : Nat} {a : PcWord} : p.mapped words a = false ↔
    words ≤ a.toNat ∨ ∃ h ∈ p.progHoles, h.base ≤ a.toNat ∧ a.toNat < h.base + h.size := by
  simp only [Params.mapped, Bool.and_eq_false_iff, decide_eq_false_iff_not, Nat.not_lt,
    Bool.not_eq_false', List.any_eq_true, AddrRange.has, Bool.and_eq_true, decide_eq_true_eq]

/-- Settles O48: a block fills in only the block-wide fields of the record of each address, and those
records hold the sets of the ops that stand in the decoded slots. -/
theorem blockRecords : Obligations.BlockRecords := by
  unfold Obligations.BlockRecords
  intro ai2 mi2 aio mio ai1 mi1 dx reads writes
  have hr : ∀ i q, Instr.ReadsBank i q ↔ reads i q := fun i q => by
    simp only [Instr.ReadsBank, AluSrc1.reg_eq_iff, AluSrc2.reg?_eq_some_iff, MulSrc1.reg_eq_iff,
      MulSrc2.reg?_eq_some_iff, subMoveReg?_eq_some_iff, reads, ai1, ai2, mi1, mi2, dx]
  have hw : ∀ i q, Instr.WritesBank i q ↔ writes i q := fun i q => by
    simp only [Instr.WritesBank, AluDst.reg?_eq_some_iff, MulDst.reg?_eq_some_iff,
      subMoveReg?_eq_some_iff, writes, aio, mio, dx]
  refine ⟨fun i q => ⟨Instr.mem_banksRead.trans (hr i q), Instr.mem_banksWritten.trans (hw i q)⟩,
    fun p w h => Params.decodeWord_reference h w, fun p prog words a0 k r h => ?_⟩
  obtain ⟨fs, dl, ind, t, rfl⟩ := analyze_getElem? h
  generalize a0 + BitVec.ofNat 32 k = a
  obtain ⟨hm, he⟩ | ⟨hm, he⟩ := recordAt_cases p prog words a
  · rw [he]
    intro w
    refine ⟨rfl, Nat.le_add_right .., ⟨(nomatch ·), fun h => ?_⟩, (nomatch ·), fun _ => ⟨rfl, rfl, rfl⟩,
      mappedRecord_isxfer_of_illegal a, fun d _ hd => ?_⟩
    · exact absurd (hm.symm.trans (Params.mapped_eq_false_iff.2 h)) (by decide)
    · exact ⟨fun q => (mappedRecord_wr a hd q).trans (by simp only [hw]),
        fun q => (mappedRecord_rd a hd q).trans (by simp only [hr]), mappedRecord_fdef a hd,
        mappedRecord_fuse a hd, mappedRecord_isxfer a hd, mappedRecord_target a hd⟩
  · rw [he]
    intro w
    exact ⟨rfl, Nat.le_refl 1, ⟨fun _ => Params.mapped_eq_false_iff.1 hm, fun _ => rfl⟩,
      fun _ => ⟨rfl, rfl, rfl⟩, (nomatch ·), fun _ => rfl, fun _ h => nomatch h⟩

end Sys2Proof.Machine
end

section
/-!
PROOFS. Rounding (00_scope R15): `roundShift` to an integer, the order and the grid of binary32 magnitudes,
`roundMagnitude` to the nearest pattern, and from these the two conversions (41_alu R204, R205) and the
product (42_mul R232).
-/

namespace Sys2Proof.Machine

/-! ## Rounding to an integer -/

theorem intRoundsTo_self (rm : RoundMode) (i : Int) : intRoundsTo rm (i : ℚ) i := by
  cases rm
  · simp [intRoundsTo]
  · simp [intRoundsTo, mul_self_nonneg]

theorem intRoundsTo.neg {rm : RoundMode} {x : ℚ} {i : Int} (h : intRoundsTo rm x i) :
    intRoundsTo rm (-x) (-i) := by
  cases rm
  · have he : |((-i : Int) : ℚ) - -x| = |(i : ℚ) - x| := by rw [← abs_neg]; push_cast; ring_nf
    simp only [intRoundsTo, he, Int.neg_emod_two] at h ⊢
    exact h
  · simpa [intRoundsTo] using h

/-- What is left of `m` after the shift, as a part of the unit. -/
theorem div_two_pow_eq (m sh : Nat) :
    (m : ℚ) / 2 ^ sh = (m / 2 ^ sh : Nat) + (m % 2 ^ sh : Nat) / 2 ^ sh := by
  have h : (m : ℚ) = 2 ^ sh * (m / 2 ^ sh : Nat) + (m % 2 ^ sh : Nat) := by
    exact_mod_cast (Nat.div_add_mod m (2 ^ sh)).symm
  field_simp
  linarith

theorem roundShift_rounds (rm : RoundMode) (m sh : Nat) :
    intRoundsTo rm ((m : ℚ) / 2 ^ sh) (roundShift rm m sh : Nat) := by
  have hD : (0 : ℚ) < 2 ^ sh := by positivity
  have hlt : ((m % 2 ^ sh : Nat) : ℚ) < 2 ^ sh := by exact_mod_cast Nat.mod_lt m (Nat.two_pow_pos sh)
  have ht0 : 0 ≤ ((m % 2 ^ sh : Nat) : ℚ) / 2 ^ sh := by positivity
  have ht1 : ((m % 2 ^ sh : Nat) : ℚ) / 2 ^ sh < 1 := (div_lt_one hD).2 hlt
  rw [div_two_pow_eq]
  cases rm with
  | towardZero =>
    have hq : 0 ≤ ((m / 2 ^ sh : Nat) : ℚ) := Nat.cast_nonneg _
    simp only [intRoundsTo, roundShift, Int.cast_natCast]
    rw [abs_of_nonneg hq, abs_of_nonneg (by linarith)]
    exact ⟨by linarith, by linarith, by positivity⟩
  | nearestEven =>
    have hlt' : 2 ^ sh < 2 * (m % 2 ^ sh) ↔ 1 / 2 < ((m % 2 ^ sh : Nat) : ℚ) / 2 ^ sh := by
      rw [lt_div_iff₀ hD, ← @Nat.cast_lt ℚ]; push_cast; constructor <;> intro h <;> linarith
    have heq : 2 * (m % 2 ^ sh) = 2 ^ sh ↔ ((m % 2 ^ sh : Nat) : ℚ) / 2 ^ sh = 1 / 2 := by
      rw [div_eq_iff hD.ne', ← @Nat.cast_inj ℚ]; push_cast; constructor <;> intro h <;> linarith
    simp only [intRoundsTo, roundShift, hlt', heq]
    generalize ((m % 2 ^ sh : Nat) : ℚ) / 2 ^ sh = t at *
    generalize m / 2 ^ sh = q
    split
    next h =>
      have ht : 1 / 2 ≤ t := h.elim le_of_lt fun h => h.1.ge
      have ha : |((q + 1 : Nat) : Int) - ((q : ℚ) + t)| = 1 - t := by
        rw [abs_of_nonneg] <;> push_cast <;> linarith
      rw [ha]
      refine ⟨by linarith, fun he => ?_⟩
      obtain h | ⟨-, h⟩ := h
      · linarith
      · omega
    next h =>
      obtain ⟨h1, h2⟩ := not_or.1 h
      have ha : |((q : Int) : ℚ) - ((q : ℚ) + t)| = t := by
        rw [abs_of_nonpos] <;> push_cast <;> linarith
      rw [ha]
      refine ⟨not_lt.1 h1, fun he => ?_⟩
      have : ¬q % 2 = 1 := fun hq => h2 ⟨he, hq⟩
      omega

/-! ## The bits of a pattern -/

/-- The pattern without its sign. -/
def f32Bits (v : Word) : Nat := v.toNat % 2 ^ 31

theorem f32Exp_eq (v : Word) : f32Exp v = f32Bits v / 2 ^ 23 := by
  simp only [f32Exp, f32Bits, BitVec.extractLsb'_toNat, Nat.shiftRight_eq_div_pow]; omega

theorem f32Frac_eq (v : Word) : f32Frac v = f32Bits v % 2 ^ 23 := by
  simp only [f32Frac, f32Bits, BitVec.extractLsb'_toNat, Nat.shiftRight_zero]; omega

theorem f32Bits_lt (v : Word) : f32Bits v < 2 ^ 31 := Nat.mod_lt _ (by decide)

theorem f32IsFinite_iff {v : Word} : f32IsFinite v = true ↔ f32Bits v < 0x7F800000 := by
  have := f32Bits_lt v
  simp only [f32IsFinite, f32Exp_eq, bne_iff_ne]; omega

theorem f32IsInf_iff {v : Word} : f32IsInf v = true ↔ f32Bits v = 0x7F800000 := by
  have := f32Bits_lt v
  simp only [f32IsInf, f32Exp_eq, f32Frac_eq, Bool.and_eq_true, beq_iff_eq]; omega

theorem f32IsZero_iff {v : Word} : f32IsZero v = true ↔ f32Bits v = 0 := by
  simp only [f32IsZero, f32Exp_eq, f32Frac_eq, Bool.and_eq_true, beq_iff_eq]; omega

theorem getLsbD_zero_of_even {v : Word} (h : f32Bits v % 2 = 0) : v.getLsbD 0 = false := by
  rw [f32Bits] at h
  rw [BitVec.getLsbD, Nat.testBit_zero]
  simp; omega

section
variable {neg : Bool} {b : Nat} (h : b < 2 ^ 31)
include h

theorem f32Pack_toNat : (f32Pack neg b).toNat = (if neg then 2 ^ 31 else 0) + b := by
  have hb : b % 4294967296 = b := Nat.mod_eq_of_lt (by omega)
  cases neg
  · simp [f32Pack, hb]
  · simpa [f32Pack, hb] using (Nat.two_pow_add_eq_or_of_lt h 1).symm

theorem f32Pack_msb : (f32Pack neg b).msb = neg := by
  rw [BitVec.msb_eq_decide, f32Pack_toNat h]
  cases neg
  · simpa using h
  · simp

theorem f32Bits_pack : f32Bits (f32Pack neg b) = b := by
  rw [f32Bits, f32Pack_toNat h]
  cases neg <;> simp <;> omega

end

/-! ## The magnitudes of binary32 -/

/-- The unit of the last place of the `k`-th exponent range, the subnormal one being the first. -/
def f32Ulp (k : Nat) : ℚ := 2 ^ k / 2 ^ 149

/-- The magnitude that bits without a sign denote. -/
def f32Mag (b : Nat) : ℚ :=
  ((if b / 2 ^ 23 = 0 then b % 2 ^ 23 else 2 ^ 23 + b % 2 ^ 23 : Nat) : ℚ) * f32Ulp (b / 2 ^ 23 - 1)

theorem f32Ulp_pos (k : Nat) : 0 < f32Ulp k := by unfold f32Ulp; positivity

theorem f32Mag_nonneg (b : Nat) : 0 ≤ f32Mag b := mul_nonneg (Nat.cast_nonneg _) (f32Ulp_pos _).le

@[simp] theorem f32Mag_zero : f32Mag 0 = 0 := by simp [f32Mag]

theorem f32Mag_bits (v : Word) : f32Mag (f32Bits v) = f32Mant v * 2 ^ f32Scale v / 2 ^ 149 := by
  simp only [f32Mag, f32Mant, f32Scale, f32Exp_eq, f32Frac_eq, f32Ulp]
  ring

theorem f32Value_eq (v : Word) : f32Value v = (if v.msb then -1 else 1) * f32Mag (f32Bits v) := by
  rw [f32Value, f32Mag_bits, f32Mant, f32Scale]
  congr 1
  split
  next h => simp [h]
  next h =>
    have he : ((f32Exp v : ℤ) - 150) = (f32Exp v - 1 : ℕ) - (149 : ℕ) := by omega
    rw [he, zpow_sub₀ (by norm_num), zpow_natCast, zpow_natCast]
    ring

theorem abs_f32Value (v : Word) : |f32Value v| = f32Mag (f32Bits v) := by
  rw [f32Value_eq, abs_mul, abs_of_nonneg (f32Mag_nonneg _)]
  cases v.msb <;> simp

/-- Within an exponent range, and at its upper end, the magnitudes are the multiples of its unit. -/
theorem f32Mag_grid {k sig : Nat} (hs : sig ≤ 2 ^ 24) (hk : k = 0 ∨ 2 ^ 23 ≤ sig) :
    f32Mag (k * 2 ^ 23 + sig) = sig * f32Ulp k := by
  obtain h | h | rfl : sig < 2 ^ 23 ∨ (2 ^ 23 ≤ sig ∧ sig < 2 ^ 24) ∨ sig = 2 ^ 24 := by omega
  · obtain rfl : k = 0 := by omega
    have hd : (0 * 2 ^ 23 + sig) / 2 ^ 23 = 0 := by omega
    have hm : (0 * 2 ^ 23 + sig) % 2 ^ 23 = sig := by omega
    rw [f32Mag, hd, hm, if_pos rfl]
  · have hd : (k * 2 ^ 23 + sig) / 2 ^ 23 = k + 1 := by omega
    have hm : 2 ^ 23 + (k * 2 ^ 23 + sig) % 2 ^ 23 = sig := by omega
    rw [f32Mag, hd, hm, if_neg (Nat.succ_ne_zero k), Nat.add_sub_cancel]
  · have hd : (k * 2 ^ 23 + 2 ^ 24) / 2 ^ 23 = k + 1 + 1 := by omega
    have hm : 2 ^ 23 + (k * 2 ^ 23 + 2 ^ 24) % 2 ^ 23 = 2 ^ 23 := by omega
    rw [f32Mag, hd, hm, if_neg (Nat.succ_ne_zero (k + 1)), Nat.add_sub_cancel, f32Ulp, f32Ulp]
    push_cast
    ring

theorem f32Mag_strictMono : StrictMono f32Mag := by
  refine strictMono_nat_of_lt_succ fun b => ?_
  obtain ⟨k, sig, rfl, hs, hk⟩ : ∃ k sig, b = k * 2 ^ 23 + sig ∧ sig < 2 ^ 24 ∧ (k = 0 ∨ 2 ^ 23 ≤ sig) :=
    ⟨b / 2 ^ 23 - 1, b - (b / 2 ^ 23 - 1) * 2 ^ 23, by omega, by omega, by omega⟩
  rw [add_assoc, f32Mag_grid hs.le hk, f32Mag_grid hs (hk.imp_right Nat.le_succ_of_le)]
  have := f32Ulp_pos k
  push_cast
  linarith

/-! ## Rounding to a magnitude -/

/-- The bits `b` are the magnitude `y` rounded in the mode (00_scope R15), among all bits. -/
def magRoundsTo (rm : RoundMode) (y : ℚ) (b : Nat) : Prop :=
  match rm with
  | .towardZero => f32Mag b ≤ y ∧ ∀ c, f32Mag c ≤ y → f32Mag c ≤ f32Mag b
  | .nearestEven => ∀ c, |f32Mag b - y| ≤ |f32Mag c - y| ∧
      (|f32Mag b - y| = |f32Mag c - y| → f32Mag c = f32Mag b ∨ b % 2 = 0)

theorem magRoundsTo_zero (rm : RoundMode) : magRoundsTo rm 0 0 := by
  cases rm
  · exact fun c => ⟨by simp, fun _ => .inr rfl⟩
  · exact ⟨f32Mag_zero.le, fun c h => by simpa using h⟩

/-- A rounded nonnegative number is less than one unit away. -/
theorem intRoundsTo_nat_close {rm : RoundMode} {z : ℚ} {n : Nat} (hz : 0 ≤ z) (h : intRoundsTo rm z n) :
    (n : ℚ) < z + 1 ∧ z < n + 1 := by
  cases rm with
  | nearestEven =>
    have := abs_le.1 h.1
    push_cast at this
    exact ⟨by linarith, by linarith⟩
  | towardZero =>
    obtain ⟨h1, h2, -⟩ := h
    rw [abs_of_nonneg hz, Int.cast_natCast, abs_of_nonneg (Nat.cast_nonneg n)] at h1 h2
    exact ⟨by linarith, h2⟩

/-- `t` is `n`, or differs from it, by a whole unit where `z` lies on its side of `n`. -/
def unitApart (z t : ℚ) (n : Nat) : Prop :=
  t = n ∨ (t < n ∧ (z < n → t ≤ n - 1)) ∨ (n < t ∧ (n < z → n + 1 ≤ t))

theorem truncated_of_unitApart {z t : ℚ} {n : Nat} (hz : 0 ≤ z) (h : intRoundsTo .towardZero z n)
    (ht : unitApart z t n) (htz : t ≤ z) : t ≤ n := by
  obtain ⟨-, hlt⟩ := intRoundsTo_nat_close hz h
  obtain rfl | ⟨ht, -⟩ | ⟨ht, hu⟩ := ht
  · exact le_rfl
  · exact ht.le
  · linarith [hu (ht.trans_le htz)]

theorem nearest_of_unitApart {z t : ℚ} {n : Nat} (h : intRoundsTo .nearestEven z n) (ht : unitApart z t n) :
    |n - z| ≤ |t - z| ∧ (|n - z| = |t - z| → t = n ∨ n % 2 = 0) := by
  obtain ⟨h1, h2⟩ := h
  rw [Int.cast_natCast] at h1 h2
  have far (hd : 1 / 2 ≤ |t - z|) : |n - z| ≤ |t - z| ∧ (|n - z| = |t - z| → t = n ∨ n % 2 = 0) :=
    ⟨h1.trans hd, fun he => .inr (by have := h2 (le_antisymm h1 (he ▸ hd)); omega)⟩
  have strict (hd : |n - z| < |t - z|) : |n - z| ≤ |t - z| ∧ (|n - z| = |t - z| → t = n ∨ n % 2 = 0) :=
    ⟨hd.le, fun he => absurd he hd.ne⟩
  obtain ⟨hl, hr⟩ := abs_le.1 h1
  obtain rfl | ⟨ht, hu⟩ | ⟨ht, hu⟩ := ht
  · exact ⟨le_rfl, fun _ => .inl rfl⟩
  · obtain hz | hz := lt_or_ge z n
    · have := hu hz
      exact far (by rw [abs_of_nonpos] <;> linarith)
    · exact strict (by rw [abs_of_nonpos, abs_of_nonpos] <;> linarith)
  · obtain hz | hz := lt_or_ge (n : ℚ) z
    · have := hu hz
      exact far (by rw [abs_of_nonneg] <;> linarith)
    · exact strict (by rw [abs_of_nonneg, abs_of_nonneg] <;> linarith)

theorem f32Mag_above {k sig c : Nat} (hs : sig < 2 ^ 24) (hk : k = 0 ∨ 2 ^ 23 ≤ sig)
    (hc : k * 2 ^ 23 + sig < c) : (sig + 1) * f32Ulp k ≤ f32Mag c := by
  have h := f32Mag_strictMono.monotone hc
  rw [Nat.succ_eq_add_one, add_assoc, f32Mag_grid hs (hk.imp_right Nat.le_succ_of_le)] at h
  exact_mod_cast h

theorem f32Mag_below {k sig c : Nat} (hs : sig ≤ 2 ^ 24) (hk : k = 0 ∨ 2 ^ 23 < sig)
    (hc : c < k * 2 ^ 23 + sig) : f32Mag c ≤ (sig - 1) * f32Ulp k := by
  obtain ⟨n, rfl⟩ : ∃ n, sig = n + 1 := ⟨sig - 1, by omega⟩
  have h : f32Mag c ≤ f32Mag (k * 2 ^ 23 + n) := f32Mag_strictMono.monotone (Nat.le_of_lt_succ hc)
  rw [f32Mag_grid (by omega) (by omega)] at h
  simpa using h

theorem nat_le_of_cast_lt_succ {m n : Nat} (h : (m : ℚ) < (n + 1 : Nat)) : m ≤ n :=
  Nat.lt_succ_iff.1 (Nat.cast_lt.1 h)

/-- Counted in the unit of an exponent range, the magnitudes keep whole units away from a significand of
that range, on the side where the number `z` of the range lies. -/
theorem f32Mag_unitApart {z : ℚ} {k sig : Nat} (hs : sig ≤ 2 ^ 24) (hk : k = 0 ∨ 2 ^ 23 ≤ sig)
    (hz : z < 2 ^ 24) (hkz : k = 0 ∨ 2 ^ 23 ≤ z) (c : Nat) : unitApart z (f32Mag c / f32Ulp k) sig := by
  have hu := f32Ulp_pos k
  have hb := f32Mag_grid hs hk
  obtain hc | rfl | hc := lt_trichotomy c (k * 2 ^ 23 + sig)
  · refine .inr (.inl ⟨(div_lt_iff₀ hu).2 (hb ▸ f32Mag_strictMono hc), fun hzs => (div_le_iff₀ hu).2 ?_⟩)
    have hk : k = 0 ∨ 2 ^ 23 < sig := hkz.imp_right fun h => by exact_mod_cast h.trans_lt hzs
    exact f32Mag_below hs hk hc
  · exact .inl (by rw [hb, mul_div_cancel_right₀ _ hu.ne'])
  · refine .inr (.inr ⟨(lt_div_iff₀ hu).2 (hb ▸ f32Mag_strictMono hc), fun hsz => (le_div_iff₀ hu).2 ?_⟩)
    have hs : sig < 2 ^ 24 := by exact_mod_cast hsz.trans hz
    exact f32Mag_above hs hk hc

/-- A significand on the grid of one exponent range, rounded to an integer, is rounded among all magnitudes. -/
theorem magRoundsTo_of_grid {rm : RoundMode} {z : ℚ} {k sig : Nat} (hz0 : 0 ≤ z) (hz : z < 2 ^ 24)
    (hk : k = 0 ∨ 2 ^ 23 ≤ z) (h : intRoundsTo rm z sig) :
    magRoundsTo rm (z * f32Ulp k) (k * 2 ^ 23 + sig) := by
  obtain ⟨hlt, hgt⟩ := intRoundsTo_nat_close hz0 h
  have hs : sig ≤ 2 ^ 24 := nat_le_of_cast_lt_succ (by push_cast; linarith)
  have hk' : k = 0 ∨ 2 ^ 23 ≤ sig := hk.imp_right fun hk => nat_le_of_cast_lt_succ (by push_cast; linarith)
  have hu := f32Ulp_pos k
  have hb := f32Mag_grid hs hk'
  have units (c : Nat) : f32Mag c = f32Mag c / f32Ulp k * f32Ulp k := (div_mul_cancel₀ _ hu.ne').symm
  have apart := f32Mag_unitApart hs hk' hz hk
  cases rm with
  | towardZero =>
    obtain ⟨h1, -, -⟩ := id h
    rw [abs_of_nonneg hz0, Int.cast_natCast, abs_of_nonneg (Nat.cast_nonneg sig)] at h1
    refine ⟨by rw [hb]; gcongr, fun c hc => ?_⟩
    rw [hb, ← div_le_iff₀ hu]
    exact truncated_of_unitApart hz0 h (apart c) ((div_le_iff₀ hu).2 hc)
  | nearestEven =>
    intro c
    obtain ⟨hle, heq⟩ := nearest_of_unitApart h (apart c)
    rw [hb, units c, ← sub_mul, ← sub_mul, abs_mul, abs_mul, abs_of_pos hu]
    refine ⟨by gcongr, fun he => (heq (mul_right_cancel₀ hu.ne' he)).imp (fun h => by rw [h]) fun h => ?_⟩
    omega

/-- Rounding a magnitude and putting the sign back rounds the number. -/
theorem f32RoundsTo_of_mag {rm : RoundMode} {x y : ℚ} {r : Word} (hy : 0 ≤ y)
    (hx : x = (if r.msb then -1 else 1) * y) (h : magRoundsTo rm y (f32Bits r)) : f32RoundsTo rm x r := by
  have hxy : |x| = y := by rw [hx, abs_mul, abs_of_nonneg hy]; cases r.msb <;> simp
  cases rm with
  | towardZero =>
    refine ⟨by rw [abs_f32Value, hxy]; exact h.1, ?_, fun w _ hw => ?_⟩
    · have := mul_nonneg (f32Mag_nonneg (f32Bits r)) hy
      rw [f32Value_eq, hx]
      cases r.msb <;> simpa using this
    · rw [abs_f32Value, hxy] at hw
      rw [abs_f32Value, abs_f32Value]
      exact h.2 _ hw
  | nearestEven =>
    intro w _
    have hr : |f32Value r - x| = |f32Mag (f32Bits r) - y| := by
      rw [f32Value_eq, hx, ← mul_sub, abs_mul]
      cases r.msb <;> simp
    have hw : |f32Mag (f32Bits w) - y| ≤ |f32Value w - x| := by
      rw [← abs_f32Value, ← hxy]
      exact abs_abs_sub_abs_le _ _
    obtain ⟨hle, heq⟩ := h (f32Bits w)
    refine ⟨hr.trans_le (hle.trans hw), fun he => ?_⟩
    obtain hm | hm := heq (le_antisymm hle (hw.trans (he.symm.trans hr).le))
    · left
      rw [← abs_f32Value, ← abs_f32Value] at hm
      obtain hm | hm := abs_eq_abs.1 hm
      · exact hm
      -- opposite signs at one distance: the value or the number is 0
      · have h0 : f32Value r = 0 := by
          rw [hm] at he
          obtain he | he := abs_eq_abs.1 he
          · linarith
          · have hx0 : x = 0 := by linarith
            have := (h 0).1
            rw [← hr, ← hxy, hx0] at this
            simpa using this
        rw [hm, h0, neg_zero]
    · exact .inr (getLsbD_zero_of_even hm)

/-! ## `roundMagnitude` -/

/-- The exponent of the last place that `roundMagnitude` keeps, plus 298. -/
def roundPlace (m x : Nat) : Nat := max (Nat.log2 m + x - 23) 149

/-- The significand that `roundMagnitude` keeps. -/
def roundSig (rm : RoundMode) (m x : Nat) : Nat :=
  if x ≤ roundPlace m x then roundShift rm m (roundPlace m x - x) else m * 2 ^ (x - roundPlace m x)

/-- The bits that `roundMagnitude` answers where they are finite. -/
def roundBits (rm : RoundMode) (m x : Nat) : Nat := (roundPlace m x - 149) * 2 ^ 23 + roundSig rm m x

theorem roundMagnitude_of_lt {rm : RoundMode} {m x : Nat} (h : roundBits rm m x < 0x7F800000) :
    roundMagnitude rm m x = roundBits rm m x := if_pos h

theorem roundMagnitude_nearestEven (m x : Nat) : roundMagnitude .nearestEven m x =
    if roundBits .nearestEven m x < 0x7F800000 then roundBits .nearestEven m x else 0x7F800000 := rfl

theorem roundSig_rounds (rm : RoundMode) (m x : Nat) :
    intRoundsTo rm ((m : ℚ) * 2 ^ x / 2 ^ roundPlace m x) (roundSig rm m x) := by
  unfold roundSig
  split
  next h =>
    have he : (m : ℚ) * 2 ^ x / 2 ^ roundPlace m x = m / 2 ^ (roundPlace m x - x) := by
      rw [pow_sub₀ _ two_ne_zero h]; field_simp
    rw [he]
    exact roundShift_rounds rm m _
  next h =>
    have he : (m : ℚ) * 2 ^ x / 2 ^ roundPlace m x = ((m * 2 ^ (x - roundPlace m x) : Nat) : Int) := by
      push_cast
      rw [pow_sub₀ _ two_ne_zero (Nat.le_of_not_le h)]; field_simp
    rw [he]
    exact intRoundsTo_self rm _

theorem roundSig_lt (m x : Nat) : (m : ℚ) * 2 ^ x / 2 ^ roundPlace m x < 2 ^ 24 := by
  have h : m * 2 ^ x < 2 ^ 24 * 2 ^ roundPlace m x :=
    calc m * 2 ^ x < 2 ^ (Nat.log2 m + 1) * 2 ^ x := by gcongr; exact Nat.lt_log2_self
      _ = 2 ^ (Nat.log2 m + 1 + x) := (pow_add ..).symm
      _ ≤ 2 ^ (24 + roundPlace m x) := Nat.pow_le_pow_right two_pos (by unfold roundPlace; omega)
      _ = _ := pow_add ..
  rw [div_lt_iff₀ (by positivity)]
  exact_mod_cast h

theorem le_roundSig {m : Nat} (hm : m ≠ 0) (x : Nat) (hp : roundPlace m x - 149 ≠ 0) :
    2 ^ 23 ≤ (m : ℚ) * 2 ^ x / 2 ^ roundPlace m x := by
  have h : 2 ^ 23 * 2 ^ roundPlace m x ≤ m * 2 ^ x :=
    calc 2 ^ 23 * 2 ^ roundPlace m x = 2 ^ (Nat.log2 m + x) := by
          rw [← pow_add]; congr 1; unfold roundPlace at hp ⊢; omega
      _ = 2 ^ Nat.log2 m * 2 ^ x := pow_add ..
      _ ≤ m * 2 ^ x := by gcongr; exact Nat.log2_self_le hm
  rw [le_div_iff₀ (by positivity)]
  exact_mod_cast h

/-- In units of the place kept the number is what the significand rounds. -/
theorem roundPlace_units (m x : Nat) :
    (m : ℚ) * 2 ^ x / 2 ^ 298 = (m : ℚ) * 2 ^ x / 2 ^ roundPlace m x * f32Ulp (roundPlace m x - 149) := by
  have h : 149 ≤ roundPlace m x := Nat.le_max_right ..
  rw [f32Ulp, pow_sub₀ _ two_ne_zero h]
  field_simp

theorem roundBits_rounds (rm : RoundMode) {m : Nat} (hm : m ≠ 0) (x : Nat) :
    magRoundsTo rm ((m : ℚ) * 2 ^ x / 2 ^ 298) (roundBits rm m x) := by
  rw [roundPlace_units]
  exact magRoundsTo_of_grid (by positivity) (roundSig_lt m x) (or_iff_not_imp_left.2 (le_roundSig hm x))
    (roundSig_rounds rm m x)

/-! ## Overflow -/

theorem f32Mag_infinity : f32Mag 0x7F800000 = 2 ^ 128 := by
  have h := f32Mag_grid (k := 253) (sig := 2 ^ 24) le_rfl (by norm_num)
  norm_num [f32Ulp] at h ⊢
  exact h

theorem f32Mag_largest : f32Mag 0x7F7FFFFF = 2 ^ 128 - 2 ^ 104 := by
  have h := f32Mag_grid (k := 253) (sig := 2 ^ 24 - 1) (by norm_num) (by norm_num)
  norm_num [f32Ulp] at h ⊢
  exact h

/-- Below the middle between the largest finite magnitude and the next one, rounding stays finite. -/
theorem magRoundsTo.finite {rm : RoundMode} {y : ℚ} {b : Nat} (h : magRoundsTo rm y b)
    (hy : y < 2 ^ 128 - 2 ^ 103) : b < 0x7F800000 := by
  by_contra hb
  have hm := f32Mag_strictMono.monotone (Nat.le_of_not_lt hb)
  rw [f32Mag_infinity] at hm
  cases rm with
  | towardZero =>
    have := h.1
    linarith
  | nearestEven =>
    have hle := (h 0x7F7FFFFF).1
    rw [f32Mag_largest, abs_of_nonneg (by linarith)] at hle
    obtain hc | hc := abs_cases ((2 : ℚ) ^ 128 - 2 ^ 104 - y) <;> linarith

/-- From that middle on, which rounds to the even side, rounding to nearest overflows. -/
theorem magRoundsTo.overflow {y : ℚ} {b : Nat} (h : magRoundsTo .nearestEven y b)
    (hy : 2 ^ 128 - 2 ^ 103 ≤ y) : 0x7F800000 ≤ b := by
  by_contra hb
  have hm := f32Mag_strictMono.monotone (by omega : b ≤ 0x7F7FFFFF)
  obtain ⟨hle, heq⟩ := h 0x7F800000
  rw [f32Mag_largest] at hm
  rw [f32Mag_infinity] at hle heq
  have hby : |f32Mag b - y| = y - f32Mag b := by rw [abs_of_nonpos] <;> linarith
  rw [hby] at hle heq
  obtain ⟨ha, hc⟩ | ⟨ha, hc⟩ := abs_cases ((2 : ℚ) ^ 128 - y)
  · rw [ha] at hle heq
    have hb' : f32Mag b = f32Mag 0x7F7FFFFF := by rw [f32Mag_largest]; linarith
    have hodd := f32Mag_strictMono.injective hb'
    obtain he | he := heq (by linarith)
    · linarith
    · omega
  · linarith

/-! ## The conversions (41_alu R204, R205) -/

theorem f32Pack_rounds {rm : RoundMode} (neg : Bool) {y : ℚ} {b : Nat} (hy : 0 ≤ y) (hb : b < 0x7F800000)
    (h : magRoundsTo rm y b) : f32IsFinite (f32Pack neg b) = true ∧
      f32RoundsTo rm ((if neg then -1 else 1) * y) (f32Pack neg b) := by
  have hb' : b < 2 ^ 31 := by omega
  refine ⟨f32IsFinite_iff.2 ((f32Bits_pack hb').trans_lt hb), f32RoundsTo_of_mag hy ?_ ?_⟩
  · rw [f32Pack_msb hb']
  · rwa [f32Bits_pack hb']

theorem roundMagnitude_integer {rm : RoundMode} {n : Nat} (h0 : n ≠ 0) (hn : n ≤ 2 ^ 31) :
    roundMagnitude rm n 298 < 0x7F800000 ∧ magRoundsTo rm n (roundMagnitude rm n 298) := by
  have h := roundBits_rounds rm h0 298
  rw [mul_div_cancel_right₀ _ (by positivity)] at h
  have hn : (n : ℚ) ≤ 2 ^ 31 := by exact_mod_cast hn
  have hb := h.finite (by linarith)
  rw [roundMagnitude_of_lt hb]
  exact ⟨hb, h⟩

theorem roundToBinary32_rounds (rm : RoundMode) {i : Int} (hi : i.natAbs ≤ 2 ^ 31) :
    f32IsFinite (roundToBinary32 rm i) = true ∧ f32RoundsTo rm i (roundToBinary32 rm i) := by
  by_cases h0 : i = 0
  · have hz : roundToBinary32 rm i = f32Pack false 0 := if_pos h0
    rw [hz, h0]
    simpa using f32Pack_rounds false le_rfl (by decide) (magRoundsTo_zero rm)
  · obtain ⟨hb, hm⟩ := roundMagnitude_integer (rm := rm) (Int.natAbs_ne_zero.2 h0) hi
    have hx : (i : ℚ) = (if decide (i < 0) then -1 else 1) * (i.natAbs : ℚ) := by
      rw [Nat.cast_natAbs, Int.cast_abs]
      obtain h | h := lt_or_ge i 0
      · simp [h, abs_of_neg (Int.cast_lt_zero.2 h)]
      · simp [not_lt.2 h, abs_of_nonneg (Int.cast_nonneg h)]
    rw [roundToBinary32, if_neg h0, hx]
    exact f32Pack_rounds _ (Nat.cast_nonneg _) hb hm

theorem roundToInteger_rounds (rm : RoundMode) (v : Word) :
    intRoundsTo rm (f32Value v) (roundToInteger rm v) := by
  have h : ∃ n : Nat, roundToInteger rm v = (if v.msb then -(n : Int) else n) ∧
      intRoundsTo rm (f32Mag (f32Bits v)) n := by
    rw [f32Mag_bits]
    refine ⟨_, rfl, ?_⟩
    split
    next hs =>
      have he : (f32Mant v : ℚ) * 2 ^ f32Scale v / 2 ^ 149 =
          ((f32Mant v * 2 ^ (f32Scale v - 149) : Nat) : Int) := by
        push_cast
        rw [pow_sub₀ _ two_ne_zero hs]; field_simp
      rw [he]
      exact intRoundsTo_self rm _
    next hs =>
      have he : (f32Mant v : ℚ) * 2 ^ f32Scale v / 2 ^ 149 = f32Mant v / 2 ^ (149 - f32Scale v) := by
        rw [pow_sub₀ _ two_ne_zero (Nat.le_of_not_le hs)]; field_simp
      rw [he]
      exact roundShift_rounds rm _ _
  obtain ⟨n, hn, hr⟩ := h
  rw [hn, f32Value_eq]
  cases v.msb
  · simpa using hr
  · simpa using hr.neg

/-- Settles O15: both conversions round the significand to an integer on the grid of one exponent range. -/
theorem conversionRounding : Obligations.ConversionRounding := by
  intro rm a
  have ha : a.toInt.natAbs ≤ 2 ^ 31 := by
    have := a.le_two_mul_toInt
    have := a.two_mul_toInt_lt
    omega
  obtain ⟨hf, hr⟩ := roundToBinary32_rounds rm ha
  exact ⟨hf, hr, fun _ => roundToInteger_rounds rm a⟩

/-! ## The product (42_mul R232) -/

/-- The bits of the product without its sign. -/
def productBits (a b : Word) : Nat :=
  if f32IsInf a || f32IsInf b then 0x7F800000
  else if f32IsZero a || f32IsZero b then 0
  else roundMagnitude .nearestEven (f32Mant a * f32Mant b) (f32Scale a + f32Scale b)

theorem fmulProduct_eq (a b : Word) : fmulProduct a b = f32Pack (a.msb != b.msb) (productBits a b) := by
  unfold fmulProduct productBits
  split_ifs <;> rfl

theorem roundMagnitude_nearestEven_le (m x : Nat) : roundMagnitude .nearestEven m x ≤ 0x7F800000 := by
  rw [roundMagnitude_nearestEven]
  split <;> omega

theorem productBits_lt (a b : Word) : productBits a b < 2 ^ 31 := by
  have := roundMagnitude_nearestEven_le (f32Mant a * f32Mant b) (f32Scale a + f32Scale b)
  unfold productBits
  split_ifs <;> omega

theorem f32Mant_ne_zero {v : Word} (h : f32IsZero v = false) : f32Mant v ≠ 0 := by
  have h : f32Bits v ≠ 0 := fun h0 => by simp [f32IsZero_iff.2 h0] at h
  rw [f32Mant, f32Exp_eq, f32Frac_eq]
  split <;> omega

theorem not_inf_of_finite {v : Word} (h : f32IsFinite v = true) : f32IsInf v = false := by
  have := f32IsFinite_iff.1 h
  rw [← Bool.not_eq_true, f32IsInf_iff]
  omega

theorem f32Value_mul (a b : Word) : f32Value a * f32Value b =
    (if (a.msb != b.msb) then -1 else 1) * (f32Mag (f32Bits a) * f32Mag (f32Bits b)) := by
  rw [f32Value_eq, f32Value_eq]
  cases a.msb <;> cases b.msb <;> simp

theorem f32Mag_mul (a b : Word) : f32Mag (f32Bits a) * f32Mag (f32Bits b) =
    ((f32Mant a * f32Mant b : Nat) : ℚ) * 2 ^ (f32Scale a + f32Scale b) / 2 ^ 298 := by
  rw [f32Mag_bits, f32Mag_bits, div_mul_div_comm, ← pow_add, mul_mul_mul_comm, ← pow_add, Nat.cast_mul]

section
variable {a b : Word} (ha : f32IsFinite a = true) (hb : f32IsFinite b = true)
include ha hb

/-- The bits of a product of finite patterns are its magnitude rounded, or those of an infinity where the
rounded magnitude is not finite. -/
theorem productBits_of_finite :
    ∃ n, magRoundsTo .nearestEven (f32Mag (f32Bits a) * f32Mag (f32Bits b)) n ∧
      productBits a b = if n < 0x7F800000 then n else 0x7F800000 := by
  unfold productBits
  rw [not_inf_of_finite ha, not_inf_of_finite hb, Bool.or_false, if_neg Bool.false_ne_true]
  split
  next h =>
    have h0 : f32Mag (f32Bits a) * f32Mag (f32Bits b) = 0 := by
      obtain h | h := Bool.or_eq_true_iff.1 h <;> rw [f32IsZero_iff.1 h] <;> simp
    exact ⟨0, h0 ▸ magRoundsTo_zero _, rfl⟩
  next h =>
    simp only [Bool.or_eq_true, not_or, Bool.not_eq_true] at h
    obtain ⟨hza, hzb⟩ := h
    rw [f32Mag_mul]
    exact ⟨_, roundBits_rounds _ (Nat.mul_ne_zero (f32Mant_ne_zero hza) (f32Mant_ne_zero hzb)) _,
      roundMagnitude_nearestEven ..⟩

end

/-- Settles O18: the bits of the product are the magnitude rounded, and overflow where that is not finite. -/
theorem productRounding : Obligations.ProductRounding := by
  intro a b _
  have hlt := productBits_lt a b
  rw [fmulProduct_eq]
  refine ⟨f32Pack_msb hlt, fun h => ?_, fun ha hb => ?_⟩
  · have : productBits a b = 0x7F800000 := if_pos (Bool.or_eq_true_iff.2 h)
    rw [f32IsInf_iff, f32Bits_pack hlt, this]
  · obtain ⟨n, hn, he⟩ := productBits_of_finite ha hb
    have hy : |f32Value a * f32Value b| = f32Mag (f32Bits a) * f32Mag (f32Bits b) := by
      rw [abs_mul, abs_f32Value, abs_f32Value]
    rw [hy]
    split
    next h =>
      rw [he, if_pos (hn.finite h), f32Value_mul]
      exact f32Pack_rounds _ (mul_nonneg (f32Mag_nonneg _) (f32Mag_nonneg _)) (hn.finite h) hn
    next h =>
      rw [f32IsInf_iff, f32Bits_pack hlt, he, if_neg (Nat.not_lt.2 (hn.overflow (not_lt.1 h)))]

end Sys2Proof.Machine
end

section
/-!
PROOFS. The queue that a FIFO is (10_state R33, R34), the PR ring (10_state R29), and the control ops that
touch them, MOD or the PC stack (44_control R292, R293, R297, R298).
-/

namespace Sys2Proof.Machine

/-! ## The FIFO invariant (10_state R34) -/

/-- The invariant, said without subtraction: the write cursor is the fill count ahead of the read cursor. -/
theorem Fifo.coherent_iff (q : Fifo) :
    q.coherent = true ↔ q.wpos.val = (q.rpos.val + q.num.val) % 8 := by
  have hn := q.num.isLt
  have hr := q.rpos.isLt
  have hw := q.wpos.isLt
  simp only [Fifo.coherent, Bool.or_eq_true, Bool.and_eq_true, beq_iff_eq, Fin.ext_iff, Fin.sub_def]
  omega

section
variable {q : Fifo}

theorem Fifo.push_num (h : q.num.val < 8) (v : DWord) : (q.push v).num.val = q.num.val + 1 := by
  simp only [Fifo.push, Fin.val_add]
  exact Nat.mod_eq_of_lt (Nat.succ_lt_succ h)

theorem Fifo.push_wpos (v : DWord) : (q.push v).wpos.val = (q.wpos.val + 1) % 8 := rfl

theorem Fifo.pop_num (h : 0 < q.num.val) : q.pop.num.val + 1 = q.num.val := by
  have := q.num.isLt
  simp only [Fifo.pop, Fin.sub_def, Fin.val_one]
  omega

theorem Fifo.pop_rpos : q.pop.rpos.val = (q.rpos.val + 1) % 8 := rfl

theorem Fifo.coherent_push (hq : q.coherent = true) (h : q.num.val < 8) (v : DWord) :
    (q.push v).coherent = true := by
  rw [Fifo.coherent_iff] at hq ⊢
  rw [Fifo.push_num h, Fifo.push_wpos, hq, show (q.push v).rpos = q.rpos from rfl]
  omega

theorem Fifo.coherent_pop (hq : q.coherent = true) (h : 0 < q.num.val) : q.pop.coherent = true := by
  have hn := Fifo.pop_num h
  rw [Fifo.coherent_iff] at hq ⊢
  rw [Fifo.pop_rpos, show q.pop.wpos = q.wpos from rfl, hq]
  omega

end

@[simp] theorem Fifo.coherent_clear (q : Fifo) : q.clear.coherent = true := rfl

/-! ## The contents (10_state R33) -/

/-- A push leaves the words it holds in place, since the write cursor is not among their places. -/
theorem Fifo.contents_push {q : Fifo} (hq : q.coherent = true) (h : q.num.val < 8) (v : DWord) :
    (q.push v).contents = q.contents ++ [v] := by
  rw [Fifo.coherent_iff] at hq
  unfold Fifo.contents
  rw [Fifo.push_num h, List.range_succ, List.map_append, List.map_singleton]
  congr 1
  · refine List.map_congr_left fun i hi => ?_
    have hi := List.mem_range.1 hi
    exact Vector.getElem_set_ne q.wpos.isLt _ (by simp only [Fifo.push]; omega)
  · simp [Fifo.push, ← hq]

/-- The oldest word comes first, and a pop drops it. -/
theorem Fifo.contents_pop {q : Fifo} (h : 0 < q.num.val) : q.contents = q.front :: q.pop.contents := by
  unfold Fifo.contents
  rw [← Fifo.pop_num h, List.range_succ_eq_map, List.map_cons, List.map_map]
  congr 1
  · simp [Fifo.front, Nat.mod_eq_of_lt]
  · refine List.map_congr_left fun i _ => ?_
    have hi : (q.rpos.val + (i + 1)) % 8 = (q.pop.rpos.val + i) % 8 := by rw [Fifo.pop_rpos]; omega
    simp only [Function.comp_apply, hi]
    rfl

/-- Settles O9: the contents after a push, a pop and a clear, and the cursor invariant. -/
theorem fifoIsAQueue : Obligations.FifoIsAQueue := fun q v hq =>
  ⟨fun h => ⟨Fifo.contents_push hq h v, Fifo.push_wpos v, rfl, Fifo.push_num h v, Fifo.coherent_push hq h v⟩,
    fun h => ⟨Fifo.contents_pop h, Fifo.pop_rpos, rfl, Fifo.pop_num h, rfl, Fifo.coherent_pop hq h⟩,
    rfl, rfl, rfl, rfl, rfl, q.coherent_clear⟩

/-! ## The PR ring (10_state R29) -/

/-- A pointer of the ring moves as its number does. -/
theorem PrMode.move_val (p : PrIndex) (m : PrMode) : (PrMode.move p m).val = ringMove m p.val := by
  cases m with
  | plain | rst | inc => rfl
  | dec =>
    change (p - 1).val = (p.val + 24 - 1) % 24
    simp only [Fin.sub_def, Fin.val_one]
    congr 1
    omega

/-- Settles O10: no FIFO is involved, and each pointer moves on its own. -/
theorem ringToRingMove : Obligations.RingToRingMove := fun m k s =>
  ⟨(s.afterPrRead m).prWrite k s.prVal, rfl, by simp [State.prVal],
    fun j hj => by simp [Fin.val_ne_of_ne hj.symm], PrMode.move_val _ m, PrMode.move_val _ k, rfl⟩

/-! ## CLRF and SETM (44_control R292, R293) -/

/-- Settles O33: the clears are `FifoClear`, and a 16-bit immediate fits MOD. -/
theorem clearAndModeResult : Obligations.ClearAndModeResult := fun _ imm =>
  ⟨rfl, rfl, rfl, imm.setWidth 32, BitVec.toNat_setWidth_of_le (by decide), rfl⟩

/-! ## Branch targets and the PC stack (44_control R290, 10_state R30) -/

/-- The target of a control transfer is PC plus the signed displacement, modulo 2^32. -/
theorem State.branchTarget_toNat (s : State) (disp : BitVec 16) :
    ((s.branchTarget disp).toNat : Int) = ((s.pc.toNat : Int) + disp.toInt) % 2 ^ 32 := by
  have hd : (disp.signExtend 32).toInt = disp.toInt := BitVec.toInt_signExtend_of_le (by decide)
  have hm : ((disp.signExtend 32).toNat : Int) % 2 ^ 32 = disp.toInt % 2 ^ 32 := by
    rw [← hd, BitVec.toInt_eq_toNat_bmod]
    exact (Int.bmod_emod ..).symm
  rw [State.branchTarget, BitVec.toNat_add]
  push_cast
  omega

section
variable {s : State} {k : PcsIndex} {p : PcsPointer}

theorem State.pcsPush_eq (hk : s.pcsp.val = k.val) (hp : p.val = k.val + 1) (v : PcWord) :
    s.pcsPush v = { s with pcs := s.pcs.set k v, pcsp := p } := by
  have hi : pcsIndex s.pcsp = k := Fin.ext (by simp [pcsIndex, hk])
  have hs : s.pcsp + 1 = p := Fin.ext (by rw [Fin.val_add]; omega)
  simp only [State.pcsPush, hi, hs]

theorem State.afterPcsPop_eq (hk : s.pcsp.val = k.val + 1) (hp : p.val = k.val) :
    s.afterPcsPop = { s with pcsp := p } ∧ s.pcsTop = s.pcs[k] := by
  have hs : s.pcsp - 1 = p := Fin.ext (by simp only [Fin.sub_def, Fin.val_one]; omega)
  have hi : pcsIndex (s.pcsp - 1) = k := Fin.ext (by simp [hs, pcsIndex, hp])
  exact ⟨by rw [State.afterPcsPop, hs], by simp only [State.pcsTop, hi]⟩

end

/-- Settles O35: outside a delay slot each op does its work, which at a bound of the stack is its fault. -/
theorem callAndReturnResult : Obligations.CallAndReturnResult := by
  intro s disp hd
  have hcall (t : State) : s.unlessDelay (.dcall disp) t = .next t := by simp [State.unlessDelay, hd]
  have hret (t : State) : s.unlessDelay .dret t = .next t := by simp [State.unlessDelay, hd]
  refine ⟨fun k p hk hp => ⟨s.branchTarget disp, s.branchTarget_toNat disp, ?_⟩, fun k p hk hp => ?_,
    fun h => (hcall _).trans (by rw [if_pos h]), fun h => (hret _).trans (by rw [if_pos (Fin.ext h)])⟩
  · have hfull : s.pcsp.val ≠ 4 := by omega
    refine (hcall _).trans ?_
    rw [if_neg hfull, State.pcsPush_eq hk hp]
    rfl
  · have hempty : s.pcsp ≠ 0 := fun h => by simp [h] at hk
    obtain ⟨hpop, htop⟩ := State.afterPcsPop_eq hk hp
    refine (hret _).trans ?_
    rw [if_neg hempty, hpop, htop]
    rfl

end Sys2Proof.Machine
end

section
/-!
PROOFS. What every op keeps (spec/41_alu.md to spec/44_control.md): one lemma for each shared operation, and
one inversion of `exec` put together from them.
-/

namespace Sys2Proof.Machine

/-! ## What an op keeps -/

/-- What the data invariant reads. -/
def State.dataPart (s : State) : (Memory × Memory × Memory) × Fifo × Fifo × Fifo :=
  ((s.ramA, s.ramB, s.prog), s.fi, s.fo0, s.fo1)

/-- What no op changes: the cache, the cycle budget, program memory and the parameters (60_exceptions R358,
20_memory R81). -/
def State.launchPart (s : State) :
    (List (PcWord × Block) × Nat × Int) × Memory × Nat × Bool × Params :=
  ((s.cache, s.cacheUsed, s.icount), s.prog, s.progWords, s.progDirty, s.cfg)

/-- What an op changes only by a fault: PC, the dispatch state, the fault record and the bundle under way. -/
def State.runPart (s : State) : PcWord × DState × Option FaultRec × Option Cur :=
  (s.pc, s.dstate, s.faultRec, s.cur)

theorem State.dataInv_iff (s : State) : s.dataInv ↔ (s.ramA.wf = true ∧ s.ramB.wf = true ∧ s.prog.wf = true) ∧
    s.fi.coherent = true ∧ s.fo0.coherent = true ∧ s.fo1.coherent = true := by
  simp only [State.dataInv, State.fifosCoherent, Bool.and_eq_true, and_assoc]

theorem State.dataInv_congr {s t : State} (h : t.dataPart = s.dataPart) : t.dataInv ↔ s.dataInv := by
  simp only [State.dataPart, Prod.mk.injEq] at h
  obtain ⟨⟨ha, hb, hp⟩, hi, h0, h1⟩ := h
  rw [State.dataInv_iff, State.dataInv_iff, ha, hb, hp, hi, h0, h1]

/-- `t` comes from `s` by work of an op that takes no fault and leaves no transfer pending. -/
structure State.OpKeeps (s t : State) : Prop where
  data : s.dataInv → t.dataInv
  launch : t.launchPart = s.launchPart
  run : t.runPart = s.runPart
  brpend : t.brpend = s.brpend

theorem State.OpKeeps.rfl {s : State} : s.OpKeeps s := ⟨id, .refl _, .refl _, .refl _⟩

theorem State.OpKeeps.trans {s t u : State} (h : s.OpKeeps t) (h' : t.OpKeeps u) : s.OpKeeps u :=
  ⟨h'.data ∘ h.data, h'.launch.trans h.launch, h'.run.trans h.run, h'.brpend.trans h.brpend⟩

/-- An update of registers, flags or `SCRATCH` alone. -/
theorem State.OpKeeps.of_eq {s t : State}
    (h : (t.dataPart, t.launchPart, t.runPart, t.brpend) = (s.dataPart, s.launchPart, s.runPart, s.brpend)) :
    s.OpKeeps t := by
  simp only [Prod.mk.injEq] at h
  obtain ⟨hd, hl, hr, hb⟩ := h
  exact ⟨(State.dataInv_congr hd).2, hl, hr, hb⟩

/-! ## The shared operations of ops -/

section
variable (s : State)

theorem State.opKeeps_drew : s.OpKeeps s.drew := .of_eq rfl

theorem State.opKeeps_bufferReg (k : SlotKind) (r : BankReg) (v : Word) : s.OpKeeps (s.bufferReg k r v) :=
  .of_eq rfl

theorem State.opKeeps_arInc (x : Fin 8) : s.OpKeeps (s.arInc x) := .of_eq rfl

theorem State.opKeeps_prWrite (m : PrMode) (v : Word) : s.OpKeeps (s.prWrite m v) := .of_eq rfl

theorem State.opKeeps_setScalar (c : Scalar) (v : Word) : s.OpKeeps (s.setScalar c v) := by
  cases c <;> exact .of_eq rfl

theorem State.opKeeps_putFlags (l : List (Flag × Bool)) : s.OpKeeps (s.putFlags l) := by
  obtain ⟨fl, n, h⟩ := s.putFlags_eq l
  exact h ▸ .of_eq rfl

theorem State.opKeeps_afterAluSrc2 (o : AluSrc2) : s.OpKeeps (s.afterAluSrc2 o) := by
  cases o <;> exact .of_eq rfl

theorem State.opKeeps_afterMulSrc2 (o : MulSrc2) : s.OpKeeps (s.afterMulSrc2 o) := by
  cases o <;> exact .of_eq rfl

theorem State.opKeeps_afterEa1 (x : Fin 8) (m : AddrMode) : s.OpKeeps (s.afterEa1 x m) := by
  cases m <;> exact .of_eq rfl

theorem State.opKeeps_afterLoad (p : Place) : s.OpKeeps (s.afterLoad p) := by
  cases p <;> exact .of_eq rfl

theorem State.opKeeps_aluFinish (r : Result) (d : AluDst) : s.OpKeeps (s.aluFinish r d) := by
  have hw : s.OpKeeps (s.aluWrite r.val d) := by cases d <;> exact .of_eq rfl
  exact hw.trans (State.opKeeps_putFlags _ _)

theorem State.opKeeps_mulFinish (r : Result) (d : MulDst) : s.OpKeeps (s.mulFinish r d) := by
  have hw : s.OpKeeps (s.mulWrite r.val d) := by cases d <;> exact .of_eq rfl
  exact hw.trans (State.opKeeps_putFlags _ _)

/-- A store keeps the canonical form of the memory it writes (log 1). -/
theorem State.opKeeps_store (v : Word) (p : Place) : s.OpKeeps (s.store v p) := by
  cases p with
  | ramA a =>
    refine ⟨fun h => ?_, rfl, rfl, rfl⟩
    obtain ⟨ha, hrest⟩ := h
    exact ⟨Memory.wf_writeWord ha _ _, hrest⟩
  | ramB a =>
    refine ⟨fun h => ?_, rfl, rfl, rfl⟩
    obtain ⟨ha, hb, hrest⟩ := h
    exact ⟨ha, Memory.wf_writeWord hb _ _, hrest⟩
  | ext a => exact .of_eq rfl

/-- New FIFOs that are coherent where the old ones are. -/
theorem State.opKeeps_fifos {fi fo0 fo1 : Fifo} (hi : s.fi.coherent = true → fi.coherent = true)
    (h0 : s.fo0.coherent = true → fo0.coherent = true) (h1 : s.fo1.coherent = true → fo1.coherent = true) :
    s.OpKeeps { s with fi := fi, fo0 := fo0, fo1 := fo1 } := by
  refine ⟨fun h => ?_, rfl, rfl, rfl⟩
  obtain ⟨hm, ci, c0, c1⟩ := s.dataInv_iff.1 h
  exact (State.dataInv_iff _).2 ⟨hm, hi ci, h0 c0, h1 c1⟩

end

/-! ## Transfer registers and FIFO demand (43_transfer R250, R252) -/

/-- A read of the register pops no empty FIFO. -/
def State.canRead (s : State) (r : Reg6) : Prop := r = .fi → 0 < s.fi.num.val

/-- A write of the register pushes no full FIFO. -/
def State.canWrite (s : State) (r : Reg6) : Prop :=
  (r = .fo0 → s.fo0.num.val < 8) ∧ (r = .fo1 → s.fo1.num.val < 8)

section
variable {s t : State} {i : Instr}

theorem State.canRead_of_served {r : Reg6} (h : s.fifoShort i = false) (hr : Instr.regRead i = some r) :
    s.canRead r := by
  rintro rfl
  simp only [State.fifoShort, Bool.or_eq_false_iff, hr] at h
  exact Nat.pos_of_ne_zero (by simpa using h.1.1)

theorem State.canWrite_of_served {r : Reg6} (h : s.fifoShort i = false) (hr : Instr.regWritten i = some r) :
    s.canWrite r := by
  simp only [State.fifoShort, Bool.or_eq_false_iff, hr] at h
  obtain ⟨⟨-, h0⟩, h1⟩ := h
  have := s.fo0.num.isLt
  have := s.fo1.num.isLt
  constructor
  · rintro rfl
    have : s.fo0.num.val ≠ 8 := by simpa using h0
    omega
  · rintro rfl
    have : s.fo1.num.val ≠ 8 := by simpa using h1
    omega

theorem State.opKeeps_afterRegRead {r : Reg6} (h : s.canRead r) : s.OpKeeps (s.afterRegRead r) := by
  cases r with
  | fi => exact s.opKeeps_fifos (fun hc => Fifo.coherent_pop hc (h rfl)) id id
  | pr m => exact .of_eq rfl
  | bank | ar | scalar | fo0 | fo1 | prp | pwp => exact .rfl

theorem State.opKeeps_afterRegWrite {r : Reg6} (v : Word) (h : s.canWrite r) :
    s.OpKeeps (s.afterRegWrite v r) := by
  obtain ⟨h0, h1⟩ := h
  cases r with
  | fo0 => exact s.opKeeps_fifos id (fun hc => Fifo.coherent_push hc (h0 rfl) _) id
  | fo1 => exact s.opKeeps_fifos id id (fun hc => Fifo.coherent_push hc (h1 rfl) _)
  | scalar c => exact s.opKeeps_setScalar c v
  | bank | ar | pr | prp | pwp => exact .of_eq rfl
  | fi => exact .rfl

end

/-! ## What an op can do -/

/-- How op `i` of `s` ends in `t`: it keeps what ops keep, and then takes a fault that leaves any value in
some locations, or is over, or, being a control transfer, leaves a transfer pending. -/
inductive State.OpEnds (i : Instr) (s t : State) : Prop
  | fault (u : State) (k : FaultKind) (info : Option Nat) (ls : List Loc) (hu : s.OpKeeps u)
      (ht : t = (u.takeFault k info).havocAll ls)
  | done (hi : i.isTransfer = false) (ht : s.OpKeeps t)
  | pending (u : State) (b : Bool) (a : PcWord) (hi : i.isTransfer = true) (hu : s.OpKeeps u)
      (ht : t = u.setPending b a)

section
variable {s u t : State} {i : Instr}

theorem State.raiseTransfer_ends {s0 : State} (hu : s.OpKeeps u) (h : u.raiseTransfer i s0 = .next t) :
    s.OpEnds i t := by
  cases h
  exact .fault u _ _ _ hu rfl

theorem State.finishReg_ends {s0 : State} {r : Reg6} {v : Word} (hi : i.isTransfer = false) (hu : s.OpKeeps u)
    (hw : u.canWrite r) (h : u.finishReg i s0 r v = .next t) : s.OpEnds i t := by
  obtain ⟨-, he⟩ | ⟨-, he⟩ := u.finishReg_cases i s0 r v <;> rw [he] at h <;> cases h
  · exact .done hi (hu.trans (State.opKeeps_afterRegWrite v hw))
  · exact .fault u _ _ _ hu rfl

theorem State.loadReg_ends {s0 : State} {bank : MemBank} {ea : Word} {r : Reg6} (hi : i.isTransfer = false)
    (hu : s.OpKeeps u) (hw : u.canWrite r) (h : u.loadReg i s0 bank ea r = .next t) : s.OpEnds i t := by
  obtain ⟨f, -, he⟩ | ⟨p, -, he⟩ := u.loadReg_cases i s0 bank ea r <;> rw [he] at h
  · cases h
  · exact State.finishReg_ends hi (hu.trans (u.opKeeps_afterLoad p)) (by simpa [State.canWrite] using hw) h

theorem State.storeAt_ends {bank : MemBank} {ea v : Word} (hi : i.isTransfer = false) (hu : s.OpKeeps u)
    (h : u.storeAt bank ea v = .next t) : s.OpEnds i t := by
  obtain ⟨f, -, he⟩ | ⟨p, -, he⟩ := u.storeAt_cases bank ea v <;> rw [he] at h <;> cases h
  exact .done hi (hu.trans (u.opKeeps_store v p))

/-- A hold ends an op with nothing changed; otherwise no FIFO is in its way. -/
theorem State.unlessShort_ends {k : Host.Outcome State Fault Refusal} (hi : i.isTransfer = false)
    (hk : s.fifoShort i = false → k = .next t → s.OpEnds i t) (h : s.unlessShort i k = .next t) :
    s.OpEnds i t := by
  obtain rfl | ⟨hs, h⟩ := s.unlessShort_next h
  · exact .done hi .rfl
  · exact hk hs h

theorem State.unlessDelay_ends {w : State} (hw : s.OpEnds i w) (h : s.unlessDelay i w = .next t) :
    s.OpEnds i t := by
  obtain ⟨-, he⟩ | ⟨-, he⟩ := s.unlessDelay_cases i w <;> rw [he] at h <;> cases h
  · exact hw
  · exact .fault s _ _ [] .rfl rfl

theorem State.subMove_opKeeps {bank : MemBank} {l l' : Option (BankReg × Word)} {m : Option SubMove}
    (h : s.subMove bank l m = .ok (u, l')) : s.OpKeeps u := by
  obtain ⟨-, rfl, -⟩ | ⟨n, p, -, -, ⟨-, -, rfl⟩ | ⟨-, -, rfl⟩⟩ := State.subMove_cases h
  · exact .rfl
  · exact ((s.opKeeps_arInc _).trans (State.opKeeps_afterLoad _ p)).trans (State.opKeeps_bufferReg ..)
  · exact (s.opKeeps_arInc _).trans (State.opKeeps_store ..)

theorem exec_dx1_next {a b : Option SubMove} (h : exec (.dx1 a b) s = .next t) :
    ∃ u l l', s.subMove .a none a = .ok (u, l) ∧ u.subMove .b l b = .ok (t, l') := by
  simp only [exec, execDx1] at h
  split at h
  next => cases h
  next u l ha =>
    split at h
    next => cases h
    next l' hb =>
      cases h
      exact ⟨u, l, l', ha, hb⟩

end

section
variable {s t : State}

theorem exec_mov_ends {src dst : Reg6} (h : exec (.mov src dst) s = .next t) : s.OpEnds (.mov src dst) t := by
  refine State.unlessShort_ends rfl (fun hs h => ?_) h
  have hr : s.canRead src := State.canRead_of_served hs rfl
  have hw : s.canWrite dst := State.canWrite_of_served hs rfl
  split at h
  · exact State.finishReg_ends rfl (State.opKeeps_afterRegRead hr) (by simpa [State.canWrite] using hw) h
  · exact State.raiseTransfer_ends .rfl h

theorem exec_st1_ends {r : Reg6} {bank : MemBank} {m : AddrMode} {x : Fin 8}
    (h : exec (.st1 r bank m x) s = .next t) : s.OpEnds (.st1 r bank m x) t := by
  refine State.unlessShort_ends rfl (fun hs h => ?_) h
  have hr : s.canRead r := State.canRead_of_served hs rfl
  split at h
  · exact State.storeAt_ends rfl ((State.opKeeps_afterRegRead hr).trans (State.opKeeps_afterEa1 _ x m)) h
  · exact State.raiseTransfer_ends .rfl h

theorem exec_st2_ends {r : Reg6} {bank : MemBank} {x : Fin 8} {d : BitVec 14}
    (h : exec (.st2 r bank x d) s = .next t) : s.OpEnds (.st2 r bank x d) t := by
  refine State.unlessShort_ends rfl (fun hs h => ?_) h
  have hr : s.canRead r := State.canRead_of_served hs rfl
  split at h
  · exact State.storeAt_ends rfl (State.opKeeps_afterRegRead hr) h
  · exact State.raiseTransfer_ends .rfl h

theorem exec_dcall_ends {disp : BitVec 16} (h : exec (.dcall disp) s = .next t) :
    s.OpEnds (.dcall disp) t := by
  refine State.unlessDelay_ends ?_ h
  split
  · exact .fault s _ _ [] .rfl rfl
  · exact .pending (s.pcsPush (s.pc + 2)) _ _ rfl (.of_eq rfl) rfl

theorem exec_dret_ends (h : exec .dret s = .next t) : s.OpEnds .dret t := by
  refine State.unlessDelay_ends ?_ h
  split
  · exact .fault s _ _ [] .rfl rfl
  · exact .pending s.afterPcsPop _ _ rfl (.of_eq rfl) rfl

/-- Every op that completes ends in one of the three ways. -/
theorem exec_ends {i : Instr} (h : exec i s = .next t) : s.OpEnds i t := by
  cases i with
  | nopAlu | mnop | tnop | dx2 | nopCtl => cases h; exact .done rfl .rfl
  | cif src | add _ src =>
    cases h; exact .done rfl ((s.opKeeps_afterAluSrc2 src).trans (State.opKeeps_aluFinish ..))
  | cfi src =>
    cases h
    exact .done rfl (((s.opKeeps_afterAluSrc2 src).trans (State.opKeeps_drew _)).trans
      (State.opKeeps_aluFinish ..))
  | cmp _ src =>
    cases h
    exact .done rfl ((((s.opKeeps_afterAluSrc2 src).trans (State.opKeeps_drew _)).trans
      (State.opKeeps_drew _)).trans (State.opKeeps_putFlags ..))
  | mul _ src =>
    cases h; exact .done rfl ((s.opKeeps_afterMulSrc2 src).trans (State.opKeeps_mulFinish ..))
  | fmul _ src =>
    cases h
    exact .done rfl ((((s.opKeeps_afterMulSrc2 src).trans (State.opKeeps_drew _)).trans
      (State.opKeeps_drew _)).trans (State.opKeeps_mulFinish ..))
  | mov => exact exec_mov_ends h
  | ld1 r bank m x =>
    refine State.unlessShort_ends rfl (fun hs h => ?_) h
    have hw : s.canWrite r := State.canWrite_of_served hs rfl
    exact State.loadReg_ends rfl (s.opKeeps_afterEa1 x m) (by simpa [State.canWrite] using hw) h
  | ld2 r =>
    exact State.unlessShort_ends rfl
      (fun hs h => State.loadReg_ends rfl .rfl (State.canWrite_of_served hs rfl) h) h
  | ldi r | ldn r =>
    exact State.unlessShort_ends rfl
      (fun hs h => State.finishReg_ends rfl .rfl (State.canWrite_of_served hs rfl) h) h
  | st1 => exact exec_st1_ends h
  | st2 => exact exec_st2_ends h
  | dx1 =>
    obtain ⟨u, _, _, ha, hb⟩ := exec_dx1_next h
    exact .done rfl ((State.subMove_opKeeps ha).trans (State.subMove_opKeeps hb))
  | clrf sel =>
    have clears {q : Fifo} : q.coherent = true → q.clear.coherent = true := fun _ => q.coherent_clear
    cases sel <;> cases h
    · exact .done rfl (s.opKeeps_fifos clears id id)
    · exact .done rfl (s.opKeeps_fifos id clears clears)
    · exact .done rfl (s.opKeeps_fifos clears clears clears)
  | setm => cases h; exact .done rfl (.of_eq rfl)
  | dbcc | dbncc | djmp => exact State.unlessDelay_ends (.pending s _ _ rfl .rfl rfl) h
  | dcall => exact exec_dcall_ends h
  | dret => exact exec_dret_ends h

end

end Sys2Proof.Machine
end

section
/-!
PROOFS. The host's `WriteReg` and `ReadReg` (45_dispatch R340, 60_exceptions R372): what a write of a named
register leaves alone, and what reads back.
-/

namespace Sys2Proof.Machine

/-! ## What a write of a named register leaves alone -/

section
variable (s : State) (n : RegName) (v : Nat)

@[simp] theorem State.poke_ramA : (s.poke n v).ramA = s.ramA := by cases n <;> simp [State.poke]
@[simp] theorem State.poke_ramB : (s.poke n v).ramB = s.ramB := by cases n <;> simp [State.poke]
@[simp] theorem State.poke_prog : (s.poke n v).prog = s.prog := by cases n <;> simp [State.poke]
@[simp] theorem State.poke_progWords : (s.poke n v).progWords = s.progWords := by
  cases n <;> simp [State.poke]
@[simp] theorem State.poke_progDirty : (s.poke n v).progDirty = s.progDirty := by
  cases n <;> simp [State.poke]
@[simp] theorem State.poke_cfg : (s.poke n v).cfg = s.cfg := by cases n <;> simp [State.poke]
@[simp] theorem State.poke_cache : (s.poke n v).cache = s.cache := by cases n <;> simp [State.poke]
@[simp] theorem State.poke_cacheUsed : (s.poke n v).cacheUsed = s.cacheUsed := by
  cases n <;> simp [State.poke]
@[simp] theorem State.poke_dstate : (s.poke n v).dstate = s.dstate := by cases n <;> simp [State.poke]
@[simp] theorem State.poke_icount : (s.poke n v).icount = s.icount := by cases n <;> simp [State.poke]
@[simp] theorem State.poke_faultRec : (s.poke n v).faultRec = s.faultRec := by cases n <;> simp [State.poke]
@[simp] theorem State.poke_scratch : (s.poke n v).scratch = s.scratch := by cases n <;> simp [State.poke]
@[simp] theorem State.poke_cur : (s.poke n v).cur = s.cur := by cases n <;> simp [State.poke]
@[simp] theorem State.poke_brpend : (s.poke n v).brpend = s.brpend := by cases n <;> simp [State.poke]
@[simp] theorem State.poke_extIn : (s.poke n v).extIn = s.extIn := by cases n <;> simp [State.poke]
@[simp] theorem State.poke_extLog : (s.poke n v).extLog = s.extLog := by cases n <;> simp [State.poke]

end

/-! ## Reads after writes -/

section
variable (s : State)

@[simp] theorem State.getFifo_setFifo (q : FifoId) (f : Fifo) : (s.setFifo q f).getFifo q = f := by
  cases q <;> rfl

theorem State.getFifo_setFifo_of_ne {p q : FifoId} (f : Fifo) (h : p ≠ q) :
    (s.setFifo q f).getFifo p = s.getFifo p := by
  revert h
  cases p <;> cases q <;> simp [State.getFifo, State.setFifo]

@[simp] theorem State.getScalar_setScalar (c : Scalar) (w : Word) : (s.setScalar c w).getScalar c = w := by
  cases c <;> rfl

theorem State.getScalar_setScalar_of_ne {c d : Scalar} (w : Word) (h : d ≠ c) :
    (s.setScalar c w).getScalar d = s.getScalar d := by
  revert h
  cases c <;> cases d <;> simp [State.getScalar, State.setScalar]

variable {s} {k : RegName}

/-- A named register looks at a FIFO through one of its four parts. -/
theorem State.inspect_setFifo {q : FifoId} {f : Fifo}
    (hd : ∀ i, k = .fifoData q i → f.data[i] = (s.getFifo q).data[i])
    (hr : k = .fifoRpos q → f.rpos = (s.getFifo q).rpos) (hw : k = .fifoWpos q → f.wpos = (s.getFifo q).wpos)
    (hn : k = .fifoNum q → f.num = (s.getFifo q).num) : (s.setFifo q f).inspect k = s.inspect k := by
  cases k with
  | fifoData p i =>
    obtain rfl | h := eq_or_ne p q
    · simp only [State.inspect, s.getFifo_setFifo, hd i rfl]
    · simp only [State.inspect, s.getFifo_setFifo_of_ne f h]
  | fifoRpos p =>
    obtain rfl | h := eq_or_ne p q
    · simp only [State.inspect, s.getFifo_setFifo, hr rfl]
    · simp only [State.inspect, s.getFifo_setFifo_of_ne f h]
  | fifoWpos p =>
    obtain rfl | h := eq_or_ne p q
    · simp only [State.inspect, s.getFifo_setFifo, hw rfl]
    · simp only [State.inspect, s.getFifo_setFifo_of_ne f h]
  | fifoNum p =>
    obtain rfl | h := eq_or_ne p q
    · simp only [State.inspect, s.getFifo_setFifo, hn rfl]
    · simp only [State.inspect, s.getFifo_setFifo_of_ne f h]
  | scalar c => cases q <;> cases c <;> rfl
  | bank | ar | pr | prp | pwp | pcs | pcsp | flag | pc => cases q <;> rfl

/-- A write of one named register leaves every other one as it was. -/
theorem State.inspect_poke_of_ne {n : RegName} (v : Nat) (h : k ≠ n) :
    (s.poke n v).inspect k = s.inspect k := by
  cases n with
  | bank r =>
    cases k with
    | bank q => exact congrArg BitVec.toNat (s.getReg_setReg_of_ne _ fun e => h (congrArg _ e))
    | _ => rfl
  | ar i =>
    cases k with
    | ar j => exact congrArg BitVec.toNat (Vector.getElem_set_ne i.isLt j.isLt fun e => h (by rw [Fin.ext e]))
    | _ => rfl
  | pr i =>
    cases k with
    | pr j => exact congrArg BitVec.toNat (Vector.getElem_set_ne i.isLt j.isLt fun e => h (by rw [Fin.ext e]))
    | _ => rfl
  | pcs i =>
    cases k with
    | pcs j => exact congrArg BitVec.toNat (Vector.getElem_set_ne i.isLt j.isLt fun e => h (by rw [Fin.ext e]))
    | _ => rfl
  | flag f =>
    cases k with
    | flag g => exact congrArg Bool.toNat (s.getFlag_setFlag_of_ne _ fun e => h (congrArg _ e))
    | _ => rfl
  | scalar c =>
    cases k with
    | scalar d => exact congrArg BitVec.toNat (s.getScalar_setScalar_of_ne _ fun e => h (congrArg _ e))
    | fifoData q | fifoRpos q | fifoWpos q | fifoNum q => cases c <;> cases q <;> rfl
    | _ => cases c <;> rfl
  | fifoData q i =>
    refine State.inspect_setFifo (fun j hj => ?_) (fun _ => rfl) (fun _ => rfl) (fun _ => rfl)
    subst hj
    exact Vector.getElem_set_ne i.isLt j.isLt fun e => h (by rw [Fin.ext e])
  | fifoRpos => exact State.inspect_setFifo (fun _ _ => rfl) (absurd · h) (fun _ => rfl) (fun _ => rfl)
  | fifoWpos => exact State.inspect_setFifo (fun _ _ => rfl) (fun _ => rfl) (absurd · h) (fun _ => rfl)
  | fifoNum => exact State.inspect_setFifo (fun _ _ => rfl) (fun _ => rfl) (fun _ => rfl) (absurd · h)
  | prp =>
    cases k with
    | prp => exact absurd rfl h
    | _ => rfl
  | pwp =>
    cases k with
    | pwp => exact absurd rfl h
    | _ => rfl
  | pcsp =>
    cases k with
    | pcsp => exact absurd rfl h
    | _ => rfl
  | pc =>
    cases k with
    | pc => exact absurd rfl h
    | _ => rfl

/-- A value in its range reads back (10_state R43). -/
theorem State.inspect_poke_same {n : RegName} {v : Nat} (h : v < regRange n) : (s.poke n v).inspect n = v := by
  cases n with
  | flag f =>
    have h : v < 2 := h
    obtain rfl | rfl : v = 0 ∨ v = 1 := by omega
    all_goals simp [State.poke, State.inspect]
  | _ => simpa [State.poke, State.inspect, regRange] using h

end

/-! ## The host's turns -/

theorem admitIf_of_true {c : Bool} (h : c = true) (s : State) : admitIf c s = .next s := if_pos h

theorem admitIf_of_false {c : Bool} (h : c = false) (s : State) : admitIf c s = .refused .hostMove := by
  simp [admitIf, h]

/-- Settles O56: `WriteReg` is one write of a named register where it is admitted. -/
theorem hostWriteThenRead : Obligations.HostWriteThenRead := by
  intro s n v range
  have hr : range = regRange n := by cases n <;> rfl
  have ha : (s.isIdle && decide (v < regRange n)) = true ↔ s.dstate = .idle ∧ v < range := by
    simp [State.isIdle, hr]
  split
  next h =>
    have hs : State.isStopped { s.poke n v with reply := .nothing } = true := by
      simp [State.isStopped, h.1]
    refine ⟨_, _, admitIf_of_true (ha.2 h) _, admitIf_of_true hs _, ?_, fun k hk => ?_, ?_⟩
    · exact congrArg Reply.value (State.inspect_poke_same (hr ▸ h.2))
    · exact State.inspect_poke_of_ne v hk
    · simp [h.1]
  next h => exact admitIf_of_false (Bool.eq_false_iff.2 fun e => h (ha.1 e)) _

end Sys2Proof.Machine
end

section
/-!
PROOFS. Every turn of the core and of the host keeps the memories canonical and the FIFOs coherent
(10_state R34, 40_bundle R170).
-/

namespace Sys2Proof.Machine

/-! ## Any value in a location keeps the data invariant (40_bundle R170, log 12) -/

/-- A FIFO put in place of another keeps the data invariant where it is coherent if that one was. -/
theorem State.dataInv_setFifo {s : State} {q : FifoId} {f : Fifo}
    (hf : (s.getFifo q).coherent = true → f.coherent = true) (h : s.dataInv) : (s.setFifo q f).dataInv := by
  cases q with
  | fi => exact (s.opKeeps_fifos hf id id).data h
  | fo0 => exact (s.opKeeps_fifos id hf id).data h
  | fo1 => exact (s.opKeeps_fifos id id hf).data h

theorem cursorAfter_val (p : FifoIndex) (n : FifoFill) : (cursorAfter p n).val = (p.val + n.val) % 8 := by
  simp only [cursorAfter, Fin.val_add, Fin.val_ofNat]
  omega

theorem cursorBefore_val (p : FifoIndex) (n : FifoFill) :
    p.val = ((cursorBefore p n).val + n.val) % 8 := by
  have := p.isLt
  have := n.isLt
  simp only [cursorBefore, Fin.sub_def, Fin.val_ofNat]
  omega

/-- Whatever value a location is left with, the data invariant holds. -/
theorem State.dataInv_havoc {s : State} (h : s.dataInv) (l : Loc) : (s.havoc l).dataInv := by
  cases l with
  | ramA a => exact (s.opKeeps_store s.freeWord (.ramA a)).data h
  | ramB a => exact (s.opKeeps_store s.freeWord (.ramB a)).data h
  | scalar c => exact (s.opKeeps_setScalar c s.freeWord).data h
  | fifoEntry => exact State.dataInv_setFifo id h
  | fifoHead => exact State.dataInv_setFifo (fun _ => (Fifo.coherent_iff _).2 (cursorBefore_val _ _)) h
  | fifoTail | fifoCursors =>
    exact State.dataInv_setFifo (fun _ => (Fifo.coherent_iff _).2 (cursorAfter_val _ _)) h
  | bank | flag | prEntry | prp | pwp | ar | ext | pcs | pcsp => exact (State.dataInv_congr rfl).2 h

theorem State.dataInv_havocAll {s : State} (h : s.dataInv) (ls : List Loc) : (s.havocAll ls).dataInv := by
  induction ls generalizing s with
  | nil => exact h
  | cons l ls ih => exact ih (State.dataInv_havoc h l)

/-! ## Slots and bundles (40_bundle R168) -/

section
variable {s t : State}

theorem State.OpEnds.dataInv {i : Instr} (h : s.OpEnds i t) (hs : s.dataInv) : t.dataInv := by
  cases h with
  | fault u k info ls hu ht => exact ht ▸ State.dataInv_havocAll (s := u.takeFault k info) (hu.data hs) ls
  | done _ ht => exact ht.data hs
  | pending u b a _ hu ht => exact ht ▸ hu.data hs

theorem State.dataInv_performSlot {d : SlotDec} (hs : s.dataInv) (h : s.performSlot d = .next t) :
    t.dataInv := by
  cases d with
  | absent | bad => cases h; exact hs
  | op i => exact (exec_ends h).dataInv hs

theorem State.dataInv_issue {d : Bundle} (hs : s.dataInv) (h : s.issue d = .next t) : t.dataInv := by
  obtain ⟨u, hu, ht⟩ := State.issue_cases h
  have hu : u.dataInv :=
    State.runSlots_invariant (fun _ _ _ _ hs h => State.dataInv_performSlot hs h) (s := s.openBundle) hs hu
  obtain ⟨-, rfl⟩ | ⟨-, rfl⟩ := ht
  · exact State.dataInv_havocAll hu _
  · exact (State.dataInv_congr (by simp [State.dataPart])).2 hu

theorem State.dataPart_advance (s : State) (c : Cur) (b : Record) : (s.advance c b).dataPart = s.dataPart := by
  have hn : (s.nextPc b).dataPart = s.dataPart := by unfold State.nextPc; split <;> [split; skip] <;> rfl
  rw [← hn]
  unfold State.advance State.blockTail
  split_ifs <;> rfl

end

/-! ## Turns of the core (45_dispatch R328) -/

section
variable {s t : State}

/-- A bundle that completes takes an early fault, holds, or is issued; if it is issued, it ends with the fault
of a slot, or the block goes on. -/
theorem State.bundleStep_cases {c : Cur} {b : Record} (h : s.bundleStep c b = .next t) :
    (∃ k info, t = ({ s with pc := b.addr } : State).takeFault k info) ∨ t = { s with pc := b.addr } ∨
      ∃ d u, b.dec = .bundle d ∧ s.earlyFault b = none ∧ ({ s with pc := b.addr } : State).issue d = .next u ∧
        ((u.dstate = .fault ∧ t = u) ∨ (u.dstate ≠ .fault ∧ t = u.advance c b)) := by
  unfold State.bundleStep at h
  dsimp only at h
  split at h
  next k info _ => cases h; exact .inl ⟨k, info, rfl⟩
  next he =>
    split at h
    next => cases h; exact .inr (.inl rfl)
    next =>
      split at h
      next d hd =>
        unfold State.issueAndAdvance at h
        split at h
        next u hu =>
          cases h
          refine .inr (.inr ⟨d, u, hd, he, hu, ?_⟩)
          by_cases hf : u.dstate = .fault
          · exact .inl ⟨hf, if_pos hf⟩
          · exact .inr ⟨hf, if_neg hf⟩
        next => cases h
        next => cases h
      next => cases h

/-- A turn of the core that completes, by the dispatch state. -/
theorem State.coreTurn_cases (h : s.coreTurn = .next t) :
    (s.dstate = .idle ∧ t = s) ∨ (s.dstate = .run ∧ s.cur = none ∧ t = s.lookupStep) ∨
      (∃ c b, s.dstate = .run ∧ s.cur = some c ∧ c.blk[c.idx]? = some b ∧ s.bundleStep c b = .next t) ∨
      (s.dstate = .miss ∧ t = s.missStep) ∨ (s.dstate = .flush ∧ t = s.flushStep) := by
  unfold State.coreTurn at h
  split at h
  next hd => cases h; exact .inl ⟨hd, rfl⟩
  next hd =>
    unfold State.runStep at h
    split at h
    next hc => cases h; exact .inr (.inl ⟨hd, hc, rfl⟩)
    next c hc =>
      split at h
      next b hb => exact .inr (.inr (.inl ⟨c, b, hd, hc, hb, h⟩))
      next => cases h
  next hd => cases h; exact .inr (.inr (.inr (.inl ⟨hd, rfl⟩)))
  next hd => cases h; exact .inr (.inr (.inr (.inr ⟨hd, rfl⟩)))
  next => cases h

theorem State.dataInv_bundleStep {c : Cur} {b : Record} (hs : s.dataInv) (h : s.bundleStep c b = .next t) :
    t.dataInv := by
  obtain ⟨k, info, rfl⟩ | rfl | ⟨d, u, -, -, hu, ht⟩ := State.bundleStep_cases h
  · exact hs
  · exact hs
  · have hu : u.dataInv := State.dataInv_issue (s := { s with pc := b.addr }) hs hu
    obtain ⟨-, rfl⟩ | ⟨-, rfl⟩ := ht
    · exact hu
    · exact (State.dataInv_congr (u.dataPart_advance c b)).2 hu

theorem State.dataInv_coreTurn (hs : s.dataInv) (h : s.coreTurn = .next t) : t.dataInv := by
  obtain ⟨-, rfl⟩ | ⟨-, -, rfl⟩ | ⟨c, b, -, -, -, h⟩ | ⟨-, rfl⟩ | ⟨-, rfl⟩ := State.coreTurn_cases h
  · exact hs
  · refine (State.dataInv_congr ?_).2 hs
    unfold State.lookupStep
    split <;> rfl
  · exact State.dataInv_bundleStep hs h
  · refine (State.dataInv_congr ?_).2 hs
    simp only [State.missStep]
    split_ifs <;> rfl
  · exact hs

end

/-! ## Turns of the host (45_dispatch R340) -/

section
variable {s t : State}

theorem admitIf_next {c : Bool} (h : admitIf c s = .next t) : c = true ∧ t = s := by
  cases c <;> cases h
  exact ⟨rfl, rfl⟩

/-- A `Run` that goes through starts from IDLE with unchanged program memory (45_dispatch R329, R341). -/
theorem State.hostTurn_run {budget : Nat} (h : s.hostTurn (.run budget) = .next t) :
    s.dstate = .idle ∧ s.progDirty = false ∧ t = s.startRun budget := by
  unfold State.hostTurn at h
  split_ifs at h with hi hp
  cases h
  exact ⟨by simpa [State.isIdle] using hi, by simpa using hp, rfl⟩

theorem State.dataInv_hostTurn {a : HostAction} (hs : s.dataInv)
    (hw : ∀ n v, a = .writeReg n v → (s.poke n v).fifosCoherent = true) (h : s.hostTurn a = .next t) :
    t.dataInv := by
  have ⟨ha, hb, hp, hf⟩ := hs
  cases a with
  | run =>
    obtain ⟨-, -, rfl⟩ := State.hostTurn_run h
    exact hs
  | reset => obtain ⟨-, rfl⟩ := admitIf_next h; exact ⟨ha, hb, hp, rfl⟩
  | pushFi v =>
    obtain ⟨hc, rfl⟩ := admitIf_next h
    exact (s.opKeeps_fifos (fun q => Fifo.coherent_push q (of_decide_eq_true hc) v) id id).data hs
  | popFo0 =>
    obtain ⟨hc, rfl⟩ := admitIf_next h
    exact (s.opKeeps_fifos id (fun q => Fifo.coherent_pop q (of_decide_eq_true hc)) id).data hs
  | popFo1 =>
    obtain ⟨hc, rfl⟩ := admitIf_next h
    exact (s.opKeeps_fifos id id (fun q => Fifo.coherent_pop q (of_decide_eq_true hc))).data hs
  | writeReg n v =>
    obtain ⟨-, rfl⟩ := admitIf_next h
    exact ⟨by simpa using ha, by simpa using hb, by simpa using hp, hw n v rfl⟩
  | readReg | invalidate | extAnswer | setProgMapped =>
    obtain ⟨-, rfl⟩ := admitIf_next h
    exact hs
  | loadProg => obtain ⟨-, rfl⟩ := admitIf_next h; exact ⟨ha, hb, Memory.wf_writeDWord hp _ _, hf⟩
  | loadRam bank =>
    cases bank <;> obtain ⟨-, rfl⟩ := admitIf_next h
    · exact ⟨Memory.wf_writeWord ha _ _, hb, hp, hf⟩
    · exact ⟨ha, Memory.wf_writeWord hb _ _, hp, hf⟩

/-- A step is a turn of the core, or the turn of the host that stands next in the schedule. -/
theorem State.step_turns (h : step s = .next t) :
    (∃ rest, State.coreTurn { s with schedule := rest } = .next t) ∨
      ∃ a rest, s.schedule = .host a :: rest ∧ State.hostTurn { s with schedule := rest } a = .next t := by
  simp only [step, State.takeTurn] at h
  split at h
  next hs => exact .inl ⟨[], by rwa [← hs]⟩
  next rest _ => exact .inl ⟨rest, h⟩
  next a rest hs => exact .inr ⟨a, rest, hs, h⟩

/-- Whose turn is next is no part of a named register. -/
theorem State.poke_schedule (s : State) (rest : List Turn) (n : RegName) (v : Nat) :
    State.poke { s with schedule := rest } n v = { s.poke n v with schedule := rest } := by
  cases n with
  | fifoData q | fifoRpos q | fifoWpos q | fifoNum q => cases q <;> rfl
  | scalar c => cases c <;> rfl
  | _ => rfl

/-- Settles O59: a turn of the core keeps the data invariant by what ops keep, also where a fault leaves any
values, and of the host's turns only `WriteReg` needs its duty. -/
theorem dataInvariantIsKept : Obligations.DataInvariantIsKept := by
  intro s t hs hw h
  obtain ⟨rest, h⟩ | ⟨a, rest, hsch, h⟩ := State.step_turns h
  · exact State.dataInv_coreTurn (s := { s with schedule := rest }) hs h
  · refine State.dataInv_hostTurn (s := { s with schedule := rest }) hs (fun n v ha => ?_) h
    rw [State.poke_schedule]
    exact hw n v rest (ha ▸ hsch)

end

end Sys2Proof.Machine
end

section
/-!
PROOFS. The delay slots of a block (40_bundle R151, 45_dispatch R320), and what an issued bundle leaves: a
fault, or a pending transfer exactly if one of its slots holds a control transfer (40_bundle R168, R170).
-/

namespace Sys2Proof.Machine

/-! ## The delay slots of a block (40_bundle R151, 45_dispatch R320) -/

/-- The records of a block from one on that is a delay slot exactly if `x`: a delay slot and a bundle that
cannot execute end the block, and any other record is followed by a delay slot exactly if it is a transfer. -/
def delaysMatch (x : Bool) : Block → Prop
  | [] => x = false
  | r :: rs => r.indelay = x ∧ if x = true ∨ r.cannotExecute = true then rs = [] else delaysMatch r.isxfer rs

theorem delaysMatch_fillFreq {x : Bool} {blk : Block} (h : delaysMatch x blk) :
    delaysMatch x (fillFreq blk) := by
  induction blk generalizing x with
  | nil => exact h
  | cons r rs ih =>
    obtain ⟨hx, hrs⟩ := h
    refine ⟨hx, ?_⟩
    change if x = true ∨ r.cannotExecute = true then fillFreq rs = [] else delaysMatch r.isxfer (fillFreq rs)
    split_ifs at hrs ⊢
    · rw [hrs]; rfl
    · exact ih hrs

theorem delaysMatch_markTerm {x : Bool} {blk : Block} (h : delaysMatch x blk) :
    delaysMatch x (markTerm blk) := by
  fun_induction markTerm blk generalizing x with
  | case1 | case2 => exact h
  | case3 r q rs ih =>
    obtain ⟨hx, hrs⟩ := h
    refine ⟨hx, ?_⟩
    split_ifs at hrs ⊢
    exact ih hrs

@[simp] theorem recordAt_indelay (p : Params) (prog : Memory) (words : Nat) (a : PcWord) :
    (recordAt p prog words a).indelay = false := by
  unfold recordAt; split <;> rfl

theorem delaysMatch_joinRecord {r d : Record} {k : Nat} {rest : Block} (hr : r.indelay = false)
    (h : delaysMatch false rest) : delaysMatch false (joinRecord r d k rest) := by
  unfold joinRecord
  split_ifs with hc hx
  · simp [delaysMatch, hr, hc]
  · simpa [delaysMatch, hr, hx, Record.cannotExecute] using hc
  · simp [delaysMatch, hr, hc, hx, h]

theorem delaysMatch_analyze (p : Params) (prog : Memory) (words : Nat) (a : PcWord) :
    delaysMatch false (analyze p prog words a) := by
  have hc (k n : Nat) : delaysMatch false (collect p prog words a k n) := by
    induction n generalizing a k with
    | zero => exact delaysMatch_joinRecord (recordAt_indelay ..) rfl
    | succ n ih => exact delaysMatch_joinRecord (recordAt_indelay ..) (ih ..)
  exact delaysMatch_fillFreq (delaysMatch_markTerm (hc ..))

/-- A record with another one after it is no delay slot, and the other is one exactly if it is a transfer. -/
theorem delaysMatch.next {x : Bool} {blk : Block} {k : Nat} {r q : Record} (h : delaysMatch x blk)
    (hr : blk[k]? = some r) (hq : blk[k + 1]? = some q) : r.indelay = false ∧ q.indelay = r.isxfer := by
  induction blk generalizing x k with
  | nil => cases hr
  | cons r' rs ih =>
    obtain ⟨hx, hrs⟩ := h
    split_ifs at hrs with hc
    · subst hrs; cases hq
    · cases k with
      | zero =>
        cases hr
        cases rs with
        | nil => cases hq
        | cons q' rs' =>
          cases hq
          exact ⟨by rw [hx]; simpa using fun h => hc (.inl h), hrs.1⟩
      | succ k => exact ih hrs hr hq

/-- The last record is a delay slot, or no transfer, or cannot execute. -/
theorem delaysMatch.last {x : Bool} {blk : Block} {k : Nat} {r : Record} (h : delaysMatch x blk)
    (hr : blk[k]? = some r) (hl : blk.length ≤ k + 1) :
    r.indelay = true ∨ r.isxfer = false ∨ r.cannotExecute = true := by
  induction blk generalizing x k with
  | nil => cases hr
  | cons r' rs ih =>
    obtain ⟨hx, hrs⟩ := h
    cases k with
    | zero =>
      cases hr
      obtain rfl : rs = [] := List.length_eq_zero_iff.1 (by simpa using hl)
      split_ifs at hrs with hc
      · exact hc.imp (hx.trans ·) .inr
      · exact .inr (.inl hrs)
    | succ k =>
      split_ifs at hrs
      · subst hrs; cases hr
      · exact ih hrs hr (by simpa using hl)

/-- A block begins at its start address, with no delay slot. -/
theorem analyze_first (p : Params) (prog : Memory) (words : Nat) (a : PcWord) :
    ∃ b, (analyze p prog words a)[0]? = some b ∧ b.addr = a ∧ b.indelay = false := by
  have hd := delaysMatch_analyze p prog words a
  have ha : (analyze p prog words a).head?.map Record.addr = some a := by
    simp [analyze, fillFreq_head, markTerm_head, collect_head]
  cases hblk : analyze p prog words a with
  | nil => rw [hblk] at ha; cases ha
  | cons b rs =>
    rw [hblk] at ha hd
    exact ⟨b, rfl, by simpa using ha, hd.1⟩

section
variable {p : Params} {prog : Memory} {words k : Nat} {a : PcWord} {r q : Record}

/-- The records of a block stand at consecutive addresses. -/
theorem analyze_addr_succ (hr : (analyze p prog words a)[k]? = some r)
    (hq : (analyze p prog words a)[k + 1]? = some q) : q.addr = r.addr + 1 := by
  have haddr {j : Nat} {u : Record} (hu : (analyze p prog words a)[j]? = some u) :
      u.addr = a + BitVec.ofNat _ j := by
    obtain ⟨_, _, _, _, rfl⟩ := analyze_getElem? hu
    exact recordAt_addr ..
  rw [haddr hr, haddr hq, BitVec.ofNat_add, BitVec.add_assoc]
  rfl

end

theorem Instr.slot_of_isTransfer {i : Instr} (h : i.isTransfer = true) : i.slot = .ctl := by
  cases i <;> simp [Instr.isTransfer, Instr.slot] at h ⊢

/-- A mapped bundle is a transfer exactly if one of its slots holds a control transfer, since no other slot
than the control slot can. -/
theorem mappedRecord_isxfer_iff {p : Params} {w : DWord} {d : Bundle} (a : PcWord)
    (h : p.decodeWord w = .bundle d) :
    (mappedRecord p a w).isxfer = true ↔ ∃ i, .op i ∈ d.slots ∧ i.isTransfer = true := by
  have hs : (∃ i, .op i ∈ d.slots ∧ i.isTransfer = true) ↔ ∃ i, d.ctl = .op i ∧ i.isTransfer = true := by
    refine exists_congr fun i => and_congr_left fun hi => ?_
    rw [(Params.decodeWord_slotted h).op_mem_slots, Instr.slot_of_isTransfer hi, Bundle.at]
  rw [hs]
  simp only [mappedRecord, h, controlOp]
  cases d.ctl <;> simp [SlotDec.instr?]

theorem analyze_isxfer {p : Params} {prog : Memory} {words k : Nat} {a : PcWord} {r : Record} {d : Bundle}
    (hr : (analyze p prog words a)[k]? = some r) (hd : r.dec = .bundle d) :
    r.isxfer = true ↔ ∃ i, .op i ∈ d.slots ∧ i.isTransfer = true := by
  obtain ⟨_, _, _, _, rfl⟩ := analyze_getElem? hr
  obtain ⟨-, he⟩ | ⟨-, he⟩ := recordAt_cases p prog words (a + BitVec.ofNat _ k) <;> rw [he] at hd ⊢
  · exact mappedRecord_isxfer_iff (a + BitVec.ofNat _ k) hd
  · cases hd

/-! ## What a bundle leaves (40_bundle R168, R170) -/

/-- The core has taken a fault (60_exceptions R352). -/
def State.faulted (s : State) : Prop :=
  s.dstate = .fault ∧ s.faultRec.isSome = true ∧ s.cur = none ∧ s.brpend = none ∧ s.scratch = []

/-- `t` comes from `s` by slots that took no fault, of which one is a control transfer exactly if `x`. -/
def State.ranOn (s t : State) (x : Prop) : Prop :=
  t.runPart = s.runPart ∧ (t.brpend.isSome = true ↔ s.brpend.isSome = true ∨ x)

section
variable {s t : State}

@[simp] theorem State.havocAll_faulted (ls : List Loc) : (s.havocAll ls).faulted ↔ s.faulted := by
  simp [State.faulted]

theorem State.takeFault_faulted (k : FaultKind) (info : Option Nat) : (s.takeFault k info).faulted :=
  ⟨rfl, rfl, rfl, rfl, rfl⟩

theorem State.ranOn.not_fault {x : Prop} (h : s.ranOn t x) (hs : s.dstate ≠ .fault) : t.dstate ≠ .fault := by
  have hd : t.dstate = s.dstate := congrArg (·.2.1) h.1
  rwa [hd]

theorem State.OpEnds.launch {i : Instr} (h : s.OpEnds i t) : t.launchPart = s.launchPart := by
  cases h with
  | fault u k info ls hu ht => rw [← hu.launch, ht]; simp [State.launchPart]
  | done _ ht => exact ht.launch
  | pending u b a _ hu ht => rw [← hu.launch, ht]; rfl

theorem State.OpEnds.faulted_or {i : Instr} (h : s.OpEnds i t) :
    t.faulted ∨ s.ranOn t (i.isTransfer = true) := by
  cases h with
  | fault u k info ls hu ht =>
    subst ht
    exact .inl ((State.havocAll_faulted ls).2 (u.takeFault_faulted k info))
  | done hi ht => exact .inr ⟨ht.run, by simp [ht.brpend, hi]⟩
  | pending u b a hi hu ht => subst ht; exact .inr ⟨hu.run, by simp [hi]⟩

theorem State.performSlot_launch {d : SlotDec} (h : s.performSlot d = .next t) :
    t.launchPart = s.launchPart := by
  cases d with
  | absent | bad => cases h; rfl
  | op i => exact (exec_ends h).launch

theorem State.performSlot_faulted_or {d : SlotDec} (h : s.performSlot d = .next t) :
    t.faulted ∨ (d.isBad = false ∧ s.ranOn t (∃ i, d = .op i ∧ i.isTransfer = true)) := by
  cases d with
  | absent => cases h; exact .inr ⟨rfl, rfl, by simp⟩
  | bad k info => cases h; exact .inl (s.takeFault_faulted k _)
  | op i => simpa [SlotDec.isBad] using (exec_ends h).faulted_or

theorem State.runSlots_faulted_or {ds : List SlotDec} (hs : s.dstate ≠ .fault) (h : s.runSlots ds = .next t) :
    t.faulted ∨ ((∀ d ∈ ds, d.isBad = false) ∧ s.ranOn t (∃ i, .op i ∈ ds ∧ i.isTransfer = true)) := by
  induction ds generalizing s with
  | nil => cases h; exact .inr ⟨by simp, rfl, by simp⟩
  | cons d ds ih =>
    obtain ⟨u, hu, hr⟩ := State.runSlots_cons h
    obtain hf | ⟨hd, hran⟩ := State.performSlot_faulted_or hu
    · obtain ⟨-, rfl⟩ | ⟨hn, -⟩ := hr
      · exact .inl hf
      · exact absurd hf.1 hn
    · obtain ⟨hn, -⟩ | ⟨hn, hr⟩ := hr
      · exact absurd hn (hran.not_fault hs)
      · refine (ih hn hr).imp_right fun ⟨hds, hrun, hbr⟩ => ⟨?_, hrun.trans hran.1, ?_⟩
        · simpa using ⟨hd, hds⟩
        · rw [hbr, hran.2, or_assoc, ← exists_or]
          simp only [List.mem_cons, or_and_right, eq_comm]

/-- An issued bundle changes nothing that no op changes; it ends with the fault of a slot, or no slot is `Bad`
and all of them ran. -/
theorem State.issue_ends {d : Bundle} (hs : s.dstate ≠ .fault) (h : s.issue d = .next t) :
    t.launchPart = s.launchPart ∧ (t.faulted ∨ (t.scratch = [] ∧ (∀ x ∈ d.slots, x.isBad = false) ∧
      s.ranOn t (∃ i, .op i ∈ d.slots ∧ i.isTransfer = true))) := by
  obtain ⟨u, hu, ht⟩ := State.issue_cases h
  have hl : u.launchPart = s.launchPart :=
    State.runSlots_invariant (P := fun v => v.launchPart = s.launchPart)
      (fun _ _ _ _ hv h => (State.performSlot_launch h).trans hv) (s := s.openBundle) rfl hu
  have hr := State.runSlots_faulted_or (s := s.openBundle) hs hu
  obtain ⟨hf, rfl⟩ | ⟨hf, rfl⟩ := ht
  · refine ⟨by rw [← hl]; simp [State.launchPart], .inl ?_⟩
    obtain hr | ⟨-, hr⟩ := hr
    · exact (State.havocAll_faulted _).2 hr
    · exact absurd hf (hr.not_fault hs)
  · refine ⟨by rw [← hl]; simp [State.launchPart], .inr ?_⟩
    obtain hr | ⟨hb, hrun, hbr⟩ := hr
    · exact absurd hr.1 hf
    · have hc : u.commit.runPart = u.runPart := by simp [State.runPart]
      exact ⟨rfl, hb, hc.trans hrun, by simpa using hbr⟩

end

end Sys2Proof.Machine
end

section
/-!
PROOFS. All the invariants of the machine at reset and over every step (10_state R41, 45_dispatch R326, R328,
R330, R333, 60_exceptions R352).
-/

namespace Sys2Proof.Machine

/-- The invariants of the machine but for that of its data. -/
def State.controlInv (s : State) : Prop := s.dispatchInv ∧ s.cacheInv ∧ s.runInv

section
variable {s t : State}

theorem State.analyzeAt_congr (h : t.launchPart = s.launchPart) (a : PcWord) :
    t.analyzeAt a = s.analyzeAt a := by
  simp only [State.launchPart, Prod.mk.injEq] at h
  obtain ⟨-, hp, hw, -, hc⟩ := h
  rw [State.analyzeAt, hp, hw, hc, State.analyzeAt]

theorem State.cacheInv_congr (h : t.launchPart = s.launchPart) : t.cacheInv ↔ s.cacheInv := by
  have ha := State.analyzeAt_congr h
  simp only [State.launchPart, Prod.mk.injEq] at h
  obtain ⟨⟨hc, hu, -⟩, -, -, hd, hg⟩ := h
  simp only [State.cacheInv, hc, hu, hd, hg, ha]

theorem State.cacheInv_of_empty (hc : s.cache = []) (hu : s.cacheUsed = 0) : s.cacheInv := by
  simp [State.cacheInv, hc, hu]

theorem State.dispatchInv_of_run (hd : s.dstate = .run) :
    s.dispatchInv ↔ s.faultRec = none ∧ s.scratch = [] ∧ s.progDirty = false := by
  simp [State.dispatchInv, hd]

theorem State.progDirty_congr (h : t.launchPart = s.launchPart) : t.progDirty = s.progDirty :=
  congrArg (·.2.2.2.1) h

theorem State.dispatchInv_in_run (hd : s.dstate = .run) (hf : s.faultRec = none) (hs : s.scratch = [])
    (hp : s.progDirty = false) : s.dispatchInv := (State.dispatchInv_of_run hd).2 ⟨hf, hs, hp⟩

theorem State.runInv_of_boundary (hc : s.cur = none) : s.runInv ↔ s.brpend = none := by
  simp [State.runInv, hc]

theorem State.runInv_of_cur {c : Cur} (hc : s.cur = some c) : s.runInv ↔ ∃ a b, c.blk = s.analyzeAt a ∧
    c.blk[c.idx]? = some b ∧ s.pc = b.addr ∧ s.brpend.isSome = b.indelay := by
  simp only [State.runInv, hc]

theorem State.faulted.controlInv (h : t.faulted) (hp : t.progDirty = false) (hc : t.cacheInv) :
    t.controlInv := by
  obtain ⟨hd, hf, hcur, hb, hs⟩ := h
  refine ⟨⟨fun _ => hcur, by simp [hd, hf], hs, ?_⟩, hc, (State.runInv_of_boundary hcur).2 hb⟩
  simp [hp]

/-! ## A bundle and what follows it (45_dispatch R330, R333) -/

theorem State.blockTail_controlInv (blk : Block) (hc : s.cur = none) (hf : s.faultRec = none)
    (h : s.controlInv) : (s.blockTail blk).controlInv := by
  unfold State.blockTail
  split_ifs
  · obtain ⟨⟨-, -, hs, -⟩, hcache, hrun⟩ := h
    exact ⟨⟨fun _ => hc, by simp [hf], hs, fun _ => rfl⟩, hcache, hrun⟩
  · exact h
  · exact h

theorem State.nextPc_of_delay {b : Record} (h : b.indelay = true) :
    ∃ a, s.nextPc b = { s with brpend := none, pc := a } := by
  simp only [State.nextPc, h, if_true]
  split
  next => exact ⟨_, rfl⟩
  next hb => exact ⟨_, by rw [← hb]⟩

theorem State.nextPc_of_not_delay {b : Record} (h : b.indelay = false) :
    s.nextPc b = { s with pc := b.addr + 1 } := by
  simp [State.nextPc, h]

/-- The block goes on after its bundle `b`, which leaves a transfer pending exactly if it is one or is a delay
slot: the next record is a delay slot exactly if one is pending, and none is after the last. -/
theorem State.advance_controlInv {c : Cur} {b : Record} {a : PcWord} (hd : s.dstate = .run)
    (hi : s.dispatchInv) (hcache : s.cacheInv) (hblk : c.blk = s.analyzeAt a) (hb : c.blk[c.idx]? = some b)
    (hx : b.cannotExecute = false) (hp : s.brpend.isSome = true ↔ b.indelay = true ∨ b.isxfer = true) :
    (s.advance c b).controlInv := by
  obtain ⟨hf, hsc, hpd⟩ := (State.dispatchInv_of_run hd).1 hi
  have hm : delaysMatch false c.blk := hblk ▸ delaysMatch_analyze ..
  by_cases hl : c.idx + 1 < c.blk.length
  · obtain ⟨q, hq⟩ : ∃ q, c.blk[c.idx + 1]? = some q := ⟨_, List.getElem?_eq_getElem hl⟩
    obtain ⟨hdel, hqd⟩ := hm.next hb hq
    have haddr : q.addr = b.addr + 1 := by
      rw [hblk] at hb hq
      exact analyze_addr_succ hb hq
    rw [State.advance, if_pos hl, State.nextPc_of_not_delay hdel]
    refine ⟨State.dispatchInv_in_run hd hf hsc hpd, hcache, a, q, hblk, hq, haddr.symm, ?_⟩
    rw [hqd, Bool.eq_iff_iff, hp]
    simp [hdel]
  · have hpc : ∃ a', s.nextPc b = { s with brpend := none, pc := a' } := by
      obtain hdel | hxf | hc := hm.last hb (Nat.not_lt.1 hl)
      · exact State.nextPc_of_delay hdel
      · cases hdel : b.indelay with
        | true => exact State.nextPc_of_delay hdel
        | false =>
          have hnone : s.brpend = none := by simpa [hdel, hxf] using hp
          exact ⟨_, by rw [State.nextPc_of_not_delay hdel, ← hnone]⟩
      · rw [hx] at hc; cases hc
    obtain ⟨a', ha'⟩ := hpc
    rw [State.advance, if_neg hl, ha']
    exact State.blockTail_controlInv c.blk rfl hf ⟨State.dispatchInv_in_run hd hf hsc hpd, hcache, rfl⟩

theorem State.unmapped_of_earlyFault {b : Record} (h : s.earlyFault b = none) : b.unmapped = false := by
  cases hu : b.unmapped with
  | false => rfl
  | true => simp [State.earlyFault, hu] at h

theorem State.cannotExecute_of_issued {b : Record} {d : Bundle} (he : s.earlyFault b = none)
    (hd : b.dec = .bundle d) (hbad : ∀ x ∈ d.slots, x.isBad = false) : b.cannotExecute = false := by
  simpa [Record.cannotExecute, State.unmapped_of_earlyFault he, hd, Decoded.hasBad] using hbad

theorem State.controlInv_bundleStep {c : Cur} {b : Record} (hs : s.controlInv) (hd : s.dstate = .run)
    (hc : s.cur = some c) (hb : c.blk[c.idx]? = some b) (h : s.bundleStep c b = .next t) : t.controlInv := by
  obtain ⟨hi, hcache, hr⟩ := hs
  obtain ⟨a, b', hblk, hb', hpc, hbr⟩ := (State.runInv_of_cur hc).1 hr
  obtain rfl : b' = b := Option.some.inj (hb'.symm.trans hb)
  obtain ⟨hf, hsc, hpd⟩ := (State.dispatchInv_of_run hd).1 hi
  have hself : ({ s with pc := b'.addr } : State) = s := by rw [← hpc]
  have hcases := State.bundleStep_cases h
  rw [hself] at hcases
  obtain ⟨k, info, rfl⟩ | rfl | ⟨d, u, hdec, he, hu, ht⟩ := hcases
  · exact (s.takeFault_faulted k info).controlInv hpd hcache
  · exact ⟨hi, hcache, hr⟩
  have hn : s.dstate ≠ .fault := by simp [hd]
  obtain ⟨hl, hends⟩ := State.issue_ends hn hu
  have hcu : u.cacheInv := (State.cacheInv_congr hl).2 hcache
  have hpu : u.progDirty = false := (State.progDirty_congr hl).trans hpd
  obtain hfu | ⟨hscu, hbad, hran⟩ := hends
  · obtain ⟨-, rfl⟩ | ⟨hnf, -⟩ := ht
    · exact hfu.controlInv hpu hcu
    · exact absurd hfu.1 hnf
  · obtain ⟨hfu, -⟩ | ⟨-, rfl⟩ := ht
    · exact absurd hfu (hran.not_fault hn)
    obtain ⟨hrun, hbru⟩ := hran
    simp only [State.runPart, Prod.mk.injEq] at hrun
    obtain ⟨-, hdu, hfu, -⟩ := hrun
    refine State.advance_controlInv (hdu.trans hd)
      (State.dispatchInv_in_run (hdu.trans hd) (hfu.trans hf) hscu hpu) hcu
      (hblk.trans (State.analyzeAt_congr hl a).symm) hb (State.cannotExecute_of_issued he hdec hbad) ?_
    rw [hblk] at hb
    rw [hbru, hbr, analyze_isxfer hb hdec]

/-! ## Turns of the core (45_dispatch R328) -/

theorem State.mem_cache_of_lookup {blk : Block} (h : s.cache.lookup s.pc = some blk) :
    (s.pc, blk) ∈ s.cache := by
  obtain ⟨l, l', he, -⟩ := List.lookup_eq_some_iff.1 h
  simp [he]

theorem State.controlInv_lookupStep (hs : s.controlInv) (hd : s.dstate = .run) (hc : s.cur = none) :
    s.lookupStep.controlInv := by
  obtain ⟨hi, hcache, hr⟩ := hs
  obtain ⟨hf, hsc, hpd⟩ := (State.dispatchInv_of_run hd).1 hi
  have hbr : s.brpend = none := (State.runInv_of_boundary hc).1 hr
  unfold State.lookupStep
  split
  next blk hlook =>
    have hblk : blk = s.analyzeAt s.pc := hcache.2.2 hpd _ (State.mem_cache_of_lookup hlook)
    obtain ⟨b, hb, haddr, hdel⟩ := analyze_first s.cfg s.prog s.progWords s.pc
    exact ⟨State.dispatchInv_in_run hd hf hsc hpd, hcache, s.pc, b, hblk, hblk ▸ hb, haddr.symm,
      by simp [hbr, hdel]⟩
  next =>
    exact ⟨⟨fun _ => hc, by simp [hf], hsc, by simp [hpd]⟩, hcache, hr⟩

theorem State.controlInv_missStep (hs : s.controlInv) (hd : s.dstate = .miss) : s.missStep.controlInv := by
  obtain ⟨⟨hcur, hf, hsc, hpd⟩, hcache, hr⟩ := hs
  have hc : s.cur = none := hcur (by simp [hd])
  have hf : s.faultRec = none := by simpa [hd] using hf
  have hpd : s.progDirty = false := by simpa [hd] using hpd
  have hbr : s.brpend = none := (State.runInv_of_boundary hc).1 hr
  by_cases hfit : s.cacheUsed + fragSize s.cfg (s.analyzeAt s.pc) ≤ s.cfg.cacheCapacity
  · obtain ⟨hsum, -, hblks⟩ := hcache
    rw [State.missStep_of_fits hfit]
    refine ⟨State.dispatchInv_in_run rfl hf hsc hpd, ⟨?_, hfit, fun _ => ?_⟩, hr⟩
    · simp [hsum, Nat.add_comm]
    · exact List.forall_mem_cons.2 ⟨rfl, hblks hpd⟩
  · rw [State.missStep_of_full hfit]
    exact ⟨⟨fun _ => hc, by simp [hf], hsc, by simp [hpd]⟩, hcache, hr⟩

theorem State.controlInv_flushStep (hs : s.controlInv) (hd : s.dstate = .flush) : s.flushStep.controlInv := by
  obtain ⟨⟨hcur, hf, hsc, hpd⟩, -, hr⟩ := hs
  have hf : s.faultRec = none := by simpa [hd] using hf
  have hpd : s.progDirty = false := by simpa [hd] using hpd
  exact ⟨State.dispatchInv_in_run rfl hf hsc hpd, State.cacheInv_of_empty rfl rfl, hr⟩

theorem State.controlInv_coreTurn (hs : s.controlInv) (h : s.coreTurn = .next t) : t.controlInv := by
  obtain ⟨-, rfl⟩ | ⟨hd, hc, rfl⟩ | ⟨c, b, hd, hc, hb, h⟩ | ⟨hd, rfl⟩ | ⟨hd, rfl⟩ := State.coreTurn_cases h
  · exact hs
  · exact State.controlInv_lookupStep hs hd hc
  · exact State.controlInv_bundleStep hs hd hc hb h
  · exact State.controlInv_missStep hs hd
  · exact State.controlInv_flushStep hs hd

/-! ## Turns of the host (45_dispatch R340) -/

/-- In IDLE no block is under way and nothing is pending. -/
theorem State.controlInv.idle (hs : s.controlInv) (hd : s.dstate = .idle) :
    s.cur = none ∧ s.faultRec = none ∧ s.scratch = [] ∧ s.brpend = none := by
  obtain ⟨⟨hcur, hf, hsc, -⟩, -, hr⟩ := hs
  have hc : s.cur = none := hcur (by simp [hd])
  exact ⟨hc, by simpa [hd] using hf, hsc, (State.runInv_of_boundary hc).1 hr⟩

/-- In IDLE, with nothing under way, pending or recorded, all else is the invariant of the cache. -/
theorem State.controlInv.of_idle (hd : s.dstate = .idle) (hc : s.cur = none) (hf : s.faultRec = none)
    (hsc : s.scratch = []) (hb : s.brpend = none) (hcache : s.cacheInv) : s.controlInv :=
  ⟨⟨fun _ => hc, by simp [hd, hf], hsc, fun _ => hd⟩, hcache, (State.runInv_of_boundary hc).2 hb⟩

theorem State.isIdle_iff : s.isIdle = true ↔ s.dstate = .idle := by simp [State.isIdle]

/-- Program memory that changed counts as unchanged only where nothing is cached (45_dispatch R341). -/
theorem State.not_mem_cache_of_clean (h : s.markProgChange.progDirty = false) (e : PcWord × Block) :
    e ∉ s.cache := by
  have hc : s.cache = [] := by simpa using (Bool.or_eq_false_iff.1 h).2
  simp [hc]

theorem State.controlInv_hostTurn {a : HostAction} (hs : s.controlInv) (h : s.hostTurn a = .next t) :
    t.controlInv := by
  have hidle := hs.idle
  have hcache : s.cacheInv := hs.2.1
  have ⟨hsum, hcap, _⟩ := hcache
  cases a with
  | reset =>
    obtain ⟨-, rfl⟩ := admitIf_next h
    exact .of_idle rfl rfl rfl rfl rfl (State.cacheInv_of_empty rfl rfl)
  | pushFi | popFo0 | popFo1 | readReg | extAnswer => obtain ⟨-, rfl⟩ := admitIf_next h; exact hs
  | loadRam bank => cases bank <;> obtain ⟨-, rfl⟩ := admitIf_next h <;> exact hs
  | run =>
    obtain ⟨hd, hp, rfl⟩ := State.hostTurn_run h
    obtain ⟨-, hf, hsc, hb⟩ := hidle hd
    exact ⟨State.dispatchInv_in_run rfl hf hsc hp, hcache, hb⟩
  | writeReg n v =>
    obtain ⟨ha, rfl⟩ := admitIf_next h
    have hd : s.dstate = .idle := State.isIdle_iff.1 (Bool.and_eq_true_iff.1 ha).1
    obtain ⟨hc, hf, hsc, hb⟩ := hidle hd
    refine .of_idle ?_ ?_ ?_ ?_ ?_ ((State.cacheInv_congr (by simp [State.launchPart])).2 hcache) <;> simpa
  | invalidate =>
    obtain ⟨ha, rfl⟩ := admitIf_next h
    have hd := State.isIdle_iff.1 ha
    obtain ⟨hc, hf, hsc, hb⟩ := hidle hd
    exact .of_idle hd hc hf hsc hb (State.cacheInv_of_empty rfl rfl)
  | loadProg | setProgMapped =>
    obtain ⟨ha, rfl⟩ := admitIf_next h
    have hd := State.isIdle_iff.1 ha
    obtain ⟨hc, hf, hsc, hb⟩ := hidle hd
    exact .of_idle hd hc hf hsc hb
      ⟨hsum, hcap, fun hp e he => absurd he (State.not_mem_cache_of_clean hp e)⟩

end

/-- Settles O58: after reset nothing is cached, under way or pending, and the FIFOs are empty. -/
theorem invariantsHoldAtReset : Obligations.InvariantsHoldAtReset :=
  ⟨⟨rfl, rfl, rfl, rfl⟩, State.controlInv.of_idle rfl rfl rfl rfl rfl (State.cacheInv_of_empty rfl rfl)⟩

/-- Settles O60: the data invariant is O59, and each turn keeps the others. -/
theorem invariantsAreKept : Obligations.InvariantsAreKept := by
  intro s t ⟨hdata, hctl⟩ hw h
  refine ⟨dataInvariantIsKept s t hdata hw h, ?_⟩
  obtain ⟨rest, h⟩ | ⟨a, rest, -, h⟩ := State.step_turns h
  · exact State.controlInv_coreTurn (s := { s with schedule := rest }) hctl h
  · exact State.controlInv_hostTurn (s := { s with schedule := rest }) hctl h

end Sys2Proof.Machine
end

section
/-!
PROOFS. Moves, loads and stores (43_transfer R250, R254 to R258): what a read of a register leaves, what an
access at a place of memory answers, and the hold of a bundle that a FIFO cannot serve (20_memory R76).
-/

namespace Sys2Proof.Machine

/-! ## Reads of a register and FIFO demand (43_transfer R250, R252) -/

section
variable {s t q : State} {i : Instr}

theorem State.readLeaves_iff (r : Reg6) : s.readLeaves q r ↔ q = s.afterRegRead r := by
  cases r with
  | pr m =>
    have hp (p : PrIndex) : p.val = ringMove m s.prp.val ↔ p = PrMode.move s.prp m := by
      rw [Fin.ext_iff, PrMode.move_val]
    simp [State.readLeaves, State.afterRegRead, State.afterPrRead, hp]
  | fi | bank | ar | scalar | fo0 | fo1 | prp | pwp => rfl

theorem Reg6.readable_of_ne {r : Reg6} (h0 : r ≠ .fo0) (h1 : r ≠ .fo1) : r.readable = true := by
  cases r with
  | fo0 => exact absurd rfl h0
  | fo1 => exact absurd rfl h1
  | bank | ar | pr | scalar | fi | prp | pwp => rfl

/-- A register other than FI takes a value, a ring pointer one below 24 (43_transfer R250). -/
theorem regAccepts_of_lt {r : Reg6} {v : Word} (hr : r ≠ .fi) (hp : r = .prp ∨ r = .pwp → v.toNat < 24) :
    regAccepts r v = true := by
  cases r with
  | fi => exact absurd rfl hr
  | prp => exact decide_eq_true (hp (.inl rfl))
  | pwp => exact decide_eq_true (hp (.inr rfl))
  | bank | ar | pr | scalar | fo0 | fo1 => rfl

/-- The FIFOs serve an op that pops no empty FIFO and pushes no full one (20_memory R76). -/
theorem State.fifoShort_of_served (hr : ∀ r, Instr.regRead i = some r → s.canRead r)
    (hw : ∀ r, Instr.regWritten i = some r → s.canWrite r) : s.fifoShort i = false := by
  simp only [State.fifoShort, Bool.or_eq_false_iff, Bool.and_eq_false_imp, beq_iff_eq, beq_eq_false_iff_ne]
  exact ⟨⟨fun h => Nat.ne_of_gt (hr _ h rfl), fun h => Nat.ne_of_lt ((hw _ h).1 rfl)⟩,
    fun h => Nat.ne_of_lt ((hw _ h).2 rfl)⟩

/-- An op whose demand on the FIFOs one of them cannot meet is short. -/
theorem State.fifoShort_of_demand (h : (Instr.regRead i = some .fi ∧ s.fi.num.val = 0) ∨
    (Instr.regWritten i = some .fo0 ∧ s.fo0.num.val = 8) ∨
    (Instr.regWritten i = some .fo1 ∧ s.fo1.num.val = 8)) : s.fifoShort i = true := by
  obtain ⟨hi, hn⟩ | ⟨hi, hn⟩ | ⟨hi, hn⟩ := h <;> simp [State.fifoShort, hi, hn]

/-! ## The ops by their endings (43_transfer R254 to R258, R261) -/

theorem exec_mov_of_served {src dst : Reg6} (hs : s.fifoShort (.mov src dst) = false)
    (hr : src.readable = true) :
    exec (.mov src dst) s = (s.afterRegRead src).finishReg (.mov src dst) s dst (s.regVal src) := by
  rw [exec, execMov, State.unlessShort_of_served _ _ hs, if_pos hr]

theorem exec_ldi_of_served {dst : Reg6} {v : Word} (hs : s.fifoShort (.ldi dst v) = false) :
    exec (.ldi dst v) s = s.finishReg (.ldi dst v) s dst v := by
  rw [exec, execLdi, State.unlessShort_of_served _ _ hs]

theorem State.finishReg_of_accepts {r : Reg6} {v : Word} (h : regAccepts r v = true) (i : Instr) (s0 : State) :
    s.finishReg i s0 r v = .next (s.afterRegWrite v r) := if_pos h

end

/-- Settles O22: `ReadReg` leaves `q`, and MOV and LDI end in the same `WriteReg`. -/
theorem movResult : Obligations.MovResult := by
  intro src dst s q h0 h1 hfi hr hw0 hw1 hp hq
  obtain rfl := (State.readLeaves_iff src).1 hq
  have hacc : regAccepts dst (s.regVal src) = true := regAccepts_of_lt hfi hp
  have hcw : s.canWrite dst := ⟨hw0, hw1⟩
  have hmov : s.fifoShort (.mov src dst) = false :=
    State.fifoShort_of_served (fun _ h => Option.some.inj h ▸ hr) (fun _ h => Option.some.inj h ▸ hcw)
  have hldi : (s.afterRegRead src).fifoShort (.ldi dst (s.regVal src)) = false :=
    State.fifoShort_of_served nofun
      (fun _ h => Option.some.inj h ▸ (by simpa [State.canWrite] using hcw))
  rw [exec_mov_of_served hmov (Reg6.readable_of_ne h0 h1), exec_ldi_of_served hldi,
    State.finishReg_of_accepts hacc, State.finishReg_of_accepts hacc]
  exact ⟨rfl, rfl⟩

/-- Settles O32: a short transfer slot makes the bundle hold, and a hold of the bundle keeps the state. -/
theorem fifoHoldChangesNothing : Obligations.FifoHoldChangesNothing := by
  intro s c b d i hrun he hd hi hdemand
  have he' : ({ s with pc := b.addr } : State).earlyFault b = none := he
  have hh : ({ s with pc := b.addr } : State).mustHold b = true := by
    simp only [State.mustHold, hd, hi]
    exact State.fifoShort_of_demand hdemand
  rw [State.step_running hrun]
  simp only [State.bundleStep, he', hh, if_true]

/-! ## Loads and stores at a place (43_transfer R251, R255 to R258) -/

section
variable {s : State} {bank : MemBank} {ea : Word} {p : Place}

theorem State.loadReg_of_place (hp : s.memLoc bank ea = .ok p) {reg : Reg6}
    (ha : regAccepts reg (s.placeVal p) = true) (i : Instr) (s0 : State) :
    s.loadReg i s0 bank ea reg = .next ((s.afterLoad p).afterRegWrite (s.placeVal p) reg) := by
  simp only [State.loadReg, hp, State.finishReg_of_accepts ha]

theorem State.storeAt_of_place (hp : s.memLoc bank ea = .ok p) (v : Word) :
    s.storeAt bank ea v = .next (s.store v p) := by
  simp only [State.storeAt, hp]

/-- The window word of an admitted bank-A address is a place (20_memory R68). -/
theorem State.memLoc_window {w : Word} (hi : 0x400 ≤ ea.toNat) (hw : w.toNat = s.windowWord ea)
    (ha : s.cfg.admits w = true) : s.memLoc .a ea = .ok (.ext w) := by
  obtain rfl := State.windowWord_eq hw
  exact s.memLoc_ext hi ha

theorem State.extVal_of_ready {v : Word} {rest : List Word} (h : s.extIn = v :: rest) : s.extVal = v := by
  simp only [State.extVal, h]

variable {reg : Reg6} {x : Fin 8}

theorem exec_ld1_of_served {m : AddrMode} (hw : s.canWrite reg) : exec (.ld1 reg bank m x) s =
    (s.afterEa1 x m).loadReg (.ld1 reg bank m x) s bank (s.ea1 x m) reg := by
  have hs : s.fifoShort (.ld1 reg bank m x) = false :=
    State.fifoShort_of_served nofun (fun _ h => Option.some.inj h ▸ hw)
  rw [exec, execLd1, State.unlessShort_of_served _ _ hs]

theorem exec_ld2_of_served {d : BitVec 14} (hw : s.canWrite reg) : exec (.ld2 reg bank x d) s =
    s.loadReg (.ld2 reg bank x d) s bank (s.ea x d) reg := by
  have hs : s.fifoShort (.ld2 reg bank x d) = false :=
    State.fifoShort_of_served nofun (fun _ h => Option.some.inj h ▸ hw)
  rw [exec, execLd2, State.unlessShort_of_served _ _ hs]

theorem exec_st1_of_served {m : AddrMode} (hr : s.canRead reg) (hread : reg.readable = true) :
    exec (.st1 reg bank m x) s =
      ((s.afterRegRead reg).afterEa1 x m).storeAt bank (s.ea1 x m) (s.regVal reg) := by
  have hs : s.fifoShort (.st1 reg bank m x) = false :=
    State.fifoShort_of_served (fun _ h => Option.some.inj h ▸ hr) nofun
  rw [exec, execSt1, State.unlessShort_of_served _ _ hs, if_pos hread, State.ea1_afterRegRead]

theorem exec_st2_of_served {d : BitVec 14} (hr : s.canRead reg) (hread : reg.readable = true) :
    exec (.st2 reg bank x d) s = (s.afterRegRead reg).storeAt bank (s.ea x d) (s.regVal reg) := by
  have hs : s.fifoShort (.st2 reg bank x d) = false :=
    State.fifoShort_of_served (fun _ h => Option.some.inj h ▸ hr) nofun
  rw [exec, execSt2, State.unlessShort_of_served _ _ hs, if_pos hread, State.ea_afterRegRead]

end

/-- Settles O23: each form forms its address, which moves at most an address register, and then loads from the
place of that address. -/
theorem loadResult : Obligations.LoadResult := by
  intro i reg bank ea s u hform _ h0 h1
  have hw : s.canWrite reg := ⟨h0, h1⟩
  obtain ⟨hexec, ar, rfl⟩ : exec i s = u.loadReg i s bank ea reg ∧ ∃ ar, u = { s with ar := ar } := by
    obtain ⟨x, rfl, rfl, rfl⟩ | ⟨x, d, rfl, rfl, rfl⟩ | ⟨x, d, rfl, rfl, rfl⟩ := hform
    · exact ⟨exec_ld1_of_served hw, _, rfl⟩
    · exact ⟨exec_ld1_of_served hw, u.ar, rfl⟩
    · exact ⟨exec_ld2_of_served hw, u.ar, rfl⟩
  have hloc : State.memLoc { s with ar := ar } bank ea = s.memLoc bank ea := State.memLoc_congr rfl rfl ..
  rw [hexec]
  refine ⟨fun hb hlo hin ha => ?_, fun hb hin ha => ?_, fun v rest => State.extVal_of_ready,
    fun w hb hhi hword hadm ha => ?_⟩ <;> subst hb
  · exact State.loadReg_of_place (hloc.trans (s.memLoc_ramA hlo hin)) ha _ _
  · exact State.loadReg_of_place (hloc.trans (s.memLoc_ramB hin)) ha _ _
  · exact ⟨_, _, State.loadReg_of_place (hloc.trans (State.memLoc_window hhi hword hadm)) ha _ _⟩

/-- Settles O24: the read of the source leaves all that the address and the place rest on. -/
theorem storeResult : Obligations.StoreResult := by
  intro i reg bank ea s q u hq hform h0 h1 hr
  obtain rfl := (State.readLeaves_iff reg).1 hq
  have hread := Reg6.readable_of_ne h0 h1
  obtain ⟨hexec, ar, rfl⟩ : exec i s = u.storeAt bank ea (s.regVal reg) ∧
      ∃ ar, u = { s.afterRegRead reg with ar := ar } := by
    obtain ⟨x, rfl, rfl, rfl⟩ | ⟨x, d, rfl, rfl, rfl⟩ | ⟨x, d, rfl, rfl, rfl⟩ := hform
    · refine ⟨(exec_st1_of_served hr hread).trans ?_, _, rfl⟩
      simp [State.afterEa1, State.arInc, State.setAr, State.ea1]
    · exact ⟨exec_st1_of_served hr hread, _, rfl⟩
    · exact ⟨exec_st2_of_served hr hread, _, rfl⟩
  have hloc : State.memLoc { s.afterRegRead reg with ar := ar } bank ea = s.memLoc bank ea :=
    State.memLoc_congr (by simp) (by simp) ..
  rw [hexec]
  refine ⟨fun hb hlo hin => ?_, fun hb hin => ?_, fun w hb hhi hword hadm => ?_⟩ <;> subst hb
  · rw [State.storeAt_of_place (hloc.trans (s.memLoc_ramA hlo hin))]
    simp [State.store]
  · rw [State.storeAt_of_place (hloc.trans (s.memLoc_ramB hin))]
    simp [State.store]
  · rw [State.storeAt_of_place (hloc.trans (State.memLoc_window hhi hword hadm)), ← s.afterRegRead_extLog reg]
    exact ⟨_, _, rfl⟩

/-- A word of RAM-A or RAM-B reads as it was last stored (20_memory R71). -/
theorem State.placeVal_store {s : State} {p : Place} (hA : s.ramA.wf = true) (hB : s.ramB.wf = true)
    (hp : ∀ a, p ≠ .ext a) (v : Word) : (s.store v p).placeVal p = v := by
  cases p with
  | ramA a => exact Memory.readWord_writeWord hA _ _
  | ramB a => exact Memory.readWord_writeWord hB _ _
  | ext a => exact absurd rfl (hp a)

theorem State.afterLoad_of_internal {p : Place} (hp : ∀ a, p ≠ .ext a) (s : State) : s.afterLoad p = s := by
  cases p with
  | ramA | ramB => rfl
  | ext a => exact absurd rfl (hp a)

/-- Settles O29: both ops reach the same place of a RAM, where a word reads as it was last stored. -/
theorem storeThenLoad : Obligations.StoreThenLoad := by
  intro reg r bank x d s t hA hB hread hr hea hst
  obtain ⟨p, hp, hint⟩ : ∃ p, s.memLoc bank (s.ea x d) = .ok p ∧ ∀ a, p ≠ .ext a := by
    cases bank with
    | a =>
      obtain ⟨hlo, hin⟩ := Nat.lt_min.1 hea
      exact ⟨_, s.memLoc_ramA hlo hin, nofun⟩
    | b => exact ⟨_, s.memLoc_ramB hea, nofun⟩
  have hpq : (s.afterRegRead reg).memLoc bank (s.ea x d) = .ok p :=
    (State.memLoc_congr (by simp) (by simp) ..).trans hp
  rw [exec_st2_of_served hr hread, State.storeAt_of_place hpq] at hst
  cases hst
  have hval := State.placeVal_store (s := s.afterRegRead reg) (by simpa) (by simpa) hint (s.regVal reg)
  have hpt : ((s.afterRegRead reg).store (s.regVal reg) p).memLoc bank (s.ea x d) = .ok p :=
    (State.memLoc_congr (by simp) (by simp) ..).trans hp
  have hea' : ((s.afterRegRead reg).store (s.regVal reg) p).ea x d = s.ea x d := by simp [State.ea]
  rw [exec_ld2_of_served (reg := .bank r) ⟨nofun, nofun⟩, hea', State.loadReg_of_place hpt rfl, hval,
    State.afterLoad_of_internal hint]
  rfl

end Sys2Proof.Machine
end

section
/-!
PROOFS. The double transfer (43_transfer R259): what each sub-move leaves, and the two in a row.
-/

namespace Sys2Proof.Machine

/-! ## One sub-move -/

/-- What a sub-move leaves for the commit where `v` is the word at its place. -/
def SubMove.loads (m : SubMove) (v : Word) : List Pending :=
  if m.dir = .load then [⟨.tr, m.reg, v⟩] else []

/-- What a sub-move leaves of the memory at whose word `a` it stores `v`. -/
def SubMove.stored (m : SubMove) (ram : Memory) (a v : Word) : Memory :=
  if m.dir = .store then ram.writeWord a.toNat v else ram

/-- What a sub-move hands on to the next one (40_bundle R159). -/
def SubMove.handsOn (m : SubMove) (v : Word) : Option (BankReg × Word) :=
  if m.dir = .load then some (m.reg, v) else none

/-- The word that a bank-A address names, of RAM-A or behind the window (20_memory R68). -/
def State.bankAWord (s : State) (ea : Word) : Word :=
  if ea.toNat < 0x400 then s.ramA.readWord ea.toNat else s.extVal

section
variable {s t u : State} {m : SubMove} {l l' : Option (BankReg × Word)}

theorem State.subMove_ramA (hlo : s.ar[m.arx].toNat < 0x400) (hin : s.ar[m.arx].toNat < s.cfg.ramAWords) :
    s.subMove .a l (some m) = .ok
      ({ s with ar := s.ar.set m.arx (s.ar[m.arx] + 1),
                scratch := s.scratch ++ SubMove.loads m (s.bankAWord s.ar[m.arx]),
                ramA := SubMove.stored m s.ramA s.ar[m.arx] (s.readBankSeq l m.reg) },
        SubMove.handsOn m (s.bankAWord s.ar[m.arx])) := by
  have hp : (s.arInc m.arx).memLoc .a s.ar[m.arx] = .ok (.ramA s.ar[m.arx]) := State.memLoc_ramA _ hlo hin
  have hv : s.bankAWord s.ar[m.arx] = s.ramA.readWord s.ar[m.arx].toNat := if_pos hlo
  simp only [State.subMove, hp, hv, SubMove.loads, SubMove.stored, SubMove.handsOn]
  cases m.dir
  · rfl
  · simp only [reduceCtorEq, if_false, List.append_nil]
    rfl

theorem State.subMove_ramB (hin : s.ar[m.arx].toNat < s.cfg.ramBWords) :
    s.subMove .b l (some m) = .ok
      ({ s with ar := s.ar.set m.arx (s.ar[m.arx] + 1),
                scratch := s.scratch ++ SubMove.loads m (s.ramB.readWord s.ar[m.arx].toNat),
                ramB := SubMove.stored m s.ramB s.ar[m.arx] (s.readBankSeq l m.reg) },
        SubMove.handsOn m (s.ramB.readWord s.ar[m.arx].toNat)) := by
  have hp : (s.arInc m.arx).memLoc .b s.ar[m.arx] = .ok (.ramB s.ar[m.arx]) := State.memLoc_ramB _ hin
  simp only [State.subMove, hp, SubMove.loads, SubMove.stored, SubMove.handsOn]
  cases m.dir
  · rfl
  · simp only [reduceCtorEq, if_false, List.append_nil]
    rfl

/-- Through the window a sub-move uses up an answer or writes out, and EO is any value (20_memory R69, R77). -/
theorem State.subMove_window {w : Word} (hhi : 0x400 ≤ s.ar[m.arx].toNat)
    (hword : w.toNat = s.windowWord s.ar[m.arx]) (hadm : s.cfg.admits w = true) :
    ∃ (e : Word) (n : Nat), s.subMove .a l (some m) = .ok
      ({ s with ar := s.ar.set m.arx (s.ar[m.arx] + 1),
                scratch := s.scratch ++ SubMove.loads m (s.bankAWord s.ar[m.arx]),
                extIn := if m.dir = .load then s.extIn.tail else s.extIn,
                extLog := s.extLog ++
                  [if m.dir = .load then .read w s.extVal else .write w (s.readBankSeq l m.reg)],
                eo := e, draws := n },
        SubMove.handsOn m (s.bankAWord s.ar[m.arx])) := by
  have hp : (s.arInc m.arx).memLoc .a s.ar[m.arx] = .ok (.ext w) := State.memLoc_window hhi hword hadm
  have hv : s.bankAWord s.ar[m.arx] = s.extVal := if_neg (Nat.not_lt.2 hhi)
  simp only [State.subMove, hp, hv, SubMove.loads, SubMove.handsOn]
  cases m.dir
  · exact ⟨_, _, rfl⟩
  · simp only [reduceCtorEq, if_false, List.append_nil]
    exact ⟨_, _, rfl⟩

/-! ## Two sub-moves -/

theorem exec_dx1_of_subMoves {a b : Option SubMove} (ha : s.subMove .a none a = .ok (u, l))
    (hb : u.subMove .b l b = .ok (t, l')) : exec (.dx1 a b) s = .next t := by
  simp only [exec, execDx1, ha, hb]

/-- Sub-move B reads what sub-move A handed on for its register, and else the bank (40_bundle R159). -/
theorem State.readBankSeq_handsOn (a : SubMove) (v : Word) (r : BankReg) :
    s.readBankSeq (SubMove.handsOn a v) r = if a.dir = .load ∧ a.reg = r then v else s.getReg r := by
  cases h : a.dir <;> simp [SubMove.handsOn, State.readBankSeq, h]

/-- After sub-move A, whose word was `v`, sub-move B starts from what A left. -/
theorem exec_dx1_of_subMove_a {a : SubMove} {v : Word} (b : SubMove)
    (ha : s.subMove .a none (some a) = .ok (u, SubMove.handsOn a v))
    (hu : u.cfg = s.cfg ∧ u.ramB = s.ramB ∧ u.regs = s.regs) :
    exec (.dx1 (some a) none) s = .next u ∧
    (u.ar[b.arx].toNat < s.cfg.ramBWords → exec (.dx1 (some a) (some b)) s =
      .next { u with ar := u.ar.set b.arx (u.ar[b.arx] + 1),
                     scratch := u.scratch ++ SubMove.loads b (s.ramB.readWord u.ar[b.arx].toNat),
                     ramB := SubMove.stored b s.ramB u.ar[b.arx]
                       (if a.dir = .load ∧ a.reg = b.reg then v else s.getReg b.reg) }) := by
  obtain ⟨hc, hr, hg⟩ := hu
  refine ⟨exec_dx1_of_subMoves ha rfl, fun hin => ?_⟩
  rw [exec_dx1_of_subMoves ha (State.subMove_ramB (hc ▸ hin)), State.readBankSeq_handsOn, hr, State.getReg, hg]
  rfl

end

/-- Settles O25: sub-move A goes to RAM-A or through the window, and B starts from what A left. -/
theorem doubleTransferResult : Obligations.DoubleTransferResult := by
  intro a b s
  refine ⟨fun v rest => State.extVal_of_ready, fun hlo hin => ?_, fun w hhi hword hadm => ?_,
    fun hin => exec_dx1_of_subMoves rfl (State.subMove_ramB hin), exec_dx1_of_subMoves rfl rfl⟩
  · exact exec_dx1_of_subMove_a b (State.subMove_ramA hlo hin) ⟨rfl, rfl, rfl⟩
  · obtain ⟨e, n, ha⟩ := State.subMove_window (l := none) hhi hword hadm
    obtain ⟨hone, htwo⟩ := exec_dx1_of_subMove_a b ha ⟨rfl, rfl, rfl⟩
    exact ⟨⟨e, n, hone⟩, fun hin => ⟨e, n, htwo hin⟩⟩

end Sys2Proof.Machine
end

section
/-!
PROOFS. What an op leaves of the RAMs (20_memory R68, R70, R71, R251): it writes no word but those among the
locations it could write.
-/

namespace Sys2Proof.Machine

/-! ## Memories that differ in some words -/

/-- `m'` comes from `m` by writes of words whose addresses are in `P`. -/
inductive Memory.WritesIn (P : Word → Prop) (m : Memory) : Memory → Prop
  | none : WritesIn P m m
  | word {m' : Memory} (h : WritesIn P m m') {a : Word} (ha : P a) (v : Word) :
      WritesIn P m (m'.writeWord a.toNat v)

section
variable {P Q : Word → Prop} {m m' m'' : Memory}

theorem Memory.WritesIn.trans (h : WritesIn P m m') (h' : WritesIn P m' m'') : WritesIn P m m'' := by
  induction h' with
  | none => exact h
  | word _ ha v ih => exact .word ih ha v

theorem Memory.WritesIn.mono (h : WritesIn P m m') (hPQ : ∀ a, P a → Q a) : WritesIn Q m m' := by
  induction h with
  | none => exact .none
  | word _ ha v ih => exact .word ih (hPQ _ ha) v

theorem Memory.WritesIn.eq_of_empty (h : WritesIn P m m') (hP : ∀ a, ¬P a) : m' = m := by
  cases h with
  | none => rfl
  | word _ ha => exact absurd ha (hP _)

/-- A byte outside all those words reads as before. -/
theorem Memory.WritesIn.readByte (h : WritesIn P m m') {p : Nat}
    (hp : ∀ a, P a → p < 4 * a.toNat ∨ 4 * a.toNat + 4 ≤ p) : m'.readByte p = m.readByte p := by
  induction h with
  | none => rfl
  | word _ ha v ih => rw [Memory.readByte_writeWord_of_ne _ v (hp _ ha), ih]

end

/-- The RAMs of `t` are those of `s` but for words among the locations `ls`. -/
def State.ramsWithin (s t : State) (ls : List Loc) : Prop :=
  Memory.WritesIn (fun a => .ramA a ∈ ls) s.ramA t.ramA ∧ Memory.WritesIn (fun a => .ramB a ∈ ls) s.ramB t.ramB

section
variable {s t u : State} {ls ls' : List Loc}

theorem State.ramsWithin.of_eq (hA : t.ramA = s.ramA) (hB : t.ramB = s.ramB) : s.ramsWithin t ls := by
  rw [State.ramsWithin, hA, hB]
  exact ⟨.none, .none⟩

theorem State.ramsWithin.trans (h : s.ramsWithin t ls) (h' : t.ramsWithin u ls) : s.ramsWithin u ls :=
  ⟨h.1.trans h'.1, h.2.trans h'.2⟩

theorem State.ramsWithin.mono (h : s.ramsWithin t ls) (hl : ls ⊆ ls') : s.ramsWithin t ls' :=
  ⟨h.1.mono fun _ ha => hl ha, h.2.mono fun _ ha => hl ha⟩

/-! ## The shared operations -/

theorem State.ramsWithin_havoc {l : Loc} (hl : l ∈ ls) : s.ramsWithin (s.havoc l) ls := by
  cases l with
  | ramA a => exact ⟨.word .none hl _, .none⟩
  | ramB a => exact ⟨.none, .word .none hl _⟩
  | bank | flag | prEntry | prp | pwp | ar | scalar | fifoEntry | fifoHead | fifoTail | fifoCursors | ext | pcs
    | pcsp => exact .of_eq (by simp [State.havoc]) (by simp [State.havoc])

theorem State.ramsWithin_havocAll (h : ls ⊆ ls') : s.ramsWithin (s.havocAll ls) ls' := by
  induction ls generalizing s with
  | nil => exact .of_eq rfl rfl
  | cons l ls ih =>
    obtain ⟨hl, hls⟩ := List.cons_subset.1 h
    exact (State.ramsWithin_havoc hl).trans (ih hls)

theorem State.ramsWithin_raiseOp (u : State) (i : Instr) (s0 : State) (k : FaultKind) (info : Option Nat) :
    u.ramsWithin (u.raiseOp i s0 k info) (Instr.writes i s0) :=
  State.ramsWithin.trans (t := u.takeFault k info) (.of_eq rfl rfl)
    (State.ramsWithin_havocAll (List.Subset.refl _))

theorem State.ramsWithin_store (v : Word) (p : Place) : s.ramsWithin (s.store v p) (storeLocs p) := by
  cases p with
  | ramA a => exact ⟨.word .none (.head _) v, .none⟩
  | ramB a => exact ⟨.none, .word .none (.head _) v⟩
  | ext a => exact .of_eq rfl rfl

variable {i : Instr}

theorem State.raiseTransfer_ramsWithin (hu : s.ramsWithin u (Instr.writes i s))
    (h : u.raiseTransfer i s = .next t) : s.ramsWithin t (Instr.writes i s) := by
  cases h
  exact hu.trans (u.ramsWithin_raiseOp ..)

theorem State.finishReg_ramsWithin {r : Reg6} {v : Word} (hu : s.ramsWithin u (Instr.writes i s))
    (h : u.finishReg i s r v = .next t) : s.ramsWithin t (Instr.writes i s) := by
  unfold State.finishReg at h
  split at h
  · cases h
    exact hu.trans (.of_eq (by simp) (by simp))
  · exact State.raiseTransfer_ramsWithin hu h

theorem State.loadReg_ramsWithin {bank : MemBank} {ea : Word} {r : Reg6}
    (hu : s.ramsWithin u (Instr.writes i s)) (h : u.loadReg i s bank ea r = .next t) :
    s.ramsWithin t (Instr.writes i s) := by
  obtain ⟨f, -, he⟩ | ⟨p, -, he⟩ := u.loadReg_cases i s bank ea r <;> rw [he] at h
  · cases h
  · exact State.finishReg_ramsWithin (hu.trans (.of_eq (by simp) (by simp))) h

theorem State.placeLocs_of_ok {bank : MemBank} {ea : Word} {p : Place} (h : s.memLoc bank ea = .ok p)
    (f : Place → List Loc) : s.placeLocs bank ea f = f p := by
  simp only [State.placeLocs, h]

theorem State.storeAt_ramsWithin {bank : MemBank} {ea v : Word} (hu : s.ramsWithin u ls)
    (hloc : u.memLoc bank ea = s.memLoc bank ea) (hl : s.placeLocs bank ea storeLocs ⊆ ls)
    (h : u.storeAt bank ea v = .next t) : s.ramsWithin t ls := by
  obtain ⟨f, -, he⟩ | ⟨p, hp, he⟩ := u.storeAt_cases bank ea v <;> rw [he] at h <;> cases h
  rw [State.placeLocs_of_ok (hloc ▸ hp)] at hl
  exact hu.trans ((State.ramsWithin_store v p).mono hl)

theorem State.unlessShort_ramsWithin {k : Host.Outcome State Fault Refusal}
    (hk : k = .next t → s.ramsWithin t ls) (h : s.unlessShort i k = .next t) : s.ramsWithin t ls := by
  obtain rfl | ⟨-, h⟩ := s.unlessShort_next h
  · exact .of_eq rfl rfl
  · exact hk h

theorem State.unlessDelay_ramsWithin (hu : s.ramsWithin u ls) (h : s.unlessDelay i u = .next t) :
    s.ramsWithin t ls := by
  obtain ⟨-, he⟩ | ⟨-, he⟩ := s.unlessDelay_cases i u <;> rw [he] at h <;> cases h
  · exact hu
  · exact .of_eq rfl rfl

theorem State.subMove_ramsWithin {bank : MemBank} {l l' : Option (BankReg × Word)} {m : Option SubMove}
    (h : s.subMove bank l m = .ok (u, l')) : s.ramsWithin u (s.subMoveLocs bank m) := by
  obtain ⟨-, rfl, -⟩ | ⟨n, p, rfl, hp, ⟨-, -, rfl⟩ | ⟨hd, -, rfl⟩⟩ := State.subMove_cases h
  · exact .of_eq rfl rfl
  · exact .of_eq (by simp) (by simp)
  · have hp : s.memLoc bank s.ar[n.arx] = .ok p := (State.memLoc_congr (by simp) (by simp) ..).trans hp
    have hl : storeLocs p ⊆ s.subMoveLocs bank (some n) := by
      simp only [State.subMoveLocs, hd, State.placeLocs_of_ok hp]
      exact List.subset_cons_self _ _
    exact State.ramsWithin.trans (t := s.arInc n.arx) (.of_eq (by simp) (by simp))
      ((State.ramsWithin_store _ p).mono hl)

/-! ## Every op -/

theorem State.subMoveLocs_congr (har : t.ar = s.ar) (hc : t.cfg = s.cfg) (he : t.eb = s.eb) (bank : MemBank)
    (m : Option SubMove) : t.subMoveLocs bank m = s.subMoveLocs bank m := by
  cases m with
  | none => rfl
  | some n => simp only [State.subMoveLocs, State.placeLocs, State.memLoc_congr hc he, har]

/-- What a sub-move leaves for the next one to rest on is what forming its address leaves. -/
theorem State.subMoveLocs_after {m : Option SubMove} {bank : MemBank} {l l' : Option (BankReg × Word)}
    (h : s.subMove bank l m = .ok (u, l')) (bank' : MemBank) (n : Option SubMove) :
    u.subMoveLocs bank' n = (s.afterSubMoveEa m).subMoveLocs bank' n := by
  obtain ⟨rfl, rfl, -⟩ | ⟨k, p, rfl, -, ⟨-, -, rfl⟩ | ⟨-, -, rfl⟩⟩ := State.subMove_cases h
  · rfl
  all_goals
    change _ = (s.arInc k.arx).subMoveLocs bank' n
    exact State.subMoveLocs_congr (by simp) (by simp) (by simp) ..

theorem exec_dx1_ramsWithin {a b : Option SubMove} (h : exec (.dx1 a b) s = .next t) :
    s.ramsWithin t (Instr.writes (.dx1 a b) s) := by
  obtain ⟨u, l, l', ha, hb⟩ := exec_dx1_next h
  have hb := State.subMove_ramsWithin hb
  rw [State.subMoveLocs_after ha] at hb
  exact ((State.subMove_ramsWithin ha).mono (List.subset_append_left ..)).trans
    (hb.mono (List.subset_append_right ..))

theorem exec_st1_ramsWithin {r : Reg6} {bank : MemBank} {m : AddrMode} {x : Fin 8}
    (h : exec (.st1 r bank m x) s = .next t) : s.ramsWithin t (Instr.writes (.st1 r bank m x) s) := by
  refine State.unlessShort_ramsWithin (fun h => ?_) h
  split at h
  · rw [State.ea1_afterRegRead] at h
    exact State.storeAt_ramsWithin (.of_eq (by simp) (by simp)) (State.memLoc_congr (by simp) (by simp) ..)
      (List.subset_append_right ..) h
  · exact State.raiseTransfer_ramsWithin (.of_eq rfl rfl) h

theorem exec_st2_ramsWithin {r : Reg6} {bank : MemBank} {x : Fin 8} {d : BitVec 14}
    (h : exec (.st2 r bank x d) s = .next t) : s.ramsWithin t (Instr.writes (.st2 r bank x d) s) := by
  refine State.unlessShort_ramsWithin (fun h => ?_) h
  split at h
  · rw [State.ea_afterRegRead] at h
    exact State.storeAt_ramsWithin (.of_eq (by simp) (by simp)) (State.memLoc_congr (by simp) (by simp) ..)
      (List.subset_append_right ..) h
  · exact State.raiseTransfer_ramsWithin (.of_eq rfl rfl) h

/-- Every op that completes leaves the RAMs as they were but for words that it could write, also by a fault. -/
theorem exec_ramsWithin (h : exec i s = .next t) : s.ramsWithin t (Instr.writes i s) := by
  cases i with
  | nopAlu | mnop | tnop | dx2 | nopCtl | setm => cases h; exact .of_eq rfl rfl
  | cif | cfi | add | cmp =>
    cases h
    exact .of_eq (by simp [State.aluFinish]) (by simp [State.aluFinish])
  | fmul | mul =>
    cases h
    exact .of_eq (by simp [State.mulFinish]) (by simp [State.mulFinish])
  | clrf sel => cases sel <;> cases h <;> exact .of_eq rfl rfl
  | mov =>
    refine State.unlessShort_ramsWithin (fun h => ?_) h
    split at h
    · exact State.finishReg_ramsWithin (.of_eq (by simp) (by simp)) h
    · exact State.raiseTransfer_ramsWithin (.of_eq rfl rfl) h
  | ldi | ldn => exact State.unlessShort_ramsWithin (State.finishReg_ramsWithin (.of_eq rfl rfl)) h
  | ld1 => exact State.unlessShort_ramsWithin (State.loadReg_ramsWithin (.of_eq (by simp) (by simp))) h
  | ld2 => exact State.unlessShort_ramsWithin (State.loadReg_ramsWithin (.of_eq rfl rfl)) h
  | st1 => exact exec_st1_ramsWithin h
  | st2 => exact exec_st2_ramsWithin h
  | dx1 => exact exec_dx1_ramsWithin h
  | dbcc | dbncc | djmp => exact State.unlessDelay_ramsWithin (u := s.setPending _ _) (.of_eq rfl rfl) h
  | dcall =>
    refine State.unlessDelay_ramsWithin ?_ h
    split <;> exact .of_eq rfl rfl
  | dret =>
    refine State.unlessDelay_ramsWithin ?_ h
    split <;> exact .of_eq rfl rfl

end

/-! ## Which locations are words of a RAM -/

/-- The location is a word of RAM-A or RAM-B. -/
def Loc.inRam : Loc → Bool
  | .ramA _ | .ramB _ => true
  | _ => false

section
variable {ls : List Loc} {a : Word}

theorem ramA_not_mem (h : ls.any Loc.inRam = false) : .ramA a ∉ ls := fun ha => by
  simpa [Loc.inRam] using List.any_eq_false.1 h _ ha

theorem ramB_not_mem (h : ls.any Loc.inRam = false) : .ramB a ∉ ls := fun ha => by
  simpa [Loc.inRam] using List.any_eq_false.1 h _ ha

end

section
variable (s : State)

@[simp] theorem prReadLocs_inRam (m : PrMode) : (prReadLocs m).any Loc.inRam = false := by cases m <;> rfl

@[simp] theorem State.prWriteLocs_inRam (m : PrMode) : (s.prWriteLocs m).any Loc.inRam = false := by
  cases m <;> rfl

@[simp] theorem aluSrc2Locs_inRam (o : AluSrc2) : (aluSrc2Locs o).any Loc.inRam = false := by
  cases o <;> simp [aluSrc2Locs]

@[simp] theorem mulSrc2Locs_inRam (o : MulSrc2) : (mulSrc2Locs o).any Loc.inRam = false := by
  cases o <;> simp [mulSrc2Locs]

@[simp] theorem State.aluDstLocs_inRam (d : AluDst) : (s.aluDstLocs d).any Loc.inRam = false := by
  cases d <;> simp [State.aluDstLocs, Loc.inRam]

@[simp] theorem State.mulDstLocs_inRam (d : MulDst) : (s.mulDstLocs d).any Loc.inRam = false := by
  cases d <;> simp [State.mulDstLocs, Loc.inRam]

@[simp] theorem State.flagLocs_inRam (i : Instr) : (s.flagLocs i).any Loc.inRam = false := by
  simp [State.flagLocs, Loc.inRam]

@[simp] theorem regReadLocs_inRam (r : Reg6) : (regReadLocs r).any Loc.inRam = false := by
  cases r <;> simp [regReadLocs, Loc.inRam]

@[simp] theorem State.regWriteLocs_inRam (r : Reg6) : (s.regWriteLocs r).any Loc.inRam = false := by
  cases r <;> simp [State.regWriteLocs, Loc.inRam]

@[simp] theorem mode1Locs_inRam (x : Fin 8) (m : AddrMode) : (mode1Locs x m).any Loc.inRam = false := by
  cases m <;> rfl

@[simp] theorem State.loadLocs_inRam (bank : MemBank) (ea : Word) :
    (s.placeLocs bank ea loadLocs).any Loc.inRam = false := by
  unfold State.placeLocs
  split
  next p _ => cases p <;> rfl
  next => rfl

/-- Only a store writes a word of a RAM (20_memory R71). -/
theorem Instr.writes_inRam {i : Instr} (h1 : ∀ reg bank m x, i ≠ .st1 reg bank m x)
    (h2 : ∀ reg bank x d, i ≠ .st2 reg bank x d) (hd : ∀ a b, i ≠ .dx1 a b) :
    (Instr.writes i s).any Loc.inRam = false := by
  cases i with
  | st1 => exact (h1 _ _ _ _ rfl).elim
  | st2 => exact (h2 _ _ _ _ rfl).elim
  | dx1 => exact (hd _ _ rfl).elim
  | clrf sel => cases sel <;> rfl
  | _ => simp [Instr.writes, Loc.inRam]

end

/-- Settles O28: the locations that such an op could write hold no word of a RAM, and no op changes program
memory. -/
theorem onlyStoresChangeMemory : Obligations.OnlyStoresChangeMemory := by
  intro i s t h h1 h2 hd p
  obtain ⟨hA, hB⟩ := exec_ramsWithin h
  have hw := Instr.writes_inRam s h1 h2 hd
  have hprog : t.prog = s.prog := congrArg (·.2.1) (exec_ends h).launch
  rw [hA.eq_of_empty fun _ => ramA_not_mem hw, hB.eq_of_empty fun _ => ramB_not_mem hw, hprog]
  exact ⟨rfl, rfl, rfl⟩

/-! ## The word that a store writes -/

/-- RAM-A keeps every byte but those of the word at `ea`, where that address is one of RAM-A. -/
def State.keepsRamA (s t : State) (bank : MemBank) (ea : Word) : Prop :=
  ∀ p : Nat, (bank = .b ∨ 0x400 ≤ ea.toNat ∨ p < 4 * ea.toNat ∨ 4 * ea.toNat + 4 ≤ p) →
    t.ramA.readByte p = s.ramA.readByte p

/-- RAM-B keeps every byte but those of the word at `ea`, where that address is one of RAM-B. -/
def State.keepsRamB (s t : State) (bank : MemBank) (ea : Word) : Prop :=
  ∀ p : Nat, (bank = .a ∨ s.cfg.ramBWords ≤ ea.toNat ∨ p < 4 * ea.toNat ∨ 4 * ea.toNat + 4 ≤ p) →
    t.ramB.readByte p = s.ramB.readByte p

section
variable {s t : State} {bank : MemBank} {ea a : Word}

theorem State.memLoc_ok {p : Place} (h : s.memLoc bank ea = .ok p) :
    (bank = .a ∧ ea.toNat < 0x400 ∧ p = .ramA ea) ∨
      (bank = .b ∧ ea.toNat < s.cfg.ramBWords ∧ p = .ramB ea) ∨ ∃ w, p = .ext w := by
  unfold State.memLoc at h
  cases bank with
  | a =>
    dsimp only at h
    split_ifs at h with hlo hin hadm <;> cases h
    · exact .inl ⟨rfl, hlo, rfl⟩
    · exact .inr (.inr ⟨_, rfl⟩)
  | b =>
    dsimp only at h
    split_ifs at h with hin
    cases h
    exact .inr (.inl ⟨rfl, hin, rfl⟩)

theorem State.mem_placeLocs {f : Place → List Loc} {l : Loc} (h : l ∈ s.placeLocs bank ea f) :
    ∃ p, s.memLoc bank ea = .ok p ∧ l ∈ f p := by
  unfold State.placeLocs at h
  split at h
  next p hp => exact ⟨p, hp, h⟩
  next => cases h

/-- The word of RAM-A that an access stores is the one at its address, below 0x400 (20_memory R68). -/
theorem State.ramA_mem_storeLocs (h : .ramA a ∈ s.placeLocs bank ea storeLocs) :
    bank = .a ∧ ea.toNat < 0x400 ∧ a = ea := by
  obtain ⟨p, hp, hl⟩ := State.mem_placeLocs h
  obtain ⟨hb, hlo, rfl⟩ | ⟨-, -, rfl⟩ | ⟨w, rfl⟩ := State.memLoc_ok hp <;> simp [storeLocs] at hl
  exact ⟨hb, hlo, hl⟩

/-- The word of RAM-B that an access stores is the one at its address (20_memory R70). -/
theorem State.ramB_mem_storeLocs (h : .ramB a ∈ s.placeLocs bank ea storeLocs) :
    bank = .b ∧ ea.toNat < s.cfg.ramBWords ∧ a = ea := by
  obtain ⟨p, hp, hl⟩ := State.mem_placeLocs h
  obtain ⟨-, -, rfl⟩ | ⟨hb, hin, rfl⟩ | ⟨w, rfl⟩ := State.memLoc_ok hp <;> simp [storeLocs] at hl
  exact ⟨hb, hin, hl⟩

theorem State.ramsWithin.keepsRamA {ls : List Loc} (h : s.ramsWithin t ls)
    (hl : ∀ a, .ramA a ∈ ls → bank = .a ∧ ea.toNat < 0x400 ∧ a = ea) : s.keepsRamA t bank ea := by
  refine fun p hp => h.1.readByte fun a ha => ?_
  obtain ⟨rfl, hlo, rfl⟩ := hl a ha
  simpa [Nat.not_le.2 hlo] using hp

theorem State.ramsWithin.keepsRamB {ls : List Loc} (h : s.ramsWithin t ls)
    (hl : ∀ a, .ramB a ∈ ls → bank = .b ∧ ea.toNat < s.cfg.ramBWords ∧ a = ea) : s.keepsRamB t bank ea := by
  refine fun p hp => h.2.readByte fun a ha => ?_
  obtain ⟨rfl, hin, rfl⟩ := hl a ha
  simpa [Nat.not_le.2 hin] using hp

/-- An op whose one access is a store at `ea` keeps all other bytes. -/
theorem State.ramsWithin.keeps {ls : List Loc} (hls : ls.any Loc.inRam = false)
    (h : s.ramsWithin t (ls ++ s.placeLocs bank ea storeLocs)) :
    s.keepsRamA t bank ea ∧ s.keepsRamB t bank ea :=
  ⟨h.keepsRamA fun _ ha => State.ramA_mem_storeLocs ((List.mem_append.1 ha).resolve_left (ramA_not_mem hls)),
    h.keepsRamB fun _ hb => State.ramB_mem_storeLocs ((List.mem_append.1 hb).resolve_left (ramB_not_mem hls))⟩

/-! ## The words that a double transfer writes -/

/-- A word of a RAM that a sub-move writes is at the place where it stores. -/
theorem State.mem_subMoveLocs {m : Option SubMove} {l : Loc} (hr : l.inRam = true)
    (h : l ∈ s.subMoveLocs bank m) :
    ∃ n, m = some n ∧ n.dir = .store ∧ l ∈ s.placeLocs bank s.ar[n.arx] storeLocs := by
  cases m with
  | none => cases h
  | some n =>
    refine ⟨n, rfl, ?_⟩
    obtain rfl | h := List.mem_cons.1 h
    · cases hr
    cases hd : n.dir with
    | store =>
      rw [hd] at h
      exact ⟨rfl, h⟩
    | load =>
      rw [hd] at h
      obtain rfl | h := List.mem_cons.1 h
      · cases hr
      · exact absurd hr (List.any_eq_false.1 (s.loadLocs_inRam ..) _ h)

/-- The words of RAM-A that DX.1 writes are sub-move A's. -/
theorem State.ramA_mem_dx1Writes {a b : Option SubMove} {w : Word} (h : .ramA w ∈ Instr.writes (.dx1 a b) s) :
    ∃ m, a = some m ∧ m.dir = .store ∧ s.ar[m.arx].toNat < 0x400 ∧ w = s.ar[m.arx] := by
  obtain h | h := List.mem_append.1 h <;> obtain ⟨m, hm, hd, hl⟩ := State.mem_subMoveLocs rfl h <;>
    obtain ⟨hb, hlo, hw⟩ := State.ramA_mem_storeLocs hl
  · exact ⟨m, hm, hd, hlo, hw⟩
  · cases hb

/-- The words of RAM-B that DX.1 writes are sub-move B's. -/
theorem State.ramB_mem_dx1Writes {a b : Option SubMove} {w : Word} (h : .ramB w ∈ Instr.writes (.dx1 a b) s) :
    ∃ m, b = some m ∧ m.dir = .store ∧ (s.afterSubMoveEa a).ar[m.arx].toNat < s.cfg.ramBWords ∧
      w = (s.afterSubMoveEa a).ar[m.arx] := by
  have hc : (s.afterSubMoveEa a).cfg = s.cfg := by cases a <;> rfl
  obtain h | h := List.mem_append.1 h <;> obtain ⟨m, hm, hd, hl⟩ := State.mem_subMoveLocs rfl h <;>
    obtain ⟨hb, hin, hw⟩ := State.ramB_mem_storeLocs hl
  · cases hb
  · exact ⟨m, hm, hd, hc ▸ hin, hw⟩

end

/-- Settles O27: what the op could write holds no word of a RAM but the one where it stores. -/
theorem storesChangeOneWord : Obligations.StoresChangeOneWord := by
  intro s t
  refine ⟨fun reg bank m x h => (exec_ramsWithin h).keeps (by simp),
    fun reg bank x d h => (exec_ramsWithin h).keeps (by simp), fun a b h => ?_⟩
  have hw := exec_ramsWithin h
  have hA (w : Word) := State.ramA_mem_dx1Writes (s := s) (a := a) (b := b) (w := w)
  have hB (w : Word) := State.ramB_mem_dx1Writes (s := s) (a := a) (b := b) (w := w)
  constructor
  · cases a with
    | none => exact hw.1.eq_of_empty fun w hm => by simpa using hA w hm
    | some m =>
      dsimp only
      split
      next hd => exact hw.keepsRamA fun w hm => ⟨rfl, by simpa [hd] using hA w hm⟩
      next hd => exact hw.1.eq_of_empty fun w hm => by simpa [hd] using hA w hm
  · cases b with
    | none => exact hw.2.eq_of_empty fun w hm => by simpa using hB w hm
    | some m =>
      dsimp only
      split
      next hd => exact hw.keepsRamB fun w hm => ⟨rfl, by simpa [hd] using hB w hm⟩
      next hd => exact hw.2.eq_of_empty fun w hm => by simpa [hd] using hB w hm

end Sys2Proof.Machine
end

section
/-!
PROOFS. The moves of the host and the platform (45_dispatch R340, R341), and what no turn of the core changes
(20_memory R61, R81, 60_exceptions R358).
-/

namespace Sys2Proof.Machine

/-! ## The host's moves (45_dispatch R340) -/

section
variable {s : State}

/-- A move that is admitted where `P` holds. -/
theorem admitIf_eq_ite {c : Bool} {P : Prop} [Decidable P] (h : c = true ↔ P) (t : State) :
    admitIf c t = if P then .next t else .refused .hostMove := if_congr h rfl rfl

theorem State.isStopped_iff : s.isStopped = true ↔ s.dstate = .idle ∨ s.dstate = .fault := by
  simp [State.isStopped]

theorem State.isIdle_and_iff {P : Prop} [Decidable P] :
    (s.isIdle && decide P) = true ↔ s.dstate = .idle ∧ P := by
  simp [State.isIdle]

theorem State.hostTurn_run_of_not_idle (hd : s.dstate ≠ .idle) (n : Nat) :
    s.hostTurn (.run n) = .refused .hostMove := by
  simp [State.hostTurn, State.isIdle, hd]

theorem State.hostTurn_run_of_dirty (hd : s.dstate = .idle) (hp : s.progDirty = true) (n : Nat) :
    s.hostTurn (.run n) = .refused .progStable := by
  simp [State.hostTurn, State.isIdle, hd, hp]

theorem State.hostTurn_run_of_overfull (hd : s.dstate = .idle) (hp : s.progDirty = false)
    (hc : ¬s.capacityPremise) (n : Nat) : s.hostTurn (.run n) = .refused .capacity := by
  have hc : s.capacityHolds = false := Bool.eq_false_iff.2 fun h => hc (s.capacityHolds_iff.1 h)
  simp [State.hostTurn, State.isIdle, hd, hp, hc]

theorem State.hostTurn_run_of_ready (hd : s.dstate = .idle) (hp : s.progDirty = false)
    (hc : s.capacityPremise) (n : Nat) : s.hostTurn (.run n) = .next (s.startRun n) := by
  simp [State.hostTurn, State.isIdle, hd, hp, s.capacityHolds_iff.2 hc]

/-! ## Holds and the moves that serve them (20_memory R76, 45_dispatch R341) -/

/-- What the FIFO is like that the core holds on. -/
theorem State.heldBy.demand {q : FifoId} (h : s.heldBy q) : match q with
    | .fi => s.fi.num.val = 0
    | .fo0 => s.fo0.num.val = 8
    | .fo1 => s.fo1.num.val = 8 := by
  obtain ⟨_, _, _, _, -, -, -, -, -, -, h⟩ := h
  cases q <;> exact h.2

theorem Fifo.push_of_empty {q : Fifo} (h : q.num.val = 0) (v : DWord) :
    q.num.val < 8 ∧ (q.push v).num.val ≠ 0 := by
  have hlt : q.num.val < 8 := by omega
  rw [Fifo.push_num hlt]
  omega

theorem Fifo.pop_of_full {q : Fifo} (h : q.num.val = 8) : 0 < q.num.val ∧ q.pop.num.val ≠ 8 := by
  have hpos : 0 < q.num.val := by omega
  have := Fifo.pop_num hpos
  omega

/-- A push to FI, or a pop of the output FIFO, goes through and ends the hold. -/
theorem State.heldBy.served {q : FifoId} {m : HostAction} (h : s.heldBy q) (hm : serves q m) :
    ∃ t, s.hostTurn m = .next t ∧ ¬t.heldBy q := by
  cases q with
  | fi =>
    obtain ⟨v, rfl⟩ := hm
    obtain ⟨hlt, hne⟩ := Fifo.push_of_empty h.demand v
    exact ⟨_, admitIf_of_true (decide_eq_true hlt) _, fun ht => hne ht.demand⟩
  | fo0 =>
    obtain rfl := hm
    obtain ⟨hpos, hne⟩ := Fifo.pop_of_full h.demand
    exact ⟨_, admitIf_of_true (decide_eq_true hpos) _, fun ht => hne ht.demand⟩
  | fo1 =>
    obtain rfl := hm
    obtain ⟨hpos, hne⟩ := Fifo.pop_of_full h.demand
    exact ⟨_, admitIf_of_true (decide_eq_true hpos) _, fun ht => hne ht.demand⟩

end

/-- Settles O55: `Run` by its checks, every other move by the one condition under which it is admitted. -/
theorem hostMoves : Obligations.HostMoves := by
  intro s n v a w r
  refine ⟨fun hp hc => ?_, fun hd hp => State.hostTurn_run_of_dirty hd hp n,
    fun hd hp hc => State.hostTurn_run_of_overfull hd hp hc n,
    admitIf_eq_ite decide_eq_true_iff _, admitIf_eq_ite decide_eq_true_iff _,
    admitIf_eq_ite decide_eq_true_iff _, admitIf_eq_ite State.isStopped_iff _,
    admitIf_eq_ite State.isIdle_iff _, admitIf_eq_ite beq_iff_eq _, admitIf_eq_ite State.isIdle_iff _,
    fun holes => admitIf_eq_ite State.isIdle_iff _, admitIf_eq_ite State.isIdle_and_iff _,
    admitIf_eq_ite State.isIdle_and_iff _, fun q m hq hm => hq.served hm⟩
  split
  next hd => exact State.hostTurn_run_of_ready hd hp hc n
  next hd => exact State.hostTurn_run_of_not_idle hd n

/-! ## Turns of the core (45_dispatch R328) -/

section
variable {s t : State}

theorem State.advance_program (s : State) (c : Cur) (b : Record) :
    (s.advance c b).launchPart.2 = s.launchPart.2 := by
  have hn : (s.nextPc b).launchPart = s.launchPart := by
    unfold State.nextPc
    split <;> [split; skip] <;> rfl
  rw [← hn]
  unfold State.advance State.blockTail
  split_ifs <;> rfl

/-- No turn of the core changes program memory, its backing or the parameters: only a lookup, a MISS and a FLUSH
are about the cache, and a block's tail about the budget. -/
theorem State.coreTurn_program (h : s.coreTurn = .next t) : t.launchPart.2 = s.launchPart.2 := by
  obtain ⟨-, rfl⟩ | ⟨-, -, rfl⟩ | ⟨c, b, hd, -, -, h⟩ | ⟨-, rfl⟩ | ⟨-, rfl⟩ := State.coreTurn_cases h
  · rfl
  · unfold State.lookupStep
    split <;> rfl
  · obtain ⟨k, info, rfl⟩ | rfl | ⟨d, u, -, -, hu, ht⟩ := State.bundleStep_cases h
    · rfl
    · rfl
    · have hn : State.dstate { s with pc := b.addr } ≠ .fault := by simp [hd]
      obtain ⟨hl, -⟩ := State.issue_ends hn hu
      have hl : u.launchPart.2 = s.launchPart.2 := congrArg Prod.snd hl
      obtain ⟨-, rfl⟩ | ⟨-, rfl⟩ := ht
      · exact hl
      · rw [← hl, State.advance_program]
  · simp only [State.missStep]
    split_ifs <;> rfl
  · rfl

end

/-- Settles O57: program memory by turns of the core, the budget and the cache by what every op keeps. -/
theorem coreNeverWritesProgram : Obligations.CoreNeverWritesProgram := by
  refine ⟨fun s t h => ?_, fun i s t h => ?_⟩
  · have hl := State.coreTurn_program h
    simp only [State.launchPart, Prod.mk.injEq] at hl
    obtain ⟨hp, hw, hd, hc⟩ := hl
    exact ⟨hp, hw, hc, hd⟩
  · have hl := (exec_ends h).launch
    simp only [State.launchPart, Prod.mk.injEq] at hl
    obtain ⟨⟨hc, hu, hi⟩, -⟩ := hl
    exact ⟨hi, hc, hu⟩

end Sys2Proof.Machine
end

section
/-!
PROOFS. The encoder against the decoder (30_encoding R101 to R131): each operand code, each slot field and each
layout is read back as what it was made of, and from these a bundle and an op alone.
-/

namespace Sys2Proof

open BitVec (extractLsb'_append_eq_of_le extractLsb'_append_eq_of_add_le extractLsb'_eq_self)

/-! ## Operand codes (30_encoding R112 to R120, R126, R129) -/

@[simp] theorem PrMode.ofBits_bits (m : PrMode) : PrMode.ofBits m.bits = m := by cases m <;> rfl

@[simp] theorem BankReg.ofBits_bits (r : BankReg) : BankReg.ofBits r.bits = r := by
  cases r with
  | aa n | ab n | ma n | mb n => revert n; decide

@[simp] theorem AluSrc1.ofBits_bits (x : AluSrc1) : AluSrc1.ofBits x.bits = x := by
  cases x with
  | aa n | ab n => revert n; decide

@[simp] theorem AluSrc2.ofBits_bits (x : AluSrc2) : AluSrc2.ofBits x.bits = some x := by
  cases x with
  | aa n | ab n | ma n => revert n; decide
  | pr m => cases m <;> rfl
  | zero | one | minusOne => rfl

@[simp] theorem AluDst.ofBits_bits (x : AluDst) : AluDst.ofBits x.bits = some x := by
  cases x with
  | aa n | ab n => revert n; decide
  | pr m => cases m <;> rfl
  | discard => rfl

@[simp] theorem MulSrc1.ofBits_bits (x : MulSrc1) : MulSrc1.ofBits x.bits = x := by
  cases x with
  | aa n | ma n => revert n; decide

@[simp] theorem MulSrc2.ofBits_bits (x : MulSrc2) : MulSrc2.ofBits x.bits = some x := by
  cases x with
  | ab n | mb n | const n => revert n; decide
  | pr m => cases m <;> rfl

@[simp] theorem MulDst.ofBits_bits (x : MulDst) : MulDst.ofBits x.bits = some x := by
  cases x with
  | ma n | mb n => revert n; decide
  | pr m => cases m <;> rfl
  | discard => rfl

@[simp] theorem Reg6.ofBits_bits (x : Reg6) : Reg6.ofBits x.bits = some x := by
  cases x with
  | bank r => cases r with
    | aa n | ab n | ma n | mb n => revert n; decide
  | ar n => revert n; decide
  | pr m => cases m <;> rfl
  | scalar c => cases c <;> rfl
  | fi | fo0 | fo1 | prp | pwp => rfl

theorem Reg6.dstOfBits_bits {x : Reg6} (h : x.writable = true) : Reg6.dstOfBits x.bits = some x := by
  simp [Reg6.dstOfBits, h]

theorem Reg6.srcOfBits_bits {x : Reg6} (h : x.readable = true) : Reg6.srcOfBits x.bits = some x := by
  simp [Reg6.srcOfBits, h]

@[simp] theorem regIndex_regBits (n : Fin 8) : regIndex (regBits n) = n := rfl

@[simp] theorem MemBank.ofBit_bits (k : MemBank) : MemBank.ofBit k.bits = k := by cases k <;> rfl

@[simp] theorem Flag.ofBits_bits (f : Flag) : Flag.ofBits f.bits = some f := by cases f <;> rfl

@[simp] theorem ClrSel.ofBits_bits (c : ClrSel) : ClrSel.ofBits c.bits = some c := by cases c <;> rfl

theorem FormatClass.ofBits_eq_some {b : BitVec 3} {c : FormatClass} :
    FormatClass.ofBits b = some c ↔ b = c.bits := by
  cases c <;> revert b <;> decide

/-! ## Slot fields (30_encoding R105 to R108, R121 to R128) -/

theorem decodeAluOp_aluField {i : Instr} (h : i.slot = .alu) : decodeAluOp i.aluField = some i := by
  cases i with
  | nopAlu => rfl
  | cif | cfi | add | cmp =>
    simp (disch := decide) only [decodeAluOp, Instr.aluField, extractLsb'_append_eq_of_le,
      extractLsb'_append_eq_of_add_le, extractLsb'_eq_self, Nat.reduceSub]
    simp
  | _ => cases h

theorem decodeMulOp_mulField {i : Instr} (h : i.slot = .mul) : decodeMulOp i.mulField = some i := by
  cases i with
  | mnop => rfl
  | fmul | mul =>
    simp (disch := decide) only [decodeMulOp, Instr.mulField, extractLsb'_append_eq_of_le,
      extractLsb'_append_eq_of_add_le, extractLsb'_eq_self, Nat.reduceSub]
    simp
  | _ => cases h

theorem Instr.ctrlField_fields (i : Instr) :
    i.ctrlField.extractLsb' 36 5 = i.cop ∧ i.ctrlField.extractLsb' 32 4 = i.ccBits ∧
      i.ctrlField.extractLsb' 16 16 = 0 ∧ i.ctrlField.extractLsb' 0 16 = i.imm16 := by
  unfold Instr.ctrlField
  generalize i.cop = c, i.ccBits = f, i.imm16 = m
  simp (disch := decide) only [extractLsb'_append_eq_of_le, extractLsb'_append_eq_of_add_le,
    extractLsb'_eq_self, Nat.reduceSub]
  exact ⟨trivial, trivial, rfl, trivial⟩

theorem decodeCtrlOp_ctrlField {i : Instr} (h : i.slot = .ctl) : decodeCtrlOp i.ctrlField = some i := by
  obtain ⟨hc, hf, hz, hm⟩ := i.ctrlField_fields
  simp only [decodeCtrlOp, hc, hf, hz, hm]
  -- each by its one defining equation: `simp` would derive one for every constructor, at a high cost
  unfold Instr.cop Instr.ccBits Instr.imm16
  cases i with
  | nopCtl | clrf | setm | dbcc | dbncc | djmp | dcall | dret => simp
  | _ => cases h

theorem decodeMovOp_trField {s d : Reg6} (h : (Instr.mov s d).wf = true) :
    decodeMovOp (Instr.mov s d).trField = some (.mov s d) := by
  obtain ⟨hs, hd⟩ := Bool.and_eq_true_iff.1 h
  simp (disch := decide) only [decodeMovOp, Instr.trField, extractLsb'_append_eq_of_le,
    extractLsb'_append_eq_of_add_le, extractLsb'_eq_self, Nat.reduceSub]
  simp [Reg6.srcOfBits_bits hs, Reg6.dstOfBits_bits hd]

/-- The mode is read from the bits below BANK, whatever stands above them (30_encoding R121). -/
theorem decodeMode1_append_field (kind : BitVec 2) (r : BitVec 6) (k : BitVec 1) (x : Fin 8) (m : AddrMode) :
    decodeMode1 (kind ++ r ++ k ++ m.field x) = some m := by
  cases m with
  | postInc | disp12 =>
    simp (disch := decide) only [decodeMode1, AddrMode.field, extractLsb'_append_eq_of_le,
      extractLsb'_append_eq_of_add_le, extractLsb'_eq_self, Nat.reduceSub]
    simp

theorem AddrMode.field_arx (x : Fin 8) (m : AddrMode) : (m.field x).extractLsb' 12 3 = regBits x := by
  cases m with
  | postInc | disp12 =>
    simp (disch := decide) only [AddrMode.field, extractLsb'_append_eq_of_le,
      extractLsb'_append_eq_of_add_le, extractLsb'_eq_self, Nat.reduceSub]

theorem decodeXfer1Op_trField {i : Instr} (h : i.fitsTransferOf .dualXfer1 = true) (hw : i.wf = true) :
    decodeXfer1Op i.trField = some i := by
  cases i with
  | tnop => rfl
  | mov =>
    rw [← decodeMovOp_trField hw]
    simp (disch := decide) only [decodeXfer1Op, Instr.trField, extractLsb'_append_eq_of_le,
      extractLsb'_eq_self, Nat.reduceSub]
    simp
  | ld1 r k m x =>
    simp (disch := decide) only [decodeXfer1Op, Instr.trField, extractLsb'_append_eq_of_le,
      extractLsb'_append_eq_of_add_le, extractLsb'_eq_self, Nat.reduceSub, decodeMode1_append_field,
      AddrMode.field_arx]
    simp [Reg6.dstOfBits_bits (x := r) hw]
  | st1 r k m x =>
    simp (disch := decide) only [decodeXfer1Op, Instr.trField, extractLsb'_append_eq_of_le,
      extractLsb'_append_eq_of_add_le, extractLsb'_eq_self, Nat.reduceSub, decodeMode1_append_field,
      AddrMode.field_arx]
    simp [Reg6.srcOfBits_bits (x := r) hw]
  | _ => cases h

theorem decodeSubMove_subMoveField (m : Option SubMove) : decodeSubMove (subMoveField m) = some m := by
  cases m with
  | none => rfl
  | some m =>
    obtain ⟨d, r, x⟩ := m
    simp (disch := decide) only [decodeSubMove, subMoveField, extractLsb'_append_eq_of_le,
      extractLsb'_append_eq_of_add_le, extractLsb'_eq_self, Nat.reduceSub]
    cases d <;> simp [Dir.bits]

theorem decodeDxfer1Op_trField (a b : Option SubMove) :
    decodeDxfer1Op (Instr.dx1 a b).trField = some (.dx1 a b) := by
  simp (disch := decide) only [decodeDxfer1Op, Instr.trField, extractLsb'_append_eq_of_le,
    extractLsb'_append_eq_of_add_le, extractLsb'_eq_self, Nat.reduceSub]
  simp [decodeSubMove_subMoveField]

theorem decodeXfer2Op_trField {i : Instr} (h : i.fitsTransferOf .dualXfer2 = true) (hw : i.wf = true) :
    decodeXfer2Op i.trField = some i := by
  cases i with
  | tnop => rfl
  | mov =>
    rw [← decodeMovOp_trField hw]
    simp (disch := decide) only [decodeXfer2Op, Instr.trField, extractLsb'_append_eq_of_le,
      extractLsb'_append_eq_of_add_le, extractLsb'_eq_self, Nat.reduceSub]
    simp
  | ld2 r k x d =>
    have hr := Reg6.dstOfBits_bits (x := r) hw
    simp (disch := decide) only [decodeXfer2Op, Instr.trField, extractLsb'_append_eq_of_le,
      extractLsb'_append_eq_of_add_le, extractLsb'_eq_self, Nat.reduceSub]
    simp [hr]
  | st2 r k x d =>
    have hr := Reg6.srcOfBits_bits (x := r) hw
    simp (disch := decide) only [decodeXfer2Op, Instr.trField, extractLsb'_append_eq_of_le,
      extractLsb'_append_eq_of_add_le, extractLsb'_eq_self, Nat.reduceSub]
    simp [hr]
  | _ => cases h

theorem decodeXfer3Op_trField {d : Reg6} (n : BitVec 20) (h : d.writable = true) :
    decodeXfer3Op (Instr.ldn d n).trField = some (.ldn d n) := by
  simp (disch := decide) only [decodeXfer3Op, Instr.trField, extractLsb'_append_eq_of_le,
    extractLsb'_append_eq_of_add_le, extractLsb'_eq_self, Nat.reduceSub]
  simp [Reg6.dstOfBits_bits h]

theorem decodeXferiOp_xferiField {i : Instr} (h : i.fitsTransferOf .singleXferi = true) (hw : i.wf = true) :
    decodeXferiOp i.xferiField = some i := by
  cases i with
  | ldi d n =>
    have hd := Reg6.dstOfBits_bits (x := d) hw
    simp (disch := decide) only [decodeXferiOp, Instr.xferiField, extractLsb'_append_eq_of_le,
      extractLsb'_append_eq_of_add_le, extractLsb'_eq_self, Nat.reduceSub]
    simp [hd]
  | _ => cases h

/-! ## Format classes (30_encoding R101 to R104) -/

/-- The decoder of the transfer field of a dual-layout class (30_encoding R102, R103). -/
def FormatClass.transferOp : FormatClass → Option (BitVec 26 → Option Instr)
  | .dualDxfer1 => some decodeDxfer1Op
  | .dualXfer1 => some decodeXfer1Op
  | .dualDxfer2 => some decodeDxfer2Op
  | .dualXfer2 => some decodeXfer2Op
  | .dualXfer3 => some decodeXfer3Op
  | .singleCtrl | .singleXferi => none

theorem decodeClass_of_dual {c : FormatClass} {op : BitVec 26 → Option Instr}
    (h : c.transferOp = some op) (w : DWord) : decodeClass c w = decodeDual c op w := by
  cases c <;> cases h <;> rfl

/-- A well-formed transfer op of a dual-layout class is read back from its field. -/
theorem FormatClass.transferOp_trField {c : FormatClass} {op : BitVec 26 → Option Instr} {i : Instr}
    (h : c.transferOp = some op) (hf : i.fitsTransferOf c = true) (hw : i.wf = true) :
    op i.trField = some i := by
  cases c with
  | dualDxfer1 =>
    cases h
    cases i with
    | dx1 a b => exact decodeDxfer1Op_trField a b
    | _ => cases hf
  | dualXfer1 => cases h; exact decodeXfer1Op_trField hf hw
  | dualDxfer2 =>
    cases h
    cases i with
    | dx2 => rfl
    | _ => cases hf
  | dualXfer2 => cases h; exact decodeXfer2Op_trField hf hw
  | dualXfer3 =>
    cases h
    cases i with
    | ldn d n => exact decodeXfer3Op_trField n hw
    | _ => cases hf
  | singleCtrl | singleXferi => cases h

/-- The class field alone says whether a word is illegal, and which class reads it. -/
theorem decode_eq_illegal_iff {w : DWord} : decode w = .illegal ↔ w.extractLsb' 61 3 = 6 := by
  have h : ∀ b : BitVec 3, FormatClass.ofBits b = none ↔ b = 6 := by decide
  rw [← h, decode]
  cases FormatClass.ofBits (w.extractLsb' 61 3) <;> simp

theorem decode_eq_bundle_iff {w : DWord} {b : Bundle} :
    decode w = .bundle b ↔ ∃ c : FormatClass, w.extractLsb' 61 3 = c.bits ∧ decodeClass c w = b := by
  simp only [← FormatClass.ofBits_eq_some, decode]
  cases FormatClass.ofBits (w.extractLsb' 61 3) <;> simp

theorem SlotDec.holds_iff {k : SlotKind} {d : SlotDec} :
    d.holds k = true ↔ ∃ i, d = .op i ∧ i.slot = k ∧ i.wf = true := by
  cases d <;> simp [SlotDec.holds]

theorem SlotDec.holdsTransfer_iff {c : FormatClass} {d : SlotDec} :
    d.holdsTransfer c = true ↔ ∃ i, d = .op i ∧ i.fitsTransferOf c = true ∧ i.wf = true := by
  cases d <;> simp [SlotDec.holdsTransfer]

theorem Bundle.oneUnit_iff {b : Bundle} : b.oneUnit = true ↔
    (∃ i, b.alu = .op i ∧ i.slot = .alu ∧ i.wf = true ∧ b.mul = .absent) ∨
      (∃ i, b.mul = .op i ∧ i.slot = .mul ∧ i.wf = true ∧ b.alu = .absent) := by
  simp only [Bundle.oneUnit, Bool.or_eq_true, Bool.and_eq_true, SlotDec.holds_iff, beq_iff_eq]
  grind

/-! ## The dual layout (30_encoding R103) -/

/-- The word of a dual-layout bundle decodes to it where each of its fields does. -/
theorem decode_encode_dual {c : FormatClass} {op : BitVec 26 → Option Instr} {t a m : Instr}
    (h : c.transferOp = some op) (ht : op t.trField = some t) (ha : decodeAluOp a.aluField = some a)
    (hm : decodeMulOp m.mulField = some m) :
    decode (Bundle.dual c t a m).encode = .bundle (.dual c t a m) := by
  have he : (Bundle.dual c t a m).encode = c.bits ++ a.aluField ++ m.mulField ++ t.trField := by
    cases c <;> cases h <;> rfl
  rw [he, decode_eq_bundle_iff]
  refine ⟨c, ?_, ?_⟩
  · simp (disch := decide) only [extractLsb'_append_eq_of_le, extractLsb'_eq_self, Nat.reduceSub]
  · rw [decodeClass_of_dual h]
    simp (disch := decide) only [decodeDual, decodeTransfer, decodeAlu, decodeMul,
      extractLsb'_append_eq_of_le, extractLsb'_append_eq_of_add_le, extractLsb'_eq_self, Nat.reduceSub]
    simp only [ht, ha, hm]
    rfl

theorem Bundle.wf_dual {b : Bundle} {op : BitVec 26 → Option Instr} (h : b.cls.transferOp = some op)
    (hw : b.wf = true) : ∃ t a m, b = .dual b.cls t a m ∧ (t.fitsTransferOf b.cls = true ∧ t.wf = true) ∧
      a.slot = .alu ∧ m.slot = .mul := by
  obtain ⟨c, tr, alu, mul, ctl⟩ := b
  have hw : (tr.holdsTransfer c && alu.holds .alu && mul.holds .mul && ctl == .absent) = true := by
    cases c <;> cases h <;> exact hw
  simp only [Bool.and_eq_true, SlotDec.holds_iff, SlotDec.holdsTransfer_iff, beq_iff_eq] at hw
  obtain ⟨⟨⟨⟨t, rfl, ht⟩, a, rfl, ha, -⟩, m, rfl, hm, -⟩, rfl⟩ := hw
  exact ⟨t, a, m, rfl, ht, ha, hm⟩

/-! ## The single layout (30_encoding R104) -/

/-- The two unit slots of a single-layout word are those of the bundle that its unit field is made of. -/
theorem singleUnits_unitField {b : Bundle} (h : b.oneUnit = true) (c : BitVec 3) (t : BitVec 41) :
    singleAlu (c ++ b.unitField ++ t) = b.alu ∧ singleMul (c ++ b.unitField ++ t) = b.mul := by
  obtain ⟨i, ha, hi, -, hm⟩ | ⟨i, hm, hi, -, ha⟩ := Bundle.oneUnit_iff.1 h
  · have hu : b.unitField = 0#1 ++ i.aluField := by rw [Bundle.unitField, ha]
    have hd := decodeAluOp_aluField hi
    rw [ha, hm, hu]
    simp (disch := decide) only [singleAlu, singleMul, decodeAlu, extractLsb'_append_eq_of_le,
      extractLsb'_append_eq_of_add_le, extractLsb'_eq_self, Nat.reduceSub]
    simp [hd, SlotDec.ofOption]
  · have hu : b.unitField = 1#1 ++ 0#3 ++ i.mulField := by
      rw [Bundle.unitField, ha, hm]; rfl
    have hd := decodeMulOp_mulField hi
    rw [ha, hm, hu]
    simp (disch := decide) only [singleAlu, singleMul, decodeMul, extractLsb'_append_eq_of_le,
      extractLsb'_append_eq_of_add_le, extractLsb'_eq_self, Nat.reduceSub]
    simp [hd, SlotDec.ofOption]

/-- The word of a single-layout bundle has the bundle's class, its unit field and a tail. -/
theorem singleWord_fields (c : BitVec 3) (u : BitVec 20) (t : BitVec 41) :
    (c ++ u ++ t : DWord).extractLsb' 61 3 = c ∧ (c ++ u ++ t : DWord).extractLsb' 0 41 = t := by
  simp (disch := decide) only [extractLsb'_append_eq_of_le, extractLsb'_append_eq_of_add_le,
    extractLsb'_eq_self, Nat.reduceSub, true_and]

theorem decode_encode_singleCtrl {b : Bundle} (hc : b.cls = .singleCtrl) (h : b.wf = true) :
    decode b.encode = .bundle b := by
  obtain ⟨c, tr, alu, mul, ctl⟩ := b
  cases hc
  simp only [Bundle.wf, Bool.and_eq_true, SlotDec.holds_iff, beq_iff_eq] at h
  obtain ⟨⟨rfl, hu⟩, i, rfl, hi, -⟩ := h
  obtain ⟨ha, hm⟩ := singleUnits_unitField hu 4 i.ctrlField
  obtain ⟨hcls, htail⟩ := singleWord_fields 4 _ i.ctrlField
  refine decode_eq_bundle_iff.2 ⟨.singleCtrl, hcls, ?_⟩
  simp only [Bundle.encode, FormatClass.bits, SlotDec.instrOr, SlotDec.instr?, Option.getD_some]
  simp only [decodeClass, ha, hm, htail, decodeCtrl, decodeCtrlOp_ctrlField hi, SlotDec.ofOption]

theorem decode_encode_singleXferi {b : Bundle} (hc : b.cls = .singleXferi) (h : b.wf = true) :
    decode b.encode = .bundle b := by
  obtain ⟨c, tr, alu, mul, ctl⟩ := b
  cases hc
  simp only [Bundle.wf, Bool.and_eq_true, SlotDec.holdsTransfer_iff, beq_iff_eq] at h
  obtain ⟨⟨⟨i, rfl, hi, hw⟩, hu⟩, rfl⟩ := h
  obtain ⟨ha, hm⟩ := singleUnits_unitField hu 5 i.xferiField
  obtain ⟨hcls, htail⟩ := singleWord_fields 5 _ i.xferiField
  refine decode_eq_bundle_iff.2 ⟨.singleXferi, hcls, ?_⟩
  simp only [Bundle.encode, FormatClass.bits, SlotDec.instrOr, SlotDec.instr?, Option.getD_some]
  simp only [decodeClass, ha, hm, htail, decodeXferiOp_xferiField hi hw, SlotDec.ofOption]

/-- Settles O1: each layout gives its fields back, and each field its op. -/
theorem decodeEncodeBundle : Obligations.DecodeEncodeBundle := by
  intro b h
  cases hop : b.cls.transferOp with
  | some op =>
    obtain ⟨t, a, m, hb, ⟨hf, hw⟩, ha, hm⟩ := Bundle.wf_dual hop h
    rw [hb]
    exact decode_encode_dual hop (FormatClass.transferOp_trField hop hf hw) (decodeAluOp_aluField ha)
      (decodeMulOp_mulField hm)
  | none =>
    cases hc : b.cls with
    | singleCtrl => exact decode_encode_singleCtrl hc h
    | singleXferi => exact decode_encode_singleXferi hc h
    | _ => rw [hc] at hop; cases hop

theorem Instr.alone_wf {i : Instr} (h : i.wf = true) : i.alone.wf = true := by
  cases i with
  | mov => exact Laws.AloneWf.mov _ _ h
  | ld1 => exact Laws.AloneWf.ld1 _ _ _ _ h
  | st1 => exact Laws.AloneWf.st1 _ _ _ _ h
  | ld2 => exact Laws.AloneWf.ld2 _ _ _ _ h
  | st2 => exact Laws.AloneWf.st2 _ _ _ _ h
  | ldi => exact Laws.AloneWf.ldi _ _ h
  | ldn => exact Laws.AloneWf.ldn _ _ h
  | _ => rfl

/-- A slot that does nothing: it is absent or holds a NOP (30_encoding R103). -/
def SlotDec.isIdle (d : SlotDec) : Bool := d == .absent || d.instr?.any Instr.isNop

theorem SlotDec.isIdle_iff {d : SlotDec} :
    d.isIdle = true ↔ d = .absent ∨ ∃ n, d = .op n ∧ n.isNop = true := by
  cases d <;> simp [SlotDec.isIdle, SlotDec.instr?]

theorem Instr.alone_at_slot (i : Instr) : i.alone.at i.slot = .op i := by cases i <;> rfl

theorem Instr.alone_idle (i : Instr) {k : SlotKind} (h : k ≠ i.slot) : (i.alone.at k).isIdle = true := by
  have hb : ((i.alone.at k).isIdle || k == i.slot) = true := by cases i <;> cases k <;> rfl
  simpa [h] using hb

/-- Settles O2: the bundle that carries the instruction alone is well-formed and idle elsewhere. -/
theorem decodeEncodeInstruction : Obligations.DecodeEncodeInstruction := fun i h =>
  ⟨decodeEncodeBundle _ (Instr.alone_wf h), i.alone_at_slot,
    fun _ hk => SlotDec.isIdle_iff.1 (i.alone_idle hk)⟩

end Sys2Proof
end

section
/-!
PROOFS. Which encodings are faults (30_encoding R101 to R130): the reserved codes of each operand table, and from
these the illegal unit, control and transfer fields.
-/

namespace Sys2Proof

/-! ## Reserved operand codes (30_encoding R113 to R117, R120, R126, R129) -/

theorem AluSrc2.ofBits_eq_none {b : BitVec 5} : AluSrc2.ofBits b = none ↔ b = 0x17 := by
  revert b; decide

theorem AluDst.ofBits_eq_none {b : BitVec 5} : AluDst.ofBits b = none ↔ ¬(b < 0x14 ∨ b = 0x1F) := by
  revert b; decide

theorem MulSrc2.ofBits_eq_none {b : BitVec 5} : MulSrc2.ofBits b = none ↔ ¬b < 0x1C := by
  revert b; decide

theorem MulDst.ofBits_eq_none {b : BitVec 5} : MulDst.ofBits b = none ↔ ¬(b < 0x14 ∨ b = 0x1F) := by
  revert b; decide

theorem Flag.ofBits_eq_none {b : BitVec 4} : Flag.ofBits b = none ↔ ¬b < 14 := by
  revert b; decide

theorem ClrSel.ofBits_eq_none {b : BitVec 16} : ClrSel.ofBits b = none ↔ ¬(1 ≤ b ∧ b ≤ 3) := by
  unfold ClrSel.ofBits
  split_ifs <;> simp <;> bv_omega

/-- The register codes that a transfer may write (30_encoding R120). -/
def writableCode (b : BitVec 6) : Prop := b < 0x37 ∧ b ≠ 0x32

/-- The register codes that a transfer may read (30_encoding R120). -/
def readableCode (b : BitVec 6) : Prop := b < 0x33 ∨ b = 0x35 ∨ b = 0x36

theorem Reg6.dstOfBits_eq_none {b : BitVec 6} : Reg6.dstOfBits b = none ↔ ¬writableCode b := by
  unfold writableCode
  revert b; decide

theorem Reg6.srcOfBits_eq_none {b : BitVec 6} : Reg6.srcOfBits b = none ↔ ¬readableCode b := by
  unfold readableCode
  revert b; decide

/-! ## Slots -/

theorem SlotDec.ofOption_isBad {k : FaultKind} {n : Nat} {o : Option Instr} :
    (SlotDec.ofOption k n o).isBad = true ↔ o = none := by
  cases o <;> simp [SlotDec.ofOption, SlotDec.isBad]

theorem SlotDec.ofOption_of_isBad {k : FaultKind} {n : Nat} {o : Option Instr}
    (h : (SlotDec.ofOption k n o).isBad = true) : SlotDec.ofOption k n o = .bad k n := by
  rw [SlotDec.ofOption_isBad.1 h, SlotDec.ofOption]

/-- A field that is illegal where `P` fails decodes to the slot's fault exactly there. -/
theorem SlotDec.ofOption_fault_iff {k : FaultKind} {n : Nat} {o : Option Instr} {P : Prop}
    (h : o = none ↔ ¬P) : ((SlotDec.ofOption k n o).isBad = true ↔ ¬P) ∧
      (¬P → SlotDec.ofOption k n o = .bad k n) :=
  have hb := SlotDec.ofOption_isBad.trans h
  ⟨hb, fun hp => SlotDec.ofOption_of_isBad (hb.2 hp)⟩

/-- An op of two operands is illegal where one of them is. -/
theorem bind_map_eq_none {α β γ : Type} {o : Option α} {p : Option β} {f : α → β → γ} :
    (o.bind fun x => p.map fun y => f x y) = none ↔ o = none ∨ p = none := by
  cases o <;> simp

/-! ## Unit fields (30_encoding R105 to R108, R118) -/

theorem decodeAluOp_eq_none {a : BitVec 19} : decodeAluOp a = none ↔
    ¬(a.extractLsb' 14 5 = 0x07 ∨ (a.extractLsb' 14 5 = 0x14 ∧ a.extractLsb' 5 5 ≠ 0x17) ∨
      ((a.extractLsb' 14 5 = 0x0D ∨ a.extractLsb' 14 5 = 0x0E ∨ a.extractLsb' 14 5 = 0x10) ∧
        a.extractLsb' 5 5 ≠ 0x17 ∧ (a.extractLsb' 0 5 < 0x14 ∨ a.extractLsb' 0 5 = 0x1F))) := by
  simp only [decodeAluOp]
  generalize a.extractLsb' 14 5 = op, a.extractLsb' 5 5 = s, a.extractLsb' 0 5 = d
  simp only [apply_ite (· = none), bind_map_eq_none, Option.map_eq_none_iff, AluSrc2.ofBits_eq_none,
    AluDst.ofBits_eq_none, reduceCtorEq]
  split_ifs <;> grind

theorem decodeMulOp_eq_none {m : BitVec 16} : decodeMulOp m = none ↔
    ¬(m.extractLsb' 14 2 = 0 ∨ ((m.extractLsb' 14 2 = 1 ∨ m.extractLsb' 14 2 = 2) ∧
      m.extractLsb' 5 5 < 0x1C ∧ (m.extractLsb' 0 5 < 0x14 ∨ m.extractLsb' 0 5 = 0x1F))) := by
  simp only [decodeMulOp]
  generalize m.extractLsb' 14 2 = op, m.extractLsb' 5 5 = s, m.extractLsb' 0 5 = d
  simp only [apply_ite (· = none), bind_map_eq_none, MulSrc2.ofBits_eq_none, MulDst.ofBits_eq_none,
    reduceCtorEq]
  split_ifs <;> grind

theorem decodeCtrlOp_eq_none {t : BitVec 41} : decodeCtrlOp t = none ↔
    ¬(t.extractLsb' 16 16 = 0 ∧
      (((t.extractLsb' 36 5 = 0x10 ∨ t.extractLsb' 36 5 = 0x11) ∧ t.extractLsb' 32 4 < 14) ∨
        (t.extractLsb' 32 4 = 0 ∧ ((t.extractLsb' 36 5 = 0x00 ∧ t.extractLsb' 0 16 = 0) ∨
          (t.extractLsb' 36 5 = 0x03 ∧ 1 ≤ t.extractLsb' 0 16 ∧ t.extractLsb' 0 16 ≤ 3) ∨
          t.extractLsb' 36 5 = 0x08 ∨ t.extractLsb' 36 5 = 0x12 ∨ t.extractLsb' 36 5 = 0x14 ∨
          (t.extractLsb' 36 5 = 0x15 ∧ t.extractLsb' 0 16 = 0))))) := by
  simp only [decodeCtrlOp]
  generalize t.extractLsb' 36 5 = cop, t.extractLsb' 32 4 = cc, t.extractLsb' 16 16 = z,
    t.extractLsb' 0 16 = imm
  simp only [apply_ite (· = none), Option.map_eq_none_iff, Flag.ofBits_eq_none, ClrSel.ofBits_eq_none,
    reduceCtorEq]
  -- the conditional branches, which have a condition code, and then the ops that have none
  by_cases h10 : cop = 0x10
  · subst h10; grind
  by_cases h11 : cop = 0x11
  · subst h11; grind
  simp only [h10, h11, false_or, false_and, if_false]
  grind

/-- Settles O5: the fault is exactly where the field has no op. -/
theorem controlFieldLegality : Obligations.ControlFieldLegality := fun _ =>
  SlotDec.ofOption_fault_iff decodeCtrlOp_eq_none

/-- In the single layout U selects the unit (30_encoding R104). -/
theorem singleUnits_of_selector (w : DWord) :
    (w.extractLsb' 60 1 = 0 → singleAlu w = decodeAlu (w.extractLsb' 41 19) ∧ singleMul w = .absent) ∧
    (w.extractLsb' 60 1 = 1 → singleAlu w = .absent ∧
      singleMul w = if w.extractLsb' 57 3 = 0 then decodeMul (w.extractLsb' 41 16)
        else .bad .unimplementedMul (w.extractLsb' 41 16).toNat) := by
  unfold singleAlu singleMul
  generalize w.extractLsb' 60 1 = u
  exact ⟨fun h => by simp [h], fun h => by simp [h]⟩

/-- Settles O4: the two units by their tables, the layout and the class by the fields of the word. -/
theorem unitFieldLegality : Obligations.UnitFieldLegality := by
  refine ⟨fun a => SlotDec.ofOption_fault_iff decodeAluOp_eq_none,
    fun m => SlotDec.ofOption_fault_iff decodeMulOp_eq_none, fun w => ⟨decode_eq_illegal_iff, ?_⟩⟩
  rintro (h | h)
  · exact ⟨_, decode_eq_bundle_iff.2 ⟨.singleCtrl, h, rfl⟩, singleUnits_of_selector w⟩
  · exact ⟨_, decode_eq_bundle_iff.2 ⟨.singleXferi, h, rfl⟩, singleUnits_of_selector w⟩

/-! ## Transfer fields (30_encoding R120 to R125) -/

section
variable {t : BitVec 26}

/-- A legal MOV field (30_encoding R121). -/
def legalMov (t : BitVec 26) : Prop :=
  t.extractLsb' 0 12 = 0 ∧ readableCode (t.extractLsb' 12 6) ∧ writableCode (t.extractLsb' 18 6)

/-- A legal mode of an XFER1 load or store (30_encoding R121). -/
def legalMode1 (t : BitVec 26) : Prop :=
  t.extractLsb' 15 1 = 0 ∧ (t.extractLsb' 16 1 = 1 ∨ t.extractLsb' 0 12 = 0)

/-- A legal sub-move (30_encoding R123). -/
def legalSubMove (m : BitVec 13) : Prop :=
  (m.extractLsb' 12 1 = 0 ∧ m = 0) ∨ (m.extractLsb' 12 1 = 1 ∧ m.extractLsb' 0 3 = 0)

theorem decodeMovOp_eq_none : decodeMovOp t = none ↔ ¬legalMov t := by
  simp only [decodeMovOp, legalMov, apply_ite (· = none), bind_map_eq_none, Reg6.srcOfBits_eq_none,
    Reg6.dstOfBits_eq_none]
  grind

theorem decodeMode1_eq_none : decodeMode1 t = none ↔ ¬legalMode1 t := by
  simp only [decodeMode1, legalMode1, apply_ite (· = none), reduceCtorEq]
  grind

/-- KIND selects how a field of XFER1 or XFER2 is read (30_encoding R121, R122). -/
theorem kind_cases (k : BitVec 2) : k = 0 ∨ k = 1 ∨ k = 2 ∨ k = 3 := by
  revert k; decide

theorem decodeXfer1Op_eq_none : decodeXfer1Op t = none ↔
    ¬((t.extractLsb' 24 2 = 0 ∧ t.extractLsb' 0 24 = 0) ∨ (t.extractLsb' 24 2 = 1 ∧ legalMov t) ∨
      (t.extractLsb' 24 2 = 2 ∧ writableCode (t.extractLsb' 18 6) ∧ legalMode1 t) ∨
      (t.extractLsb' 24 2 = 3 ∧ readableCode (t.extractLsb' 18 6) ∧ legalMode1 t)) := by
  simp only [decodeXfer1Op, apply_ite (· = none), reduceCtorEq, decodeMovOp_eq_none, bind_map_eq_none,
    Reg6.srcOfBits_eq_none, Reg6.dstOfBits_eq_none, decodeMode1_eq_none, ← not_and_or]
  obtain h | h | h | h := kind_cases (t.extractLsb' 24 2) <;> simp [h]

theorem decodeXfer2Op_eq_none : decodeXfer2Op t = none ↔
    ¬((t.extractLsb' 24 2 = 0 ∧ t.extractLsb' 0 24 = 0) ∨ (t.extractLsb' 24 2 = 1 ∧ legalMov t) ∨
      (t.extractLsb' 24 2 = 2 ∧ writableCode (t.extractLsb' 18 6)) ∨
      (t.extractLsb' 24 2 = 3 ∧ readableCode (t.extractLsb' 18 6))) := by
  simp only [decodeXfer2Op, apply_ite (· = none), reduceCtorEq, decodeMovOp_eq_none,
    Option.map_eq_none_iff, Reg6.srcOfBits_eq_none, Reg6.dstOfBits_eq_none]
  obtain h | h | h | h := kind_cases (t.extractLsb' 24 2) <;> simp [h]

/-- A sub-move that is off is all 0 where the bits below its top bit are. -/
theorem subMove_eq_zero_iff {m : BitVec 13} (h : m.extractLsb' 12 1 = 0) : m.extractLsb' 0 12 = 0 ↔ m = 0 := by
  refine ⟨fun h0 => ?_, fun h0 => by rw [h0]; rfl⟩
  have hm : m.extractLsb' 12 1 ++ m.extractLsb' 0 12 = m.extractLsb' 0 13 :=
    BitVec.extractLsb'_append_extractLsb'_eq_extractLsb' rfl
  rw [h, h0] at hm
  exact BitVec.extractLsb'_eq_self.symm.trans hm.symm

theorem decodeSubMove_eq_none {m : BitVec 13} : decodeSubMove m = none ↔ ¬legalSubMove m := by
  have hb : ∀ u : BitVec 1, u = 0 ∨ u = 1 := by decide
  simp only [decodeSubMove, legalSubMove, apply_ite (· = none), reduceCtorEq]
  obtain h | h := hb (m.extractLsb' 12 1)
  · simp only [subMove_eq_zero_iff h]
    simp [h]
  · simp [h]

theorem decodeDxfer1Op_eq_none : decodeDxfer1Op t = none ↔
    ¬(legalSubMove (t.extractLsb' 13 13) ∧ legalSubMove (t.extractLsb' 0 13)) := by
  rw [decodeDxfer1Op, bind_map_eq_none, decodeSubMove_eq_none, decodeSubMove_eq_none, not_and_or]

theorem decodeDxfer2Op_eq_none : decodeDxfer2Op t = none ↔ t ≠ 0 := by
  simp [decodeDxfer2Op]

theorem decodeXfer3Op_eq_none : decodeXfer3Op t = none ↔ ¬writableCode (t.extractLsb' 20 6) := by
  rw [decodeXfer3Op, Option.map_eq_none_iff, Reg6.dstOfBits_eq_none]

theorem decodeXferiOp_eq_none {t : BitVec 41} : decodeXferiOp t = none ↔
    ¬(t.extractLsb' 32 3 = 0 ∧ writableCode (t.extractLsb' 35 6)) := by
  simp only [decodeXferiOp, apply_ite (· = none), Option.map_eq_none_iff, Reg6.dstOfBits_eq_none]
  grind

end

/-- Settles O6: each form by its legal fields, and the form by the class. -/
theorem transferFieldLegality : Obligations.TransferFieldLegality := by
  unfold Obligations.TransferFieldLegality
  intro readable writable subMove field
  refine ⟨fun t => ⟨SlotDec.ofOption_isBad.trans decodeXfer1Op_eq_none,
    SlotDec.ofOption_isBad.trans decodeXfer2Op_eq_none, SlotDec.ofOption_isBad.trans decodeDxfer1Op_eq_none,
    SlotDec.ofOption_isBad.trans decodeDxfer2Op_eq_none,
    SlotDec.ofOption_isBad.trans decodeXfer3Op_eq_none⟩,
    fun t => Option.isNone_iff_eq_none.trans decodeXferiOp_eq_none,
    fun op t h => SlotDec.ofOption_of_isBad h, fun w b h => ?_⟩
  obtain ⟨c, hc, rfl⟩ := decode_eq_bundle_iff.1 h
  rw [hc]
  cases c with
  | singleCtrl => exact ⟨fun op h => (nomatch h), fun _ => rfl, fun h => absurd h (by decide)⟩
  | singleXferi =>
    refine ⟨fun op h => (nomatch h), fun h => absurd h (by decide),
      fun _ => ⟨fun h => ?_, fun i h => ?_⟩⟩ <;> simp only [decodeClass, h, SlotDec.ofOption]
  | dualDxfer1 | dualXfer1 | dualDxfer2 | dualXfer2 | dualXfer3 =>
    exact ⟨fun op h => by cases h; rfl, fun h => absurd h (by decide), fun h => absurd h (by decide)⟩

/-! ## The words of spec/95_test_vectors.md -/

/-- Settles O3: each word is read by computation. -/
theorem wordsOfTheSpecDecode : Obligations.WordsOfTheSpecDecode := by
  unfold Obligations.WordsOfTheSpecDecode
  decide +kernel

end Sys2Proof
end

section
/-!
PROOFS. The frame of the unit ops (41_alu R200, 42_mul R230): what an operand read, a destination write and
the flag writes of an op leave unchanged.
-/

namespace Sys2Proof.Machine

/-- What a unit op may change before the commit: `SCRATCH`, the PR ring and its pointers, the draws, and of the
flags those of `fs` (30_encoding R106, R108). -/
def State.unitFrame (s t : State) (fs : List Flag) : Prop :=
  t = { s with scratch := t.scratch, pr := t.pr, prp := t.prp, pwp := t.pwp, flags := t.flags,
               draws := t.draws } ∧
    ∀ f, f ∉ fs → t.getFlag f = s.getFlag f

section
variable {s t u : State} {fs : List Flag}

theorem State.unitFrame.trans (h : s.unitFrame t []) (h' : t.unitFrame u fs) : s.unitFrame u fs := by
  obtain ⟨ht, hf⟩ := h
  obtain ⟨hu, hg⟩ := h'
  refine ⟨?_, fun f hm => (hg f hm).trans (hf f (List.not_mem_nil))⟩
  rw [ht] at hu
  exact hu

theorem State.unitFrame.mems (h : s.unitFrame t fs) : t.ramA = s.ramA ∧ t.ramB = s.ramB := by
  obtain ⟨ht, -⟩ := h
  rw [ht]
  exact ⟨rfl, rfl⟩

end

section
variable (s : State)

theorem State.unitFrame_drew : s.unitFrame s.drew [] := ⟨rfl, fun _ _ => rfl⟩

theorem State.unitFrame_afterAluSrc2 (o : AluSrc2) : s.unitFrame (s.afterAluSrc2 o) [] := by
  cases o <;> exact ⟨rfl, fun _ _ => rfl⟩

theorem State.unitFrame_afterMulSrc2 (o : MulSrc2) : s.unitFrame (s.afterMulSrc2 o) [] := by
  cases o <;> exact ⟨rfl, fun _ _ => rfl⟩

theorem State.unitFrame_aluWrite (v : Word) (d : AluDst) : s.unitFrame (s.aluWrite v d) [] := by
  cases d <;> exact ⟨rfl, fun _ _ => rfl⟩

theorem State.unitFrame_mulWrite (v : Word) (d : MulDst) : s.unitFrame (s.mulWrite v d) [] := by
  cases d <;> exact ⟨rfl, fun _ _ => rfl⟩

theorem State.getFlag_putFlag_of_ne {f g : Flag} (v : Bool) (h : f ≠ g) :
    (s.putFlag g v).getFlag f = s.getFlag f := by
  unfold State.putFlag
  split
  · exact s.getFlag_setFlag_of_ne v h
  · split
    · rfl
    · exact s.getFlag_setFlag_of_ne _ h

theorem State.getFlag_putFlags_of_not_mem {f : Flag} {l : List (Flag × Bool)} (h : f ∉ l.map Prod.fst) :
    (s.putFlags l).getFlag f = s.getFlag f := by
  induction l generalizing s with
  | nil => rfl
  | cons p l ih =>
    obtain ⟨hp, hl⟩ := not_or.1 (mt List.mem_cons.2 h)
    exact (ih _ hl).trans (s.getFlag_putFlag_of_ne p.2 hp)

theorem State.unitFrame_putFlags {fs : List Flag} {l : List (Flag × Bool)} (h : l.map Prod.fst ⊆ fs) :
    s.unitFrame (s.putFlags l) fs := by
  refine ⟨?_, fun f hf => s.getFlag_putFlags_of_not_mem fun hm => hf (h hm)⟩
  obtain ⟨fl, n, he⟩ := s.putFlags_eq l
  rw [he]

theorem State.unitFrame_aluFinish {fs : List Flag} {r : Result} (d : AluDst) (h : r.flags.map Prod.fst ⊆ fs) :
    s.unitFrame (s.aluFinish r d) fs :=
  (s.unitFrame_aluWrite r.val d).trans (State.unitFrame_putFlags _ h)

theorem State.unitFrame_mulFinish {fs : List Flag} {r : Result} (d : MulDst) (h : r.flags.map Prod.fst ⊆ fs) :
    s.unitFrame (s.mulFinish r d) fs :=
  (s.unitFrame_mulWrite r.val d).trans (State.unitFrame_putFlags _ h)

end

theorem exec_unitFrame {i : Instr} {s t : State} (hi : i.slot = .alu ∨ i.slot = .mul)
    (h : exec i s = .next t) : s.unitFrame t (Instr.flagsDefined i) := by
  cases i with
  | nopAlu | mnop => cases h; exact ⟨rfl, fun _ _ => rfl⟩
  | cif o d =>
    cases h
    exact (s.unitFrame_afterAluSrc2 o).trans (State.unitFrame_aluFinish _ d (List.Subset.refl _))
  | cfi o d =>
    cases h
    refine ((s.unitFrame_afterAluSrc2 o).trans (State.unitFrame_drew _)).trans
      (State.unitFrame_aluFinish _ d ?_)
    simp [cfiFlagged, Instr.flagsDefined]
  | add a o d =>
    cases h
    exact (s.unitFrame_afterAluSrc2 o).trans (State.unitFrame_aluFinish _ d (List.Subset.refl _))
  | cmp a o =>
    cases h
    exact (((s.unitFrame_afterAluSrc2 o).trans (State.unitFrame_drew _)).trans (State.unitFrame_drew _)).trans
      (State.unitFrame_putFlags _ (List.Subset.refl _))
  | fmul a o d =>
    cases h
    exact (((s.unitFrame_afterMulSrc2 o).trans (State.unitFrame_drew _)).trans (State.unitFrame_drew _)).trans
      (State.unitFrame_mulFinish _ d (List.Subset.refl _))
  | mul a o d =>
    cases h
    refine (s.unitFrame_afterMulSrc2 o).trans (State.unitFrame_mulFinish _ d ?_)
    simp [mulResult, Instr.flagsDefined]
  | _ => simp [Instr.slot] at hi

/-- Settles O20: the frame of each op's reads and writes, and the flags that the op defines. -/
theorem unitFrame : Obligations.UnitFrame := by
  intro i s t hi h
  have hf := exec_unitFrame hi h
  obtain ⟨ha, hb⟩ := hf.mems
  obtain ⟨ht, hflags⟩ := hf
  refine ⟨ht, hflags, ?_, ?_, ?_, ?_, ?_, ?_, fun a => ⟨by rw [ha], by rw [hb]⟩⟩ <;>
  · intros; subst i; rfl

end Sys2Proof.Machine
end

section
/-!
PROOFS. Control transfers (44_control R290, R294 to R296), and the faults that a bundle takes before anything of
it changes (40_bundle R168, 60_exceptions R354).
-/

namespace Sys2Proof.Machine

/-! ## Control transfers (44_control R290) -/

section
variable {s : State}

theorem State.unlessDelay_of_not_delay (h : s.inDelay = false) (i : Instr) (t : State) :
    s.unlessDelay i t = .next t := by
  simp [State.unlessDelay, h]

theorem State.unlessDelay_of_delay (h : s.inDelay = true) (i : Instr) (t : State) :
    s.unlessDelay i t =
      .next (s.takeFault .unimplementedControl (some (s.cfg.controlInfo s.currentRaw i))) := by
  simp [State.unlessDelay, h]

/-- A control transfer in a delay slot does none of its work (40_bundle R168). -/
theorem exec_transfer_of_delay {i : Instr} (hi : i.isTransfer = true) (h : s.inDelay = true) :
    exec i s = .next (s.takeFault .unimplementedControl (some (s.cfg.controlInfo s.currentRaw i))) := by
  obtain ⟨f, x, rfl | rfl⟩ | ⟨x, rfl | rfl⟩ | rfl := Instr.isTransfer_iff.1 hi <;>
  exact State.unlessDelay_of_delay h ..

end

/-! ## Named registers (60_exceptions R372) -/

/-- What the named registers are read from. -/
def State.namedPart (s : State) :=
  (s.regs, s.ar, (s.pr, s.prp, s.pwp), (s.pcs, s.pcsp), s.flags, (s.fi, s.fo0, s.fo1),
    (s.eb, s.eo, s.sp, s.mod, s.pdr, s.ddr), s.pc)

theorem State.inspect_congr {s t : State} (h : t.namedPart = s.namedPart) (n : RegName) :
    t.inspect n = s.inspect n := by
  simp only [State.namedPart, Prod.mk.injEq] at h
  cases n with
  | scalar c => cases c <;> simp [State.inspect, State.getScalar, h]
  | fifoData q | fifoRpos q | fifoWpos q | fifoNum q => cases q <;> simp [State.inspect, State.getFifo, h]
  | bank | ar | pr | prp | pwp | pcs | pcsp | flag | pc => simp [State.inspect, State.getReg, State.getFlag, h]

/-- A fault changes no named register (60_exceptions R352). -/
@[simp] theorem State.inspect_takeFault (s : State) (k : FaultKind) (info : Option Nat) (n : RegName) :
    (s.takeFault k info).inspect n = s.inspect n := State.inspect_congr rfl n

@[simp] theorem State.inspect_drew (s : State) (n : RegName) : s.drew.inspect n = s.inspect n :=
  State.inspect_congr rfl n

/-- Settles O34: outside a delay slot the three ops do their work, which is to leave a transfer pending. -/
theorem branchResult : Obligations.BranchResult := fun s _ disp h =>
  ⟨s.branchTarget disp, s.branchTarget_toNat disp, State.unlessDelay_of_not_delay h ..,
    State.unlessDelay_of_not_delay h .., State.unlessDelay_of_not_delay h ..⟩

/-- Settles O36: the state that the fault leaves has every named register of `s`. -/
theorem transferInDelaySlotFaults : Obligations.TransferInDelaySlotFaults := fun _ s hi h =>
  ⟨_, _, exec_transfer_of_delay hi h, rfl, rfl, rfl, rfl, rfl, rfl, rfl,
    fun hp => congrArg some (Params.controlInfo_reference hp ..), rfl, rfl, rfl, s.inspect_takeFault _ _, rfl, rfl⟩

/-! ## Early faults (60_exceptions R354) -/

section
variable {s : State} {c : Cur} {b : Record} {k : FaultKind} {info : Option Nat}

theorem State.running.current (h : s.running c b) : s.current = some b := by
  obtain ⟨-, -, hc, hb⟩ := h
  rw [State.current, hc]
  exact hb

/-- In the bundle under way a fault at its address makes its record (60_exceptions R350). -/
theorem State.faultInfo_of_current (hc : s.current = some b) (hp : s.pc = b.addr) (k : FaultKind)
    (info : Option Nat) : s.faultInfo k info = recordFault b k info := by
  simp only [State.faultInfo, State.currentRaw, hc, hp]
  rfl

theorem State.step_of_earlyFault (h : s.running c b) (he : s.earlyFault b = some (k, info)) :
    step s = .next (({ s with pc := b.addr } : State).takeFault k info) := by
  have he : ({ s with pc := b.addr } : State).earlyFault b = some (k, info) := he
  rw [State.step_running h]
  simp only [State.bundleStep, he]

theorem State.earlyFault_of_unmapped (h : b.unmapped = true) : s.earlyFault b = some (.unmappedCode, none) := by
  simp [State.earlyFault, h]

theorem State.earlyFault_of_illegal (hu : b.unmapped = false) (hd : b.dec = .illegal) :
    s.earlyFault b = some (.unimplementedBundle, none) := by
  simp [State.earlyFault, hu, hd]

section
variable {d : Bundle} (hu : b.unmapped = false) (hd : b.dec = .bundle d)
include hu hd

theorem State.earlyFault_of_delay (hi : b.indelay = true) (hx : b.isxfer = true) :
    s.earlyFault b = some (.unimplementedControl, d.ctl.instr?.map (s.cfg.controlInfo b.raw)) := by
  simp [State.earlyFault, hu, hd, hi, hx]

theorem State.earlyFault_of_pcs (hx : ¬(b.indelay = true ∧ b.isxfer = true)) :
    s.earlyFault b = (s.pcsFault d).map fun k => (k, none) := by
  simp only [State.earlyFault, hu, hd, Bool.and_eq_true, if_neg hx, Bool.false_eq_true, if_false]

end

theorem State.pcsFault_dcall {d : Bundle} {x : BitVec 16} (hc : d.ctl = .op (.dcall x)) (h : s.pcsp.val = 4) :
    s.pcsFault d = some .pcsOverflow := by
  simp [State.pcsFault, hc, h]

theorem State.pcsFault_dret {d : Bundle} (hc : d.ctl = .op .dret) (h : s.pcsp.val = 0) :
    s.pcsFault d = some .pcsUnderflow := by
  have h : s.pcsp = 0 := Fin.ext h
  simp [State.pcsFault, hc, h]

end

/-- Settles O45: each case is what the checks answer, in their order. -/
theorem earlyFaults : Obligations.EarlyFaults := by
  refine ⟨fun p raw i hp => Params.controlInfo_reference hp raw i, fun s c b k info hrun hcase => ?_⟩
  have he : s.earlyFault b = some (k, info) := by
    obtain ⟨hu, rfl, rfl⟩ | ⟨hu, hd, rfl, rfl⟩ | ⟨hu, d, hd, hcase⟩ := hcase
    · exact State.earlyFault_of_unmapped hu
    · exact State.earlyFault_of_illegal hu hd
    · obtain ⟨hi, hx, rfl, rfl⟩ | ⟨hx, rfl, ⟨x, hc, hp, rfl⟩ | ⟨hc, hp, rfl⟩⟩ := hcase
      · exact State.earlyFault_of_delay hu hd hi hx
      · rw [State.earlyFault_of_pcs hu hd hx, State.pcsFault_dcall hc hp]
        rfl
      · rw [State.earlyFault_of_pcs hu hd hx, State.pcsFault_dret hc hp]
        rfl
  refine ⟨faultSignal k s.signal, ?_⟩
  rw [State.step_of_earlyFault hrun he, State.takeFault,
    State.faultInfo_of_current (s := { s with pc := b.addr }) hrun.current rfl]

end Sys2Proof.Machine
end

section
/-!
PROOFS. The slots of a bundle in a row (40_bundle R158, R168): slots that went through, a slot that faults, slots
that do nothing, and the next PC (R169).
-/

namespace Sys2Proof.Machine

/-! ## Slots in a row (40_bundle R158) -/

section
variable {s t u : State} {x : SlotDec} {ds es : List SlotDec} {d : Bundle}

theorem State.runSlots_cons_of_next (h : s.performSlot x = .next u) (hu : u.dstate ≠ .fault) :
    s.runSlots (x :: ds) = u.runSlots ds := by
  simp only [State.runSlots, h, if_neg hu]

theorem State.runSlots_cons_of_fault (h : s.performSlot x = .next u) (hu : u.dstate = .fault) :
    s.runSlots (x :: ds) = .next u := by
  simp only [State.runSlots, h, if_pos hu]

theorem State.runSlots_absent (hs : s.dstate ≠ .fault) : s.runSlots (.absent :: ds) = s.runSlots ds :=
  State.runSlots_cons_of_next rfl hs

/-- After slots that went through the others follow. -/
theorem State.runSlots_append (h : s.runSlots ds = .next u) (hu : u.dstate ≠ .fault) :
    s.runSlots (ds ++ es) = u.runSlots es := by
  induction ds generalizing s with
  | nil => cases h; rfl
  | cons x ds ih =>
    obtain ⟨v, hv, ⟨hf, rfl⟩ | ⟨hn, hr⟩⟩ := State.runSlots_cons h
    · exact absurd hf hu
    · exact (State.runSlots_cons_of_next hv hn).trans (ih hr)

/-- Slots that went through did so one part after the other. -/
theorem State.runSlots_split (h : s.runSlots (ds ++ es) = .next t) (ht : t.dstate ≠ .fault) :
    ∃ u, s.runSlots ds = .next u ∧ u.runSlots es = .next t := by
  induction ds generalizing s with
  | nil => exact ⟨s, rfl, h⟩
  | cons x ds ih =>
    obtain ⟨v, hv, ⟨hf, rfl⟩ | ⟨hn, hr⟩⟩ := State.runSlots_cons h
    · exact absurd hf ht
    · obtain ⟨u, hu, he⟩ := ih hr
      exact ⟨u, (State.runSlots_cons_of_next hv hn).trans hu, he⟩

theorem State.issue_of_completed (h : s.openBundle.runSlots d.slots = .next u) (hu : u.dstate ≠ .fault) :
    s.issue d = .next u.commit := by
  simp only [State.issue, h, if_neg hu]

theorem State.issue_of_fault (h : s.openBundle.runSlots d.slots = .next u) (hu : u.dstate = .fault) :
    s.issue d = .next (u.havocAll (s.openBundle.couldWrite d.slots)) := by
  simp only [State.issue, h, if_pos hu]

end

theorem State.runSlots_op {s u : State} {i : Instr} {ds : List SlotDec} (h : exec i s = .next u)
    (hu : u.dstate ≠ .fault) : s.runSlots (.op i :: ds) = u.runSlots ds :=
  State.runSlots_cons_of_next h hu

/-- Settles O42: an absent slot passes on the state, and an op that went through its result. -/
theorem slotsRunInOrder : Obligations.SlotsRunInOrder := by
  intro s t u v c x y z hs hx ht hy hu
  have hn : s.openBundle.dstate ≠ .fault := by simp [hs]
  refine ⟨fun hz hv => State.issue_of_completed ?_ hv, State.issue_of_completed ?_ hu,
    State.issue_of_completed ?_ hu, State.issue_of_completed ?_ hu, State.issue_of_completed ?_ hu⟩ <;>
  simp only [Bundle.slots, Bundle.dual, State.runSlots_op hx ht, State.runSlots_op hy hu, State.runSlots_absent hn,
    State.runSlots_absent ht, State.runSlots_absent hu]
  · rw [State.runSlots_op hz hv, State.runSlots_absent hv]
    rfl
  all_goals rfl

/-! ## An op alone in its bundle (30_encoding R103) -/

section
variable {s : State} {x : SlotDec} {ds : List SlotDec}

theorem exec_nop {i : Instr} (h : i.isNop = true) (s : State) : exec i s = .next s := by
  cases i with
  | nopAlu | mnop | tnop | nopCtl => rfl
  | _ => cases h

theorem Instr.writes_nop {i : Instr} (h : i.isNop = true) (s : State) : Instr.writes i s = [] := by
  cases i with
  | nopAlu | mnop | tnop | nopCtl => rfl
  | _ => cases h

theorem State.performSlot_idle (h : x.isIdle = true) : s.performSlot x = .next s := by
  obtain rfl | ⟨n, rfl, hn⟩ := SlotDec.isIdle_iff.1 h
  · rfl
  · exact exec_nop hn s

theorem State.runSlots_idle (hs : s.dstate ≠ .fault) (h : ∀ x ∈ ds, x.isIdle = true) :
    s.runSlots ds = .next s := by
  induction ds with
  | nil => rfl
  | cons x ds ih =>
    obtain ⟨hx, hds⟩ := List.forall_mem_cons.1 h
    exact (State.runSlots_cons_of_next (State.performSlot_idle hx) hs).trans (ih hds)

theorem State.couldWrite_cons_idle (hs : s.dstate ≠ .fault) (h : x.isIdle = true) :
    s.couldWrite (x :: ds) = s.couldWrite ds := by
  have hp : s.pastSlot x = s := by simp only [State.pastSlot, State.performSlot_idle h, if_neg hs]
  obtain rfl | ⟨n, rfl, hn⟩ := SlotDec.isIdle_iff.1 h
  · rw [State.couldWrite, hp, List.nil_append]
  · rw [State.couldWrite, hp, Instr.writes_nop hn, List.nil_append]

theorem State.couldWrite_idle (hs : s.dstate ≠ .fault) (h : ∀ x ∈ ds, x.isIdle = true) :
    s.couldWrite ds = [] := by
  induction ds with
  | nil => rfl
  | cons x ds ih =>
    obtain ⟨hx, hds⟩ := List.forall_mem_cons.1 h
    exact (State.couldWrite_cons_idle hs hx).trans (ih hds)

/-- The slots around an op alone in its bundle do nothing (30_encoding R103). -/
theorem Instr.alone_slots (i : Instr) : ∃ before after, i.alone.slots = before ++ .op i :: after ∧
    (∀ x ∈ before, x.isIdle = true) ∧ ∀ x ∈ after, x.isIdle = true := by
  cases i with
  | nopAlu | cif | cfi | add | cmp =>
    exact ⟨[.op .tnop], [.op .mnop, .absent], rfl, by decide, by decide⟩
  | mnop | fmul | mul => exact ⟨[.op .tnop, .op .nopAlu], [.absent], rfl, by decide, by decide⟩
  | ldi => exact ⟨[], [.op .nopAlu, .absent, .absent], rfl, by decide, by decide⟩
  | tnop | mov | ld1 | st1 | ld2 | st2 | dx1 | dx2 | ldn =>
    exact ⟨[], [.op .nopAlu, .op .mnop, .absent], rfl, by decide, by decide⟩
  | nopCtl | clrf | setm | dbcc | dbncc | djmp | dcall | dret =>
    exact ⟨[.absent, .op .nopAlu, .absent], [], rfl, by decide, by decide⟩

/-- The slots of a bundle with one op are that op. -/
theorem State.runSlots_alone (hs : s.dstate ≠ .fault) (i : Instr) : s.runSlots i.alone.slots = exec i s := by
  obtain ⟨before, after, hl, hb, ha⟩ := Instr.alone_slots i
  rw [hl, State.runSlots_append (State.runSlots_idle hs hb) hs]
  cases h : exec i s with
  | next t =>
    by_cases ht : t.dstate = .fault
    · exact State.runSlots_cons_of_fault h ht
    · exact (State.runSlots_op h ht).trans (State.runSlots_idle ht ha)
  | fault f => simp only [State.runSlots, State.performSlot, h]
  | refused r => simp only [State.runSlots, State.performSlot, h]

theorem State.couldWrite_alone (hs : s.dstate ≠ .fault) (i : Instr) :
    s.couldWrite i.alone.slots = Instr.writes i s := by
  obtain ⟨before, after, hl, hb, ha⟩ := Instr.alone_slots i
  rw [hl]
  clear hl
  induction before with
  | nil =>
    have hp : (s.pastSlot (.op i)).dstate ≠ .fault := by
      unfold State.pastSlot
      split
      next t _ => split_ifs with ht <;> assumption
      next => exact hs
      next => exact hs
    rw [List.nil_append, State.couldWrite, State.couldWrite_idle hp ha, List.append_nil]
  | cons x before ih =>
    obtain ⟨hx, hds⟩ := List.forall_mem_cons.1 hb
    exact (State.couldWrite_cons_idle hs hx).trans (ih hds)

end

/-! ## The bundle under way (45_dispatch R330) -/

section
variable {s t : State} {c : Cur} {b : Record} {d : Bundle}

/-- A bundle that passes the checks has a decoding of a legal class. -/
theorem State.bundle_of_checked (h : s.earlyFault b = none) : ∃ d, b.dec = .bundle d := by
  cases hd : b.dec with
  | bundle d => exact ⟨d, rfl⟩
  | illegal =>
    have hu := State.unmapped_of_earlyFault h
    rw [State.earlyFault_of_illegal hu hd] at h
    cases h

theorem State.step_issues (h : s.running c b) (he : s.earlyFault b = none) (hh : s.mustHold b = false)
    (hd : b.dec = .bundle d) : step s = ({ s with pc := b.addr } : State).issueAndAdvance c b d :=
  (State.step_running h).trans (State.bundleStep_issues he hh hd)

/-- The bundle under way is the one at PC (45_dispatch R330, 40_bundle R151). -/
theorem State.running.fetched (h : s.running c b) (hr : s.runInv)
    (hm : s.cfg.mapped s.progWords s.pc = true) :
    s.pc = b.addr ∧ b.dec = s.cfg.decodeWord (s.prog.readDWord s.pc.toNat) := by
  obtain ⟨-, -, hc, hb⟩ := h
  obtain ⟨a, b', hblk, hb', hpc, -⟩ := (State.runInv_of_cur hc).1 hr
  obtain rfl : b' = b := Option.some.inj (hb'.symm.trans hb)
  rw [hblk] at hb
  obtain ⟨_, _, _, _, rfl⟩ := analyze_getElem? hb
  have ha : a + BitVec.ofNat _ c.idx = s.pc := by
    rw [hpc]
    exact (recordAt_addr ..).symm
  rw [ha]
  obtain ⟨-, he⟩ | ⟨hm', -⟩ := recordAt_cases s.cfg s.prog s.progWords s.pc
  · rw [he]
    exact ⟨rfl, rfl⟩
  · rw [hm] at hm'
    cases hm'

end

/-- Settles O43: the record under way is that of PC, and its bundle is the op alone. -/
theorem stepRunsTheDecodedInstruction : Obligations.StepRunsTheDecodedInstruction := by
  intro s c b i hrun hinv hm hw he hh
  obtain ⟨hpc, hdec⟩ := hrun.fetched hinv hm
  have hs : s.dstate ≠ .fault := by simp [hrun.2.1]
  have hself : ({ s with pc := b.addr } : State) = s := by rw [← hpc]
  rw [State.step_issues hrun he hh (hdec.trans hw), hself, State.issueAndAdvance, State.issue,
    State.runSlots_alone (s := s.openBundle) hs, State.couldWrite_alone (s := s.openBundle) hs]
  cases exec i s.openBundle with
  | next t => by_cases ht : t.dstate = .fault <;> simp [ht]
  | fault | refused => rfl

end Sys2Proof.Machine
end

section
/-!
PROOFS. What follows the slots of a bundle: the fault of a slot that does not decode (40_bundle R154, R168,
45_dispatch R333) and the next PC (40_bundle R169).
-/

namespace Sys2Proof.Machine

/-! ## A slot that does not decode (40_bundle R168, 60_exceptions R354) -/

section
variable {s t u : State} {c : Cur} {b : Record} {d : Bundle} {ds : List SlotDec}

/-- Slots that went through leave the bundle under way and its PC. -/
theorem State.runSlots_runPart (hs : s.dstate ≠ .fault) (h : s.runSlots ds = .next u) (hu : u.dstate ≠ .fault) :
    u.runPart = s.runPart := by
  obtain hf | ⟨-, hrun, -⟩ := State.runSlots_faulted_or hs h
  · exact absurd hf.1 hu
  · exact hrun

theorem State.step_of_slotFault (h : s.running c b) (he : s.earlyFault b = none) (hh : s.mustHold b = false)
    (hd : b.dec = .bundle d) (hu : ({ s with pc := b.addr } : State).issue d = .next u)
    (hf : u.dstate = .fault) : step s = .next u := by
  rw [State.step_issues h he hh hd]
  simp only [State.issueAndAdvance, hu, if_pos hf]

end

/-- Settles O46: the slots before the bad one leave the bundle under way, so that its fault makes the record of
this bundle. -/
theorem badSlotFaults : Obligations.BadSlotFaults := by
  intro s u c b d before after k info hrun he hh hd hslots hu hn
  have hs : ({ s with pc := b.addr } : State).openBundle.dstate ≠ .fault := by simp [hrun.2.1]
  have hpart := State.runSlots_runPart hs hu hn
  simp only [State.runPart, Prod.mk.injEq] at hpart
  obtain ⟨hpc, -, -, hcur⟩ := hpart
  have hcur : u.current = some b := by
    rw [State.current, hcur]
    exact hrun.current
  have hbad : ({ s with pc := b.addr } : State).openBundle.runSlots d.slots = .next (u.takeFault k (some info)) := by
    rw [Bundle.slots, hslots, State.runSlots_append hu hn]
    exact State.runSlots_cons_of_fault rfl rfl
  have hissue := State.issue_of_fault hbad rfl
  obtain ⟨hl, -⟩ := State.issue_ends hs hissue
  refine ⟨_, State.step_of_slotFault hrun he hh hd hissue (by simp), by simp, ?_, by simpa using hpc, by simp, by simp,
    by simp, congrArg (·.1.2.2) hl⟩
  rw [State.havocAll_faultRec, State.takeFault_faultRec, State.faultInfo_of_current hcur hpc]

/-! ## The next PC (40_bundle R169) -/

section
variable {s t : State} {c : Cur} {b : Record} {d : Bundle}

theorem State.inDelay_congr (h : t.cur = s.cur) : t.inDelay = s.inDelay := by
  simp only [State.inDelay, State.current, h]

/-- In a delay slot an op that takes no fault is no control transfer and leaves the pending one. -/
theorem exec_brpend_of_delay {i : Instr} (hd : s.inDelay = true) (h : exec i s = .next t) (ht : t.dstate ≠ .fault) :
    t.brpend = s.brpend ∧ t.cur = s.cur := by
  cases hi : i.isTransfer with
  | true =>
    rw [exec_transfer_of_delay hi hd] at h
    cases h
    exact absurd rfl ht
  | false =>
    cases exec_ends h with
    | fault u k info ls _ he => exact absurd (by simp [he]) ht
    | done _ hk => exact ⟨hk.brpend, congrArg (·.2.2.2) hk.run⟩
    | pending _ _ _ hx => rw [hi] at hx; cases hx

theorem State.runSlots_brpend_of_delay {ds : List SlotDec} (hd : s.inDelay = true) (h : s.runSlots ds = .next t)
    (ht : t.dstate ≠ .fault) : t.brpend = s.brpend := by
  induction ds generalizing s with
  | nil => cases h; rfl
  | cons x ds ih =>
    obtain ⟨u, hu, ⟨hf, rfl⟩ | ⟨hn, hr⟩⟩ := State.runSlots_cons h
    · exact absurd hf ht
    have hstep : u.brpend = s.brpend ∧ u.cur = s.cur := by
      cases x with
      | absent => cases hu; exact ⟨rfl, rfl⟩
      | bad => cases hu; exact absurd rfl hn
      | op i => exact exec_brpend_of_delay hd hu hn
    exact (ih ((State.inDelay_congr hstep.2).trans hd) hr).trans hstep.1

theorem State.issue_brpend_of_delay (hd : s.inDelay = true) (h : s.issue d = .next t) (ht : t.dstate ≠ .fault) :
    t.brpend = s.brpend := by
  obtain ⟨u, hu, ⟨hf, rfl⟩ | ⟨hn, rfl⟩⟩ := State.issue_cases h
  · exact absurd (by simp [hf]) ht
  · rw [State.commit_brpend, State.runSlots_brpend_of_delay (s := s.openBundle) hd hu hn, State.openBundle_brpend]

theorem State.issueAndAdvance_next (h : s.issueAndAdvance c b d = .next t) (ht : t.dstate ≠ .fault) :
    ∃ u, s.issue d = .next u ∧ u.dstate ≠ .fault ∧ t = u.advance c b := by
  unfold State.issueAndAdvance at h
  split at h
  next u hu =>
    cases h
    split_ifs at ht ⊢ with hf
    · exact absurd hf ht
    · exact ⟨u, hu, hf, rfl⟩
  next => cases h
  next => cases h

@[simp] theorem State.advance_pc (s : State) (c : Cur) (b : Record) : (s.advance c b).pc = (s.nextPc b).pc := by
  unfold State.advance State.blockTail
  split_ifs <;> rfl

@[simp] theorem State.advance_brpend (s : State) (c : Cur) (b : Record) :
    (s.advance c b).brpend = (s.nextPc b).brpend := by
  unfold State.advance State.blockTail
  split_ifs <;> rfl

theorem State.nextPc_of_pending {p : BrPend} (hd : b.indelay = true) (hp : s.brpend = some p) :
    s.nextPc b = { s with brpend := none, pc := if p.taken then p.target else b.addr + 1 } := by
  simp only [State.nextPc, hd, hp, if_true]

end

/-- Settles O44: a bundle that completes in a delay slot leaves what was pending, and the block goes on from it. -/
theorem nextPc : Obligations.NextPc := by
  intro s t c b hrun he hh hstep ht
  obtain ⟨d, hd⟩ := State.bundle_of_checked he
  rw [State.step_issues hrun he hh hd] at hstep
  obtain ⟨u, hu, hn, rfl⟩ := State.issueAndAdvance_next hstep ht
  cases hdel : b.indelay with
  | false => simp [State.nextPc_of_not_delay hdel]
  | true =>
    intro p hp
    have hin : ({ s with pc := b.addr } : State).inDelay = true := by
      have hcur : ({ s with pc := b.addr } : State).current = some b := hrun.current
      simpa only [State.inDelay, hcur] using hdel
    have hpu : u.brpend = some p := (State.issue_brpend_of_delay hin hu hn).trans hp
    simp [State.nextPc_of_pending hdel hpu]

end Sys2Proof.Machine
end

section
/-!
PROOFS. The block-wide fields of records (40_bundle R151, R164): the delay slot that a control transfer names, and
the required flags.
-/

namespace Sys2Proof.Machine

/-! ## The delay slot that a control transfer names (40_bundle R151, 45_dispatch R320) -/

/-- Every control transfer of the block that can execute and is no delay slot names the record after it, where
`k` records stand before the block. -/
def namesDelays (k : Nat) (blk : Block) : Prop :=
  ∀ (j : Nat) (r : Record), blk[j]? = some r → r.isxfer = true → r.indelay = false → r.cannotExecute = false →
    r.delay = some (k + j + 1)

theorem namesDelays_joinRecord {r d : Record} {k : Nat} {rest : Block} (h : namesDelays (k + 1) rest) :
    namesDelays k (joinRecord r d k rest) := by
  intro j q hq hx hi hc
  unfold joinRecord at hq
  split_ifs at hq with hcr hxr
  · match j with
    | 0 => cases hq; rw [hcr] at hc; cases hc
  · match j with
    | 0 => cases hq; rfl
    | 1 => cases hq; cases hi
  · match j with
    | 0 => cases hq; exact absurd hx hxr
    | j + 1 => rw [h j q hq hx hi hc]; congr 1; omega

theorem namesDelays_nil (k : Nat) : namesDelays k [] := fun j r h => by simp at h

theorem namesDelays_collect (p : Params) (prog : Memory) (words : Nat) (a : PcWord) (k n : Nat) :
    namesDelays k (collect p prog words a k n) := by
  induction n generalizing a k with
  | zero => exact namesDelays_joinRecord (namesDelays_nil _)
  | succ n ih => exact namesDelays_joinRecord (ih (a + 1) (k + 1))

/-- Marking the terminator changes nothing else of a record. -/
theorem markTerm_getElem?_eq {blk : Block} {k : Nat} {r : Record} (h : (markTerm blk)[k]? = some r) :
    ∃ q t, blk[k]? = some q ∧ r = { q with term := t } := by
  fun_induction markTerm blk generalizing k with
  | case1 => cases h
  | case2 q =>
    cases k with
    | zero => cases h; exact ⟨q, true, rfl, rfl⟩
    | succ k => cases h
  | case3 q q' rs ih =>
    cases k with
    | zero => exact ⟨r, r.term, h, rfl⟩
    | succ k => exact ih h

/-- Filling in the required flags changes nothing else of a record (40_bundle R164). -/
theorem fillFreq_getElem?_eq {blk : Block} {k : Nat} {r : Record} (h : (fillFreq blk)[k]? = some r) :
    ∃ q fs, blk[k]? = some q ∧ r = { q with freq := fs } := by
  induction blk generalizing k with
  | nil => cases h
  | cons q rs ih =>
    cases k with
    | zero => cases h; exact ⟨q, _, rfl, rfl⟩
    | succ k => exact ih h

theorem namesDelays_analyze (p : Params) (prog : Memory) (words : Nat) (a : PcWord) :
    namesDelays 0 (analyze p prog words a) := by
  intro k r hr hx hi hc
  obtain ⟨q, fs, hq, rfl⟩ := fillFreq_getElem?_eq hr
  obtain ⟨u, t, hu, rfl⟩ := markTerm_getElem?_eq hq
  exact namesDelays_collect p prog words a 0 _ k u hu hx hi hc

/-- A delay slot is not the first record of a block. -/
theorem delaysMatch.first {blk : Block} {r : Record} (h : delaysMatch false blk) (hr : blk[0]? = some r) :
    r.indelay = false := by
  cases blk with
  | nil => cases hr
  | cons q rs => cases hr; exact h.1

/-- Settles O50: which records are delay slots is said by `delaysMatch`, and which they are named by
`namesDelays`. -/
theorem delaySlotRecords : Obligations.DelaySlotRecords := by
  intro p prog words a0 k r blk hr
  have hm : delaysMatch false blk := delaysMatch_analyze p prog words a0
  constructor
  · intro hx hi hu hb
    have hc : r.cannotExecute = false := by simp [Record.cannotExecute, hu, hb]
    have hlen : k + 1 < blk.length := by
      by_contra hl
      obtain h | h | h := hm.last hr (Nat.not_lt.1 hl) <;> simp [hi, hx, hc] at h
    have hnext : blk[k + 1]? = some blk[k + 1] := List.getElem?_eq_getElem hlen
    refine ⟨by simpa using namesDelays_analyze p prog words a0 k r hr hx hi hc, _, hnext, ?_⟩
    rw [(hm.next hr hnext).2, hx]
  · intro hi
    cases k with
    | zero => rw [hm.first hr] at hi; cases hi
    | succ k =>
      have hlen : k < blk.length := by have := (List.getElem?_eq_some_iff.1 hr).1; omega
      have hprev : blk[k]? = some blk[k] := List.getElem?_eq_getElem hlen
      obtain ⟨hqi, hrx⟩ := hm.next hprev hr
      exact ⟨_, Nat.le_add_left .., hprev, by rw [← hrx, hi], hqi⟩

/-! ## The required flags (40_bundle R164) -/

theorem flagsReadBy_getLsbD {blk : Block} {n : Nat} :
    (flagsReadBy blk).getLsbD n = true ↔ ∃ q ∈ blk, q.fuse.getLsbD n = true := by
  induction blk with
  | nil => simp [flagsReadBy]
  | cons r rs ih =>
    have h : flagsReadBy (r :: rs) = r.fuse ||| flagsReadBy rs := rfl
    simp [h, ih]

theorem flagsReadBy_fillFreq (blk : Block) : flagsReadBy (fillFreq blk) = flagsReadBy blk := by
  induction blk with
  | nil => rfl
  | cons r rs ih => exact congrArg (r.fuse ||| ·) ih

theorem fillFreq_freq {blk : Block} {k : Nat} {r : Record} (h : (fillFreq blk)[k]? = some r) :
    r.freq = if r.indelay then r.fdef else r.fdef &&& flagsReadBy ((fillFreq blk).drop (k + 1)) := by
  induction blk generalizing k with
  | nil => cases h
  | cons q rs ih =>
    cases k with
    | zero =>
      cases h
      simp only [fillFreq, List.drop_succ_cons, List.drop_zero, flagsReadBy_fillFreq]
    | succ k => exact ih h

/-- The records from index `k` on. -/
theorem mem_drop_iff {blk : Block} {k : Nat} {q : Record} : q ∈ blk.drop k ↔ ∃ j, k ≤ j ∧ blk[j]? = some q := by
  simp only [List.mem_iff_getElem?, List.getElem?_drop]
  exact ⟨fun ⟨i, hi⟩ => ⟨k + i, Nat.le_add_right .., hi⟩,
    fun ⟨j, hj, hq⟩ => ⟨j - k, by rwa [Nat.add_sub_cancel' hj]⟩⟩

/-- Settles O51: the flags of `fillFreq` as a set. -/
theorem requiredFlags : Obligations.RequiredFlags := by
  intro p prog words a0 k r f blk hr
  have hread : (flagsReadBy (blk.drop (k + 1))).getLsbD f.val = true ↔
      ∃ (j : Nat) (q : Record), k < j ∧ blk[j]? = some q ∧ q.fuse.getLsbD f.val = true := by
    simp only [flagsReadBy_getLsbD, mem_drop_iff]
    exact ⟨fun ⟨q, ⟨j, hj, hq⟩, hf⟩ => ⟨j, q, hj, hq, hf⟩, fun ⟨j, q, hj, hq, hf⟩ => ⟨q, ⟨j, hj, hq⟩, hf⟩⟩
  rw [← hread, fillFreq_freq hr]
  cases r.indelay
  · simp only [Bool.false_eq_true, if_false, false_or, BitVec.getLsbD_and, Bool.and_eq_true]
    rfl
  · simp

end Sys2Proof.Machine
end

section
/-!
PROOFS. From a block boundary to the block at PC, whatever the cache holds (45_dispatch R326, R330 to R332, R337).
-/

namespace Sys2Proof.Machine

section
variable {s t u : State} {m n : Nat}

/-- The run from `s` reaches `t` in `n` steps. -/
def State.reaches (s : State) (n : Nat) (t : State) : Prop := Host.Core.run core n s = .next t

theorem State.reaches.rfl : s.reaches 0 s := Eq.refl _

/-- A step first, and the others after it. -/
theorem State.reaches.head (h : step s = .next u) (h' : u.reaches n t) : s.reaches (n + 1) t := by
  have hs : core.step s = .next u := h
  simp only [State.reaches, Host.Core.run, hs]
  exact h'

/-! ## The steps at a block boundary (45_dispatch R330) -/

theorem State.step_lookup (hs : s.schedule = []) (hd : s.dstate = .run) (hc : s.cur = none) :
    step s = .next s.lookupStep := by
  simp [State.step_of_unscheduled hs, State.coreTurn, hd, State.runStep, hc]

theorem State.lookupStep_of_hit {blk : Block} (h : s.cache.lookup s.pc = some blk) :
    s.lookupStep = { s with cur := some ⟨blk, 0⟩ } := by
  simp only [State.lookupStep, h]

theorem State.lookupStep_of_miss (h : s.cache.lookup s.pc = none) :
    s.lookupStep = { s with dstate := .miss, signal := some .missingCode } := by
  simp only [State.lookupStep, h]

/-! ## The ways to the block (45_dispatch R330 to R332) -/

/-- From `s` the block that `Analyze` builds at PC starts within `n` steps, and but for the cache, the last signal
and `DSTATE`, which is then RUN, nothing else changes. -/
def State.startsWithin (s : State) (n : Nat) : Prop :=
  ∃ (m : Nat) (c : List (PcWord × Block)) (used : Nat) (sig : Option Signal), m ≤ n ∧
    s.reaches m { s with cur := some ⟨s.analyzeAt s.pc, 0⟩, cache := c, cacheUsed := used, signal := sig,
                         dstate := .run }

/-- A step that changes nothing but the cache, the last signal and `DSTATE` goes before. -/
theorem State.startsWithin_of_step {c : List (PcWord × Block)} {used : Nat} {sig : Option Signal} {d : DState}
    (h : step s = .next { s with cache := c, cacheUsed := used, signal := sig, dstate := d })
    (h' : State.startsWithin { s with cache := c, cacheUsed := used, signal := sig, dstate := d } n) :
    s.startsWithin (n + 1) := by
  obtain ⟨m, c', used', sig', hm, hr⟩ := h'
  exact ⟨m + 1, c', used', sig', Nat.succ_le_succ hm, hr.head h⟩

section
variable (hs : s.schedule = [])
include hs

theorem State.startsWithin_of_hit (hd : s.dstate = .run) (hc : s.cur = none)
    (h : s.cache.lookup s.pc = some (s.analyzeAt s.pc)) : s.startsWithin 1 := by
  refine ⟨1, s.cache, s.cacheUsed, s.signal, le_rfl, .head (u := { s with cur := some ⟨s.analyzeAt s.pc, 0⟩ }) ?_ ?_⟩
  · rw [State.step_lookup hs hd hc, State.lookupStep_of_hit h]
  · rw [← hd]
    exact .rfl

/-- A MISS whose block fits puts it into the cache, where the next lookup finds it. -/
theorem State.startsWithin_of_miss_fits (hd : s.dstate = .miss) (hc : s.cur = none)
    (h : s.cacheUsed + fragSize s.cfg (s.analyzeAt s.pc) ≤ s.cfg.cacheCapacity) : s.startsWithin 2 := by
  have hstep := State.step_miss hs hd
  rw [State.missStep_of_fits h] at hstep
  exact State.startsWithin_of_step (sig := s.signal) hstep (State.startsWithin_of_hit hs rfl hc (by simp; rfl))

/-- A lookup that misses an empty cache goes on to a MISS that fits. -/
theorem State.startsWithin_of_empty (hd : s.dstate = .run) (hc : s.cur = none) (he : s.cache = [])
    (hu : s.cacheUsed = 0) (h : fragSize s.cfg (s.analyzeAt s.pc) ≤ s.cfg.cacheCapacity) : s.startsWithin 3 := by
  have hstep := State.step_lookup hs hd hc
  have hfit : s.cacheUsed + fragSize s.cfg (s.analyzeAt s.pc) ≤ s.cfg.cacheCapacity := by rwa [hu, Nat.zero_add]
  rw [State.lookupStep_of_miss (by simp [he])] at hstep
  exact State.startsWithin_of_step (c := s.cache) (used := s.cacheUsed) hstep
    (State.startsWithin_of_miss_fits hs rfl hc hfit)

theorem State.startsWithin_of_flush (hd : s.dstate = .flush) (hc : s.cur = none)
    (h : fragSize s.cfg (s.analyzeAt s.pc) ≤ s.cfg.cacheCapacity) : s.startsWithin 4 :=
  State.startsWithin_of_step (sig := s.signal) (State.step_flush hs hd)
    (State.startsWithin_of_empty hs rfl hc rfl rfl h)

theorem State.startsWithin_of_miss (hd : s.dstate = .miss) (hc : s.cur = none)
    (h : fragSize s.cfg (s.analyzeAt s.pc) ≤ s.cfg.cacheCapacity) : s.startsWithin 5 := by
  by_cases hfit : s.cacheUsed + fragSize s.cfg (s.analyzeAt s.pc) ≤ s.cfg.cacheCapacity
  · obtain ⟨m, c, used, sig, hm, hr⟩ := State.startsWithin_of_miss_fits hs hd hc hfit
    exact ⟨m, c, used, sig, by omega, hr⟩
  · have hstep := State.step_miss hs hd
    rw [State.missStep_of_full hfit] at hstep
    exact State.startsWithin_of_step (c := s.cache) (used := s.cacheUsed) hstep
      (State.startsWithin_of_flush hs rfl hc h)

end

end

/-- Settles O52: a hit starts the block at once, since what is cached is the analysis of its address; a miss starts
it after at most one FLUSH. -/
theorem blockStartsWhateverTheCache : Obligations.BlockStartsWhateverTheCache := by
  intro s hinv hcap hs hd hc
  obtain ⟨-, hdis, ⟨-, -, hblks⟩, -⟩ := hinv
  obtain ⟨-, -, hp⟩ := (State.dispatchInv_of_run hd).1 hdis
  have hstarts : s.startsWithin 6 := by
    cases hlook : s.cache.lookup s.pc with
    | some blk =>
      have hblk : blk = s.analyzeAt s.pc := hblks hp _ (State.mem_cache_of_lookup hlook)
      obtain ⟨m, c, used, sig, hm, hr⟩ := State.startsWithin_of_hit hs hd hc (hblk ▸ hlook)
      exact ⟨m, c, used, sig, by omega, hr⟩
    | none =>
      have hstep := State.step_lookup hs hd hc
      rw [State.lookupStep_of_miss hlook] at hstep
      exact State.startsWithin_of_step (c := s.cache) (used := s.cacheUsed) hstep
        (State.startsWithin_of_miss hs rfl hc (hcap s.pc))
  obtain ⟨m, c, used, sig, hm, hr⟩ := hstarts
  exact ⟨m, _, hm, hr, rfl, by rw [← hd]⟩

end Sys2Proof.Machine
end

section
/-!
PROOFS. The commit of the bank writes (40_bundle R160, R161): of the values that ops wrote to a register one stays.
-/

namespace Sys2Proof.Machine

section
variable {s : State} {r : BankReg} {p : Pending} {e ps : List Pending}

/-! ## The writes that count (40_bundle R161) -/

theorem mem_of_mem_lastWrites (h : p ∈ lastWrites ps) : p ∈ ps := by
  obtain ⟨before, after, rfl, -⟩ := mem_lastWrites h
  simp

/-- A register that an op wrote has a write that counts. -/
theorem exists_mem_lastWrites (h : ∃ p ∈ ps, p.reg = r) : ∃ p ∈ lastWrites ps, p.reg = r := by
  induction ps with
  | nil => simp at h
  | cons q ps ih =>
    rw [lastWrites]
    split
    next hlater =>
      obtain ⟨q', hq', heq⟩ := List.any_eq_true.1 hlater
      obtain ⟨p, hp, hr⟩ := h
      obtain rfl | hp := List.mem_cons.1 hp
      · exact ih ⟨q', hq', by simpa [← hr] using (Bool.and_eq_true_iff.1 heq).1⟩
      · exact ih ⟨p, hp, hr⟩
    next =>
      obtain ⟨p, hp, hr⟩ := h
      obtain rfl | hp := List.mem_cons.1 hp
      · exact ⟨p, .head _, hr⟩
      · obtain ⟨p', hp', hr'⟩ := ih ⟨p, hp, hr⟩
        exact ⟨p', .tail _ hp', hr'⟩

/-! ## One write after another (40_bundle R161) -/

theorem State.commitOne_getReg_of_ne (h : p.reg ≠ r) : (s.commitOne e p).getReg r = s.getReg r := by
  unfold State.commitOne
  split
  · exact s.getReg_setReg_of_ne _ h.symm
  · exact s.getReg_setReg_of_ne _ h.symm

/-- A register holds the value written or, where an op wrote it before, maybe the old one. -/
theorem State.commitOne_getReg (hr : p.reg = r) : (s.commitOne e p).getReg r = p.val ∨
    ((s.commitOne e p).getReg r = s.getReg r ∧ ∃ q ∈ e, q.reg = r) := by
  subst hr
  unfold State.commitOne
  split
  next h =>
    have he : ∃ q ∈ e, q.reg = p.reg := by simpa using h
    have hd (t : State) : t.drew.getReg p.reg = t.getReg p.reg := rfl
    rw [hd, State.getReg_setReg]
    split
    · exact .inl rfl
    · exact .inr ⟨rfl, he⟩
  next => exact .inl (State.getReg_setReg ..)

theorem State.commitFrom_getReg_of_not_written (h : ∀ p ∈ ps, p.reg ≠ r) :
    (s.commitFrom e ps).getReg r = s.getReg r := by
  induction ps generalizing s e with
  | nil => rfl
  | cons p ps ih =>
    obtain ⟨hp, hps⟩ := List.forall_mem_cons.1 h
    exact (ih hps).trans (State.commitOne_getReg_of_ne hp)

theorem State.commitFrom_getReg_or : (s.commitFrom e ps).getReg r = s.getReg r ∨
    ∃ p ∈ ps, p.reg = r ∧ (s.commitFrom e ps).getReg r = p.val := by
  induction ps generalizing s e with
  | nil => exact .inl rfl
  | cons p ps ih =>
    obtain hsame | ⟨q, hq, hr, hv⟩ := ih (s := s.commitOne e p) (e := p :: e)
    · by_cases hr : p.reg = r
      · obtain hv | ⟨hv, -⟩ := State.commitOne_getReg (s := s) (e := e) hr
        · exact .inr ⟨p, .head _, hr, hsame.trans hv⟩
        · exact .inl (hsame.trans hv)
      · exact .inl (hsame.trans (State.commitOne_getReg_of_ne hr))
    · exact .inr ⟨q, .tail _ hq, hr, hv⟩

/-- A register that none wrote earlier and some write of the list writes takes one of those values. -/
theorem State.commitFrom_getReg (he : ∀ q ∈ e, q.reg ≠ r) (h : ∃ p ∈ ps, p.reg = r) :
    ∃ p ∈ ps, p.reg = r ∧ (s.commitFrom e ps).getReg r = p.val := by
  induction ps generalizing s e with
  | nil => simp at h
  | cons p ps ih =>
    by_cases hr : p.reg = r
    · have hp : (s.commitOne e p).getReg r = p.val :=
        (State.commitOne_getReg hr).resolve_right fun ⟨_, q, hq, hqr⟩ => he q hq hqr
      obtain hsame | ⟨q, hq, hr', hv⟩ := State.commitFrom_getReg_or (s := s.commitOne e p) (e := p :: e)
      · exact ⟨p, .head _, hr, hsame.trans hp⟩
      · exact ⟨q, .tail _ hq, hr', hv⟩
    · have h : ∃ p ∈ ps, p.reg = r := by simpa [hr] using h
      obtain ⟨q, hq, hr', hv⟩ := ih (s := s.commitOne e p) (List.forall_mem_cons.2 ⟨hr, he⟩) h
      exact ⟨q, .tail _ hq, hr', hv⟩

theorem State.commitFrom_eq (s : State) (e ps : List Pending) :
    ∃ regs n, s.commitFrom e ps = { s with regs := regs, draws := n } := by
  induction ps generalizing s e with
  | nil => exact ⟨_, _, rfl⟩
  | cons p ps ih =>
    obtain ⟨regs, n, h⟩ := ih (s.commitOne e p) (p :: e)
    refine ⟨regs, n, h.trans ?_⟩
    unfold State.commitOne
    split <;> rfl

/-! ## The whole commit (40_bundle R160, R168) -/

theorem State.commit_getReg_of_not_written (h : ∀ p ∈ s.scratch, p.reg ≠ r) : s.commit.getReg r = s.getReg r :=
  State.commitFrom_getReg_of_not_written fun p hp => h p (mem_of_mem_lastWrites hp)

/-- A register that ops wrote takes the last value that one of them wrote to it. -/
theorem State.commit_getReg (h : ∃ p ∈ s.scratch, p.reg = r) : ∃ before after p,
    s.scratch = before ++ p :: after ∧ p.reg = r ∧ (∀ q ∈ after, q.reg = r → q.slot ≠ p.slot) ∧
      s.commit.getReg r = p.val := by
  obtain ⟨p, hp, rfl, hv⟩ :=
    State.commitFrom_getReg (s := s) (e := []) (by simp) (exists_mem_lastWrites h)
  obtain ⟨before, after, hl, hlast⟩ := mem_lastWrites hp
  exact ⟨before, after, p, hl, rfl, hlast, hv⟩

theorem State.commit_eq (s : State) :
    s.commit = { s with regs := s.commit.regs, scratch := [], draws := s.commit.draws } := by
  obtain ⟨regs, n, h⟩ := s.commitFrom_eq [] (lastWrites s.scratch)
  rw [State.commit, h]

end

/-- Of two places in a list the second is the first, or comes after it, or before it. -/
theorem append_cons_cases {α : Type} {l l' m m' : List α} {a a' : α} (h : l ++ a :: m = l' ++ a' :: m') :
    a' = a ∨ a' ∈ m ∨ (a' ∈ l ∧ a ∈ m') := by
  obtain ⟨c, rfl, hc⟩ | ⟨c, rfl, hc⟩ := List.append_eq_append_iff.1 h
  · cases c with
    | nil => exact .inl (List.cons.inj hc).1.symm
    | cons x c => exact .inr (.inl ((List.cons.inj hc).2 ▸ List.mem_append_cons_self))
  · cases c with
    | nil => exact .inl (List.cons.inj hc).1
    | cons x c =>
      obtain ⟨rfl, hm⟩ := List.cons.inj hc
      exact .inr (.inr ⟨List.mem_append_cons_self, hm ▸ List.mem_append_cons_self⟩)

/-- Settles O40: the value that stays is that of a write that counts, which with one op is its last. -/
theorem commitOfBankWrites : Obligations.CommitOfBankWrites := by
  intro s r
  refine ⟨fun before after p hl hr hafter hbefore => ?_, State.commit_getReg, State.commit_getReg_of_not_written,
    s.commit_eq⟩
  have hp : p ∈ s.scratch := hl ▸ List.mem_append_cons_self
  obtain ⟨before', after', q, hl', hqr, hlast, hv⟩ := State.commit_getReg ⟨p, hp, hr⟩
  obtain rfl | hq | ⟨hq, hp'⟩ := append_cons_cases (hl.symm.trans hl')
  · exact hv
  · exact absurd hqr (hafter q hq)
  · exact absurd (hbefore q hq hqr).symm (hlast p hp' hr)

end Sys2Proof.Machine
end

section
/-!
PROOFS. What "any value" in a location leaves of the named registers (40_bundle R170).
-/

namespace Sys2Proof.Machine

/-- The named registers that a location is (60_exceptions R372). -/
def Loc.names : Loc → List RegName
  | .bank r => [.bank r]
  | .flag f => [.flag f]
  | .prEntry i => [.pr i]
  | .prp => [.prp]
  | .pwp => [.pwp]
  | .ar n => [.ar n]
  | .scalar c => [.scalar c]
  | .fifoEntry q i => [.fifoData q i]
  | .fifoHead q => [.fifoRpos q, .fifoNum q]
  | .fifoTail q => [.fifoWpos q, .fifoNum q]
  | .fifoCursors q => [.fifoRpos q, .fifoWpos q, .fifoNum q]
  | .ramA _ | .ramB _ | .ext _ => []
  | .pcs i => [.pcs i]
  | .pcsp => [.pcsp]

section
variable {s : State} {k : RegName}

/-- A write of one named register by some number. -/
theorem State.inspect_of_poke {t : State} {n : RegName} (v : Nat) (ht : t = (s.poke n v).drew) (h : k ∉ [n]) :
    t.inspect k = s.inspect k := by
  rw [ht, State.inspect_drew, State.inspect_poke_of_ne v (List.ne_of_not_mem_cons h)]

/-- Whatever value a location is left with, other named registers are as they were. -/
theorem State.inspect_havoc {l : Loc} (h : k ∉ l.names) : (s.havoc l).inspect k = s.inspect k := by
  cases l with
  | bank | prEntry | ar | scalar | pcs =>
    exact State.inspect_of_poke s.freeWord.toNat (by simp [State.havoc, State.poke]) h
  | flag f =>
    exact State.inspect_of_poke s.freeBit.toNat (by cases hb : s.freeBit <;> simp [State.havoc, State.poke, hb]) h
  | prp | pwp | pcsp => exact State.inspect_of_poke (Config.freeNat s.draws) rfl h
  | fifoEntry =>
    exact State.inspect_of_poke (Config.freeDWord s.draws).toNat (by simp [State.havoc, State.poke]) h
  | fifoHead q =>
    exact (State.inspect_drew ..).trans (State.inspect_setFifo (fun _ _ => rfl)
      (fun e => absurd (by simp [Loc.names, e]) h) (fun _ => rfl) (fun e => absurd (by simp [Loc.names, e]) h))
  | fifoTail q =>
    exact (State.inspect_drew ..).trans (State.inspect_setFifo (fun _ _ => rfl) (fun _ => rfl)
      (fun e => absurd (by simp [Loc.names, e]) h) (fun e => absurd (by simp [Loc.names, e]) h))
  | fifoCursors q =>
    exact (State.inspect_congr rfl k).trans (State.inspect_setFifo (fun _ _ => rfl)
      (fun e => absurd (by simp [Loc.names, e]) h) (fun e => absurd (by simp [Loc.names, e]) h)
      (fun e => absurd (by simp [Loc.names, e]) h))
  | ramA | ramB | ext => exact State.inspect_congr rfl k

theorem State.inspect_havocAll {ls : List Loc} (h : ∀ l ∈ ls, k ∉ l.names) :
    (s.havocAll ls).inspect k = s.inspect k := by
  induction ls generalizing s with
  | nil => rfl
  | cons l ls ih =>
    obtain ⟨hl, hls⟩ := List.forall_mem_cons.1 h
    exact (ih hls).trans (State.inspect_havoc hl)

theorem State.getReg_of_inspect {t : State} {r : BankReg} (h : t.inspect (.bank r) = s.inspect (.bank r)) :
    t.getReg r = s.getReg r := BitVec.eq_of_toNat_eq h

theorem State.getFlag_of_inspect {t : State} {f : Flag} (h : t.inspect (.flag f) = s.inspect (.flag f)) :
    t.getFlag f = s.getFlag f := by
  have hinj : ∀ a b : Bool, a.toNat = b.toNat → a = b := by decide
  exact hinj _ _ h

end

end Sys2Proof.Machine
end

section
/-!
PROOFS. What an op does to the banks and the flags (40_bundle R157, R160, R165): its bank writes wait in `SCRATCH`,
and of the flags it writes those that it defines and the lazy-flag rule lets it write.
-/

namespace Sys2Proof.Machine

/-! ## The lazy-flag rule (40_bundle R165) -/

section
variable {s t : State} {f : Flag}

theorem State.flagWritable_congr (hc : t.cur = s.cur) (hg : t.cfg = s.cfg) (f : Flag) :
    t.flagWritable f = s.flagWritable f := by
  simp only [State.flagWritable, State.required, State.current, hc, hg]

theorem State.flagWritable_eq_false_iff :
    s.flagWritable f = false ↔ s.required f = false ∧ s.cfg.lazyFlags = .stale := by
  cases h : s.cfg.lazyFlags <;> simp [State.flagWritable, h]

theorem State.putFlag_of_required (h : s.required f = true) (v : Bool) : s.putFlag f v = s.setFlag f v := if_pos h

theorem State.putFlag_of_stale (h : s.flagWritable f = false) (v : Bool) : s.putFlag f v = s := by
  obtain ⟨hr, hl⟩ := State.flagWritable_eq_false_iff.1 h
  simp [State.putFlag, hr, hl]

/-- Under `Either` a flag that is not required takes the new value or keeps the old one. -/
theorem State.getFlag_putFlag_of_either (hr : s.required f = false) (hl : s.cfg.lazyFlags = .either) (v : Bool) :
    (s.putFlag f v).getFlag f = v ∨ (s.putFlag f v).getFlag f = s.getFlag f := by
  have hd (w : Bool) : (s.setFlag f w).drew.getFlag f = w := s.getFlag_setFlag f w
  simp only [State.putFlag, hr, hl, Bool.false_eq_true, if_false, hd]
  split
  · exact .inl rfl
  · exact .inr rfl

theorem State.putFlag_settles (s : State) (f : Flag) (v : Bool) : s.settles (s.putFlag f v) f v := by
  unfold State.settles
  split
  next hr => rw [State.putFlag_of_required hr, State.getFlag_setFlag]
  next hr =>
    have hr : s.required f = false := by simpa using hr
    split
    next hl => rw [State.putFlag_of_stale (State.flagWritable_eq_false_iff.2 ⟨hr, hl⟩)]
    next hl => exact State.getFlag_putFlag_of_either hr hl v

theorem State.getFlag_putFlags_of_stale (h : s.flagWritable f = false) (l : List (Flag × Bool)) :
    (s.putFlags l).getFlag f = s.getFlag f := by
  induction l generalizing s with
  | nil => rfl
  | cons p l ih =>
    have hw : (s.putFlag p.1 p.2).flagWritable f = false :=
      (State.flagWritable_congr (by simp) (by simp) f).trans h
    refine (ih hw).trans ?_
    by_cases hp : f = p.1
    · rw [← hp, State.putFlag_of_stale h]
    · exact s.getFlag_putFlag_of_ne p.2 hp

end

/-! ## The frame of an op that takes no fault -/

/-- `t` comes from `s` by work of op `i`: the banks and the snapshot stay, new entries of `SCRATCH` are for registers
that `i` writes, and only flags that `i` defines and that are writable change. -/
structure State.OpFrame (i : Instr) (s t : State) : Prop where
  regs : t.regs = s.regs
  preFlags : t.preFlags = s.preFlags
  scratch : ∀ p ∈ t.scratch, p ∈ s.scratch ∨ p.reg ∈ Instr.banksWritten i
  flags : ∀ f, (f ∈ Instr.flagsDefined i → s.flagWritable f = false) → t.getFlag f = s.getFlag f
  writable : ∀ f, t.flagWritable f = s.flagWritable f

section
variable {i : Instr} {s t u : State}

theorem State.OpFrame.of_eq (h : (t.regs, t.preFlags, t.scratch, t.flags, t.cur, t.cfg) =
    (s.regs, s.preFlags, s.scratch, s.flags, s.cur, s.cfg)) : s.OpFrame i t := by
  simp only [Prod.mk.injEq] at h
  obtain ⟨hr, hp, hs, hf, hc, hg⟩ := h
  exact ⟨hr, hp, fun p => hs ▸ .inl, fun f _ => by rw [State.getFlag, hf, State.getFlag],
    State.flagWritable_congr hc hg⟩

theorem State.OpFrame.rfl : s.OpFrame i s := .of_eq (Eq.refl _)

theorem State.OpFrame.trans (h : s.OpFrame i t) (h' : t.OpFrame i u) : s.OpFrame i u where
  regs := h'.regs.trans h.regs
  preFlags := h'.preFlags.trans h.preFlags
  scratch p hp := (h'.scratch p hp).elim (h.scratch p) .inr
  flags f hf := (h'.flags f fun hd => (h.writable f).trans (hf hd)).trans (h.flags f hf)
  writable f := (h'.writable f).trans (h.writable f)

/-! ## The shared operations of ops -/

theorem State.opFrame_bufferReg {r : BankReg} (hr : r ∈ Instr.banksWritten i) (s : State) (k : SlotKind) (v : Word) :
    s.OpFrame i (s.bufferReg k r v) where
  regs := Eq.refl _
  preFlags := Eq.refl _
  scratch p hp := by
    obtain hp | hp := List.mem_append.1 hp
    · exact .inl hp
    · exact .inr (List.mem_singleton.1 hp ▸ hr)
  flags _ _ := Eq.refl _
  writable _ := Eq.refl _

theorem State.opFrame_putFlags {l : List (Flag × Bool)} (hl : l.map Prod.fst ⊆ Instr.flagsDefined i) (s : State) :
    s.OpFrame i (s.putFlags l) where
  regs := by simp
  preFlags := by simp
  scratch p hp := .inl (by simpa using hp)
  flags f hf := by
    by_cases hm : f ∈ l.map Prod.fst
    · exact State.getFlag_putFlags_of_stale (hf (hl hm)) l
    · exact s.getFlag_putFlags_of_not_mem hm
  writable := State.flagWritable_congr (by simp) (by simp)

theorem State.opFrame_aluFinish {d : AluDst} {r : Result} (hd : (AluDst.reg? d).toList ⊆ Instr.banksWritten i)
    (hf : r.flags.map Prod.fst ⊆ Instr.flagsDefined i) (s : State) : s.OpFrame i (s.aluFinish r d) := by
  refine State.OpFrame.trans (t := s.aluWrite r.val d) ?_ (State.opFrame_putFlags hf _)
  cases d with
  | aa | ab => exact State.opFrame_bufferReg (hd (.head _)) ..
  | pr | discard => exact .of_eq (Eq.refl _)

theorem State.opFrame_mulFinish {d : MulDst} {r : Result} (hd : (MulDst.reg? d).toList ⊆ Instr.banksWritten i)
    (hf : r.flags.map Prod.fst ⊆ Instr.flagsDefined i) (s : State) : s.OpFrame i (s.mulFinish r d) := by
  refine State.OpFrame.trans (t := s.mulWrite r.val d) ?_ (State.opFrame_putFlags hf _)
  cases d with
  | ma | mb => exact State.opFrame_bufferReg (hd (.head _)) ..
  | pr | discard => exact .of_eq (Eq.refl _)

theorem State.opFrame_afterRegWrite {r : Reg6} (hr : (Reg6.reg? r).toList ⊆ Instr.banksWritten i) (s : State)
    (v : Word) : s.OpFrame i (s.afterRegWrite v r) := by
  cases r with
  | bank => exact State.opFrame_bufferReg (hr (.head _)) ..
  | scalar => exact .of_eq (by simp [State.afterRegWrite])
  | ar | pr | fi | fo0 | fo1 | prp | pwp => exact .of_eq (Eq.refl _)

theorem State.subMove_opFrame {bank : MemBank} {l l' : Option (BankReg × Word)} {m : Option SubMove}
    (hm : (subMoveReg? .load m).toList ⊆ Instr.banksWritten i) (h : s.subMove bank l m = .ok (u, l')) :
    s.OpFrame i u := by
  obtain ⟨-, rfl, -⟩ | ⟨n, p, rfl, -, ⟨hd, -, rfl⟩ | ⟨-, -, rfl⟩⟩ := State.subMove_cases h
  · exact .rfl
  · refine State.OpFrame.trans (t := (s.arInc n.arx).afterLoad p) (.of_eq (by simp)) ?_
    exact State.opFrame_bufferReg (hm (by simp [subMoveReg?, hd])) ..
  · exact .of_eq (by simp)

/-! ## What an op can do to the banks and the flags -/

/-- Op `i` of `s` ends in `t` within its frame, or with a fault that leaves any value in locations that it could
write. -/
inductive State.FrameEnds (i : Instr) (s t : State) : Prop
  | done (ht : s.OpFrame i t)
  | fault (u : State) (k : FaultKind) (info : Option Nat) (ls : List Loc) (hu : s.OpFrame i u)
      (hl : ls ⊆ Instr.writes i s) (ht : t = (u.takeFault k info).havocAll ls)

theorem State.raiseTransfer_frame (hu : s.OpFrame i u) (h : u.raiseTransfer i s = .next t) : s.FrameEnds i t := by
  cases h
  exact .fault u _ _ _ hu (List.Subset.refl _) rfl

theorem State.finishReg_frame {r : Reg6} {v : Word} (hr : (Reg6.reg? r).toList ⊆ Instr.banksWritten i)
    (hu : s.OpFrame i u) (h : u.finishReg i s r v = .next t) : s.FrameEnds i t := by
  obtain ⟨-, he⟩ | ⟨-, he⟩ := u.finishReg_cases i s r v <;> rw [he] at h <;> cases h
  · exact .done (hu.trans (State.opFrame_afterRegWrite hr ..))
  · exact .fault u _ _ _ hu (List.Subset.refl _) rfl

theorem State.loadReg_frame {bank : MemBank} {ea : Word} {r : Reg6}
    (hr : (Reg6.reg? r).toList ⊆ Instr.banksWritten i) (hu : s.OpFrame i u)
    (h : u.loadReg i s bank ea r = .next t) : s.FrameEnds i t := by
  obtain ⟨f, -, he⟩ | ⟨p, -, he⟩ := u.loadReg_cases i s bank ea r <;> rw [he] at h
  · cases h
  · exact State.finishReg_frame hr (hu.trans (.of_eq (by simp))) h

theorem State.storeAt_frame {bank : MemBank} {ea v : Word} (hu : s.OpFrame i u)
    (h : u.storeAt bank ea v = .next t) : s.FrameEnds i t := by
  obtain ⟨f, -, he⟩ | ⟨p, -, he⟩ := u.storeAt_cases bank ea v <;> rw [he] at h <;> cases h
  exact .done (hu.trans (.of_eq (by simp)))

theorem State.unlessShort_frame {k : Host.Outcome State Fault Refusal} (hk : k = .next t → s.FrameEnds i t)
    (h : s.unlessShort i k = .next t) : s.FrameEnds i t := by
  obtain rfl | ⟨-, h⟩ := s.unlessShort_next h
  · exact .done .rfl
  · exact hk h

theorem State.unlessDelay_frame {w : State} (hw : s.FrameEnds i w) (h : s.unlessDelay i w = .next t) :
    s.FrameEnds i t := by
  obtain ⟨-, he⟩ | ⟨-, he⟩ := s.unlessDelay_cases i w <;> rw [he] at h <;> cases h
  · exact hw
  · exact .fault s _ _ [] .rfl (List.nil_subset _) rfl

/-- Every op that completes ends in one of the two ways. -/
theorem exec_frame (h : exec i s = .next t) : s.FrameEnds i t := by
  cases i with
  | nopAlu | mnop | tnop | dx2 | nopCtl | setm => cases h; exact .done (.of_eq rfl)
  | cif o | add _ o =>
    cases h
    exact .done (State.OpFrame.trans (t := s.afterAluSrc2 o) (.of_eq (by simp))
      (State.opFrame_aluFinish (List.Subset.refl _) (List.Subset.refl _) _))
  | cfi o =>
    cases h
    exact .done (State.OpFrame.trans (t := (s.afterAluSrc2 o).drew) (.of_eq (by simp))
      (State.opFrame_aluFinish (List.Subset.refl _) (by simp [cfiFlagged, Instr.flagsDefined]) _))
  | cmp _ o =>
    cases h
    exact .done (State.OpFrame.trans (t := (s.afterAluSrc2 o).drew.drew) (.of_eq (by simp))
      (State.opFrame_putFlags (List.Subset.refl _) _))
  | fmul _ o =>
    cases h
    exact .done (State.OpFrame.trans (t := (s.afterMulSrc2 o).drew.drew) (.of_eq (by simp))
      (State.opFrame_mulFinish (List.Subset.refl _) (List.Subset.refl _) _))
  | mul _ o =>
    cases h
    exact .done (State.OpFrame.trans (t := s.afterMulSrc2 o) (.of_eq (by simp))
      (State.opFrame_mulFinish (List.Subset.refl _) (by simp [mulResult, Instr.flagsDefined]) _))
  | mov src =>
    refine State.unlessShort_frame (fun h => ?_) h
    split at h
    · exact State.finishReg_frame (List.Subset.refl _) (.of_eq (by simp)) h
    · exact State.raiseTransfer_frame .rfl h
  | ld1 => exact State.unlessShort_frame (State.loadReg_frame (List.Subset.refl _) (.of_eq (by simp))) h
  | ld2 => exact State.unlessShort_frame (State.loadReg_frame (List.Subset.refl _) .rfl) h
  | ldi | ldn => exact State.unlessShort_frame (State.finishReg_frame (List.Subset.refl _) .rfl) h
  | st1 | st2 =>
    refine State.unlessShort_frame (fun h => ?_) h
    split at h
    · exact State.storeAt_frame (.of_eq (by simp)) h
    · exact State.raiseTransfer_frame .rfl h
  | dx1 a b =>
    obtain ⟨u, _, _, ha, hb⟩ := exec_dx1_next h
    exact .done ((State.subMove_opFrame (List.subset_append_left ..) ha).trans
      (State.subMove_opFrame (List.subset_append_right ..) hb))
  | clrf sel => cases sel <;> cases h <;> exact .done (.of_eq rfl)
  | dbcc | dbncc | djmp => exact State.unlessDelay_frame (w := s.setPending _ _) (.done (.of_eq rfl)) h
  | dcall | dret =>
    refine State.unlessDelay_frame ?_ h
    split
    · exact .fault s _ _ [] .rfl (List.nil_subset _) rfl
    · exact .done (.of_eq rfl)

end

end Sys2Proof.Machine
end

section
/-!
PROOFS. The frame of a bundle (40_bundle R157, R163, R165, R167, R168, R170): what its ops leave of the banks, the
flags and the snapshot, whether it completes or faults.
-/

namespace Sys2Proof.Machine

/-! ## The banks and flags among the locations that an op could write (40_bundle R170) -/

/-- The bank register or flag that a location is. -/
def Loc.unit? : Loc → Option (BankReg ⊕ Flag)
  | .bank r => some (.inl r)
  | .flag f => some (.inr f)
  | _ => none

section
variable {s : State} {l : Loc}

theorem Loc.unit?_eq_bank {r : BankReg} : l.unit? = some (.inl r) ↔ l = .bank r := by
  cases l <;> simp [Loc.unit?]

theorem Loc.unit?_eq_flag {f : Flag} : l.unit? = some (.inr f) ↔ l = .flag f := by
  cases l <;> simp [Loc.unit?]

theorem Loc.bank_mem_names {r : BankReg} : .bank r ∈ l.names ↔ l = .bank r := by
  cases l <;> simp [Loc.names, eq_comm]

theorem Loc.flag_mem_names {f : Flag} : .flag f ∈ l.names ↔ l = .flag f := by
  cases l <;> simp [Loc.names, eq_comm]

end

section
variable (s : State)

@[simp] theorem prReadLocs_units (m : PrMode) : (prReadLocs m).filterMap Loc.unit? = [] := by cases m <;> rfl

@[simp] theorem State.prWriteLocs_units (m : PrMode) : (s.prWriteLocs m).filterMap Loc.unit? = [] := by
  cases m <;> rfl

@[simp] theorem aluSrc2Locs_units (o : AluSrc2) : (aluSrc2Locs o).filterMap Loc.unit? = [] := by
  cases o <;> simp [aluSrc2Locs]

@[simp] theorem mulSrc2Locs_units (o : MulSrc2) : (mulSrc2Locs o).filterMap Loc.unit? = [] := by
  cases o <;> simp [mulSrc2Locs]

@[simp] theorem State.aluDstLocs_units (d : AluDst) :
    (s.aluDstLocs d).filterMap Loc.unit? = (AluDst.reg? d).toList.map .inl := by
  cases d <;> simp [State.aluDstLocs, AluDst.reg?, Loc.unit?]

@[simp] theorem State.mulDstLocs_units (d : MulDst) :
    (s.mulDstLocs d).filterMap Loc.unit? = (MulDst.reg? d).toList.map .inl := by
  cases d <;> simp [State.mulDstLocs, MulDst.reg?, Loc.unit?]

@[simp] theorem State.flagLocs_units (i : Instr) :
    (s.flagLocs i).filterMap Loc.unit? = ((Instr.flagsDefined i).filter s.flagWritable).map .inr := by
  rw [State.flagLocs, List.filterMap_map, ← List.filterMap_eq_map]
  rfl

@[simp] theorem regReadLocs_units (r : Reg6) : (regReadLocs r).filterMap Loc.unit? = [] := by
  cases r <;> simp [regReadLocs, Loc.unit?]

@[simp] theorem State.regWriteLocs_units (r : Reg6) :
    (s.regWriteLocs r).filterMap Loc.unit? = (Reg6.reg? r).toList.map .inl := by
  cases r <;> simp [State.regWriteLocs, Reg6.reg?, Loc.unit?]

@[simp] theorem mode1Locs_units (x : Fin 8) (m : AddrMode) : (mode1Locs x m).filterMap Loc.unit? = [] := by
  cases m <;> rfl

@[simp] theorem State.loadLocs_units (bank : MemBank) (ea : Word) :
    (s.placeLocs bank ea loadLocs).filterMap Loc.unit? = [] := by
  unfold State.placeLocs
  split
  next p _ => cases p <;> rfl
  next => rfl

@[simp] theorem State.storeLocs_units (bank : MemBank) (ea : Word) :
    (s.placeLocs bank ea storeLocs).filterMap Loc.unit? = [] := by
  unfold State.placeLocs
  split
  next p _ => cases p <;> rfl
  next => rfl

@[simp] theorem State.subMoveLocs_units (bank : MemBank) (m : Option SubMove) :
    (s.subMoveLocs bank m).filterMap Loc.unit? = (subMoveReg? .load m).toList.map .inl := by
  cases m with
  | none => rfl
  | some n => cases h : n.dir <;> simp [State.subMoveLocs, subMoveReg?, h, Loc.unit?, List.filterMap_cons]

/-- Among the locations that an op could write are the bank registers that it writes (40_bundle R152) and the flags
that it defines and may write (R165). -/
theorem Instr.writes_units (i : Instr) : (Instr.writes i s).filterMap Loc.unit? =
    (Instr.banksWritten i).map .inl ++ ((Instr.flagsDefined i).filter s.flagWritable).map .inr := by
  cases i with
  | clrf sel => cases sel <;> rfl
  | _ => simp [Instr.writes, Instr.banksWritten, Instr.flagsDefined, Loc.unit?, List.filterMap_cons]

end

section
variable {s t : State} {i : Instr}

theorem Instr.bank_mem_writes {r : BankReg} (h : .bank r ∈ Instr.writes i s) : r ∈ Instr.banksWritten i := by
  have hm : .inl r ∈ (Instr.writes i s).filterMap Loc.unit? :=
    List.mem_filterMap.2 ⟨_, h, Loc.unit?_eq_bank.2 rfl⟩
  simpa [Instr.writes_units] using hm

theorem Instr.flag_mem_writes {f : Flag} (h : .flag f ∈ Instr.writes i s) :
    f ∈ Instr.flagsDefined i ∧ s.flagWritable f = true := by
  have hm : .inr f ∈ (Instr.writes i s).filterMap Loc.unit? :=
    List.mem_filterMap.2 ⟨_, h, Loc.unit?_eq_flag.2 rfl⟩
  simpa [Instr.writes_units] using hm

/-- What a bundle could write is what one of its ops could (40_bundle R170). -/
theorem State.mem_couldWrite {ds : List SlotDec} {l : Loc} (h : l ∈ s.couldWrite ds) :
    ∃ i u, .op i ∈ ds ∧ l ∈ Instr.writes i u := by
  induction ds generalizing s with
  | nil => cases h
  | cons d ds ih =>
    obtain h | h := List.mem_append.1 h
    · cases d with
      | op i => exact ⟨i, s, .head _, h⟩
      | absent | bad => cases h
    · obtain ⟨i, u, hi, hl⟩ := ih h
      exact ⟨i, u, .tail _ hi, hl⟩

theorem State.getReg_havocAll {ls : List Loc} {r : BankReg} (h : .bank r ∉ ls) (s : State) :
    (s.havocAll ls).getReg r = s.getReg r :=
  State.getReg_of_inspect (State.inspect_havocAll fun _ hl hn => h (Loc.bank_mem_names.1 hn ▸ hl))

theorem State.getFlag_havocAll {ls : List Loc} {f : Flag} (h : .flag f ∉ ls) (s : State) :
    (s.havocAll ls).getFlag f = s.getFlag f :=
  State.getFlag_of_inspect (State.inspect_havocAll fun _ hl hn => h (Loc.flag_mem_names.1 hn ▸ hl))

/-! ## What an op leaves of one register, of one flag and of the snapshot -/

theorem State.getReg_congr (h : t.regs = s.regs) (r : BankReg) : t.getReg r = s.getReg r := by
  rw [State.getReg, h, State.getReg]

theorem exec_getReg {r : BankReg} (hr : r ∉ Instr.banksWritten i) (h : exec i s = .next t) :
    t.getReg r = s.getReg r := by
  cases exec_frame h with
  | done ht => exact State.getReg_congr ht.regs r
  | fault u k info ls hu hl ht =>
    rw [ht, State.getReg_havocAll fun hm => hr (Instr.bank_mem_writes (hl hm))]
    exact State.getReg_congr hu.regs r

theorem exec_scratch {p : Pending} (h : exec i s = .next t) (hp : p ∈ t.scratch) :
    p ∈ s.scratch ∨ p.reg ∈ Instr.banksWritten i := by
  cases exec_frame h with
  | done ht => exact ht.scratch p hp
  | fault _ _ _ _ _ _ ht => simp [ht] at hp

/-- An op changes only flags that it defines, and of these only writable ones (40_bundle R165). -/
theorem exec_getFlag {f : Flag} (hf : f ∈ Instr.flagsDefined i → s.flagWritable f = false)
    (h : exec i s = .next t) : t.getFlag f = s.getFlag f := by
  cases exec_frame h with
  | done ht => exact ht.flags f hf
  | fault u k info ls hu hl ht =>
    have hm : .flag f ∉ ls := fun hm => by
      obtain ⟨hd, hw⟩ := Instr.flag_mem_writes (hl hm)
      rw [hf hd] at hw
      cases hw
    rw [ht, State.getFlag_havocAll hm]
    exact hu.flags f hf

theorem exec_preFlags (h : exec i s = .next t) : t.preFlags = s.preFlags := by
  cases exec_frame h with
  | done ht => exact ht.preFlags
  | fault u _ _ _ hu _ ht => simpa [ht] using hu.preFlags

theorem exec_regs (h : exec i s = .next t) (ht : t.dstate ≠ .fault) : t.regs = s.regs := by
  cases exec_frame h with
  | done hf => exact hf.regs
  | fault _ _ _ _ _ _ he => exact absurd (by simp [he]) ht

end

/-- Settles O37: a flag write settles its flag alone, and an op writes no flag that is not writable. -/
theorem lazyFlagWrite : Obligations.LazyFlagWrite := by
  refine ⟨rfl, fun s f v => ⟨s.putFlag_settles f v, fun g hg => s.getFlag_putFlag_of_ne v hg⟩, fun i s t f h => ?_⟩
  exact ⟨fun hf => exec_getFlag (absurd · hf) h,
    fun hr hl => exec_getFlag (fun _ => State.flagWritable_eq_false_iff.2 ⟨hr, hl⟩) h⟩

/-- The flags of the ALU ops are 0 to 8 and those of the MUL ops 9 to 13 (40_bundle R167). -/
theorem Instr.group_of_flagsDefined {i : Instr} {f : Flag} (h : f ∈ Instr.flagsDefined i) :
    (i.slot = .alu ∧ f.num.val ≤ 8) ∨ (i.slot = .mul ∧ 9 ≤ f.num.val) := by
  cases i with
  | cif | cfi | add | cmp =>
    left
    refine ⟨rfl, ?_⟩
    revert h
    cases f <;> simp [Instr.flagsDefined, Flag.num]
  | fmul | mul =>
    right
    refine ⟨rfl, ?_⟩
    revert h
    cases f <;> simp [Instr.flagsDefined, Flag.num]
  | _ => cases h

/-- Settles O38: a flag that an op changes is one that it defines. -/
theorem flagGroups : Obligations.FlagGroups := by
  intro i s t f h hne
  by_cases hf : f ∈ Instr.flagsDefined i
  · exact Instr.group_of_flagsDefined hf
  · exact absurd (exec_getFlag (absurd · hf) h) hne

/-! ## Slots in a row -/

section
variable {s t u : State} {ds : List SlotDec}

theorem State.performSlot_preFlags {d : SlotDec} (h : s.performSlot d = .next t) : t.preFlags = s.preFlags := by
  cases d with
  | absent | bad => cases h; rfl
  | op i => exact exec_preFlags h

theorem State.performSlot_regs {d : SlotDec} (h : s.performSlot d = .next t) (ht : t.dstate ≠ .fault) :
    t.regs = s.regs := by
  cases d with
  | absent | bad => cases h; rfl
  | op i => exact exec_regs h ht

theorem State.runSlots_preFlags (h : s.runSlots ds = .next t) : t.preFlags = s.preFlags :=
  State.runSlots_invariant (P := fun u => u.preFlags = s.preFlags)
    (fun _ _ _ _ hu h => (State.performSlot_preFlags h).trans hu) rfl h

theorem State.runSlots_regs (h : s.runSlots ds = .next t) (ht : t.dstate ≠ .fault) : t.regs = s.regs := by
  induction ds generalizing s with
  | nil => cases h; rfl
  | cons d ds ih =>
    obtain ⟨u, hu, ⟨hf, rfl⟩ | ⟨hn, hr⟩⟩ := State.runSlots_cons h
    · exact absurd hf ht
    · exact (ih hr).trans (State.performSlot_regs hu hn)

theorem State.unlessDelay_next {i : Instr} (h : s.unlessDelay i u = .next t) (ht : t.dstate ≠ .fault) : t = u := by
  obtain ⟨-, he⟩ | ⟨-, he⟩ := s.unlessDelay_cases i u <;> rw [he] at h <;> cases h
  · rfl
  · exact absurd rfl ht

/-- The control op of a bundle that completes runs last, with the snapshot of the bundle's start. -/
theorem State.issue_control {d : Bundle} {i : Instr} (h : s.issue d = .next t) (ht : t.dstate ≠ .fault)
    (hi : d.ctl = .op i) : ∃ v u, v.preFlags = s.flags ∧ exec i v = .next u ∧ u.dstate ≠ .fault ∧
      t.brpend = u.brpend := by
  obtain ⟨u, hu, ⟨hf, rfl⟩ | ⟨hn, rfl⟩⟩ := State.issue_cases h
  · exact absurd (by simp [hf]) ht
  have hslots : d.slots = [d.tr, d.alu, d.mul] ++ [.op i] := by rw [Bundle.slots, hi]; rfl
  rw [hslots] at hu
  obtain ⟨v, hv, hlast⟩ := State.runSlots_split hu hn
  obtain ⟨w, hw, ⟨hf, rfl⟩ | ⟨-, hnil⟩⟩ := State.runSlots_cons hlast
  · exact absurd hf hn
  · cases hnil
    exact ⟨v, u, State.runSlots_preFlags hv, hw, hn, State.commit_brpend u⟩

end

/-- Settles O39: the snapshot is kept by every slot, and the branch's op reads it. -/
theorem bankReadsAreOld : Obligations.BankReadsAreOld := by
  refine ⟨fun s => rfl, fun ds s t h ht => ⟨State.runSlots_regs h ht, State.runSlots_preFlags h⟩,
    fun s t d f x _ h ht => ⟨fun hc => ?_, fun hc => ?_⟩⟩
  all_goals
    obtain ⟨v, u, hv, hx, hu, hb⟩ := State.issue_control h ht hc
    obtain rfl := State.unlessDelay_next hx hu
    exact ⟨v.branchTarget x, by rw [hb, State.setPending, State.cond, hv]; rfl⟩

/-! ## The frame of a bundle (40_bundle R152, R153, R170) -/

section
variable {s t : State} {d : Bundle}

/-- A bank register that no op of the bundle writes: none is waiting for it, and no fault reaches it. -/
theorem State.issue_getReg {r : BankReg} (h : s.issue d = .next t)
    (hr : ∀ i, .op i ∈ d.slots → r ∉ Instr.banksWritten i) : t.getReg r = s.getReg r := by
  obtain ⟨u, hu, ht⟩ := State.issue_cases h
  obtain ⟨hreg, hscr⟩ : u.getReg r = s.getReg r ∧ ∀ p ∈ u.scratch, p.reg ≠ r := by
    refine State.runSlots_invariant (P := fun v => v.getReg r = s.getReg r ∧ ∀ p ∈ v.scratch, p.reg ≠ r)
      (fun v w x hx hv hw => ?_) (s := s.openBundle) ⟨rfl, by simp⟩ hu
    obtain ⟨hreg, hscr⟩ := hv
    cases x with
    | absent => cases hw; exact ⟨hreg, hscr⟩
    | bad => cases hw; exact ⟨hreg, by simp⟩
    | op i =>
      refine ⟨(exec_getReg (hr i hx) hw).trans hreg, fun p hp hpr => ?_⟩
      obtain hp | hp := exec_scratch hw hp
      · exact hscr p hp hpr
      · exact hr i hx (hpr ▸ hp)
  obtain ⟨-, rfl⟩ | ⟨-, rfl⟩ := ht
  · rw [State.getReg_havocAll, hreg]
    intro hm
    obtain ⟨i, v, hi, hl⟩ := State.mem_couldWrite hm
    exact hr i hi (Instr.bank_mem_writes hl)
  · rw [State.commit_getReg_of_not_written hscr, hreg]

theorem State.issue_getFlag {f : Flag} (h : s.issue d = .next t)
    (hf : ∀ i, .op i ∈ d.slots → f ∉ Instr.flagsDefined i) : t.getFlag f = s.getFlag f := by
  obtain ⟨u, hu, ht⟩ := State.issue_cases h
  have hflag : u.getFlag f = s.getFlag f := by
    refine State.runSlots_invariant (P := fun v => v.getFlag f = s.getFlag f)
      (fun v w x hx hv hw => ?_) (s := s.openBundle) rfl hu
    cases x with
    | absent | bad => cases hw; exact hv
    | op i => exact (exec_getFlag (absurd · (hf i hx)) hw).trans hv
  obtain ⟨-, rfl⟩ | ⟨-, rfl⟩ := ht
  · rw [State.getFlag_havocAll, hflag]
    intro hm
    obtain ⟨i, v, hi, hl⟩ := State.mem_couldWrite hm
    exact hf i hi (Instr.flag_mem_writes hl).1
  · rw [State.getFlag, State.commit_flags]
    exact hflag

end

/-- Settles O41: by what each op leaves of one register and one flag, and what it could write. -/
theorem bundleFrame : Obligations.BundleFrame := fun _ _ _ _ h =>
  ⟨fun _ hr => State.issue_getReg h hr, fun _ hf => State.issue_getFlag h hf⟩

end Sys2Proof.Machine
end

section
/-!
PROOFS. A ring pointer refuses a value of 24 or more (43_transfer R250, 60_exceptions R350): what the transfer did
before its fault, and what it could have written besides (40_bundle R170).
-/

namespace Sys2Proof.Machine

/-! ## What the parts of a transfer change (43_transfer R250, R251) -/

section
variable {s : State} {k : RegName}

theorem State.inspect_afterRegRead {r : Reg6} (h : k ∉ Reg6.readNames r) :
    (s.afterRegRead r).inspect k = s.inspect k := by
  cases r with
  | pr m =>
    have hp : s.afterRegRead (.pr m) = s.poke .prp (PrMode.move s.prp m).val := by
      simp [State.afterRegRead, State.afterPrRead, State.poke]
    rw [hp, State.inspect_poke_of_ne _ (List.ne_of_not_mem_cons h)]
  | fi =>
    exact State.inspect_setFifo (q := .fi) (fun _ _ => rfl) (fun e => absurd (by simp [Reg6.readNames, e]) h)
      (fun _ => rfl) (fun e => absurd (by simp [Reg6.readNames, e]) h)
  | bank | ar | scalar | fo0 | fo1 | prp | pwp => rfl

theorem State.inspect_afterEa1 {x : Fin 8} {m : AddrMode} (h : k ∉ modeNames x m) :
    (s.afterEa1 x m).inspect k = s.inspect k := by
  cases m with
  | postInc =>
    have hp : s.afterEa1 x .postInc = s.poke (.ar x) (s.ar[x] + 1).toNat := by
      rw [State.poke, BitVec.ofNat_toNat, BitVec.setWidth_eq]
      rfl
    rw [hp, State.inspect_poke_of_ne _ (List.ne_of_not_mem_cons h)]
  | disp12 => rfl

/-- Only a bank-A address from 0x400 on goes through the window (20_memory R68). -/
theorem State.window_of_memLoc {bank : MemBank} {ea w : Word} (h : s.memLoc bank ea = .ok (.ext w)) :
    windowNames bank ea = [.scalar .eo] := by
  unfold State.memLoc at h
  cases bank with
  | a =>
    dsimp only at h
    split_ifs at h with hlo
    · cases h
    · exact if_pos ⟨rfl, by simpa [Config.windowA] using hlo⟩
  | b =>
    dsimp only at h
    split_ifs at h
    cases h

theorem State.inspect_afterLoad {bank : MemBank} {ea : Word} {p : Place} (hp : s.memLoc bank ea = .ok p)
    (h : k ∉ windowNames bank ea) (t : State) : (t.afterLoad p).inspect k = t.inspect k := by
  cases p with
  | ramA | ramB => rfl
  | ext a =>
    rw [State.window_of_memLoc hp] at h
    have hc : (t.afterLoad (.ext a)).namedPart =
        (t.poke (.scalar .eo) (Config.freeWord (t.draws + 1)).toNat).namedPart := by
      rw [State.poke, BitVec.ofNat_toNat, BitVec.setWidth_eq]
      rfl
    rw [State.inspect_congr hc, State.inspect_poke_of_ne _ (List.ne_of_not_mem_cons h)]

end

/-! ## The named registers among the locations of a transfer (40_bundle R170) -/

theorem regReadLocs_names (r : Reg6) : (regReadLocs r).flatMap Loc.names ⊆ Reg6.readNames r := by
  cases r with
  | pr m => cases m <;> simp [regReadLocs, prReadLocs, Reg6.readNames, Loc.names]
  | bank | ar | scalar | fi | fo0 | fo1 | prp | pwp => simp [regReadLocs, Reg6.readNames, Loc.names]

theorem mode1Locs_names (x : Fin 8) (m : AddrMode) : (mode1Locs x m).flatMap Loc.names ⊆ modeNames x m := by
  cases m <;> simp [mode1Locs, modeNames, Loc.names]

theorem State.loadLocs_names (s : State) (bank : MemBank) (ea : Word) :
    (s.placeLocs bank ea loadLocs).flatMap Loc.names ⊆ windowNames bank ea := by
  unfold State.placeLocs
  split
  next p hp =>
    cases p with
    | ramA | ramB => exact List.nil_subset _
    | ext w => rw [State.window_of_memLoc hp]; exact List.Subset.refl _
  next => exact List.nil_subset _

theorem append_subset_of_subset {ls ls' ns ns' : List RegName} (h : ls ⊆ ns) (h' : ls' ⊆ ns') :
    ls ++ ls' ⊆ ns ++ ns' :=
  List.append_subset.2 ⟨List.subset_append_of_subset_left _ h, List.subset_append_of_subset_right _ h'⟩

theorem State.pointerLocs_names {r : Reg6} (hr : r = .prp ∨ r = .pwp) (s : State) :
    (s.regWriteLocs r).flatMap Loc.names ⊆ s.writtenNames r := by
  obtain rfl | rfl := hr <;> exact List.Subset.refl _

/-! ## A refused pointer write (43_transfer R250) -/

/-- Op `i` of `s` got as far as `u`, within the registers that it names, and its register write is refused. -/
structure State.RefusedAt (i : Instr) (s u : State) : Prop where
  raises : exec i s = u.raiseTransfer i s
  keeps : s.OpKeeps u
  names : ∀ k, k ∉ s.transferNames i → u.inspect k = s.inspect k
  locs : (Instr.writes i s).flatMap Loc.names ⊆ s.transferNames i
  rams : (Instr.writes i s).any Loc.inRam = false

section
variable {i : Instr} {r : Reg6} {v : Word} {s u : State}

theorem regAccepts_pointer (hr : r = .prp ∨ r = .pwp) (hv : 24 ≤ v.toNat) : regAccepts r v = false := by
  obtain rfl | rfl := hr <;> exact decide_eq_false (Nat.not_lt.2 hv)

theorem State.canWrite_pointer (hr : r = .prp ∨ r = .pwp) (s : State) : s.canWrite r := by
  obtain rfl | rfl := hr <;> exact ⟨nofun, nofun⟩

theorem State.finishReg_of_refused (h : regAccepts r v = false) (i : Instr) (u s0 : State) :
    u.finishReg i s0 r v = u.raiseTransfer i s0 := by
  simp [State.finishReg, h]

section
variable (hr : r = .prp ∨ r = .pwp) (hv : 24 ≤ v.toNat)
include hr hv

theorem exec_ldi_refused (s : State) : s.RefusedAt (.ldi r v) s where
  raises := by
    have hw := s.canWrite_pointer hr
    rw [exec_ldi_of_served (State.fifoShort_of_served nofun fun _ h => Option.some.inj h ▸ hw),
      State.finishReg_of_refused (regAccepts_pointer hr hv)]
  keeps := .rfl
  names _ _ := rfl
  locs := s.pointerLocs_names hr
  rams := Instr.writes_inRam s nofun nofun nofun

theorem exec_ldn_refused {m : BitVec 20} (hm : v = m.signExtend 32) (s : State) : s.RefusedAt (.ldn r m) s where
  raises := by
    subst hm
    have hw := s.canWrite_pointer hr
    have hs : s.fifoShort (.ldn r m) = false := State.fifoShort_of_served nofun fun _ h => Option.some.inj h ▸ hw
    rw [exec, execLdn, State.unlessShort_of_served _ _ hs,
      State.finishReg_of_refused (regAccepts_pointer hr hv)]
  keeps := .rfl
  names _ _ := rfl
  locs := s.pointerLocs_names hr
  rams := Instr.writes_inRam s nofun nofun nofun

theorem exec_mov_refused {x : Reg6} (hx : x.readable = true) (hc : s.canRead x) (he : v = s.regVal x) :
    s.RefusedAt (.mov x r) (s.afterRegRead x) where
  raises := by
    have hw := s.canWrite_pointer hr
    rw [exec_mov_of_served (State.fifoShort_of_served (fun _ h => Option.some.inj h ▸ hc)
      fun _ h => Option.some.inj h ▸ hw) hx, ← he, State.finishReg_of_refused (regAccepts_pointer hr hv)]
  keeps := State.opKeeps_afterRegRead hc
  names _ hk := State.inspect_afterRegRead fun h => hk (List.mem_append_left _ h)
  locs := by
    rw [Instr.writes, List.flatMap_append]
    exact append_subset_of_subset (regReadLocs_names x) (s.pointerLocs_names hr)
  rams := Instr.writes_inRam s nofun nofun nofun

section
variable {bank : MemBank} {ea : Word} {p : Place} (hp : s.memLoc bank ea = .ok p) (hpv : v = s.placeVal p)
include hp hpv

theorem State.loadReg_of_refused (hc : u.cfg = s.cfg) (he : u.eb = s.eb) (hpu : u.placeVal p = s.placeVal p) :
    u.loadReg i s bank ea r = (u.afterLoad p).raiseTransfer i s := by
  have hp : u.memLoc bank ea = .ok p := (State.memLoc_congr hc he ..).trans hp
  simp only [State.loadReg, hp, hpu, ← hpv, State.finishReg_of_refused (regAccepts_pointer hr hv)]

theorem exec_ld1_refused {m : AddrMode} {x : Fin 8} (hea : ea = s.ea1 x m) :
    s.RefusedAt (.ld1 r bank m x) ((s.afterEa1 x m).afterLoad p) where
  raises := by
    have hpu : (s.afterEa1 x m).placeVal p = s.placeVal p := by cases m <;> cases p <;> rfl
    rw [exec_ld1_of_served (s.canWrite_pointer hr), ← hea,
      State.loadReg_of_refused hr hv hp hpv (by simp) (by simp) hpu]
  keeps := (s.opKeeps_afterEa1 x m).trans (State.opKeeps_afterLoad _ p)
  names k hk := by
    subst hea
    simp only [State.transferNames, List.mem_append, not_or] at hk
    obtain ⟨⟨hm, hw⟩, -⟩ := hk
    rw [State.inspect_afterLoad hp hw, State.inspect_afterEa1 hm]
  locs := by
    rw [Instr.writes, List.flatMap_append, List.flatMap_append]
    exact append_subset_of_subset (append_subset_of_subset (mode1Locs_names x m) (s.loadLocs_names ..))
      (s.pointerLocs_names hr)
  rams := Instr.writes_inRam s nofun nofun nofun

theorem exec_ld2_refused {x : Fin 8} {d : BitVec 14} (hea : ea = s.ea x d) :
    s.RefusedAt (.ld2 r bank x d) (s.afterLoad p) where
  raises := by
    rw [exec_ld2_of_served (s.canWrite_pointer hr), ← hea, State.loadReg_of_refused hr hv hp hpv rfl rfl rfl]
  keeps := s.opKeeps_afterLoad p
  names k hk := State.inspect_afterLoad hp (fun h => hk (List.mem_append_left _ (hea ▸ h))) s
  locs := by
    rw [Instr.writes, List.flatMap_append]
    exact append_subset_of_subset (s.loadLocs_names ..) (s.pointerLocs_names hr)
  rams := Instr.writes_inRam s nofun nofun nofun

end

end

/-! ## The fault of a refused write (60_exceptions R350, R352) -/

theorem Params.transferInfo_reference {p : Params} (h : p.encoding = []) (w : DWord) : p.transferInfo w =
    if w.extractLsb' 61 3 = 4 ∨ w.extractLsb' 61 3 = 5 then (w.extractLsb' 0 41).toNat
    else (w.extractLsb' 0 26).toNat := by
  simp [Params.transferInfo, h]

theorem State.RefusedAt.faultInfo (h : s.RefusedAt i u) :
    u.faultInfo .unimplementedTransfer u.currentTransferField =
      { kind := .unimplementedTransfer, code := 4, pc := s.pc, raw := s.currentRaw,
        info := s.currentRaw.map s.cfg.transferInfo } := by
  have hrun := h.keeps.run
  have hlaunch := h.keeps.launch
  simp only [State.runPart, State.launchPart, Prod.mk.injEq] at hrun hlaunch
  obtain ⟨hpc, -, -, hcur⟩ := hrun
  obtain ⟨-, -, -, -, hcfg⟩ := hlaunch
  have hraw : u.currentRaw = s.currentRaw := by simp only [State.currentRaw, State.current, hcur]
  simp only [State.faultInfo, State.currentTransferField, hraw, hpc, hcfg, FaultKind.code]

/-- Past the fault no register is changed but those that the op names. -/
theorem State.RefusedAt.inspect (h : s.RefusedAt i u) {k : RegName} (hk : k ∉ s.transferNames i)
    (f : FaultKind) (info : Option Nat) : (u.raiseOp i s f info).inspect k = s.inspect k := by
  refine (State.inspect_havocAll fun l hl hn => hk (h.locs (List.mem_flatMap.2 ⟨l, hl, hn⟩))).trans ?_
  rw [State.inspect_takeFault, h.names k hk]

end

/-- Settles O31: each form is refused at its register write. -/
theorem pointerWriteFaults : Obligations.PointerWriteFaults := by
  intro i r v s hr hv hform
  obtain ⟨u, h⟩ : ∃ u, s.RefusedAt i u := by
    obtain rfl | ⟨m, hm, rfl⟩ | ⟨x, h0, h1, hc, he, rfl⟩ | ⟨bank, ea, hload, hplace⟩ := hform
    · exact ⟨s, exec_ldi_refused hr hv s⟩
    · exact ⟨s, exec_ldn_refused hr hv hm s⟩
    · exact ⟨_, exec_mov_refused hr hv (Reg6.readable_of_ne h0 h1) hc he⟩
    · obtain ⟨p, hp, hpv⟩ : ∃ p, s.memLoc bank ea = .ok p ∧ v = s.placeVal p := by
        obtain ⟨rfl, hlo, hin, hval⟩ | ⟨rfl, hin, hval⟩ | ⟨rfl, hhi, hval, w, hw, ha⟩ := hplace
        · exact ⟨_, s.memLoc_ramA hlo hin, hval⟩
        · exact ⟨_, s.memLoc_ramB hin, hval⟩
        · exact ⟨_, State.memLoc_window hhi hw ha, hval⟩
      obtain ⟨m, x, rfl, hea⟩ | ⟨x, d, rfl, hea⟩ := hload
      · exact ⟨_, exec_ld1_refused hr hv hp hpv hea⟩
      · exact ⟨_, exec_ld2_refused hr hv hp hpv hea⟩
  have hx := h.raises
  obtain ⟨hA, hB⟩ := exec_ramsWithin hx
  refine ⟨_, _, hx, by simp, by rw [State.raiseOp_faultRec, h.faultInfo], rfl, rfl, rfl, rfl, rfl,
    fun he w hw => ?_, by simp, by simp, by simp, fun k hk => h.inspect hk _ _,
    hA.eq_of_empty fun _ => ramA_not_mem h.rams, hB.eq_of_empty fun _ => ramB_not_mem h.rams⟩
  rw [hw, Option.map_some, Params.transferInfo_reference he]

end Sys2Proof.Machine
end

section
/-!
PROOFS. What the end of an ALU op does (41_alu R200): the result is delivered, and every computed flag is settled by
the lazy-flag rule (40_bundle R165).
-/

namespace Sys2Proof.Machine

section
variable {s t u : State} {f : Flag} {v : Bool}

/-! ## Settled flags (40_bundle R165) -/

/-- The lazy-flag rule asks of the state before only the bundle under way, the launch and the flag itself. -/
theorem State.settles_congr (hc : u.cur = s.cur) (hg : u.cfg = s.cfg) (hf : u.getFlag f = s.getFlag f) :
    u.settles t f v ↔ s.settles t f v := by
  have hr : u.required f = s.required f := by simp only [State.required, State.current, hc]
  simp only [State.settles, hr, hg, hf]

/-- The lazy-flag rule asks of the state after only the flag itself. -/
theorem State.settles_of_getFlag_eq (h : u.getFlag f = t.getFlag f) (ht : s.settles t f v) : s.settles u f v := by
  unfold State.settles at ht ⊢
  rwa [h]

/-- Flag writes in a row settle each of their flags, where no flag is written twice. -/
theorem State.putFlags_settles (s : State) {l : List (Flag × Bool)} (hl : (l.map Prod.fst).Nodup) :
    ∀ p ∈ l, s.settles (s.putFlags l) p.1 p.2 := by
  induction l generalizing s with
  | nil => simp
  | cons q l ih =>
    obtain ⟨hq, hl⟩ := List.nodup_cons.1 hl
    intro p hp
    obtain rfl | hp := List.mem_cons.1 hp
    · exact State.settles_of_getFlag_eq ((s.putFlag p.1 p.2).getFlag_putFlags_of_not_mem hq)
        (s.putFlag_settles p.1 p.2)
    · have hne : p.1 ≠ q.1 := fun h => hq (h ▸ List.mem_map_of_mem hp)
      exact (State.settles_congr (by simp) (by simp) (s.getFlag_putFlag_of_ne q.2 hne)).1
        (ih (s.putFlag q.1 q.2) hl p hp)

/-! ## The state that an op's writes start from -/

/-- The part of the state before an op that the delivery of its result and its flags are told against. -/
def State.unitPart (s : State) :
    List Pending × Vector Word 24 × PrIndex × Vector Bool 14 × Option Cur × Params :=
  (s.scratch, s.pr, s.pwp, s.flags, s.cur, s.cfg)

theorem State.unitPart_afterAluSrc2 (s : State) (o : AluSrc2) : (s.afterAluSrc2 o).unitPart = s.unitPart := by
  simp [State.unitPart]

theorem State.settles_of_unitPart (h : u.unitPart = s.unitPart) : u.settles t f v ↔ s.settles t f v := by
  simp only [State.unitPart, Prod.mk.injEq] at h
  obtain ⟨-, -, -, hf, hc, hg⟩ := h
  exact State.settles_congr hc hg (by rw [State.getFlag, hf, State.getFlag])

theorem State.aluDelivers_of_unitPart {d : AluDst} {w : Word} (h : u.unitPart = s.unitPart) :
    u.aluDelivers t d w ↔ s.aluDelivers t d w := by
  simp only [State.unitPart, Prod.mk.injEq] at h
  obtain ⟨hs, hr, hw, -⟩ := h
  simp only [State.aluDelivers, State.bankDelivers, State.prDelivers, State.noneDelivered, hs, hr, hw]

/-! ## The end of an ALU op (41_alu R200) -/

theorem State.prDelivers_prWrite (s : State) (m : PrMode) (w : Word) : s.prDelivers (s.prWrite m w) m w :=
  ⟨rfl, by simp, fun j hj => by simp [Fin.val_ne_of_ne hj.symm], PrMode.move_val s.pwp m⟩

theorem State.aluDelivers_aluWrite (s : State) (w : Word) (d : AluDst) : s.aluDelivers (s.aluWrite w d) d w := by
  cases d with
  | aa | ab => exact ⟨rfl, rfl, rfl⟩
  | pr m => exact s.prDelivers_prWrite m w
  | discard => exact ⟨rfl, rfl, rfl⟩

/-- Flag writes do not touch what is delivered. -/
theorem State.aluDelivers_putFlags {d : AluDst} {w : Word} (l : List (Flag × Bool)) (h : s.aluDelivers t d w) :
    s.aluDelivers (t.putFlags l) d w := by
  simpa [State.aluDelivers, State.bankDelivers, State.prDelivers, State.noneDelivered] using h

theorem State.prp_afterAluSrc2 (s : State) (o : AluSrc2) : (s.afterAluSrc2 o).prp.val = s.prpAfterAlu o := by
  cases o with
  | pr m => exact PrMode.move_val s.prp m
  | aa | ab | zero | one | minusOne | ma => rfl

/-- An ALU op, from where its operands are read: it delivers the result, PRP is as the read of AI2 left it, and the
flags of the result are settled. -/
theorem State.aluFinish_ends {o : AluSrc2} {r : Result} {l : List (Flag × Bool)} (hu : u.unitPart = s.unitPart)
    (hp : u.prp.val = s.prpAfterAlu o) (hr : r.flags = l) (hl : (l.map Prod.fst).Nodup) (d : AluDst) :
    s.aluDelivers (u.aluFinish r d) d r.val ∧ (u.aluFinish r d).prp.val = s.prpAfterAlu o ∧
      ∀ p ∈ l, s.settles (u.aluFinish r d) p.1 p.2 := by
  subst hr
  refine ⟨(State.aluDelivers_of_unitPart hu).1 (State.aluDelivers_putFlags _ (u.aluDelivers_aluWrite r.val d)),
    by simpa [State.aluFinish] using hp, fun p hm => ?_⟩
  have hw : (u.aluWrite r.val d).settles (u.aluFinish r d) p.1 p.2 := State.putFlags_settles _ hl p hm
  refine (State.settles_of_unitPart hu).1 ((State.settles_congr ?_ ?_ ?_).1 hw)
  all_goals simp [State.getFlag]

end

end Sys2Proof.Machine
end

section
/-!
PROOFS. The integer ops of the ALU (41_alu R202, R203): the sign tests for overflow, and the clamp of a sum.
-/

namespace Sys2Proof.Machine

/-! ## Signed overflow of a word -/

theorem toInt_bounds (a : Word) : -2 ^ 31 ≤ a.toInt ∧ a.toInt < 2 ^ 31 :=
  ⟨BitVec.le_toInt a, BitVec.toInt_lt⟩

/-- The sign test for the overflow of a sum (41_alu R202). -/
theorem add_overflow_eq (a b : Word) :
    (a.msb == b.msb && (a + b).msb != a.msb) = decide ((a + b).toInt ≠ a.toInt + b.toInt) := by
  have ho : (a.msb == b.msb && (a + b).msb != a.msb) = a.saddOverflow b := (BitVec.saddOverflow_eq a b).symm
  have := toInt_bounds (a + b)
  rw [ho]
  cases h : a.saddOverflow b with
  | false => rw [BitVec.toInt_add_of_not_saddOverflow (by simp [h])]; simp
  | true =>
    have : a.toInt + b.toInt ≥ 2 ^ 31 ∨ a.toInt + b.toInt < -2 ^ 31 := by simpa [BitVec.saddOverflow] using h
    exact (decide_eq_true (by omega)).symm

/-- The sign test for the overflow of a difference (41_alu R203). -/
theorem sub_overflow_eq (a b : Word) :
    (a.msb != b.msb && (a - b).msb != a.msb) = decide ((a - b).toInt ≠ a.toInt - b.toInt) := by
  have ho : (a.msb != b.msb && (a - b).msb != a.msb) = a.ssubOverflow b := by
    rw [BitVec.ssubOverflow_eq]
    cases a.msb <;> cases b.msb <;> simp
  have := toInt_bounds (a - b)
  rw [ho]
  cases h : a.ssubOverflow b with
  | false => rw [BitVec.toInt_sub_of_not_ssubOverflow (by simp [h])]; simp
  | true =>
    have : a.toInt - b.toInt ≥ 2 ^ 31 ∨ a.toInt - b.toInt < -2 ^ 31 := by simpa [BitVec.ssubOverflow] using h
    exact (decide_eq_true (by omega)).symm

/-- A clamp within the range of a word is the value of its word. -/
theorem toInt_ofInt_clampInt {lo hi : Int} (hl : -2 ^ 31 ≤ lo) (hlh : lo ≤ hi) (hh : hi < 2 ^ 31) (i : Int) :
    (BitVec.ofInt 32 (clampInt i lo hi)).toInt = clampInt i lo hi := by
  have h : lo ≤ clampInt i lo hi ∧ clampInt i lo hi ≤ hi := by unfold clampInt; omega
  exact BitVec.toInt_ofInt_eq_self (by decide) (hl.trans h.1) (h.2.trans_lt hh)

/-! ## ADD and CMP (41_alu R202, R203) -/

theorem addResult_wraps (a b : Word) : (addResult false a b).val.toNat = (a.toNat + b.toNat) % 2 ^ 32 :=
  BitVec.toNat_add a b

theorem addResult_clamps (a b : Word) :
    (addResult true a b).val.toInt = min (max (a.toInt + b.toInt) (-2 ^ 31)) (2 ^ 31 - 1) :=
  toInt_ofInt_clampInt (by decide) (by decide) (by decide) _

/-- ADD's flags are tests of its result as an integer, in either setting of ADD_SAT. -/
theorem addResult_flags (sat : Bool) (a b : Word) :
    let r := (addResult sat a b).val
    (addResult sat a b).flags =
      [(.an, decide (r.toInt < 0)), (.az, decide (r = 0)), (.av, decide (r.toInt ≠ a.toInt + b.toInt))] := by
  intro r
  have hv : (if sat then decide (a.toInt + b.toInt ≠ r.toInt) else a.msb == b.msb && r.msb != a.msb) =
      decide (r.toInt ≠ a.toInt + b.toInt) := by
    cases sat with
    | false => exact add_overflow_eq a b
    | true => exact decide_eq_decide.2 ne_comm
  rw [← hv, ← BitVec.msb_eq_toInt]
  rfl

/-- CMP's flags are tests of the difference as an integer, and the two draws. -/
theorem cmpFlags_eq (a b : Word) (au ad : Bool) : cmpFlags a b au ad =
    [(.an, decide ((a - b).toInt < 0)), (.az, decide (a = b)),
      (.av, decide ((a - b).toInt ≠ a.toInt - b.toInt)), (.au, au), (.ad, ad)] := by
  rw [← sub_overflow_eq, ← BitVec.msb_eq_toInt]
  rfl

end Sys2Proof.Machine

namespace Sys2Proof
open Machine

/-- Settles O11: ADD ends as an ALU op, with the result and the flags of `addResult`. -/
theorem addResult : Obligations.AddResult := by
  intro s1 s2 d s
  obtain ⟨hd, hp, hf⟩ := State.aluFinish_ends (s.unitPart_afterAluSrc2 s2) (s.prp_afterAluSrc2 s2)
    (addResult_flags s.cfg.addSat (s.aluSrc1 s1) (s.aluSrc2 s2)) (by simp) d
  simp only [List.forall_mem_cons] at hf
  obtain ⟨hn, hz, hv, -⟩ := hf
  exact ⟨_, _, rfl, hd, hp, fun h => by rw [h]; exact addResult_wraps .., fun h => by rw [h]; exact addResult_clamps ..,
    hn, hz, hv⟩

/-- Settles O12: CMP ends as an ALU op that discards its result, with two draws for AU and AD. -/
theorem cmpResult : Obligations.CmpResult := by
  intro s1 s2 s
  let u := s.afterAluSrc2 s2
  obtain ⟨hd, hp, hf⟩ := State.aluFinish_ends (u := u.drew.drew) (s.unitPart_afterAluSrc2 s2) (s.prp_afterAluSrc2 s2)
    (r := ⟨0, _⟩) (cmpFlags_eq (s.aluSrc1 s1) (s.aluSrc2 s2) (Config.freeBit u.draws) (Config.freeBit (u.draws + 1)))
    (by simp) .discard
  simp only [List.forall_mem_cons] at hf
  obtain ⟨hn, hz, hv, hau, had, -⟩ := hf
  exact ⟨_, _, _, rfl, hd, hp, hn, hz, hv, hau, had⟩

end Sys2Proof
end

section
/-!
PROOFS. The conversions of the ALU (41_alu R204, R205): the sign of a rounded integer, and the clamp of a rounded
float.
-/

namespace Sys2Proof.Machine

/-! ## CIF (41_alu R204) -/

theorem roundMagnitude_le (rm : RoundMode) (m x : Nat) : roundMagnitude rm m x ≤ 0x7F800000 := by
  by_cases h : roundBits rm m x < 0x7F800000
  · rw [roundMagnitude_of_lt h]; exact h.le
  · cases rm with
    | nearestEven => exact (if_neg h).le
    | towardZero => exact (if_neg h).trans_le (by decide)

/-- A rounded integer has the sign of the integer. -/
theorem roundToBinary32_msb (rm : RoundMode) (i : Int) : (roundToBinary32 rm i).msb = decide (i < 0) := by
  unfold roundToBinary32
  split
  next h => subst h; rfl
  next => exact f32Pack_msb ((roundMagnitude_le rm i.natAbs 298).trans_lt (by decide))

theorem cifResult_flags (rm : RoundMode) (a : Word) :
    (cifResult rm a).flags = [(.an, decide (a.toInt < 0)), (.az, decide (a.toInt = 0))] := by
  rw [← roundToBinary32_msb rm]
  rfl

/-! ## CFI (41_alu R205) -/

theorem toInt_ofInt_sat24 (i : Int) : (BitVec.ofInt 32 (sat24 i)).toInt = sat24 i :=
  toInt_ofInt_clampInt (by decide) (by decide) (by decide) i

theorem cfiResult_of_nan {v : Word} (h : f32IsNaN v = true) (rm : RoundMode) (free : Word) :
    cfiResult rm free v = (free, true) := if_pos h

theorem cfiResult_of_inf {v : Word} (hn : ¬f32IsNaN v = true) (h : f32IsInf v = true) (rm : RoundMode) (free : Word) :
    cfiResult rm free v = (if v.msb then 0xFF800000 else 0x007FFFFF, true) := by
  rw [cfiResult, if_neg hn, if_pos h]
  cases v.msb <;> rfl

theorem cfiResult_of_finite {v : Word} (hn : ¬f32IsNaN v = true) (h : ¬f32IsInf v = true) (rm : RoundMode)
    (free : Word) : (cfiResult rm free v).1.toInt = sat24 (roundToInteger rm v) ∧
      (cfiResult rm free v).2 = decide ((cfiResult rm free v).1.toInt ≠ roundToInteger rm v) := by
  rw [cfiResult, if_neg hn, if_neg h]
  exact ⟨toInt_ofInt_sat24 _, by rw [toInt_ofInt_sat24]⟩

theorem cfiFlagged_flags (rm : RoundMode) (free a : Word) :
    let r := (cfiFlagged rm free a).val
    (cfiFlagged rm free a).flags =
      [(.av, (cfiResult rm free a).2), (.an, decide (r.toInt < 0)), (.az, decide (r = 0))] := by
  intro r
  rw [← BitVec.msb_eq_toInt]
  rfl

end Sys2Proof.Machine

namespace Sys2Proof
open Machine

/-- Settles O13: CIF ends as an ALU op, and rounding keeps the sign. -/
theorem cifResult : Obligations.CifResult := by
  intro o d s
  obtain ⟨hd, hp, hf⟩ := State.aluFinish_ends (s.unitPart_afterAluSrc2 o) (s.prp_afterAluSrc2 o)
    (cifResult_flags s.roundMode (s.aluSrc2 o)) (by simp) d
  simp only [List.forall_mem_cons] at hf
  obtain ⟨hn, hz, -⟩ := hf
  exact ⟨_, rfl, hp, hd, hn, hz⟩

/-- Settles O14: CFI ends as an ALU op, and its result is that of a NaN, of an infinity or of a finite value. -/
theorem cfiResult : Obligations.CfiResult := by
  intro o d s
  let u := s.afterAluSrc2 o
  obtain ⟨hd, hp, hf⟩ := State.aluFinish_ends (u := u.drew) (s.unitPart_afterAluSrc2 o) (s.prp_afterAluSrc2 o)
    (cfiFlagged_flags s.roundMode u.freeWord (s.aluSrc2 o)) (by simp) d
  simp only [List.forall_mem_cons] at hf
  obtain ⟨hv, hn, hz, -⟩ := hf
  refine ⟨_, _, _, rfl, hd, hp, hv, hn, hz, ?_⟩
  simp only [cfiFlagged]
  split
  next h => rw [cfiResult_of_nan h]
  next hn =>
    split
    next h => rw [cfiResult_of_inf hn h]; exact ⟨rfl, rfl⟩
    next h => exact cfiResult_of_finite hn h s.roundMode u.freeWord

end Sys2Proof
end

section
/-!
PROOFS. What the operand forms read (41_alu R200, 42_mul R230, 43_transfer R250), and the NOPs.
-/

namespace Sys2Proof.Machine

/-- A pointer of the ring as a transferred word. -/
theorem PrIndex.toNat_ofNat (p : PrIndex) : (BitVec.ofNat 32 p.val).toNat = p.val :=
  Nat.mod_eq_of_lt (p.isLt.trans (by decide))

/-- ReadReg of FI answers the low half of the oldest word. -/
theorem State.regVal_fi_toNat (s : State) : (s.regVal .fi).toNat = s.fi.data[s.fi.rpos].toNat % 2 ^ 32 := by
  simp [State.regVal, Fifo.front]

/-- Settles O8: the operand forms read their register; FI and the pointers by their numbers. -/
theorem operandTables : Obligations.OperandTables := fun s _ _ =>
  ⟨rfl, rfl, rfl, rfl, rfl, rfl, rfl, rfl, rfl,
    rfl, rfl, rfl, rfl, rfl, rfl,
    rfl, rfl, rfl, rfl, rfl, rfl, rfl, rfl, rfl, rfl, rfl, rfl, s.regVal_fi_toNat, PrIndex.toNat_ofNat s.prp,
    PrIndex.toNat_ofNat s.pwp⟩

/-- Settles O19: each NOP of the four slots answers the state it was given. -/
theorem nopsDoNothing : Obligations.NopsDoNothing := fun _ => ⟨rfl, rfl, rfl, rfl, rfl⟩

end Sys2Proof.Machine
end

section
/-!
PROOFS. What the end of a MUL op does (42_mul R230), the clamped product of MUL (R233), and the reference value of
`FMUL_FN` (R232).
-/

namespace Sys2Proof.Machine

/-! ## The end of a MUL op (42_mul R230) -/

section
variable {s u : State}

theorem State.unitPart_afterMulSrc2 (s : State) (o : MulSrc2) : (s.afterMulSrc2 o).unitPart = s.unitPart := by
  cases o <;> rfl

theorem State.prp_afterMulSrc2 (s : State) (o : MulSrc2) : (s.afterMulSrc2 o).prp.val = s.prpAfterMul o := by
  cases o with
  | pr m => exact PrMode.move_val s.prp m
  | ab | mb | const => rfl

theorem State.mulDelivers_mulWrite (s : State) (w : Word) (d : MulDst) : s.mulDelivers (s.mulWrite w d) d w := by
  cases d with
  | ma | mb | discard => exact ⟨rfl, rfl, rfl⟩
  | pr m => exact s.prDelivers_prWrite m w

theorem State.mulDelivers_mulFinish (h : u.unitPart = s.unitPart) (r : Result) (d : MulDst) :
    s.mulDelivers (u.mulFinish r d) d r.val := by
  have hw := u.mulDelivers_mulWrite r.val d
  simp only [State.unitPart, Prod.mk.injEq] at h
  obtain ⟨hs, hr, hp, -⟩ := h
  simpa [State.mulFinish, State.mulDelivers, State.bankDelivers, State.prDelivers, State.noneDelivered, hs, hr, hp]
    using hw

theorem State.mulFinish_settles {r : Result} (h : u.unitPart = s.unitPart) (hl : (r.flags.map Prod.fst).Nodup)
    (d : MulDst) : ∀ p ∈ r.flags, s.settles (u.mulFinish r d) p.1 p.2 := by
  intro p hm
  have hw : (u.mulWrite r.val d).settles (u.mulFinish r d) p.1 p.2 := State.putFlags_settles _ hl p hm
  refine (State.settles_of_unitPart h).1 ((State.settles_congr ?_ ?_ ?_).1 hw)
  all_goals simp [State.getFlag]

/-- A MUL op, from where its operands are read: it delivers the result, PRP is as the read of MI2 left it, and the
flags of the result are settled. -/
theorem State.mulFinish_ends {o : MulSrc2} {r : Result} {l : List (Flag × Bool)} (hu : u.unitPart = s.unitPart)
    (hp : u.prp.val = s.prpAfterMul o) (hr : r.flags = l) (hl : (l.map Prod.fst).Nodup) (d : MulDst) :
    s.mulDelivers (u.mulFinish r d) d r.val ∧ (u.mulFinish r d).prp.val = s.prpAfterMul o ∧
      ∀ p ∈ l, s.settles (u.mulFinish r d) p.1 p.2 := by
  subst hr
  exact ⟨State.mulDelivers_mulFinish hu r d, by simpa [State.mulFinish] using hp, State.mulFinish_settles hu hl d⟩

end

/-! ## MUL (42_mul R233) -/

theorem mulResult_val_toInt (a b : Word) : (mulResult a b).val.toInt = sat24 (a.toInt * b.toInt) :=
  toInt_ofInt_sat24 _

/-- MUL's flags are tests of its result as an integer. -/
theorem mulResult_flags (a b : Word) :
    let r := (mulResult a b).val
    (mulResult a b).flags =
      [(.mv, decide (r.toInt ≠ a.toInt * b.toInt)), (.mn, decide (r.toInt < 0)), (.mz, decide (r = 0))] := by
  intro r
  rw [← BitVec.msb_eq_toInt, mulResult_val_toInt]
  rfl

/-! ## Kinds of patterns (00_scope R15) -/

theorem f32IsNaN_iff {v : Word} : f32IsNaN v = true ↔ 0x7F800000 < f32Bits v := by
  have := f32Bits_lt v
  simp only [f32IsNaN, f32Exp_eq, f32Frac_eq, Bool.and_eq_true, beq_iff_eq, bne_iff_ne]; omega

theorem f32IsZero_eq_decide (v : Word) : f32IsZero v = decide (v = 0 ∨ v = 0x80000000) := by
  rw [Bool.eq_iff_iff, f32IsZero_iff, decide_eq_true_iff, f32Bits]
  bv_omega

theorem not_inf_of_nan {v : Word} (h : f32IsNaN v = true) : f32IsInf v = false := by
  have := f32IsNaN_iff.1 h
  rw [← Bool.not_eq_true, f32IsInf_iff]
  omega

theorem not_zero_of_nan {v : Word} (h : f32IsNaN v = true) : f32IsZero v = false := by
  have := f32IsNaN_iff.1 h
  rw [← Bool.not_eq_true, f32IsZero_iff]
  omega

theorem f32Exp_or_of_ones (v : Word) {c : Word} (h : c.extractLsb' 23 8 = BitVec.allOnes 8) :
    f32Exp (v ||| c) = 255 := by
  rw [f32Exp, BitVec.extractLsb'_or, h, BitVec.or_allOnes]; rfl

theorem f32Frac_or (v w : Word) : f32Frac (v ||| w) = f32Frac v ||| f32Frac w := by
  rw [f32Frac, BitVec.extractLsb'_or, BitVec.toNat_or]; rfl

/-- The draw keeps its fraction, unless that is 0: then the quiet bit makes it a NaN. -/
theorem someNaN_isNaN (w : Word) : f32IsNaN (someNaN w) = true := by
  unfold someNaN f32IsNaN
  split
  next h => rw [f32Exp_or_of_ones w (by decide), f32Frac_or, h]; rfl
  next h =>
    have hf : f32Frac (w ||| 0x7F800000) = f32Frac w := (f32Frac_or ..).trans (Nat.or_zero _)
    rw [f32Exp_or_of_ones w (by decide), hf]
    simpa using h

/-! ## `FMUL_FN` (42_mul R232) -/

section
variable {a b : Word} (w : Word) (n : Bool)

theorem fmulIsNaN_iff : fmulIsNaN a b = true ↔ f32IsNaN a = true ∨ f32IsNaN b = true ∨
    (f32IsInf a = true ∧ f32IsZero b = true) ∨ (f32IsZero a = true ∧ f32IsInf b = true) := by
  simp only [fmulIsNaN, Bool.or_eq_true, Bool.and_eq_true, or_assoc]

theorem fmulFn_of_nan (h : fmulIsNaN a b = true) : fmulFn w n a b =
    { r := someNaN w, n := n, z := false, v := false, u := false, d := f32IsSubnormal a || f32IsSubnormal b } :=
  if_pos h

theorem fmulFn_of_not_nan (h : ¬fmulIsNaN a b = true) : fmulFn w n a b =
    { r := fmulProduct a b, n := (fmulProduct a b).msb, z := f32IsZero (fmulProduct a b),
      v := f32IsInf (fmulProduct a b) && f32IsFinite a && f32IsFinite b,
      u := !f32IsZero a && !f32IsZero b && (f32IsSubnormal (fmulProduct a b) || f32IsZero (fmulProduct a b)),
      d := f32IsSubnormal a || f32IsSubnormal b } :=
  if_neg h

variable (a b)

theorem fmulFn_z : (fmulFn w n a b).z =
    decide ((fmulFn w n a b).r = 0 ∨ (fmulFn w n a b).r = 0x80000000) := by
  rw [← f32IsZero_eq_decide]
  by_cases h : fmulIsNaN a b = true
  · rw [fmulFn_of_nan w n h]; exact (not_zero_of_nan (someNaN_isNaN w)).symm
  · rw [fmulFn_of_not_nan w n h]

theorem fmulFn_v : (fmulFn w n a b).v = (f32IsInf (fmulFn w n a b).r && f32IsFinite a && f32IsFinite b) := by
  by_cases h : fmulIsNaN a b = true
  · rw [fmulFn_of_nan w n h, not_inf_of_nan (someNaN_isNaN w)]; rfl
  · rw [fmulFn_of_not_nan w n h]

theorem fmulFn_u : (fmulFn w n a b).u =
    (decide (¬fmulIsNaN a b = true ∧ f32IsZero a = false ∧ f32IsZero b = false) &&
      (f32IsSubnormal (fmulFn w n a b).r || f32IsZero (fmulFn w n a b).r)) := by
  by_cases h : fmulIsNaN a b = true
  · rw [fmulFn_of_nan w n h]; simp [h]
  · rw [fmulFn_of_not_nan w n h]; simp [h]

theorem fmulFn_d : (fmulFn w n a b).d = (f32IsSubnormal a || f32IsSubnormal b) := by
  by_cases h : fmulIsNaN a b = true
  · rw [fmulFn_of_nan w n h]
  · rw [fmulFn_of_not_nan w n h]

variable {a b} {p : Params}

theorem fmulOf_of_lookup {f : FmulResult} (h : p.fmulTable.lookup (a, b) = some f) : fmulOf p w n a b = f := by
  rw [fmulOf, h]; rfl

theorem fmulOf_of_lookup_none (h : p.fmulTable.lookup (a, b) = none) : fmulOf p w n a b = fmulFn w n a b := by
  rw [fmulOf, h]; rfl

end

/-- The five flags that `FMUL_FN` answers, as the op writes them. -/
theorem fmulResult_flags (p : Params) (w : Word) (n : Bool) (a b : Word) :
    let f := fmulOf p w n a b
    (fmulResult p w n a b).flags = [(.mn, f.n), (.mz, f.z), (.mv, f.v), (.mu, f.u), (.md, f.d)] := rfl

end Sys2Proof.Machine

namespace Sys2Proof
open Machine

/-- Settles O16: MUL ends as a MUL op, with the result and the flags of `mulResult`. -/
theorem mulResult : Obligations.MulResult := by
  intro s1 s2 d s
  obtain ⟨hd, hp, hf⟩ := State.mulFinish_ends (s.unitPart_afterMulSrc2 s2) (s.prp_afterMulSrc2 s2)
    (mulResult_flags (s.mulSrc1 s1) (s.mulSrc2 s2)) (by simp) d
  simp only [List.forall_mem_cons] at hf
  obtain ⟨hv, hn, hz, -⟩ := hf
  exact ⟨_, _, rfl, hd, hp, mulResult_val_toInt .., hv, hn, hz⟩

/-- Settles O17: FMUL ends as a MUL op with what `FMUL_FN` answers, which is what the launch names or the
reference value with two draws. -/
theorem fmulResult : Obligations.FmulResult := by
  refine ⟨rfl, fun s1 s2 d s => ?_⟩
  let u := s.afterMulSrc2 s2
  let w := u.freeWord
  let n := Config.freeBit (u.draws + 1)
  let f := fmulOf s.cfg w n (s.mulSrc1 s1) (s.mulSrc2 s2)
  obtain ⟨hd, hp, hf⟩ := State.mulFinish_ends (u := u.drew.drew) (s.unitPart_afterMulSrc2 s2) (s.prp_afterMulSrc2 s2)
    (fmulResult_flags s.cfg w n (s.mulSrc1 s1) (s.mulSrc2 s2)) (by simp) d
  simp only [List.forall_mem_cons] at hf
  obtain ⟨hn, hz, hv, hu, hm, -⟩ := hf
  refine ⟨_, f.r, f.n, rfl, hd, hp, ?_⟩
  split
  next h =>
    rw [fmulOf_of_lookup w n h] at hn hz hv hu hm
    exact ⟨congrArg FmulResult.r (fmulOf_of_lookup w n h), hn, hz, hv, hu, hm⟩
  next h =>
    have hof : f = fmulFn w n (s.mulSrc1 s1) (s.mulSrc2 s2) := fmulOf_of_lookup_none w n h
    rw [fmulOf_of_lookup_none w n h] at hn hz hv hu hm
    rw [fmulFn_z] at hz
    rw [fmulFn_v] at hv
    rw [fmulFn_u] at hu
    rw [fmulFn_d] at hm
    simp only [← fmulIsNaN_iff, hof]
    exact ⟨fun h => by rw [fmulFn_of_nan w n h]; exact someNaN_isNaN w,
      fun h => by rw [fmulFn_of_not_nan w n h]; exact ⟨rfl, rfl⟩, hn, hz, hv, hu, hm⟩

end Sys2Proof
end

section
/-!
PROOFS. The frame of a transfer (spec/43_transfer.md): each part of one changes the named registers that it names
and no field but those a transfer may change; and what LDI and LDN write.
-/

namespace Sys2Proof.Machine

/-! ## Writes of a register and of EO (43_transfer R250, 20_memory R69) -/

section
variable {s : State} {k : RegName}

theorem State.inspect_setAr {n : Fin 8} (h : k ≠ .ar n) (v : Word) : (s.setAr n v).inspect k = s.inspect k := by
  have hp : s.setAr n v = s.poke (.ar n) v.toNat := by simp [State.poke]
  rw [hp, State.inspect_poke_of_ne _ h]

theorem State.inspect_setScalar {c : Scalar} (h : k ≠ .scalar c) (v : Word) :
    (s.setScalar c v).inspect k = s.inspect k := by
  have hp : s.setScalar c v = s.poke (.scalar c) v.toNat := by simp [State.poke]
  rw [hp, State.inspect_poke_of_ne _ h]

theorem State.inspect_prWrite (hr : k ≠ .pr s.pwp) (hp : k ≠ .pwp) (m : PrMode) (v : Word) :
    (s.prWrite m v).inspect k = s.inspect k := by
  have hw : s.prWrite m v = (s.poke (.pr s.pwp) v.toNat).poke .pwp (PrMode.move s.pwp m).val := by
    simp [State.prWrite, State.poke]
  rw [hw, State.inspect_poke_of_ne _ hp, State.inspect_poke_of_ne _ hr]

/-- A push writes the word at the cursor and moves the cursor and the fill count (10_state R34). -/
theorem State.inspect_setFifo_push {q : FifoId}
    (h : k ∉ [.fifoData q (s.getFifo q).wpos, .fifoWpos q, .fifoNum q]) (v : DWord) :
    (s.setFifo q ((s.getFifo q).push v)).inspect k = s.inspect k := by
  simp only [List.mem_cons, List.not_mem_nil, or_false, not_or] at h
  obtain ⟨hd, hw, hn⟩ := h
  refine State.inspect_setFifo (fun i hi => ?_) (fun _ => rfl) (absurd · hw) (absurd · hn)
  subst hi
  exact Vector.getElem_set_ne (s.getFifo q).wpos.isLt i.isLt fun e => hd (by rw [Fin.ext e])

theorem State.inspect_afterRegWrite {r : Reg6} (h : k ∉ s.writtenNames r) (v : Word) :
    (s.afterRegWrite v r).inspect k = s.inspect k := by
  cases r with
  | bank => exact State.inspect_congr rfl k
  | ar n => exact State.inspect_setAr (List.ne_of_not_mem_cons h) v
  | pr m =>
    exact State.inspect_prWrite (List.ne_of_not_mem_cons h)
      (List.ne_of_not_mem_cons (List.not_mem_of_not_mem_cons h)) m v
  | scalar c => exact State.inspect_setScalar (List.ne_of_not_mem_cons h) v
  | fi => rfl
  | fo0 => exact State.inspect_setFifo_push (q := .fo0) h _
  | fo1 => exact State.inspect_setFifo_push (q := .fo1) h _
  | prp | pwp => exact State.inspect_poke_of_ne v.toNat (List.ne_of_not_mem_cons h)

theorem State.inspect_drawEo (h : k ≠ .scalar .eo) : s.drawEo.inspect k = s.inspect k :=
  (State.inspect_congr (s := s.setScalar .eo s.freeWord) rfl k).trans (State.inspect_setScalar h _)

/-- Only a store through the window draws EO (20_memory R69). -/
theorem State.inspect_store {bank : MemBank} {ea : Word} {p : Place} (hp : s.memLoc bank ea = .ok p)
    (h : k ∉ windowNames bank ea) (v : Word) : (s.store v p).inspect k = s.inspect k := by
  cases p with
  | ramA | ramB => exact State.inspect_congr rfl k
  | ext a =>
    rw [State.window_of_memLoc hp] at h
    exact (State.inspect_drawEo (List.ne_of_not_mem_cons h)).trans (State.inspect_congr rfl k)

end

/-! ## The parts of a transfer -/

/-- `s` with all that a transfer may change taken from `t`: no bank, no flag, no stack entry and no PC. -/
def State.withTransferOf (s t : State) : State :=
  { s with scratch := t.scratch, ar := t.ar, pr := t.pr, prp := t.prp, pwp := t.pwp,
           eb := t.eb, eo := t.eo, sp := t.sp, mod := t.mod, pdr := t.pdr, ddr := t.ddr,
           fi := t.fi, fo0 := t.fo0, fo1 := t.fo1, ramA := t.ramA, ramB := t.ramB,
           extIn := t.extIn, extLog := t.extLog, draws := t.draws }

/-- `t` comes from `s` by parts of a transfer that change no named register but `ns`. -/
structure State.TransferKeeps (ns : List RegName) (s t : State) : Prop where
  names : ∀ k, k ∉ ns → t.inspect k = s.inspect k
  rest : t = s.withTransferOf t

section
variable {s t u : State} {ns ns' : List RegName}

theorem State.TransferKeeps.rfl : s.TransferKeeps ns s := ⟨fun _ _ => Eq.refl _, Eq.refl _⟩

theorem State.TransferKeeps.trans (h : s.TransferKeeps ns t) (h' : t.TransferKeeps ns' u) :
    s.TransferKeeps (ns ++ ns') u where
  names k hk := by
    rw [List.mem_append, not_or] at hk
    exact (h'.names k hk.2).trans (h.names k hk.1)
  rest := by
    have hu : t.withTransferOf u = s.withTransferOf u := by rw [h.rest]; rfl
    exact h'.rest.trans hu

theorem State.transferKeeps_afterRegRead (s : State) (r : Reg6) :
    s.TransferKeeps (Reg6.readNames r) (s.afterRegRead r) :=
  ⟨fun _ h => State.inspect_afterRegRead h, by cases r <;> rfl⟩

theorem State.transferKeeps_afterRegWrite (s : State) (v : Word) (r : Reg6) :
    s.TransferKeeps (s.writtenNames r) (s.afterRegWrite v r) := by
  refine ⟨fun _ h => State.inspect_afterRegWrite h v, ?_⟩
  cases r with
  | scalar c => cases c <;> rfl
  | bank | ar | pr | fi | fo0 | fo1 | prp | pwp => rfl

theorem State.transferKeeps_bufferReg (s : State) (k : SlotKind) (r : BankReg) (v : Word) :
    s.TransferKeeps [] (s.bufferReg k r v) :=
  ⟨fun k _ => State.inspect_congr (Eq.refl _) k, Eq.refl _⟩

theorem State.transferKeeps_arInc (s : State) (x : Fin 8) : s.TransferKeeps [.ar x] (s.arInc x) :=
  ⟨fun _ h => State.inspect_setAr (List.ne_of_not_mem_cons h) _, Eq.refl _⟩

theorem State.transferKeeps_afterEa1 (s : State) (x : Fin 8) (m : AddrMode) :
    s.TransferKeeps (modeNames x m) (s.afterEa1 x m) := by
  cases m with
  | postInc => exact s.transferKeeps_arInc x
  | disp12 => exact .rfl

theorem State.transferKeeps_afterLoad {bank : MemBank} {ea : Word} {p : Place} (hp : s.memLoc bank ea = .ok p) :
    s.TransferKeeps (windowNames bank ea) (s.afterLoad p) :=
  ⟨fun _ h => State.inspect_afterLoad hp h s, by cases p <;> rfl⟩

theorem State.transferKeeps_store {bank : MemBank} {ea : Word} {p : Place} (hp : s.memLoc bank ea = .ok p)
    (v : Word) : s.TransferKeeps (windowNames bank ea) (s.store v p) :=
  ⟨fun _ h => State.inspect_store hp h v, by cases p <;> rfl⟩

/-- What a register write changes rests on the PR ring's and the output FIFOs' cursors alone. -/
theorem State.writtenNames_congr (hp : t.pwp = s.pwp) (h0 : t.fo0 = s.fo0) (h1 : t.fo1 = s.fo1) (r : Reg6) :
    t.writtenNames r = s.writtenNames r := by
  cases r <;> simp [State.writtenNames, hp, h0, h1]

/-- Bank B has no window, so a sub-move on it names its address register alone (20_memory R70). -/
theorem State.subMoveNames_b (m : Option SubMove) : t.subMoveNames .b m = s.subMoveNames .b m := by
  cases m <;> rfl

theorem State.transferKeeps_subMove {bank : MemBank} {l l' : Option (BankReg × Word)} {m : Option SubMove}
    (h : s.subMove bank l m = .ok (u, l')) : s.TransferKeeps (s.subMoveNames bank m) u := by
  obtain ⟨-, rfl, -⟩ | ⟨n, p, rfl, hp, ⟨-, -, rfl⟩ | ⟨-, -, rfl⟩⟩ := State.subMove_cases h
  · exact .rfl
  · rw [← List.append_nil (s.subMoveNames ..)]
    exact ((s.transferKeeps_arInc n.arx).trans (State.transferKeeps_afterLoad hp)).trans
      (State.transferKeeps_bufferReg ..)
  · exact (s.transferKeeps_arInc n.arx).trans (State.transferKeeps_store hp _)

/-! ## The endings of a transfer that takes no fault (43_transfer R250, R251) -/

variable {i : Instr}

theorem State.unlessShort_transferKeeps {k : Host.Outcome State Fault Refusal}
    (hk : k = .next t → s.TransferKeeps ns t) (h : s.unlessShort i k = .next t) : s.TransferKeeps ns t := by
  obtain rfl | ⟨-, h⟩ := s.unlessShort_next h
  · exact .rfl
  · exact hk h

theorem State.storeAt_transferKeeps {bank : MemBank} {ea v : Word} (hu : s.TransferKeeps ns u)
    (h : u.storeAt bank ea v = .next t) : s.TransferKeeps (ns ++ windowNames bank ea) t := by
  obtain ⟨f, -, he⟩ | ⟨p, hp, he⟩ := u.storeAt_cases bank ea v <;> rw [he] at h <;> cases h
  exact hu.trans (State.transferKeeps_store hp v)

variable (ht : t.dstate ≠ .fault)
include ht

theorem State.not_raiseTransfer_next {s0 : State} : u.raiseTransfer i s0 ≠ .next t := by
  rintro ⟨⟩
  exact ht (u.raiseOp_dstate ..)

theorem State.finishReg_transferKeeps {s0 : State} {r : Reg6} {v : Word} (hu : s.TransferKeeps ns u)
    (hn : u.writtenNames r = s.writtenNames r) (h : u.finishReg i s0 r v = .next t) :
    s.TransferKeeps (ns ++ s.writtenNames r) t := by
  obtain ⟨-, he⟩ | ⟨-, he⟩ := u.finishReg_cases i s0 r v <;> rw [he] at h
  · cases h
    exact hn ▸ hu.trans (u.transferKeeps_afterRegWrite v r)
  · exact absurd h (State.not_raiseTransfer_next ht)

theorem State.loadReg_transferKeeps {s0 : State} {bank : MemBank} {ea : Word} {r : Reg6}
    (hu : s.TransferKeeps ns u) (hn : u.writtenNames r = s.writtenNames r)
    (h : u.loadReg i s0 bank ea r = .next t) :
    s.TransferKeeps (ns ++ windowNames bank ea ++ s.writtenNames r) t := by
  obtain ⟨f, -, he⟩ | ⟨p, hp, he⟩ := u.loadReg_cases i s0 bank ea r <;> rw [he] at h
  · cases h
  · have hl : (u.afterLoad p).writtenNames r = u.writtenNames r :=
      State.writtenNames_congr (by simp) (by simp) (by simp) r
    exact State.finishReg_transferKeeps ht (hu.trans (State.transferKeeps_afterLoad hp)) (hl.trans hn) h

end

/-- Every transfer op that takes no fault stays within the registers that it names. -/
theorem exec_transferKeeps {i : Instr} {s t : State} (hi : i.slot = .tr) (h : exec i s = .next t)
    (ht : t.dstate ≠ .fault) : s.TransferKeeps (s.transferNames i) t := by
  cases i with
  | tnop | dx2 => cases h; exact .rfl
  | mov src dst =>
    refine State.unlessShort_transferKeeps (fun h => ?_) h
    split at h
    · exact State.finishReg_transferKeeps ht (s.transferKeeps_afterRegRead src)
        (State.writtenNames_congr (by simp) (by simp) (by simp) dst) h
    · exact absurd h (State.not_raiseTransfer_next ht)
  | ld1 r bank m x =>
    exact State.unlessShort_transferKeeps (State.loadReg_transferKeeps ht (s.transferKeeps_afterEa1 x m)
      (State.writtenNames_congr (by simp) (by simp) (by simp) r)) h
  | ld2 =>
    exact State.unlessShort_transferKeeps (State.loadReg_transferKeeps (ns := []) ht .rfl rfl) h
  | ldi | ldn =>
    exact State.unlessShort_transferKeeps (State.finishReg_transferKeeps (ns := []) ht .rfl rfl) h
  | st1 r bank m x =>
    refine State.unlessShort_transferKeeps (fun h => ?_) h
    split at h
    · rw [State.ea1_afterRegRead] at h
      exact State.storeAt_transferKeeps
        ((s.transferKeeps_afterRegRead r).trans (State.transferKeeps_afterEa1 _ x m)) h
    · exact absurd h (State.not_raiseTransfer_next ht)
  | st2 r =>
    refine State.unlessShort_transferKeeps (fun h => ?_) h
    split at h
    · rw [State.ea_afterRegRead] at h
      exact State.storeAt_transferKeeps (s.transferKeeps_afterRegRead r) h
    · exact absurd h (State.not_raiseTransfer_next ht)
  | dx1 a b =>
    obtain ⟨u, _, _, ha, hb⟩ := exec_dx1_next h
    have hb := State.transferKeeps_subMove hb
    rw [State.subMoveNames_b (s := s)] at hb
    exact (State.transferKeeps_subMove ha).trans hb
  | nopAlu | cif | cfi | add | cmp | mnop | fmul | mul => cases hi
  | nopCtl | clrf | setm | dbcc | dbncc | djmp | dcall | dret => cases hi

/-- Settles O26: the two clauses are what the parts of a transfer keep. -/
theorem transferFrame : Obligations.TransferFrame := fun _ _ _ hi h ht =>
  have hk := exec_transferKeeps hi h ht
  ⟨hk.names, hk.rest⟩

/-! ## Immediate transfers (43_transfer R261, R262) -/

section
variable {s : State} {r : Reg6} {v : Word}

theorem exec_ldi_of_accepts (hw : s.canWrite r) (ha : regAccepts r v = true) :
    exec (.ldi r v) s = .next (s.afterRegWrite v r) := by
  have hs : s.fifoShort (.ldi r v) = false := State.fifoShort_of_served nofun fun _ h => Option.some.inj h ▸ hw
  rw [exec_ldi_of_served hs, State.finishReg_of_accepts ha]

theorem exec_ldn_of_accepts {n : BitVec 20} (hn : v = n.signExtend 32) (hw : s.canWrite r)
    (ha : regAccepts r v = true) : exec (.ldn r n) s = .next (s.afterRegWrite v r) := by
  subst hn
  have hs : s.fifoShort (.ldn r n) = false := State.fifoShort_of_served nofun fun _ h => Option.some.inj h ▸ hw
  rw [exec, execLdn, State.unlessShort_of_served _ _ hs, State.finishReg_of_accepts ha]

theorem eq_signExtend_of_toInt_eq {n : BitVec 20} (h : v.toInt = n.toInt) : v = n.signExtend 32 :=
  BitVec.eq_of_toInt_eq (h.trans (BitVec.toInt_signExtend_of_le (by decide)).symm)

theorem prPointer_eq {p : PrIndex} (h : v.toNat = p.val) : prPointer v = p := by
  simp [prPointer, h]

end

/-- Settles O21: both ops end in the same `WriteReg`. -/
theorem immediateTransferResult : Obligations.ImmediateTransferResult := by
  intro s v ldx hldx
  have hexec (r : Reg6) (hw : s.canWrite r) (ha : regAccepts r v = true) :
      exec (ldx r) s = .next (s.afterRegWrite v r) := by
    obtain rfl | ⟨n, hn, rfl⟩ := hldx
    · exact exec_ldi_of_accepts hw ha
    · exact exec_ldn_of_accepts (eq_signExtend_of_toInt_eq hn) hw ha
  have hplain (r : Reg6) (h0 : r ≠ .fo0) (h1 : r ≠ .fo1) := hexec r ⟨(absurd · h0), (absurd · h1)⟩
  have hscalar (c : Scalar) := hplain (.scalar c) nofun nofun rfl
  refine ⟨fun r => hplain _ nofun nofun rfl, fun n => hplain _ nofun nofun rfl,
    fun m => ⟨PrMode.move s.pwp m, PrMode.move_val .., hplain _ nofun nofun rfl⟩,
    hscalar .eb, hscalar .eo, hscalar .sp, hscalar .mod, hscalar .pdr, hscalar .ddr,
    fun h => ?_, fun h => ?_, fun p hp => ?_⟩
  · rw [BitVec.ofNat_toNat]
    exact hexec .fo0 ⟨fun _ => h, nofun⟩ rfl
  · rw [BitVec.ofNat_toNat]
    exact hexec .fo1 ⟨nofun, fun _ => h⟩ rfl
  · have hlt : v.toNat < 24 := hp ▸ p.isLt
    rw [← prPointer_eq hp]
    exact ⟨hplain .prp nofun nofun (decide_eq_true hlt), hplain .pwp nofun nofun (decide_eq_true hlt)⟩

end Sys2Proof.Machine
end

section
/-!
PROOFS. Where a block ends (45_dispatch R320, R321): which of its records ends it, and the terminator mark.
-/

namespace Sys2Proof.Machine

/-! ## The window of a block (45_dispatch R320) -/

/-- The records of a block that has `n` window positions left: they are there if a position is, only a delay slot
stands behind the window, and a record that can execute ends them, unless it is a delay slot, in the last position
alone. -/
def fillsWindow (n : Nat) (blk : Block) : Prop :=
  (blk = [] → n = 0) ∧ ∀ (j : Nat) (r : Record), blk[j]? = some r → r.indelay = false →
    j < n ∧ (j + 1 = blk.length → r.cannotExecute = false → j + 1 = n)

theorem fillsWindow_nil : fillsWindow 0 [] := ⟨fun _ => rfl, fun _ _ h => nomatch h⟩

theorem fillsWindow_joinRecord {n k : Nat} {r d : Record} {rest : Block} (h : fillsWindow n rest) :
    fillsWindow (n + 1) (joinRecord r d k rest) := by
  obtain ⟨hne, hrest⟩ := h
  unfold joinRecord
  split_ifs with hcr hxr
  · refine ⟨nofun, fun j q hq _ => ?_⟩
    match j with
    | 0 => cases hq; exact ⟨n.succ_pos, fun _ hx => by rw [hcr] at hx; cases hx⟩
  · refine ⟨nofun, fun j q hq hi => ?_⟩
    match j with
    | 0 => exact ⟨n.succ_pos, nofun⟩
    | 1 => cases hq; cases hi
  · refine ⟨nofun, fun j q hq hi => ?_⟩
    match j with
    | 0 => exact ⟨n.succ_pos, fun hl _ => by rw [hne (List.length_eq_zero_iff.1 (Nat.succ.inj hl).symm)]⟩
    | j + 1 =>
      obtain ⟨hj, hlast⟩ := hrest j q hq hi
      exact ⟨Nat.succ_lt_succ hj, fun hl hx => congrArg Nat.succ (hlast (Nat.succ.inj hl) hx)⟩

theorem fillsWindow_collect (p : Params) (prog : Memory) (words : Nat) (a : PcWord) (k n : Nat) :
    fillsWindow (n + 1) (collect p prog words a k n) := by
  induction n generalizing a k with
  | zero => exact fillsWindow_joinRecord fillsWindow_nil
  | succ n ih => exact fillsWindow_joinRecord (ih (a + 1) (k + 1))

/-! ## The terminator mark (45_dispatch R321) -/

theorem recordAt_term (p : Params) (prog : Memory) (words : Nat) (a : PcWord) :
    (recordAt p prog words a).term = false := by
  unfold recordAt
  split <;> rfl

theorem joinRecord_term {r d : Record} {k : Nat} {rest : Block} (hr : r.term = false) (hd : d.term = false)
    (h : ∀ q ∈ rest, q.term = false) : ∀ q ∈ joinRecord r d k rest, q.term = false := by
  unfold joinRecord
  split_ifs
  · simp [hr]
  · simp [hr, hd]
  · simpa [hr] using h

/-- Before the terminator is marked, no record has the mark. -/
theorem collect_term (p : Params) (prog : Memory) (words : Nat) (a : PcWord) (k n : Nat) :
    ∀ q ∈ collect p prog words a k n, q.term = false := by
  induction n generalizing a k with
  | zero => exact joinRecord_term (recordAt_term ..) (recordAt_term ..) (by simp)
  | succ n ih => exact joinRecord_term (recordAt_term ..) (recordAt_term ..) (ih (a + 1) (k + 1))

theorem markTerm_term {blk : Block} {k : Nat} {r : Record} (hb : ∀ q ∈ blk, q.term = false)
    (h : (markTerm blk)[k]? = some r) : r.term = true ↔ k + 1 = blk.length := by
  fun_induction markTerm blk generalizing k with
  | case1 => cases h
  | case2 q =>
    cases k with
    | zero => cases h; simp
    | succ k => cases h
  | case3 q q' rs ih =>
    obtain ⟨hq, hrs⟩ := List.forall_mem_cons.1 hb
    cases k with
    | zero => cases h; simp [hq]
    | succ k => rw [ih hrs h]; simp

/-! ## The end of a block -/

section
variable {p : Params} {prog : Memory} {words k : Nat} {a : PcWord} {r : Record}

theorem analyze_length : (analyze p prog words a).length = (collect p prog words a 0 (p.window - 1)).length := by
  rw [analyze, fillFreq_length, markTerm_length]

theorem analyze_term (h : (analyze p prog words a)[k]? = some r) :
    r.term = true ↔ k + 1 = (analyze p prog words a).length := by
  obtain ⟨q, fs, hq, rfl⟩ := fillFreq_getElem?_eq h
  rw [analyze_length]
  exact markTerm_term (r := q) (collect_term _ _ _ _ _ _) hq

theorem fillsWindow_analyze (p : Params) (prog : Memory) (words : Nat) (a : PcWord) :
    fillsWindow p.window (analyze p prog words a) := by
  have hw : p.window - 1 + 1 = p.window := Nat.sub_add_cancel (Nat.le_max_left ..)
  have ⟨hne, hc⟩ := fillsWindow_collect p prog words a 0 (p.window - 1)
  rw [hw] at hne hc
  refine ⟨fun h => hne (List.length_eq_zero_iff.1 (by rw [← analyze_length, h]; rfl)), fun j r hr hi => ?_⟩
  obtain ⟨q, fs, hq, rfl⟩ := fillFreq_getElem?_eq hr
  obtain ⟨u, t, hu, rfl⟩ := markTerm_getElem?_eq hq
  rw [analyze_length]
  exact hc j u hu hi

/-- A delay slot and a bundle that cannot execute stand last (45_dispatch R320). -/
theorem delaysMatch.ends_block {x : Bool} {blk : Block} (h : delaysMatch x blk) (hr : blk[k]? = some r)
    (hend : r.indelay = true ∨ r.cannotExecute = true) : k + 1 = blk.length := by
  induction blk generalizing x k with
  | nil => cases hr
  | cons q rs ih =>
    obtain ⟨hx, hrs⟩ := h
    cases k with
    | zero =>
      cases hr
      rw [hx] at hend
      rw [if_pos hend] at hrs
      rw [hrs]
      rfl
    | succ k =>
      split_ifs at hrs
      · subst hrs; cases hr
      · exact congrArg Nat.succ (ih hrs hr)

/-- A record is the last of its block exactly if it is a delay slot, cannot execute, or is no transfer and has the
last window position (45_dispatch R320). -/
theorem analyze_last_iff (hr : (analyze p prog words a)[k]? = some r) :
    k + 1 = (analyze p prog words a).length ↔
      r.indelay = true ∨ r.cannotExecute = true ∨ (k + 1 = p.window ∧ r.isxfer = false) := by
  have hm := delaysMatch_analyze p prog words a
  obtain ⟨-, hw⟩ := fillsWindow_analyze p prog words a
  constructor
  · intro hl
    cases hi : r.indelay with
    | true => exact .inl rfl
    | false =>
      cases hx : r.cannotExecute with
      | true => exact .inr (.inl rfl)
      | false =>
        have hxf : r.isxfer = false := by simpa [hi, hx] using hm.last hr hl.ge
        exact .inr (.inr ⟨(hw k r hr hi).2 hl hx, hxf⟩)
  · rintro (hi | hx | ⟨hk, hxf⟩)
    · exact hm.ends_block hr (.inl hi)
    · exact hm.ends_block hr (.inr hx)
    · by_contra hl
      have hlt : k + 1 < (analyze p prog words a).length := by
        have := (List.getElem?_eq_some_iff.1 hr).1
        omega
      have hq := List.getElem?_eq_getElem hlt
      have hqi := (hm.next hr hq).2.trans hxf
      exact absurd (hw (k + 1) _ hq hqi).1 (by omega)

end

/-- Settles O49: the terminator mark goes by `markTerm`, and a block ends as `Analyze` leaves its loop. -/
theorem blockTerminators : Obligations.BlockTerminators := by
  intro p prog words a0 hmax blk
  have hwin : p.window = p.blockMax := Nat.max_eq_right hmax
  have hlen : (analyze p prog words a0).length ≤ p.blockMax + 1 := by
    rw [analyze_length]
    exact (collect_length_le ..).trans (by omega)
  obtain ⟨b, hb, -, -⟩ := analyze_first p prog words a0
  refine ⟨(List.getElem?_eq_some_iff.1 hb).1, hlen, fun k r hr => ⟨analyze_term hr, ?_⟩⟩
  rw [analyze_last_iff hr, hwin, Record.cannotExecute, Bool.or_eq_true, or_assoc]

end Sys2Proof.Machine
end

section
/-!
PROOFS. The cycle budget (45_dispatch R333, R334), and what a bundle in which a slot faults leaves of it and for the
host (R336, 60_exceptions R352).
-/

namespace Sys2Proof.Machine

/-! ## A fault in a slot (45_dispatch R336, 60_exceptions R352) -/

/-- The record of the fault is what the host got back. -/
def State.faultReported (s : State) : Prop := ∃ f, s.faultRec = some f ∧ s.reply = .fault f

section
variable {s t : State} {c : Cur} {b : Record} {d : Bundle}

@[simp] theorem State.havocAll_faultReported (ls : List Loc) :
    (s.havocAll ls).faultReported ↔ s.faultReported := by
  simp [State.faultReported]

theorem State.takeFault_faultReported (k : FaultKind) (info : Option Nat) : (s.takeFault k info).faultReported :=
  ⟨_, rfl, rfl⟩

/-- An op that takes a fault does so by `Fault`. -/
theorem State.OpEnds.faultReported {i : Instr} (h : s.OpEnds i t) (hs : s.dstate ≠ .fault)
    (ht : t.dstate = .fault) : t.faultReported := by
  cases h with
  | fault u k info ls _ he => subst he; exact (State.havocAll_faultReported ls).2 (u.takeFault_faultReported k info)
  | done _ hk =>
    have hd : t.dstate = s.dstate := congrArg (·.2.1) hk.run
    exact absurd (hd.symm.trans ht) hs
  | pending u b a _ hk he =>
    have hd : u.dstate = s.dstate := congrArg (·.2.1) hk.run
    subst he
    exact absurd (hd.symm.trans ht) hs

theorem State.performSlot_faultReported {x : SlotDec} (hs : s.dstate ≠ .fault) (h : s.performSlot x = .next t)
    (ht : t.dstate = .fault) : t.faultReported := by
  cases x with
  | absent => cases h; exact absurd ht hs
  | bad k info => cases h; exact s.takeFault_faultReported k _
  | op i => exact (exec_ends h).faultReported hs ht

theorem State.runSlots_faultReported {ds : List SlotDec} (hs : s.dstate ≠ .fault) (h : s.runSlots ds = .next t)
    (ht : t.dstate = .fault) : t.faultReported := by
  induction ds generalizing s with
  | nil => cases h; exact absurd ht hs
  | cons x ds ih =>
    obtain ⟨u, hu, ⟨-, rfl⟩ | ⟨hn, hr⟩⟩ := State.runSlots_cons h
    · exact State.performSlot_faultReported hs hu ht
    · exact ih hn hr

theorem State.issue_faultReported (hs : s.dstate ≠ .fault) (h : s.issue d = .next t) (ht : t.dstate = .fault) :
    t.faultReported := by
  obtain ⟨u, hu, ⟨hf, rfl⟩ | ⟨hn, rfl⟩⟩ := State.issue_cases h
  · exact (State.havocAll_faultReported _).2 (State.runSlots_faultReported (s := s.openBundle) hs hu hf)
  · exact absurd (by simpa using ht) hn

/-! ## The cycle budget (45_dispatch R333, R334) -/

/-- In RUN a bundle leaves the budget, and ends in RUN or with the fault of a slot for the host. -/
theorem State.issue_budget (hd : s.dstate = .run) (h : s.issue d = .next t) :
    t.icount = s.icount ∧ ((t.dstate = .fault ∧ t.cur = none ∧ t.faultReported) ∨ t.dstate = .run) := by
  have hs : s.dstate ≠ .fault := by simp [hd]
  obtain ⟨hl, ⟨hf, -, hcur, -⟩ | ⟨-, -, hrun, -⟩⟩ := State.issue_ends hs h
  · exact ⟨congrArg (·.1.2.2) hl, .inl ⟨hf, hcur, State.issue_faultReported hs h hf⟩⟩
  · have hdt : t.dstate = s.dstate := congrArg (·.2.1) hrun
    exact ⟨congrArg (·.1.2.2) hl, .inr (hdt.trans hd)⟩

theorem State.issueAndAdvance_cases (h : s.issueAndAdvance c b d = .next t) :
    ∃ u, s.issue d = .next u ∧ ((u.dstate = .fault ∧ t = u) ∨ (u.dstate ≠ .fault ∧ t = u.advance c b)) := by
  unfold State.issueAndAdvance at h
  split at h
  next u hu =>
    cases h
    refine ⟨u, hu, ?_⟩
    split_ifs with hf
    · exact .inl ⟨hf, rfl⟩
    · exact .inr ⟨hf, rfl⟩
  next => cases h
  next => cases h

@[simp] theorem State.nextPc_dstate (s : State) (b : Record) : (s.nextPc b).dstate = s.dstate := by
  unfold State.nextPc
  split <;> [split; skip] <;> rfl

@[simp] theorem State.nextPc_icount (s : State) (b : Record) : (s.nextPc b).icount = s.icount := by
  unfold State.nextPc
  split <;> [split; skip] <;> rfl

theorem State.advance_of_more (h : c.idx + 1 < c.blk.length) (s : State) (b : Record) :
    s.advance c b = { s.nextPc b with cur := some ⟨c.blk, c.idx + 1⟩ } := if_pos h

/-- After its last bundle a block ends with its tail, at the next PC. -/
theorem State.advance_of_last (h : ¬c.idx + 1 < c.blk.length) (s : State) (b : Record) :
    ∃ u : State, u.dstate = s.dstate ∧ u.icount = s.icount ∧ u.cur = none ∧ s.advance c b = u.blockTail c.blk :=
  ⟨{ s.nextPc b with cur := none }, s.nextPc_dstate b, s.nextPc_icount b, rfl, if_neg h⟩

@[simp] theorem State.blockTail_cur (s : State) (blk : Block) : (s.blockTail blk).cur = s.cur := by
  unfold State.blockTail
  split_ifs <;> rfl

/-- A block is charged its declared cost. -/
theorem State.blockTail_icount (s : State) (blk : Block) :
    (s.blockTail blk).icount = s.icount - (blockCycles blk : Int) := by
  unfold State.blockTail
  split_ifs with hpos
  · rfl
  · rfl
  · omega

theorem State.blockTail_dstate (hd : s.dstate = .run) (blk : Block) :
    (s.blockTail blk).dstate = .idle ∨ (s.blockTail blk).dstate = .run := by
  unfold State.blockTail
  split_ifs
  · exact .inl rfl
  · exact .inr hd
  · exact .inr hd

/-- The run ends where the cost makes the budget negative, and the host gets the resume PC (45_dispatch R334). -/
theorem State.blockTail_outOfCycles (hd : s.dstate = .run) {blk : Block} (hpos : 0 < blockCycles blk) :
    ((s.blockTail blk).dstate = .idle ↔ (s.blockTail blk).icount < 0) ∧
      ((s.blockTail blk).icount < 0 → (s.blockTail blk).reply = .outOfCycles (s.blockTail blk).pc) := by
  unfold State.blockTail
  rw [if_pos hpos]
  split_ifs with hneg
  · exact ⟨iff_of_true rfl hneg, fun _ => rfl⟩
  · exact ⟨iff_of_false (by simp [hd]) hneg, (absurd · hneg)⟩

end

/-- Settles O54: a slot fault ends the bundle before the tail, and else the tail alone charges the block. -/
theorem budgetAtBlockTail : Obligations.BudgetAtBlockTail := by
  intro s t c b hrun he hh hstep
  obtain ⟨d, hd⟩ := State.bundle_of_checked he
  rw [State.step_issues hrun he hh hd] at hstep
  obtain ⟨u, hu, ht⟩ := State.issueAndAdvance_cases hstep
  obtain ⟨-, hds, -, -⟩ := hrun
  obtain ⟨hic, hends⟩ := State.issue_budget (s := { s with pc := b.addr }) hds hu
  have hic : u.icount = s.icount := hic
  obtain ⟨hf, rfl⟩ | ⟨hn, rfl⟩ := ht
  · obtain ⟨-, hcur, hreported⟩ := hends.resolve_right (by simp [hf])
    rw [if_pos hf]
    exact ⟨hic, hcur, hreported⟩
  have hdu : u.dstate = .run := hends.resolve_left fun h => hn h.1
  by_cases hl : c.idx + 1 < c.blk.length
  · rw [State.advance_of_more hl, if_neg (by simp [hdu]), if_pos hl]
    exact ⟨by simpa using hic, by simpa using hdu, rfl⟩
  · obtain ⟨v, hdv, hicv, hcur, hv⟩ := State.advance_of_last hl u b
    have hdv : v.dstate = .run := hdv.trans hdu
    have htail := State.blockTail_dstate hdv c.blk
    rw [hv, if_neg (by obtain h | h := htail <;> simp [h]), if_neg hl]
    refine ⟨(v.blockTail_cur _).trans hcur, ?_, State.blockTail_outOfCycles hdv, htail⟩
    rw [State.blockTail_icount, hicv, hic, blockCycles]

end Sys2Proof.Machine
end

section
/-!
PROOFS. `Reset` (45_dispatch R340, 70_reset R380 to R383), and the host's turns in FAULT (60_exceptions R352, R356).
-/

namespace Sys2Proof.Machine

/-! ## `Reset` (45_dispatch R340, 70_reset R380 to R383) -/

theorem State.inspect_reset (n : RegName) : State.reset.inspect n = 0 := by
  cases n with
  | scalar c => cases c <;> rfl
  | fifoData q | fifoRpos q | fifoWpos q | fifoNum q =>
    cases q <;> simp [State.inspect, State.getFifo, State.reset, Fifo.empty]
  | bank | ar | pr | prp | pwp | pcs | pcsp | flag | pc =>
    simp [State.inspect, State.getReg, State.getFlag, State.reset]

theorem State.inspect_resetRegisters (s : State) (n : RegName) : s.resetRegisters.inspect n = 0 :=
  (State.inspect_congr (s := State.reset) (t := s.resetRegisters) rfl n).trans (State.inspect_reset n)

/-- Settles O7: where `Reset` is admitted, it leaves the reset state but for what is no part of it. -/
theorem resetClearsEverything : Obligations.ResetClearsEverything := by
  intro s
  split
  next h =>
    exact ⟨_, admitIf_of_true (State.isStopped_iff.2 h) _, s.inspect_resetRegisters, rfl, rfl, rfl, rfl, rfl, rfl,
      rfl, rfl, rfl, rfl, rfl, rfl, rfl⟩
  next h => exact admitIf_of_false (Bool.eq_false_iff.2 fun hc => h (State.isStopped_iff.1 hc)) _

/-! ## FAULT (60_exceptions R352, R356) -/

section
variable {s t : State}

theorem State.coreTurn_of_fault (h : s.dstate = .fault) : s.coreTurn = .fault .haltedInFault := by
  simp [State.coreTurn, h]

/-- Of the host's turns only `Reset` and `Run` change the dispatch state or the fault record. -/
theorem State.hostTurn_keeps_fault {a : HostAction} (h : s.hostTurn a = .next t) (hreset : a ≠ .reset)
    (hrun : ∀ n, a ≠ .run n) : t.dstate = s.dstate ∧ t.faultRec = s.faultRec := by
  cases a with
  | reset => exact absurd rfl hreset
  | run n => exact absurd rfl (hrun n)
  | writeReg n v => obtain ⟨-, rfl⟩ := admitIf_next h; exact ⟨s.poke_dstate n v, s.poke_faultRec n v⟩
  | loadRam bank => cases bank <;> obtain ⟨-, rfl⟩ := admitIf_next h <;> exact ⟨rfl, rfl⟩
  | pushFi | popFo0 | popFo1 | readReg | invalidate | extAnswer | loadProg | setProgMapped =>
    obtain ⟨-, rfl⟩ := admitIf_next h
    exact ⟨rfl, rfl⟩

end

/-- Settles O47: `Run` is refused in FAULT, and every other turn but `Reset` keeps the record. -/
theorem faultIsTerminal : Obligations.FaultIsTerminal := by
  intro s hd
  refine ⟨State.coreTurn_of_fault hd, fun a t h => ?_⟩
  split
  next ha =>
    subst ha
    obtain ⟨-, rfl⟩ := admitIf_next h
    exact ⟨rfl, rfl⟩
  next ha =>
    have hrun (n : Nat) : a ≠ .run n := by
      rintro rfl
      obtain ⟨hidle, -, -⟩ := State.hostTurn_run h
      rw [hd] at hidle
      cases hidle
    obtain ⟨hdt, hft⟩ := State.hostTurn_keeps_fault h ha hrun
    exact ⟨hdt.trans hd, hft⟩

end Sys2Proof.Machine
end
